-- ==== Sys2Proof/Word.lean ====
section
/-! DEFINITION. The words the part exchanges with its outside: bytes and 16-bit words (R181). -/

namespace Sys2Proof

/-- One byte of a format that crosses a connection of the station (R181). -/
abbrev Byte := BitVec 8

/-- A 16-bit word: a CRC, a digest, a roll item, the attention cause word (R186, R189). -/
abbrev Half := BitVec 16

end Sys2Proof
end

