-- ==== Sys2Proof/Syntax.lean ====
section
/-! DEFINITION. The commands of the station: one constructor for each row of spec/opcode_table.json, with the
operands an event of that kind carries. -/

namespace Sys2Proof

/-- A job slot, 0 to 7 (R63). -/
abbrev Slot := Fin 8

/-- A station number, 0 to 15 (R19, 00_scope.md). -/
abbrev Station := Fin 16

/-- A region of frame memory, in the order of its codes (R42, R182). -/
inductive Region where
  | holding | bandBuffers | screenedStore | tileStore
deriving DecidableEq, Repr

/-- The port address a byte is written to (R175). -/
inductive PortAddress where
  | command | data
deriving DecidableEq, Repr

/-- One command. `corrected` is the number of reads of frame memory in that step that met a correctable error
(R41). `data` of a maintenance command is the data bytes that the port takes after the command byte in the same
step: all of them for a whole command, fewer when the rest come by DATA_BYTE_TAKEN (R176, log 11). `bytes` of a
page-line command is the byte symbols that arrive on the page line (R89). -/
inductive Instr where
  -- start-up (chapters 2 and 10)
  | reset
  | configurationReadDone (record : List Byte)
  | loadingEnded (corrected : Nat)
  -- the plant link (chapter 1)
  | linkSynchronised
  | openingStart
  | contentionRoundEnd (low : Nat)
  | bodyEnd (framed : Bool) (bytes : List Byte)
  | spoilWindowEnd (low : Bool)
  -- the Roll Unit and Station Control (chapter 2)
  | rollTimerExpiry
  | joinPeriodExpiry
  | silenceTimerExpiry (peer : Station)
  | isolationTimerExpiry
  | uncorrectableError (region : Region)
  -- the page line and the Plate Board (chapters 3 and 5)
  | plateHeader (bytes : List Byte)
  | claimWindowExpiry (place : Nat)
  | startMarker (bytes : List Byte)
  | headerFailure (bytes : List Byte)
  | fragment (bytes : List Byte)
  | plateEnd (bytes : List Byte)
  | quietTimerExpiry (slot : Slot)
  -- the Unpacker, the band ring and the Screener (chapters 6 and 7)
  | takeHeadRecord (corrected : Nat)
  | takeHeadAnew (corrected : Nat)
  | partDecoded (corrected : Nat)
  | descriptorEntersRing
  | screenerTake
  | bandFinished (corrected : Nat)
  -- the Imager (chapter 9)
  | loaded
  | loadTimeout
  | index (ticks : Nat) (corrected : Nat)
  | swathComplete (corrected : Nat)
  | drumLate
  | headReadyChange (asserted : Bool)
  | ejected
  | ejectTimeout
  | mediaOutChange (asserted : Bool)
  -- the Maintenance Port (chapter 11)
  | inputByteWrite (address : PortAddress) (byte : Byte)
  | dataByteTaken
  | unknownCommand (code : Byte)
  | dataRead
  | readStatus
  | readAttention
  | readJob (data : List Byte)
  | readBandMap (data : List Byte)
  | readDamage (data : List Byte)
  | readBoard (data : List Byte)
  | findBoard (data : List Byte)
  | readPeer (data : List Byte)
  | readLog
  | readSetting (data : List Byte)
  | readCounters (data : List Byte)
  | clearCounters
  | clearLog
  | setMask (data : List Byte)
  | clearAttention (data : List Byte)
  | release (data : List Byte)
  | drop (data : List Byte)
  | drain
  | resume
  | resetStation
deriving DecidableEq, Repr

end Sys2Proof
end

