-- ==== Sys2Proof/Decode.lean ====
section
/-! DEFINITION. Commands of this block are events on its connections. spec/opcode_table.json gives no row any
bits, so no word spells a command (log 8). -/

namespace Sys2Proof

/-- The command that a word of `nbits` bits spells by the table's bits: none, for the table gives none. -/
def decodeTableWord (_nbits _w : Nat) : Option Instr := none

end Sys2Proof
end

