-- ==== Sys2Proof/Config.lean ====
section
/-! DEFINITION. The fixed numbers of the Dabrel 7316 (00_scope.md, section 4) and the free values that the
spec leaves open. -/

namespace Sys2Proof.Config

/-- Largest value of a 32-bit count: queue age, state stamp, ready order, maintenance counts (R12, R45, R78, R178). -/
def max32 : Nat := 4294967295

/-- Largest value of a 16-bit count: the unattributed log, kind counts, damage total (R142, R144, R149). -/
def max16 : Nat := 65535

/-- Largest value of a peer record's counts (R33). -/
def max8 : Nat := 255

/-- Places of the plate board (R43). -/
def boardPlaces : Nat := 512

/-- Fragment places of the holding queue (R99). -/
def fragmentPlaces : Nat := 8192

/-- Band buffers (R106). -/
def bandBuffers : Nat := 16

/-- Screened buffers of the screened store (R129). -/
def screenedBuffers : Nat := 768

/-- Bytes of one band buffer: 256 lines of 16384 bytes (R107). -/
def bandBufferBytes : Nat := 4194304

/-- Bytes of one screened buffer: 256 lines of 16384 bits (R129). -/
def screenedBufferBytes : Nat := 524288

/-- Bytes between two lines of a band buffer, and bits between two lines of a screened buffer (R107, R129). -/
def linePitch : Nat := 16384

/-- Lines of a full band (00_scope.md, section 4). -/
def bandLines : Nat := 256

/-- Lines of a swath (R156). -/
def swathLines : Nat := 32

/-- Station clocks of 100 MHz in one millisecond (00_scope.md, section 4). -/
def clocksPerMs : Nat := 100000

/-- Bytes of the configuration record (R187). -/
def recordSize : Nat := 1048822

/-- First byte of the first tile in the configuration record (R187). -/
def tileBase : Nat := 156

/-- Bytes of one tile in the configuration record: width, height, step and a 65536-byte area (R187). -/
def tilePitch : Nat := 65541

/-- Bytes of one tile's value area (R187). -/
def tileArea : Nat := 65536

/-- First of the eight imager bytes of the configuration record (R187). -/
def imagerBase : Nat := 1048812

/-- First byte of the checksum of the configuration record (R187). -/
def checksumBase : Nat := 1048820

/-- FREE VALUE. A payload CRC byte that a cut short fragment never delivered (R89, R142): the spec asks for the
CRC 'as received' and states no value for a byte that was not. Nothing is known of it (log 5). -/
opaque freeByte : Nat → Byte

end Sys2Proof.Config
end

