-- ==== Sys2Proof/Machine/State.lean ====
section
/-! DEFINITION. The state of the station, block by block, as plain data, and the state after reset. An optional
field of the spec ('absent') is an `Option`; a field that the spec gives only to some states of a thing stands in
the constructor of those states. Times are milliseconds of the station's timebase; a running timer holds its
deadline. -/

namespace Sys2Proof.Machine

/-! ## Frame memory -/

/-- Bytes by address: addresses strictly rising, and no byte equal to 00h listed. An unlisted address reads 00h
(DESIGN CHOICE, log 7). -/
abbrev Mem := List Host.Cell

/-- The canonical form of a memory. -/
abbrev Mem.WF (m : Mem) : Prop := m.Pairwise (fun c d => c.1 < d.1) ∧ ∀ c ∈ m, c.2 ≠ 0#8

/-- The three byte regions of frame memory (00_scope.md, section 3; R106, R129, R134). The holding region is the
holding queue. -/
structure FrameMemory where
  bands    : Mem
  screened : Mem
  tiles    : Mem
deriving DecidableEq, Repr

/-! ## Names used by several blocks -/

/-- Plate separations, in the order of their codes (R182). -/
inductive Sep where
  | k | c | m | y
deriving DecidableEq, Repr

/-- Title, edition, page and separation (R43, R182). -/
structure PlateKey where
  title   : Nat
  edition : Nat
  page    : Nat
  sep     : Sep
deriving DecidableEq, Repr

/-- The five damage kinds, in the order of their codes (R140, R182). -/
inductive DamageKind where
  | check | fill | overflow | gap | format
deriving DecidableEq, Repr

/-- The outcomes of a DONE, in the order of their codes (R85, R182). -/
inductive DoneOutcome where
  | clean | tinted | superseded | dropped | wasted
deriving DecidableEq, Repr

/-- Why a job is cancelled (R64, R80). -/
inductive CancelReason where
  | superseded | dropped
deriving DecidableEq, Repr

/-- The two sorts of clearing of R27 and R166: rejoin, and halt or BARRED. -/
inductive Clearing where
  | rejoin | halt
deriving DecidableEq, Repr

/-! ## Settings (R170) -/

/-- One size class (R170). -/
structure SizeClass where
  supported : Bool
  width     : Nat
  height    : Nat
deriving DecidableEq, Repr

/-- A damage action (R146, R170). -/
inductive DamageAction where
  | tint | hold
deriving DecidableEq, Repr

/-- One fill pattern slot (R96). -/
structure FillPattern where
  enabled : Bool
  mask    : List Byte
  crc     : Half
deriving DecidableEq, Repr

/-- Width, height and step of a threshold tile (R134). Its values are in the tile store. -/
structure TileShape where
  width  : Nat
  height : Nat
  step   : Nat
deriving DecidableEq, Repr

/-- The blocks' copies of the configuration (R170, R173). -/
structure Settings where
  station      : Station
  claimWindow  : Nat
  rollPeriod   : Nat
  silenceLimit : Nat
  joinPeriod   : Nat
  quietLimit   : Nat
  classes      : List SizeClass
  curves       : List (List Nat)
  floors       : List Nat
  ceilings     : List Nat
  faultTint    : Nat
  actions      : List DamageAction
  tintLimit    : Nat
  fills        : List FillPattern
  tiles        : List TileShape
  loadTimeout  : Nat
  ejectTimeout : Nat
  prescaler    : Nat
  windowMin    : Nat
  windowMax    : Nat
  retryLimit   : Nat
deriving DecidableEq, Repr

/-- The settings before any valid load: the blocks hold 'no setting' (R173); zero in each field, DESIGN CHOICE
(log 1). -/
def Settings.unset : Settings :=
  { station := 0, claimWindow := 0, rollPeriod := 0, silenceLimit := 0, joinPeriod := 0, quietLimit := 0,
    classes := [], curves := [], floors := [], ceilings := [], faultTint := 0, actions := [], tintLimit := 0,
    fills := [], tiles := [], loadTimeout := 0, ejectTimeout := 0, prescaler := 0, windowMin := 0,
    windowMax := 0, retryLimit := 0 }

/-! ## Station Control and the Configuration Loader -/

/-- The station states, in the order of chapter 2. -/
inductive StationState where
  | loading | barred | joining | active | draining | detached | halted
deriving DecidableEq, Repr

/-- BARRED reasons, in the order of their codes (R171, R182). -/
inductive BarredReason where
  | checksum | range | curve | floorCeiling | tintGap | noClass | drumWindow | duplicateNumber
deriving DecidableEq, Repr

/-- Station Control (R19 to R28, R42). During LOADING a present halt region is a held halt. -/
structure StationControl where
  state         : StationState
  barredReason  : Option BarredReason
  haltRegion    : Option Region
  resumePending : Bool
deriving DecidableEq, Repr

/-- How far the loader has come: reading the record, loading the blocks, done (R169, R173). -/
inductive LoaderPhase where
  | reading | loadingBlocks | ended
deriving DecidableEq, Repr

/-- The validity result, in the order of its codes (R169, R182). -/
inductive Validity where
  | notChecked | valid | invalid
deriving DecidableEq, Repr

/-- The Configuration Loader (R169 to R172). `failing` is the byte offset of the failing item (R182). -/
structure Loader where
  phase    : LoaderPhase
  validity : Validity
  reason   : Option BarredReason
  failing  : Option Nat
  image    : Mem
  digest   : Option Half
deriving DecidableEq, Repr

/-! ## The Link Controller -/

/-- A plant-link message (chapter 1.3). A queued CLAIM carries no bid; it is taken at the start of each opening in
which the CLAIM is candidate (R12, R69). -/
inductive Msg where
  | join (digest : Half)
  | leave
  | roll (counter : Nat) (slot : Nat) (item : Half)
  | claim (key : PlateKey) (version : Nat) (bid : Option Nat)
  | done (key : PlateKey) (version : Nat) (outcome : DoneOutcome) (damaged : Nat) (first : Option DamageKind)
deriving DecidableEq, Repr

/-- The ten places of the outgoing queue (R11). -/
inductive Place where
  | roll
  | presence
  | slot (n : Slot)
deriving DecidableEq, Repr

/-- A message in a place (chapter 1.5). -/
structure Queued where
  msg         : Msg
  age         : Nat
  inProgress  : Bool
  withdrawal  : Bool
  replacement : Option Msg
deriving DecidableEq, Repr

/-- The winning key of an opening (R5). -/
structure WinningKey where
  rank   : Nat
  value  : Nat
  sender : Nat
deriving DecidableEq, Repr

/-- What this station is in the body and the spoil window: a receiver, the sender of the message of a place, or
the sender of a message whose queue has been emptied (R18). -/
inductive LinkRole where
  | receiver
  | sender (p : Place)
  | abandoned
deriving DecidableEq, Repr

/-- The receive state (R2, R3, R5, R18). `round c won`: the contention round after the rounds whose winning values
`won` lists; `c` is the place this station contends for. `spoil r hold heard`: the spoil window; `hold` is whether
this station holds the line in it, `heard` the good message a receiver has. `owed`: not processing, but holding
the line to the end of a spoil window owed after a halt. -/
inductive LinkPhase where
  | passive
  | synchronising
  | waiting
  | round (contender : Option Place) (won : List Nat)
  | body (role : LinkRole) (key : WinningKey)
  | spoil (role : LinkRole) (hold : Bool) (heard : Option (Station × Msg))
  | owed
deriving DecidableEq, Repr

/-- The Link Controller (chapter 1). -/
structure Link where
  roll       : Option Queued
  presence   : Option Queued
  slots      : Vector (Option Queued) 8
  ageCounter : Nat
  phase      : LinkPhase
deriving DecidableEq, Repr

/-! ## The Roll Unit -/

/-- Peer states, in the order of R33. -/
inductive PeerState where
  | absent | present | lost
deriving DecidableEq, Repr

/-- The last items heard from a peer (R30, R33). -/
structure PeerItems where
  condition    : Option Half
  bid          : Option Half
  presentMap   : Option Half
  platesOwned  : Option Half
  platesHeld   : Option Half
  damageTotal  : Option Half
  digest       : Option Half
deriving DecidableEq, Repr

/-- A peer record (R33). -/
structure Peer where
  state          : PeerState
  joining        : Bool
  lastCounter    : Option Nat
  missed         : Nat
  items          : PeerItems
  digestMismatch : Bool
  ownedMismatch  : Nat
  silence        : Option Nat
  heard          : Option Nat
deriving DecidableEq, Repr

/-- A peer record's reset values (R33). -/
def Peer.unknown : Peer :=
  { state := .absent, joining := false, lastCounter := none, missed := 0,
    items := { condition := none, bid := none, presentMap := none, platesOwned := none, platesHeld := none,
               damageTotal := none, digest := none },
    digestMismatch := false, ownedMismatch := 0, silence := none, heard := none }

/-- The Roll Unit (R21, R29, R31, R39, R40). -/
structure RollUnit where
  rollTimer      : Option Nat
  isolationTimer : Option Nat
  joinPeriod     : Option Nat
  joinSentAt     : Option Nat
  counter        : Nat
  slot           : Nat
  overflow       : Bool
  overflowMark   : Bool
  peers          : Vector Peer 16
deriving DecidableEq, Repr

/-! ## The Plate Board -/

/-- The state of a board entry with the fields that state carries (R43). -/
inductive EntryState where
  | contested (deadline : Nat)
  | owned (owner : Station)
  | untaken
  | orphaned (owner : Station)
  | done (owner : Station) (outcome : DoneOutcome) (damaged : Nat) (first : Option DamageKind)
deriving DecidableEq, Repr

/-- Size class and deadline rank, present together (R43). -/
structure HeaderInfo where
  sizeClass : Nat
  rank      : Nat
deriving DecidableEq, Repr

/-- A board entry (R43). -/
structure BoardEntry where
  key     : PlateKey
  version : Nat
  state   : EntryState
  info    : Option HeaderInfo
  stamp   : Nat
deriving DecidableEq, Repr

/-- The Plate Board (chapter 3). Entry number n of `entries` is the entry of place n. New entries fill the lowest
empty place and places are emptied only all together (R43), so the entries fill the places from 0 on. -/
structure Board where
  entries : List BoardEntry
  full    : Bool
  stamp   : Nat
deriving DecidableEq, Repr

/-! ## Job Control -/

/-- A job's standing (R64). -/
inductive Standing where
  | contending | owned
deriving DecidableEq, Repr

/-- A job's stage, with the ready order in READY and the cancel reason in CANCELLING (R64). -/
inductive Stage where
  | receiving
  | closing
  | ready (order : Nat)
  | imaging
  | held
  | cancelling (reason : CancelReason)
deriving DecidableEq, Repr

/-- Why a CLAIM in progress was asked to withdraw (R64, R71). -/
inductive WithdrawalCause where
  | window | drop
deriving DecidableEq, Repr

/-- The admission cursor (R93). -/
structure AdmissionCursor where
  band : Nat
  part : Nat
  last : Bool
deriving DecidableEq, Repr

/-- The unpack cursor (R107). -/
structure UnpackCursor where
  current  : Option Nat
  nextPart : Nat
  pixels   : Nat
  buffer   : Option Nat
deriving DecidableEq, Repr

/-- The unpack cursor at its creation (R107). -/
def UnpackCursor.empty : UnpackCursor := { current := none, nextPart := 0, pixels := 0, buffer := none }

/-- A band's state, with its screened buffer when SCREENED (R64). -/
inductive BandState where
  | awaited | decoding | queued | screening
  | screened (buffer : Nat)
deriving DecidableEq, Repr

/-- One entry of a job's band table (R64). -/
structure Band where
  state : BandState
  kind  : Option DamageKind
deriving DecidableEq, Repr

/-- The kind counts of a first-damage record (R142). -/
structure KindCounts where
  check    : Nat
  fill     : Nat
  overflow : Nat
  gap      : Nat
  format   : Nat
deriving DecidableEq, Repr

/-- The first-damage record (R142). `capture` is header bytes 1 to 8 and the two CRC bytes (R183). -/
structure FirstDamage where
  kind    : DamageKind
  band    : Nat
  part    : Option Nat
  capture : Option (List Byte)
  counts  : KindCounts
deriving DecidableEq, Repr

/-- The assessment verdict, in the order of its codes (R143, R182). -/
inductive Verdict where
  | notAssessed | clean | withinTint | heldForKind | heldForCount | released
deriving DecidableEq, Repr

/-- A job record (R64, R143). Its band count is the length of its band table. -/
structure Job where
  generation     : Nat
  standing       : Standing
  stage          : Stage
  key            : PlateKey
  version        : Nat
  sizeClass      : Nat
  screeningClass : Nat
  rank           : Nat
  endAdmitted    : Bool
  endProcessed   : Bool
  quiet          : Option Nat
  admission      : Option AdmissionCursor
  cursor         : UnpackCursor
  bands          : List Band
  screenedCount  : Nat
  damagedCount   : Nat
  firstDamage    : Option FirstDamage
  verdict        : Verdict
  retries        : Nat
  claimInProgress : Bool
  withdrawal     : Option WithdrawalCause
deriving DecidableEq, Repr

/-- Job Control (chapter 4). -/
structure JobTable where
  slots        : Vector (Option Job) 8
  generations  : Vector Nat 8
  readyCounter : Nat
deriving DecidableEq, Repr

/-! ## The Page Line Receiver -/

/-- The framing state with the bytes collected so far (R89). -/
inductive Framing where
  | hunting
  | header (got : List Byte)
  | payload (header : List Byte) (got : List Byte)
deriving DecidableEq, Repr

/-- The origin of an end marker (R99). -/
inductive EndOrigin where
  | plateEnd | quiet
deriving DecidableEq, Repr

/-- What a holding record holds beside its job (R99). `capture`: the captured header fields (R183). -/
inductive HoldingBody where
  | fragment (band : Nat) (part : Nat) (last : Bool) (payload : List Byte) (capture : List Byte)
  | endMarker (origin : EndOrigin)
deriving DecidableEq, Repr

/-- A holding record (R99). -/
structure HoldingRecord where
  slot       : Slot
  generation : Nat
  key        : PlateKey
  version    : Nat
  body       : HoldingBody
deriving DecidableEq, Repr

/-- The Page Line Receiver (chapter 5). -/
structure Receiver where
  framing : Framing
  holding : List HoldingRecord
deriving DecidableEq, Repr

/-! ## The Unpacker, the band ring and the Screener -/

/-- A band descriptor (R123). The damaged flag is set exactly when no band buffer is present. -/
structure Descriptor where
  slot   : Slot
  band   : Nat
  buffer : Option Nat
  void   : Bool
deriving DecidableEq, Repr

/-- How the Unpacker goes on after a wait for ring room (R117). `recordDone`: the head record is finished.
`judgeOn taken`: the head record is judged on, its band by the damage kind that the band table held when the record
was taken (R110); an end marker has none. -/
inductive AfterRing where
  | recordDone
  | judgeOn (taken : Option DamageKind)
deriving DecidableEq, Repr

/-- The Unpacker's work (R105). `free`: no record in work, the spec's IDLE when the holding queue is empty and
WORKING on the next head otherwise. `decoding`: WORKING on the codes of the head fragment. `waitRing d after`: the
descriptor `d` is ready, and `after` says what follows its placing (R117). -/
inductive UnpackWork where
  | free
  | decoding
  | waitBuffer
  | waitRing (descriptor : Descriptor) (after : AfterRing)
deriving DecidableEq, Repr

/-- The Unpacker: its work and the band buffer pool, lowest number first (R105, R106). -/
structure Unpacker where
  work : UnpackWork
  pool : List Nat
deriving DecidableEq, Repr

/-- One entry of the band ring (R123); pass marks 0 and 1 are false and true. -/
structure RingEntry where
  descriptor : Option Descriptor
  mark       : Bool
deriving DecidableEq, Repr

/-- The band ring (R123, R124). -/
structure Ring where
  entries      : Vector RingEntry 32
  producer     : Fin 32
  producerPass : Bool
  consumer     : Fin 32
  consumerPass : Bool
deriving DecidableEq, Repr

/-- The Screener's current band with the tile walker (R127, R135). Size class, screening class and separation are
those of the job the band was taken for: the Screener finishes the band even when that job has gone (R66, R130), and
needs them to write it (log 23). -/
structure CurrentBand where
  slot           : Slot
  generation     : Nat
  band           : Nat
  buffer         : Option Nat
  screened       : Nat
  sizeClass      : Nat
  screeningClass : Nat
  sep            : Sep
  plateLine      : Nat
  column         : Nat
  walkerRow      : Nat
  walkerCol      : Nat
deriving DecidableEq, Repr

/-- The Screener: BUSY exactly while it holds a current band (R127); the free screened buffers, lowest number
first (R129). -/
structure Screener where
  current : Option CurrentBand
  store   : List Nat
deriving DecidableEq, Repr

/-! ## The Damage Unit -/

/-- The station unattributed log (R144). -/
structure DamageLog where
  unattributed : Nat
  rawHeader    : Option (List Byte)
  late         : Nat
  stale        : Nat
  duplicate    : Nat
deriving DecidableEq, Repr

/-- The log after reset and CLEAR LOG (R145). -/
def DamageLog.empty : DamageLog := { unattributed := 0, rawHeader := none, late := 0, stale := 0, duplicate := 0 }

/-- The Damage Unit's station state (R144, R149). -/
structure DamageUnit where
  log   : DamageLog
  total : Nat
deriving DecidableEq, Repr

/-! ## The Imager -/

/-- Imager states, in the order of R152. -/
inductive ImagerState where
  | idle | loading | imaging | ejecting | fault
deriving DecidableEq, Repr

/-- Eject dispositions (R152). -/
inductive Disposition where
  | good | scrap | returned
deriving DecidableEq, Repr

/-- Imager faults, in the order of R152. -/
inductive ImagerFault where
  | drumLate | drumEarly | headLost | loadTimeout | ejectTimeout
deriving DecidableEq, Repr

/-- The job the Imager holds (R152). -/
structure HeldJob where
  slot       : Slot
  generation : Nat
deriving DecidableEq, Repr

/-- Size class, band count and swath count of the plate in hand (R152). -/
structure PlateGeometry where
  sizeClass  : Nat
  bandCount  : Nat
  swathCount : Nat
deriving DecidableEq, Repr

/-- The drum watch (R157): the down-counter, the station clocks counted into its present tick, and whether an
INDEX has been taken since LOADED. -/
structure DrumWatch where
  running   : Bool
  counter   : Nat
  clocks    : Nat
  indexSeen : Bool
deriving DecidableEq, Repr

/-- The Imager (R151, R152, R154, R160, R166). -/
structure Imager where
  state         : ImagerState
  held          : Option HeldJob
  plate         : Option PlateGeometry
  nextSwath     : Option Nat
  swathInOutput : Bool
  disposition   : Option Disposition
  pendingFault  : Option ImagerFault
  pendingCancel : Option CancelReason
  lastFault     : Option ImagerFault
  seenInactive  : Bool
  disposal      : Option Clearing
  loadTimer     : Option Nat
  ejectTimer    : Option Nat
  drum          : DrumWatch
  plateRequest  : Option Nat
  ejectLine     : Option Disposition
  swathData     : Option (List (List Bool))
  headReady     : Bool
  mediaOut      : Bool
deriving DecidableEq, Repr

/-! ## The Maintenance Port -/

/-- A command that awaits data bytes, with those collected (R176). -/
structure PendingCommand where
  code : Byte
  got  : List Byte
deriving DecidableEq, Repr

/-- The Maintenance Port (chapter 11). IN FULL, OUT FULL, COMMAND PENDING and ATTENTION are read from the fields
they report on. `lastRead` is the byte that the last read of the data address returned (model's own, log 6). -/
structure Port where
  inputByte : Option (PortAddress × Byte)
  command   : Option PendingCommand
  response  : List Byte
  ready     : Bool
  refused   : Bool
  latch     : Half
  mask      : Half
  counts    : Vector Nat 21
  lastRead  : Byte
deriving DecidableEq, Repr

/-! ## The station -/

/-- Why a command stops the station model with a fault: no command does. The spec gives every event an effect. -/
inductive Fault where
deriving DecidableEq, Repr

/-- Why a command is refused by the model. -/
inductive Refusal where
  /-- Raised by an arm of `exec` whose command has no meaning yet; safe. No arm raises it. -/
  | notModelled (mnemonic : String)
deriving DecidableEq, Repr

/-- The whole station. `pending` is the queue of commands that wait; `freeCount` numbers the free values taken so
far (log 5); `clock` counts station clocks (log 2). -/
structure State where
  pending   : List Instr
  clock     : Nat
  freeCount : Nat
  station   : StationControl
  settings  : Settings
  loader    : Loader
  link      : Link
  roll      : RollUnit
  board     : Board
  jobs      : JobTable
  receiver  : Receiver
  unpacker  : Unpacker
  ring      : Ring
  screener  : Screener
  damage    : DamageUnit
  imager    : Imager
  port      : Port
  frame     : FrameMemory
deriving DecidableEq, Repr

/-! ## Reset values, block by block -/

/-- R19, R42. -/
def StationControl.afterReset : StationControl :=
  { state := .loading, barredReason := none, haltRegion := none, resumePending := false }

/-- R169. -/
def Loader.afterReset : Loader :=
  { phase := .reading, validity := .notChecked, reason := none, failing := none, image := [], digest := none }

/-- R12, R18. -/
def Link.afterReset : Link :=
  { roll := none, presence := none, slots := Vector.replicate 8 none, ageCounter := 0, phase := .passive }

/-- R29, R31, R33, R40. -/
def RollUnit.afterReset : RollUnit :=
  { rollTimer := none, isolationTimer := none, joinPeriod := none, joinSentAt := none, counter := 0, slot := 0,
    overflow := false, overflowMark := false, peers := Vector.replicate 16 Peer.unknown }

/-- R61: all places empty, BOARD FULL clear, counter 0. -/
def Board.cleared : Board := { entries := [], full := false, stamp := 0 }

/-- R87. -/
def JobTable.afterReset : JobTable :=
  { slots := Vector.replicate 8 none, generations := Vector.replicate 8 0, readyCounter := 0 }

/-- R104. -/
def Receiver.afterReset : Receiver := { framing := .hunting, holding := [] }

/-- R122. -/
def Unpacker.cleared : Unpacker := { work := .free, pool := List.range Config.bandBuffers }

/-- R124, R139: every pass mark 1, no descriptor, indices and passes 0. -/
def Ring.cleared : Ring :=
  { entries := Vector.replicate 32 { descriptor := none, mark := true }, producer := 0, producerPass := false,
    consumer := 0, consumerPass := false }

/-- R139. -/
def Screener.cleared : Screener := { current := none, store := List.range Config.screenedBuffers }

/-- R145, R150. -/
def DamageUnit.afterReset : DamageUnit := { log := DamageLog.empty, total := 0 }

/-- R157, R139: stopped. The value of a stopped counter is not stated: 0, DESIGN CHOICE (log 1). -/
def DrumWatch.stopped : DrumWatch := { running := false, counter := 0, clocks := 0, indexSeen := false }

/-- R151, R152. The received lines are taken as not asserted, DESIGN CHOICE (log 1). -/
def Imager.afterReset : Imager :=
  { state := .idle, held := none, plate := none, nextSwath := none, swathInOutput := false, disposition := none,
    pendingFault := none, pendingCancel := none, lastFault := none, seenInactive := false, disposal := none,
    loadTimer := none, ejectTimer := none, drum := DrumWatch.stopped, plateRequest := none, ejectLine := none,
    swathData := none, headReady := false, mediaOut := false }

/-- R175, R178, R180. -/
def Port.afterReset : Port :=
  { inputByte := none, command := none, response := [], ready := true, refused := false, latch := 0#16,
    mask := 0xFFFF#16, counts := Vector.replicate 21 0, lastRead := 0#8 }

/-- The machine right after reset (R19): LOADING, every block at its reset values, nothing waiting. -/
def State.reset : State :=
  { pending := [], clock := 0, freeCount := 0, station := StationControl.afterReset, settings := Settings.unset,
    loader := Loader.afterReset, link := Link.afterReset, roll := RollUnit.afterReset, board := Board.cleared,
    jobs := JobTable.afterReset, receiver := Receiver.afterReset, unpacker := Unpacker.cleared,
    ring := Ring.cleared, screener := Screener.cleared, damage := DamageUnit.afterReset,
    imager := Imager.afterReset, port := Port.afterReset, frame := { bands := [], screened := [], tiles := [] } }

end Sys2Proof.Machine
end

