-- ==== Sys2Proof/Machine/Operands.lean ====
section
/-! DEFINITION. The byte formats of chapter 12: numbers, codes, the nibble check and the CRC-16, page-line headers,
plant-link bodies, run codes and the fields of maintenance responses. -/

namespace Sys2Proof.Machine

/-! ## Numbers (R181) -/

/-- A number in one byte. -/
def byteOf (n : Nat) : Byte := BitVec.ofNat 8 n

/-- A number in two bytes, most significant first. -/
def bytes16 (n : Nat) : List Byte := [byteOf (n / 256), byteOf n]

/-- A number in four bytes, most significant first. -/
def bytes32 (n : Nat) : List Byte := [byteOf (n / 16777216), byteOf (n / 65536), byteOf (n / 256), byteOf n]

/-- The number that two bytes give. -/
def nat16 (hi lo : Byte) : Nat := hi.toNat * 256 + lo.toNat

/-- The 16-bit word that two bytes give. -/
def half (hi lo : Byte) : Half := BitVec.ofNat 16 (nat16 hi lo)

/-- The byte at a position; 00h past the end. -/
def byteAt (bs : List Byte) (i : Nat) : Byte := bs.getD i 0#8

/-! ## Codes (R182) -/

/-- Separation codes K 0, C 1, M 2, Y 3. -/
def Sep.code : Sep → Nat
  | .k => 0 | .c => 1 | .m => 2 | .y => 3

/-- The separation of a nibble; a nibble above 3 is out of range (R188). -/
def Sep.ofCode : Nat → Option Sep
  | 0 => some .k | 1 => some .c | 2 => some .m | 3 => some .y | _ => none

/-- Damage kind codes; absent is 00h. -/
def DamageKind.code : DamageKind → Nat
  | .check => 1 | .fill => 2 | .overflow => 3 | .gap => 4 | .format => 5

/-- The damage kind of a code 01h to 05h. -/
def DamageKind.ofCode : Nat → Option DamageKind
  | 1 => some .check | 2 => some .fill | 3 => some .overflow | 4 => some .gap | 5 => some .format | _ => none

/-- The code of an optional damage kind. -/
def kindCode (k : Option DamageKind) : Nat := (k.map DamageKind.code).getD 0

/-- DONE outcome codes. -/
def DoneOutcome.code : DoneOutcome → Nat
  | .clean => 1 | .tinted => 2 | .superseded => 3 | .dropped => 4 | .wasted => 5

/-- The outcome of a code. -/
def DoneOutcome.ofCode : Nat → Option DoneOutcome
  | 1 => some .clean | 2 => some .tinted | 3 => some .superseded | 4 => some .dropped | 5 => some .wasted
  | _ => none

/-- Position in the list of chapter 2.1. -/
def StationState.code : StationState → Nat
  | .loading => 0 | .barred => 1 | .joining => 2 | .active => 3 | .draining => 4 | .detached => 5 | .halted => 6

/-- Barred reason codes. -/
def BarredReason.code : BarredReason → Nat
  | .checksum => 0 | .range => 1 | .curve => 2 | .floorCeiling => 3 | .tintGap => 4 | .noClass => 5
  | .drumWindow => 6 | .duplicateNumber => 7

/-- Validity result codes. -/
def Validity.code : Validity → Nat
  | .notChecked => 0 | .valid => 1 | .invalid => 2

/-- Halt region codes. -/
def regionCode : Region → Nat
  | .holding => 0 | .bandBuffers => 1 | .screenedStore => 2 | .tileStore => 3

/-- Verdict codes. -/
def Verdict.code : Verdict → Nat
  | .notAssessed => 0 | .clean => 1 | .withinTint => 2 | .heldForKind => 3 | .heldForCount => 4 | .released => 5

/-- Band state codes. -/
def BandState.code : BandState → Nat
  | .awaited => 0 | .decoding => 1 | .queued => 2 | .screening => 3 | .screened _ => 4

/-- Position in the list of R43. -/
def EntryState.code : EntryState → Nat
  | .contested _ => 0 | .owned _ => 1 | .untaken => 2 | .orphaned _ => 3 | .done _ _ _ _ => 4

/-- Position in the list of R33. -/
def PeerState.code : PeerState → Nat
  | .absent => 0 | .present => 1 | .lost => 2

/-- Position in the list of R64. -/
def Standing.code : Standing → Nat
  | .contending => 0 | .owned => 1

/-- Position in the list of R64. -/
def Stage.code : Stage → Nat
  | .receiving => 0 | .closing => 1 | .ready _ => 2 | .imaging => 3 | .held => 4 | .cancelling _ => 5

/-- Position in the list of R64. -/
def CancelReason.code : CancelReason → Nat
  | .superseded => 0 | .dropped => 1

/-- Position in the list of R64. -/
def WithdrawalCause.code : WithdrawalCause → Nat
  | .window => 0 | .drop => 1

/-- Position in the list of R152. -/
def ImagerState.code : ImagerState → Nat
  | .idle => 0 | .loading => 1 | .imaging => 2 | .ejecting => 3 | .fault => 4

/-- Position in the list of R152. -/
def ImagerFault.code : ImagerFault → Nat
  | .drumLate => 0 | .drumEarly => 1 | .headLost => 2 | .loadTimeout => 3 | .ejectTimeout => 4

/-! ## Plate keys (R182) -/

/-- The three bytes of a plate key. -/
def PlateKey.encode (k : PlateKey) : List Byte :=
  [byteOf (k.title * 16 + k.sep.code), byteOf k.edition, byteOf k.page]

/-- The plate key of three bytes, when every field lies in its range (R90, R188). -/
def decodeKey (b0 b1 b2 : Byte) : Option PlateKey :=
  (Sep.ofCode (b0.toNat % 16)).bind fun sep =>
    if b1.toNat ≤ 63 ∧ 1 ≤ b2.toNat then
      some { title := b0.toNat / 16, edition := b1.toNat, page := b2.toNat, sep := sep }
    else none

/-! ## Checks (R188, R189) -/

/-- The sum of the even-numbered nibbles and of the odd-numbered ones. -/
def nibbleSums : List Byte → Nat × Nat
  | [] => (0, 0)
  | b :: bs => ((nibbleSums bs).1 + b.toNat / 16, (nibbleSums bs).2 + b.toNat % 16)

/-- The nibble check byte over the bytes before it: the sum of the nibbles and their alternating sum, each modulo
16 (R188). -/
def nibbleCheck (bs : List Byte) : Byte :=
  let e := (nibbleSums bs).1
  let o := (nibbleSums bs).2
  byteOf ((e + o) % 16 * 16 + (e + 16 * o - o) % 16)

/-- A header or body whose last byte is the nibble check of the others. -/
def checked (bs : List Byte) : Bool := bs.getLast? == some (nibbleCheck bs.dropLast)

/-- One bit into the CRC register (R189). -/
def crcBit (r : Half) (bit : Bool) : Half :=
  if (r.getLsbD 15) != bit then (r <<< 1) ^^^ 0x1021#16 else r <<< 1

/-- One byte into the CRC register, bit 7 first (R189). -/
def crcByte (r : Half) (b : Byte) : Half :=
  [7, 6, 5, 4, 3, 2, 1, 0].foldl (fun r k => crcBit r (b.getLsbD k)) r

/-- The CRC-16 (R189). -/
def crc16 (bs : List Byte) : Half := bs.foldl crcByte 0xFFFF#16

/-! ## Page-line headers (R183, R90) -/

/-- The header length of a kind byte; none where the byte names no kind. -/
def headerLength (kind : Byte) : Option Nat :=
  if kind = 0x01#8 then some 8 else if kind = 0x02#8 then some 10 else if kind = 0x03#8 then some 6 else none

/-- A page-line header with its fields. -/
inductive Header where
  | plate (key : PlateKey) (version : Nat) (sizeClass : Nat) (screeningClass : Nat) (rank : Nat)
  | fragment (key : PlateKey) (version : Nat) (band : Nat) (part : Nat) (last : Bool) (length : Nat)
  | plateEnd (key : PlateKey) (version : Nat)
deriving DecidableEq, Repr

/-- The fields of a whole header, when every field lies in its range (R90, second step). -/
def headerFields (bs : List Byte) : Option Header :=
  let key := decodeKey (byteAt bs 1) (byteAt bs 2) (byteAt bs 3)
  let version := (byteAt bs 4).toNat
  if byteAt bs 0 = 0x01#8 then
    key.bind fun key =>
      let size := (byteAt bs 5).toNat / 16
      let screen := (byteAt bs 5).toNat % 16
      let rank := (byteAt bs 6).toNat
      if size ≤ 3 ∧ screen ≤ 3 ∧ rank ≤ 7 then some (.plate key version size screen rank) else none
  else if byteAt bs 0 = 0x02#8 then
    key.bind fun key =>
      let band := (byteAt bs 5).toNat
      let part := (byteAt bs 6).toNat % 128
      let last := (byteAt bs 6).getLsbD 7
      let length := nat16 (byteAt bs 7) (byteAt bs 8)
      if band ≤ 95 ∧ part ≤ 15 ∧ length ≤ 4096 then some (.fragment key version band part last length) else none
  else if byteAt bs 0 = 0x03#8 then key.map fun key => .plateEnd key version
  else none

/-- A whole header judged: the nibble check and then the ranges (R90). None is a header failure. -/
def judgeHeader (bs : List Byte) : Option Header := if checked bs then headerFields bs else none

/-- The raw header of an unattributed report: at most 16 bytes, the rest 00h (R90). -/
def rawHeader (got : List Byte) : List Byte := got.take 16 ++ List.replicate (16 - got.length) 0#8

/-- The bytes of a header with its nibble check (R183). -/
def Header.encode : Header → List Byte
  | .plate key version size screen rank =>
    let bs := 0x01#8 :: key.encode ++ [byteOf version, byteOf (size * 16 + screen), byteOf rank]
    bs ++ [nibbleCheck bs]
  | .fragment key version band part last length =>
    let bs := 0x02#8 :: key.encode ++
      [byteOf version, byteOf band, byteOf ((if last then 128 else 0) + part), byteOf (length / 256), byteOf length]
    bs ++ [nibbleCheck bs]
  | .plateEnd key version =>
    let bs := 0x03#8 :: key.encode ++ [byteOf version]
    bs ++ [nibbleCheck bs]

/-! ## Plant-link bodies (R184, R7) -/

/-- The kind byte of a message. -/
def Msg.kindByte : Msg → Byte
  | .join _ => 0x11#8
  | .leave => 0x12#8
  | .roll _ _ _ => 0x13#8
  | .claim _ _ _ => 0x14#8
  | .done _ _ _ _ _ => 0x15#8

/-- The fields of a message after kind and sender. A CLAIM sent has its bid (R12). -/
def Msg.fields : Msg → List Byte
  | .join digest => bytes16 digest.toNat
  | .leave => []
  | .roll counter slot item => byteOf (counter * 16 + slot) :: bytes16 item.toNat
  | .claim key version bid => key.encode ++ [byteOf version, byteOf (bid.getD 0)]
  | .done key version outcome damaged first =>
    key.encode ++ [byteOf version, byteOf outcome.code, byteOf damaged, byteOf (kindCode first)]

/-- The body that a station sends (R6, R184). -/
def encodeBody (sender : Station) (m : Msg) : List Byte :=
  let bs := m.kindByte :: byteOf sender.val :: m.fields
  bs ++ [nibbleCheck bs]

/-- Body length by kind byte; none where the byte names no kind (R184). -/
def bodyLength (kind : Byte) : Option Nat :=
  if kind = 0x11#8 then some 5 else if kind = 0x12#8 then some 3 else if kind = 0x13#8 then some 6
  else if kind = 0x14#8 then some 8 else if kind = 0x15#8 then some 10 else none

/-- A DONE's first damage kind against its count: present exactly when the count is at least 1 (R7). -/
def firstKindOf (damaged : Nat) (code : Nat) : Option (Option DamageKind) :=
  if damaged = 0 then (if code = 0 then some none else none) else (DamageKind.ofCode code).map some

/-- The fields of a body whose kind is known and whose length is right, when all are in range (R7). -/
def bodyFields (bs : List Byte) : Option Msg :=
  let key := decodeKey (byteAt bs 2) (byteAt bs 3) (byteAt bs 4)
  let version := (byteAt bs 5).toNat
  if byteAt bs 0 = 0x11#8 then some (.join (half (byteAt bs 2) (byteAt bs 3)))
  else if byteAt bs 0 = 0x12#8 then some .leave
  else if byteAt bs 0 = 0x13#8 then
    let slot := (byteAt bs 2).toNat % 16
    if slot ≤ 11 then some (.roll ((byteAt bs 2).toNat / 16) slot (half (byteAt bs 3) (byteAt bs 4))) else none
  else if byteAt bs 0 = 0x14#8 then
    key.bind fun key =>
      let bid := (byteAt bs 6).toNat
      if bid ≤ 63 then some (.claim key version (some bid)) else none
  else if byteAt bs 0 = 0x15#8 then
    key.bind fun key => (DoneOutcome.ofCode (byteAt bs 6).toNat).bind fun outcome =>
      let damaged := (byteAt bs 7).toNat
      if damaged ≤ 96 then
        (firstKindOf damaged (byteAt bs 8).toNat).map fun first => .done key version outcome damaged first
      else none
  else none

/-- A message's rank (R4): 3 for DONE, 2 for CLAIM, 1 for JOIN and LEAVE, 0 for ROLL. -/
def Msg.rank : Msg → Nat
  | .done _ _ _ _ _ => 3
  | .claim _ _ _ => 2
  | .join _ | .leave => 1
  | .roll _ _ _ => 0

/-- A message's contention value (R4): the bid for a CLAIM, 0 for every other kind. -/
def Msg.value : Msg → Nat
  | .claim _ _ bid => bid.getD 0
  | .done _ _ _ _ _ | .join _ | .leave | .roll _ _ _ => 0

/-- A received body judged against the winning key (R7). None is a bad body. -/
def judgeBody (key : WinningKey) (framed : Bool) (bs : List Byte) : Option (Station × Msg) :=
  if framed && decide (bodyLength (byteAt bs 0) = some bs.length) && checked bs then
    (bodyFields bs).bind fun m =>
      let sender := (byteAt bs 1).toNat
      if h : sender < 16 then
        if m.rank = key.rank ∧ m.value = key.value ∧ sender = key.sender then some (⟨sender, h⟩, m) else none
      else none
  else none

/-! ## Run codes (R113, R185) -/

/-- The five valid kinds of run code; the tone bytes stand with the two kinds that carry them. -/
inductive Run where
  | blank
  | solid
  | toneRun (tone : Byte)
  | toneList (tones : List Byte)
  | copyAbove
deriving DecidableEq, Repr

/-- One run code read from the front of a payload: the run, its length and the bytes after it. None where the code
is invalid, is cut off at the end of the part, or has an extended length under 32 (R115). -/
def readRun : List Byte → Option (Run × Nat × List Byte)
  | [] => none
  | c :: rest =>
    let field := c.toNat % 32
    let extended : Option (Nat × List Byte) :=
      if field = 31 then
        match rest with
        | hi :: lo :: rest => if 32 ≤ nat16 hi lo then some (nat16 hi lo, rest) else none
        | _ => none
      else some (field + 1, rest)
    extended.bind fun x =>
      let n := x.1
      let rest := x.2
      match c.toNat / 32 with
      | 0 => some (.blank, n, rest)
      | 1 => some (.solid, n, rest)
      | 2 => match rest with
        | t :: rest => some (.toneRun t, n, rest)
        | [] => none
      | 3 => if n ≤ rest.length then some (.toneList (rest.take n), n, rest.drop n) else none
      | 4 => some (.copyAbove, n, rest)
      | _ => none

/-! ## Fields of maintenance responses (R182) -/

/-- A flag byte: clear 00h, set 01h. -/
def flagByte (b : Bool) : Byte := if b then 0x01#8 else 0x00#8

/-- An optional field of one byte: its flag and its byte, 00h when absent. -/
def opt8 (o : Option Nat) : List Byte := [flagByte o.isSome, byteOf (o.getD 0)]

/-- An optional field of two bytes. -/
def opt16 (o : Option Nat) : List Byte := flagByte o.isSome :: bytes16 (o.getD 0)

/-- An optional field of four bytes. -/
def opt32 (o : Option Nat) : List Byte := flagByte o.isSome :: bytes32 (o.getD 0)

/-- A time in four bytes of milliseconds, stopping at 4294967295. -/
def timeBytes (n : Nat) : List Byte := bytes32 (min n Config.max32)

/-- A failing item: a byte offset in three bytes, with its flag. -/
def failingBytes (o : Option Nat) : List Byte :=
  [flagByte o.isSome, byteOf (o.getD 0 / 65536), byteOf (o.getD 0 / 256), byteOf (o.getD 0)]

end Sys2Proof.Machine
end

