-- ==== Sys2Proof/Machine/Ops.lean ====
section
/-! DEFINITION. The operations that several blocks share: updates of the state, frame memory, time, attention
causes and counts, access to the job table, the band buffer pool, the screened store and the band ring. -/

namespace Sys2Proof.Machine

/-! ## Updates -/

/-- The station with another `pending`. -/
def State.setPending (s : State) (x : List Instr) : State := { s with pending := x }

/-- The station with another `clock`. -/
def State.setClock (s : State) (x : Nat) : State := { s with clock := x }

/-- The station with another `freeCount`. -/
def State.setFreeCount (s : State) (x : Nat) : State := { s with freeCount := x }

/-- The station with another `station`. -/
def State.setStation (s : State) (x : StationControl) : State := { s with station := x }

/-- The station with another `settings`. -/
def State.setSettings (s : State) (x : Settings) : State := { s with settings := x }

/-- The station with another `loader`. -/
def State.setLoader (s : State) (x : Loader) : State := { s with loader := x }

/-- The station with another `link`. -/
def State.setLink (s : State) (x : Link) : State := { s with link := x }

/-- The station with another `roll`. -/
def State.setRoll (s : State) (x : RollUnit) : State := { s with roll := x }

/-- The station with another `board`. -/
def State.setBoard (s : State) (x : Board) : State := { s with board := x }

/-- The station with another `jobs`. -/
def State.setJobs (s : State) (x : JobTable) : State := { s with jobs := x }

/-- The station with another `receiver`. -/
def State.setReceiver (s : State) (x : Receiver) : State := { s with receiver := x }

/-- The station with another `unpacker`. -/
def State.setUnpacker (s : State) (x : Unpacker) : State := { s with unpacker := x }

/-- The station with another `ring`. -/
def State.setRing (s : State) (x : Ring) : State := { s with ring := x }

/-- The station with another `screener`. -/
def State.setScreener (s : State) (x : Screener) : State := { s with screener := x }

/-- The station with another `damage`. -/
def State.setDamage (s : State) (x : DamageUnit) : State := { s with damage := x }

/-- The station with another `imager`. -/
def State.setImager (s : State) (x : Imager) : State := { s with imager := x }

/-- The station with another `port`. -/
def State.setPort (s : State) (x : Port) : State := { s with port := x }

/-- The station with another `frame`. -/
def State.setFrame (s : State) (x : FrameMemory) : State := { s with frame := x }

/-! ## Byte memories -/

/-- The byte at an address; 00h where none is listed (log 7). -/
def Mem.read : Mem → Nat → Byte
  | [], _ => 0#8
  | (a', b') :: m, a => if a = a' then b' else Mem.read m a

/-- A memory with one byte written. Writing 00h removes the entry, so the canonical form stands. -/
def Mem.write : Mem → Nat → Byte → Mem
  | [], a, b => if b = 0#8 then [] else [(a, b)]
  | (a', b') :: m, a, b =>
    if a < a' then (if b = 0#8 then (a', b') :: m else (a, b) :: (a', b') :: m)
    else if a = a' then (if b = 0#8 then m else (a, b) :: m)
    else (a', b') :: Mem.write m a b

/-- Successive bytes written from an address on. -/
def Mem.writeList : Mem → Nat → List Byte → Mem
  | m, _, [] => m
  | m, a, b :: bs => Mem.writeList (m.write a b) (a + 1) bs

/-- Successive bytes read from an address on. -/
def Mem.readList (m : Mem) (a n : Nat) : List Byte := (List.range n).map fun i => m.read (a + i)

/-- Two bytes, most significant first (R181). -/
def Mem.read16 (m : Mem) (a : Nat) : Nat := (m.read a).toNat * 256 + (m.read (a + 1)).toNat

/-- Byte of band buffer `buffer` for column `x` of line `l` (R107). -/
def bandAddress (buffer l x : Nat) : Nat := buffer * Config.bandBufferBytes + l * Config.linePitch + x

/-- Byte of screened buffer `buffer` that holds the bit of column `x` of line `l` (R129); within it the column's
bit is bit 7 - x mod 8 (DESIGN CHOICE, log 7: no connection shows the order of bits in frame memory). -/
def screenedAddress (buffer l x : Nat) : Nat :=
  buffer * Config.screenedBufferBytes + (l * Config.linePitch + x) / 8

/-- The bit of column `x` of line `l` of a screened buffer (R129). -/
def Mem.readDot (m : Mem) (buffer l x : Nat) : Bool := (m.read (screenedAddress buffer l x)).getLsbD (7 - x % 8)

/-- A byte with one bit set or cleared. -/
def withBit (b : Byte) (k : Nat) (v : Bool) : Byte :=
  if v then b ||| (1#8 <<< k) else b &&& ~~~(1#8 <<< k)

/-- One bit of a screened buffer written (R131). -/
def Mem.writeDot (m : Mem) (buffer l x : Nat) (v : Bool) : Mem :=
  let a := screenedAddress buffer l x
  m.write a (withBit (m.read a) (7 - x % 8) v)

/-! ## Time -/

/-- The station's millisecond timebase (R49, log 2). -/
def State.now (s : State) : Nat := s.clock / Config.clocksPerMs

/-- `n` station clocks pass at the drum watch: a running counter counts down one for each whole tick of
`prescaler` clocks, down to 0 (R157). -/
def DrumWatch.count (d : DrumWatch) (prescaler n : Nat) : DrumWatch :=
  { d with
    counter := if d.running then d.counter - (d.clocks + n) / prescaler else d.counter
    clocks := if d.running then (d.clocks + n) % prescaler else d.clocks }

/-- `n` station clocks pass (log 2). -/
def State.elapse (s : State) (n : Nat) : State :=
  (s.setClock (s.clock + n)).setImager
    { s.imager with drum := s.imager.drum.count s.settings.prescaler n }

/-- A timer's deadline has come: the timebase stands at the deadline, or where it stood if it is past it (log 2). -/
def State.advanceTo (s : State) (deadline : Nat) : State :=
  if s.clock < deadline * Config.clocksPerMs then s.elapse (deadline * Config.clocksPerMs - s.clock) else s

/-! ## Station states -/

/-- JOINING, ACTIVE or DRAINING: the states in which the station takes part in the plant (chapter 2.1). -/
def StationState.running : StationState → Bool
  | .joining | .active | .draining => true
  | .loading | .barred | .detached | .halted => false

/-- Whether the station is JOINING, ACTIVE or DRAINING. -/
def State.running (s : State) : Bool := s.station.state.running

/-- The station with another station state. -/
def State.enter (s : State) (x : StationState) : State := s.setStation { s.station with state := x }

/-! ## Attention causes and counts -/

/-- The 16 attention causes (R180, R186). -/
inductive Cause where
  | untaken | orphaned | held | wasted
  | peerLost | peerJoined | digestMismatch | rejoined
  | headFault | mediaOut | drainComplete
  | holdingOverflow | boardFull | unattributed
  | halted | barred
deriving DecidableEq, Repr

/-- The bit of a cause in the attention cause word (R186). -/
def Cause.bit : Cause → Nat
  | .untaken => 0 | .orphaned => 1 | .held => 2 | .wasted => 3
  | .peerLost => 4 | .peerJoined => 5 | .digestMismatch => 6 | .rejoined => 7
  | .headFault => 8 | .mediaOut => 9 | .drainComplete => 10
  | .holdingOverflow => 11 | .boardFull => 12 | .unattributed => 13
  | .halted => 14 | .barred => 15

/-- A cause is latched, masked or not; one already latched stays so (R180). -/
def State.latch (s : State) (c : Cause) : State :=
  s.setPort { s.port with latch := s.port.latch ||| (1#16 <<< c.bit) }

/-- The 21 counts of READ COUNTERS (R178). -/
inductive Count where
  | sent | taken | spoiled | spoiledHere
  | corrected | uncorrected
  | headersIgnored | boardAnomaly | unrecorded
  | admitted | passedOver | quietEnds
  | bandsDecoded | partsDiscarded
  | imaged | scrapped | returned | imagerFaults | lineIgnored
  | overrun | strayData
deriving DecidableEq, Repr

/-- The number of a count (R178). -/
def Count.number : Count → Fin 21
  | .sent => 0 | .taken => 1 | .spoiled => 2 | .spoiledHere => 3
  | .corrected => 4 | .uncorrected => 5
  | .headersIgnored => 6 | .boardAnomaly => 7 | .unrecorded => 8
  | .admitted => 9 | .passedOver => 10 | .quietEnds => 11
  | .bandsDecoded => 12 | .partsDiscarded => 13
  | .imaged => 14 | .scrapped => 15 | .returned => 16 | .imagerFaults => 17 | .lineIgnored => 18
  | .overrun => 19 | .strayData => 20

/-- A count raised by `k`, stopping at its largest value. -/
def saturate (limit n k : Nat) : Nat := min (n + k) limit

/-- A maintenance count raised by `k` (R178). -/
def State.raiseBy (s : State) (c : Count) (k : Nat) : State :=
  s.setPort { s.port with counts := s.port.counts.set c.number (saturate Config.max32 s.port.counts[c.number] k) }

/-- A maintenance count raised by one (R178). -/
def State.raise (s : State) (c : Count) : State := s.raiseBy c 1

/-! ## The job table -/

/-- All slots, lowest first. -/
def allSlots : List Slot := List.finRange 8

/-- The live job of a slot (R63). -/
def State.job (s : State) (n : Slot) : Option Job := s.jobs.slots[n]

/-- A slot's job written. -/
def State.setJob (s : State) (n : Slot) (j : Option Job) : State :=
  s.setJobs { s.jobs with slots := s.jobs.slots.set n j }

/-- A slot's live job changed; nothing where the slot holds none. -/
def State.modifyJob (s : State) (n : Slot) (f : Job → Job) : State := s.setJob n ((s.job n).map f)

/-- A job's band count (R64). -/
def Job.bandCount (j : Job) : Nat := j.bands.length

/-- The table holds at least one live job (R63). -/
def State.anyJob (s : State) : Bool := allSlots.any fun n => (s.job n).isSome

/-- A slot is free for contention: no live job and an empty place in the outgoing queue (R11, R63). -/
def State.slotFree (s : State) (n : Slot) : Bool := (s.job n).isNone && s.link.slots[n].isNone

/-- The free slots, lowest first (R63). -/
def State.freeSlots (s : State) : List Slot := allSlots.filter s.slotFree

/-- The screened buffers that live jobs have reserved (R66). -/
def State.reserved (s : State) : Nat := (allSlots.map fun n => ((s.job n).map Job.bandCount).getD 0).sum

/-- The unreserved count: 768 less the band counts of the live jobs (R66). -/
def State.unreserved (s : State) : Nat := Config.screenedBuffers - s.reserved

/-- The bid (R67): slot figure times 8 plus store figure, each limited to 7. -/
def State.bid (s : State) : Nat := min 7 s.freeSlots.length * 8 + min 7 (s.unreserved / 96)

/-- The lowest slot whose live job has this key and version. At most one has (R68). -/
def State.jobFor (s : State) (key : PlateKey) (version : Nat) : Option Slot :=
  allSlots.find? fun n => (s.job n).any fun j => decide (j.key = key ∧ j.version = version)

/-- One band of a job's band table. A band that the plate does not have is never AWAITED: it reads as one that is
already QUEUED (DESIGN CHOICE, log 25). -/
def Job.band (j : Job) (b : Nat) : Band := j.bands.getD b { state := .queued, kind := none }

/-- A job with one band of its table changed. -/
def Job.modifyBand (j : Job) (b : Nat) (f : Band → Band) : Job := { j with bands := j.bands.modify b f }

/-- A size class's settings; an absent class reads as unsupported. -/
def Settings.sizeClass (c : Settings) (n : Nat) : SizeClass :=
  c.classes.getD n { supported := false, width := 0, height := 0 }

/-- Bands of a plate height: the height divided by 256, rounded up (R64). -/
def bandsOfHeight (h : Nat) : Nat := (h + 255) / 256

/-- Lines of band `b` of a plate `h` lines high (R107). -/
def bandLinesOf (h b : Nat) : Nat := min Config.bandLines (h - Config.bandLines * b)

/-! ## Band buffers and screened buffers -/

/-- A number put into a rising list, once. -/
def insertSorted : List Nat → Nat → List Nat
  | [], n => [n]
  | m :: ms, n => if n < m then n :: m :: ms else if n = m then m :: ms else m :: insertSorted ms n

/-- A band buffer, if there is one, returns to the pool (R106). -/
def State.returnBuffer (s : State) (b : Option Nat) : State :=
  s.setUnpacker { s.unpacker with pool := (b.map (insertSorted s.unpacker.pool)).getD s.unpacker.pool }

/-- A screened buffer returns to the store (R129). -/
def State.returnScreened (s : State) (b : Nat) : State :=
  s.setScreener { s.screener with store := insertSorted s.screener.store b }

/-- The screened buffers of a job's SCREENED bands (R129). -/
def Job.screenedBuffers (j : Job) : List Nat :=
  j.bands.filterMap fun b => match b.state with
    | .screened n => some n
    | _ => none

/-! ## The band ring -/

/-- The entry belongs to the Screener: its mark is the pass the Screener holds on next reaching it (R124). -/
def Ring.owns (r : Ring) (i : Fin 32) : Bool :=
  r.entries[i].mark == (if r.consumer ≤ i then r.consumerPass else !r.consumerPass)

/-- R124. -/
def Ring.isEmpty (r : Ring) : Bool := r.entries[r.consumer].mark != r.consumerPass

/-- R124. -/
def Ring.isFull (r : Ring) : Bool := r.owns r.producer

/-- A descriptor written at the producer index with the producer pass and a clear void mark (R125). -/
def Ring.place (r : Ring) (d : Descriptor) : Ring :=
  { r with
    entries := r.entries.set r.producer
      { descriptor := some { d with void := false }, mark := r.producerPass }
    producer := r.producer + 1
    producerPass := if r.producer = 31 then !r.producerPass else r.producerPass }

/-- The entry at the consumer index leaves the Screener (R128). -/
def Ring.advance (r : Ring) : Ring :=
  { r with
    consumer := r.consumer + 1
    consumerPass := if r.consumer = 31 then !r.consumerPass else r.consumerPass }

/-- A descriptor with its void mark set if it names the slot (R126). -/
def Descriptor.voidFor (d : Descriptor) (slot : Slot) : Descriptor :=
  { d with void := d.void || decide (d.slot = slot) }

/-- An entry whose descriptor is voided if it names the slot (R126). -/
def RingEntry.voidFor (e : RingEntry) (slot : Slot) : RingEntry :=
  { e with descriptor := e.descriptor.map fun d => d.voidFor slot }

/-- One entry voided if it belongs to the Screener and names the slot (R126). -/
def Ring.voidAt (r : Ring) (slot : Slot) (i : Fin 32) : Ring :=
  { r with entries := if r.owns i then r.entries.set i (r.entries[i].voidFor slot) else r.entries }

/-- The void mark set on every entry of the Screener's that names the slot (R126). -/
def Ring.void (r : Ring) (slot : Slot) : Ring := (List.finRange 32).foldl (fun r i => r.voidAt slot i) r

end Sys2Proof.Machine
end

