-- ==== Sys2Proof/Machine/Damage.lean ====
section
/-! DEFINITION. The Damage Unit (chapter 8): band marks and the first-damage record, the station unattributed log,
the assessment of a plate and the damage total. -/

namespace Sys2Proof.Machine

/-! ## Band marks (R140 to R142) -/

/-- The count of one kind raised by one, stopping at 65535 (R142). -/
def KindCounts.raise (c : KindCounts) (k : DamageKind) : KindCounts :=
  match k with
  | .check => { c with check := saturate Config.max16 c.check 1 }
  | .fill => { c with fill := saturate Config.max16 c.fill 1 }
  | .overflow => { c with overflow := saturate Config.max16 c.overflow 1 }
  | .gap => { c with gap := saturate Config.max16 c.gap 1 }
  | .format => { c with format := saturate Config.max16 c.format 1 }

/-- Kind counts before any report. -/
def KindCounts.zero : KindCounts := { check := 0, fill := 0, overflow := 0, gap := 0, format := 0 }

/-- The first-damage record after a report: created by the first, its count raised by every one (R142). -/
def firstDamageAfter (old : Option FirstDamage) (band : Nat) (kind : DamageKind) (part : Option Nat)
    (capture : Option (List Byte)) : FirstDamage :=
  let r := old.getD { kind := kind, band := band, part := part, capture := capture, counts := KindCounts.zero }
  { r with counts := r.counts.raise kind }

/-- A mark report taken for a job: the band takes the kind and the damaged count rises if the band carries none
(R141), and the first-damage record is written (R142). -/
def Job.mark (j : Job) (band : Nat) (kind : DamageKind) (part : Option Nat) (capture : Option (List Byte)) : Job :=
  { j with
    bands := j.bands.modify band fun b => { b with kind := b.kind.or (some kind) }
    damagedCount := if (j.band band).kind.isNone then j.damagedCount + 1 else j.damagedCount
    firstDamage := some (firstDamageAfter j.firstDamage band kind part capture) }

/-- A mark report for a slot, taken when its live job is RECEIVING (R140). -/
def State.markDamage (s : State) (n : Slot) (band : Nat) (kind : DamageKind) (part : Option Nat)
    (capture : Option (List Byte)) : State :=
  s.modifyJob n fun j => if j.stage = .receiving then j.mark band kind part capture else j

/-! ## The unattributed log (R144) -/

/-- The log with an unattributed record: the count rises and the first raw header is written when absent. -/
def DamageLog.addUnattributed (l : DamageLog) (raw : List Byte) : DamageLog :=
  { l with unattributed := saturate Config.max16 l.unattributed 1, rawHeader := l.rawHeader.or (some raw) }

/-- An unattributed report, which latches UNATTRIBUTED. -/
def State.reportUnattributed (s : State) (raw : List Byte) : State :=
  (s.setDamage { s.damage with log := s.damage.log.addUnattributed raw }).latch .unattributed

/-- A LATE report. -/
def State.reportLate (s : State) : State :=
  s.setDamage { s.damage with log := { s.damage.log with late := saturate Config.max16 s.damage.log.late 1 } }

/-- A stale record report. -/
def State.reportStale (s : State) : State :=
  s.setDamage { s.damage with log := { s.damage.log with stale := saturate Config.max16 s.damage.log.stale 1 } }

/-- A duplicate report. -/
def State.reportDuplicate (s : State) : State :=
  s.setDamage
    { s.damage with log := { s.damage.log with duplicate := saturate Config.max16 s.damage.log.duplicate 1 } }

/-! ## Assessment (R146) -/

/-- The configured action of a kind; the settings list them CHECK to FORMAT (R187). -/
def Settings.action (c : Settings) (k : DamageKind) : DamageAction := c.actions.getD (k.code - 1) .tint

/-- Some damaged band's kind has the action HOLD. -/
def Job.heldForKind (j : Job) (c : Settings) : Bool :=
  j.bands.any fun b => b.kind.any fun k => decide (c.action k = .hold)

/-- The verdict of a job. -/
def Job.assess (j : Job) (c : Settings) : Verdict :=
  if j.damagedCount = 0 then .clean
  else if j.heldForKind c then .heldForKind
  else if j.damagedCount ≤ c.tintLimit then .withinTint
  else .heldForCount

/-- The verdicts that let a plate be imaged. -/
def Verdict.ready : Verdict → Bool
  | .clean | .withinTint | .released => true
  | .heldForKind | .heldForCount | .notAssessed => false

/-! ## The damage total (R149) -/

/-- The damaged band count of a DONE that was sent, added to the total, which stops at 65535. -/
def State.addDamageTotal (s : State) (n : Nat) : State :=
  s.setDamage { s.damage with total := saturate Config.max16 s.damage.total n }

end Sys2Proof.Machine
end

