-- ==== Sys2Proof/Machine/ImagerBase.lean ====
section
/-! DEFINITION. The operations of the Imager that Job Control calls upon (chapter 9): issuing an eject, recording a
fault, taking a cancel request and choosing the next plate. -/

namespace Sys2Proof.Machine

/-- An eject issued: the line asserted, the disposition recorded, the eject timer started; whatever was being
output stops and the drum watch stops (R156, R157, R160). -/
def State.issueEject (s : State) (d : Disposition) : State :=
  s.setImager
    { s.imager with
      state := .ejecting, disposition := some d, ejectLine := some d,
      ejectTimer := some (s.now + s.settings.ejectTimeout * 1000),
      loadTimer := none, plateRequest := none, nextSwath := none, swathInOutput := false, swathData := none,
      drum := { s.imager.drum with running := false } }

/-- A fault recorded: the first of a hold stays pending, each becomes the last fault, and IMAGER FAULTS rises
(R159, R167). -/
def State.recordFault (s : State) (f : ImagerFault) : State :=
  (s.setImager { s.imager with pendingFault := s.imager.pendingFault.or (some f), lastFault := some f }).raise
    .imagerFaults

/-- DRUM LATE, DRUM EARLY or HEAD LOST in IMAGING: the plate is scrapped at once (R159). -/
def State.scrapForFault (s : State) (f : ImagerFault) : State := (s.recordFault f).issueEject .scrap

/-- The Imager has a plate in hand or on request. -/
def ImagerState.busy : ImagerState → Bool
  | .loading | .imaging | .ejecting => true
  | .idle | .fault => false

/-- A cancel request (R164): the first reason stands; in IMAGING with no swath in output the plate is scrapped at
once. -/
def State.imagerCancel (s : State) (r : CancelReason) : State :=
  if s.imager.state.busy && s.imager.pendingCancel.isNone then
    let s := s.setImager { s.imager with pendingCancel := some r }
    if s.imager.state = .imaging ∧ s.imager.swathInOutput = false then s.issueEject .scrap else s
  else s

/-- The deadline rank and ready order of a slot's job when it is READY. -/
def State.readyJob (s : State) (n : Slot) : Option (Nat × Nat) :=
  (s.job n).bind fun j => match j.stage with
    | .ready order => some (j.rank, order)
    | _ => none

/-- The better of two READY jobs: the higher rank, then the lower ready order (R153). -/
def betterReady (s : State) (best : Option Slot) (n : Slot) : Option Slot :=
  match s.readyJob n with
  | none => best
  | some x =>
    match best.bind s.readyJob with
    | none => some n
    | some y => if y.1 < x.1 ∨ (x.1 = y.1 ∧ x.2 < y.2) then some n else best

/-- The READY job the arbiter takes. -/
def State.chosenReady (s : State) : Option Slot := allSlots.foldl (betterReady s) none

/-- The plate of a job (R152): its swath count is the plate height divided by 32. -/
def State.plateOf (s : State) (j : Job) : PlateGeometry :=
  { sizeClass := j.sizeClass, bandCount := j.bandCount,
    swathCount := (s.settings.sizeClass j.sizeClass).height / Config.swathLines }

/-- The Imager takes a slot's job and enters LOADING (R153, R154). -/
def State.takePlate (s : State) (n : Slot) (j : Job) : State :=
  (s.modifyJob n fun j => { j with stage := .imaging }).setImager
    { s.imager with
      state := .loading, held := some { slot := n, generation := j.generation }, plate := some (s.plateOf j),
      plateRequest := some j.sizeClass, loadTimer := some (s.now + s.settings.loadTimeout * 1000) }

/-- The arbiter may choose (R153). -/
def State.mayChoose (s : State) : Bool :=
  decide (s.imager.state = .idle) && s.running && !s.imager.mediaOut

/-- The arbiter chooses if it may and a job is READY (R153). -/
def State.arbitrate (s : State) : State :=
  if s.mayChoose then
    match s.chosenReady with
    | some n => match s.job n with
      | some j => s.takePlate n j
      | none => s
    | none => s
  else s

end Sys2Proof.Machine
end

