-- ==== Sys2Proof/Machine/Queue.lean ====
section
/-! DEFINITION. The outgoing queue (chapter 1.5): its ten places, queue ages, requests, withdrawals and what becomes
of the candidate when its opening ends for it. -/

namespace Sys2Proof.Machine

/-- What a place holds. -/
def Link.at (l : Link) : Place → Option Queued
  | .roll => l.roll
  | .presence => l.presence
  | .slot n => l.slots[n]

/-- A place written. -/
def Link.setPlace (l : Link) (p : Place) (q : Option Queued) : Link :=
  match p with
  | .roll => { l with roll := q }
  | .presence => { l with presence := q }
  | .slot n => { l with slots := l.slots.set n q }

/-- The ten places. -/
def allPlaces : List Place := .roll :: .presence :: (List.finRange 8).map .slot

/-- The queued messages. -/
def Link.queued (l : Link) : List Queued := allPlaces.filterMap l.at

/-! ## Queue ages (R12) -/

/-- A message with its age counted anew: the number of queued messages older than it. -/
def Link.renumbered (l : Link) (q : Queued) : Queued :=
  { q with age := (l.queued.filter fun p => decide (p.age < q.age)).length }

/-- The queue ready to give out an age: when the counter would pass its largest value the ages are first renumbered
from 0 upward in their present order. A message that a request replaces in its place still counts, and one that has
left its place when its opening ended does not (DESIGN CHOICE, log 20). -/
def Link.withAge (l : Link) : Link :=
  if l.ageCounter < Config.max32 then l
  else { l with
    roll := l.roll.map l.renumbered
    presence := l.presence.map l.renumbered
    slots := l.slots.map fun q => q.map l.renumbered
    ageCounter := l.queued.length }

/-- A message put in a place with a new queue age. -/
def Link.put (l : Link) (p : Place) (m : Msg) : Link :=
  let l := l.withAge
  { l.setPlace p (some { msg := m, age := l.ageCounter, inProgress := false, withdrawal := false, replacement := none })
    with ageCounter := l.ageCounter + 1 }

/-- A request to queue a ROLL, JOIN or LEAVE (R13). -/
def Link.request (l : Link) (p : Place) (m : Msg) : Link :=
  match l.at p with
  | none => l.put p m
  | some q =>
    if q.inProgress then l.setPlace p (some { q with replacement := some m }) else l.put p m

/-! ## Withdrawal (R14) -/

/-- What a withdrawal request is told. -/
inductive Withdrawal where
  | withdrawn | heldPending | nothing
deriving DecidableEq, Repr

/-- What a withdrawal request for a place is told. -/
def Link.withdrawal (l : Link) (p : Place) : Withdrawal :=
  match l.at p with
  | none => .nothing
  | some q => if q.inProgress then .heldPending else .withdrawn

/-- The queue after a withdrawal request. -/
def Link.withdraw (l : Link) (p : Place) : Link :=
  match l.at p with
  | none => l
  | some q => if q.inProgress then l.setPlace p (some { q with withdrawal := true }) else l.setPlace p none

/-! ## The end of an opening for the candidate (R13, R14, R15) -/

/-- What the block of an unsent candidate is told. -/
inductive Unsent where
  | returned | withdrawn
deriving DecidableEq, Repr

/-- What the block of a candidate that was not sent is told: withdrawn when it was replaced or its withdrawal was
pending, returned to queue otherwise. -/
def Link.unsentReport (l : Link) (p : Place) : Unsent :=
  match l.at p with
  | none => .returned
  | some q => if q.replacement.isSome || q.withdrawal then .withdrawn else .returned

/-- The queue after a candidate was not sent. A replacement is queued in its place with a new queue age (DEDUCED
from R12, log 15). The discarded message has left its place by then, so a renumbering at that moment does not count it
(DESIGN CHOICE, log 20). -/
def Link.unsent (l : Link) (p : Place) : Link :=
  match l.at p with
  | none => l
  | some q =>
    match q.replacement with
    | some m => (l.setPlace p none).put p m
    | none => if q.withdrawal then l.setPlace p none else l.setPlace p (some { q with inProgress := false })

/-- The queue after a candidate was sent: it leaves, and a replacement is queued with a new queue age. A renumbering at
that moment does not count the message sent (DESIGN CHOICE, log 20). -/
def Link.sent (l : Link) (p : Place) : Link :=
  match (l.at p).bind (·.replacement) with
  | some m => (l.setPlace p none).put p m
  | none => l.setPlace p none

/-! ## The candidate (R3, R12) -/

/-- The first place comes before the second in the selection order: rank, highest first, then the smallest age. -/
def Queued.before (q r : Queued) : Bool :=
  decide (r.msg.rank < q.msg.rank) || (decide (q.msg.rank = r.msg.rank) && decide (q.age < r.age))

/-- The better of two candidates in the selection order. -/
def betterPlace (l : Link) (best : Option Place) (p : Place) : Option Place :=
  match l.at p with
  | none => best
  | some q =>
    if q.withdrawal then best
    else match best.bind fun b => (l.at b) with
      | none => some p
      | some r => if q.before r then some p else best

/-- The place of the candidate: the first eligible message in the selection order. -/
def Link.candidate (l : Link) : Option Place := allPlaces.foldl (betterPlace l) none

/-- A message with the bid taken at the start of its opening; only a CLAIM carries one (R12). -/
def Msg.withBid (m : Msg) (bid : Nat) : Msg :=
  match m with
  | .claim key version _ => .claim key version (some bid)
  | .join d => .join d
  | .leave => .leave
  | .roll c n i => .roll c n i
  | .done key version o d f => .done key version o d f

/-- The candidate put in progress with its bid (R3, R12). -/
def Link.start (l : Link) (p : Place) (bid : Nat) : Link :=
  l.setPlace p ((l.at p).map fun q => { q with msg := q.msg.withBid bid, inProgress := true })

/-! ## Emptying (R18) -/

/-- What becomes of the opening in progress when the queue is emptied: a station in contention releases the line, a
sender holds it low throughout the spoil window. The round gap after round 3, before the first unit of the body, counts
as the body here: R18 names the rounds and the body only (DESIGN CHOICE, log 26). -/
def LinkPhase.abandon : LinkPhase → LinkPhase
  | .round _ won => .round none won
  | .body (.sender _) key => .body .abandoned key
  | .spoil (.sender _) _ _ => .spoil .abandoned true none
  | ph => ph

/-- The queue emptied, with the message in progress abandoned; the counter is 0 (R12, R18). -/
def Link.emptied (l : Link) : Link :=
  { roll := none, presence := none, slots := Vector.replicate 8 none, ageCounter := 0, phase := l.phase.abandon }

/-- The receive state after a halt or an entry to BARRED: a spoil window owed for an own message is finished, and
the Link Controller is otherwise passive (R18). A receiver that holds the line in a spoil window releases it then, and
that opening raises neither SPOILED nor SPOILED HERE: R17 and R18 leave the point open (DESIGN CHOICE, log 24). -/
def LinkPhase.stopped : LinkPhase → LinkPhase
  | .body .abandoned _ | .spoil .abandoned _ _ | .owed => .owed
  | .passive | .synchronising | .waiting | .round _ _ | .body .receiver _ | .body (.sender _) _
  | .spoil .receiver _ _ | .spoil (.sender _) _ _ => .passive

end Sys2Proof.Machine
end

