-- ==== Sys2Proof/Machine/Jobs.lean ====
section
/-! DEFINITION. Job Control (chapter 4): creating, cancelling, ending and freeing jobs, the notices of the Plate
Board and the reports of the other blocks. -/

namespace Sys2Proof.Machine

/-! ## Leaving the data path (R75, R82, R99, R119, R126) -/

/-- The head record leaves the holding queue and the Unpacker has finished with it (R99, R105). -/
def State.finishHead (s : State) : State :=
  (s.setReceiver { s.receiver with holding := s.receiver.holding.tail }).setUnpacker
    { s.unpacker with work := .free }

/-- The head record is dropped and reported stale (R108, R119). -/
def State.dropStale (s : State) : State := s.finishHead.reportStale

/-- The head of the holding queue is a fragment of the slot. -/
def State.headFragmentOf (s : State) (n : Slot) : Bool :=
  s.receiver.holding.head?.any fun r => match r.body with
    | .fragment _ _ _ _ _ => decide (r.slot = n)
    | .endMarker _ => false

/-- The Unpacker's work for a slot's job stops when the job is freed or enters CANCELLING (R119). A wait for a
buffer stays; TAKE_HEAD_ANEW finds the record stale (R112). -/
def State.stopUnpacking (s : State) (n : Slot) : State :=
  match s.unpacker.work with
  | .decoding => if s.headFragmentOf n then s.dropStale else s
  | .waitRing d _ =>
    if d.slot = n then
      (if s.headFragmentOf n then s.dropStale else s.setUnpacker { s.unpacker with work := .free })
    else s
  | .free | .waitBuffer => s

/-- A holding record is the end marker of the slot. -/
def HoldingRecord.isEndOf (r : HoldingRecord) (n : Slot) : Bool :=
  match r.body with
  | .endMarker _ => decide (r.slot = n)
  | .fragment _ _ _ _ _ => false

/-- A slot's end marker removed from the holding queue (R99). -/
def State.removeEndMarker (s : State) (n : Slot) : State :=
  s.setReceiver { s.receiver with holding := s.receiver.holding.filter fun r => !r.isEndOf n }

/-- A job's cursors and quiet timer ended (R82). -/
def Job.withoutCursors (j : Job) : Job :=
  { j with quiet := none, admission := none, cursor := UnpackCursor.empty }

/-- What both freeing and cancelling do to a slot's work in the data path: its descriptors are voided, the buffer of
its unpack cursor returns, its end marker goes, its cursors and quiet timer end (R75, R82, R99, R119). -/
def State.abandonWork (s : State) (n : Slot) : State :=
  let s := s.setRing (s.ring.void n)
  let s := s.returnBuffer ((s.job n).bind fun j => j.cursor.buffer)
  let s := s.stopUnpacking n
  let s := s.removeEndMarker n
  s.modifyJob n Job.withoutCursors

/-! ## Freeing (R75, R86) -/

/-- A LEAVE queued in the presence place (R23). -/
def State.queueLeave (s : State) : State := s.setLink (s.link.request .presence .leave)

/-- Station Control is told that the table holds no live job; a draining station queues a LEAVE (R23, R63). -/
def State.tableEmptied (s : State) : State :=
  if s.anyJob = false ∧ s.station.state = .draining then s.queueLeave else s

/-- A live job freed: its work abandoned, its screened buffers returned, its reservation with it (R66, R75, R86). -/
def State.freeJob (s : State) (n : Slot) : State :=
  match s.job n with
  | none => s
  | some j =>
    let s := s.abandonWork n
    let s := j.screenedBuffers.foldl State.returnScreened s
    (s.setJob n none).tableEmptied

/-! ## Ending an owned job (R85, R86, R148) -/

/-- The DONE of a job with an outcome (R85, R148). -/
def Job.doneMessage (j : Job) (outcome : DoneOutcome) : Msg :=
  .done j.key j.version outcome j.damagedCount
    (if 1 ≤ j.damagedCount then j.firstDamage.map (·.kind) else none)

/-- A job ends: its DONE is queued in the slot's place and the job is freed in the same event (R85, R86). -/
def State.endJob (s : State) (n : Slot) (outcome : DoneOutcome) : State :=
  match s.job n with
  | none => s
  | some j => (s.setLink (s.link.put (.slot n) (j.doneMessage outcome))).freeJob n

/-! ## Entering READY (R78) and assessment (R77, R146) -/

/-- The ready orders of the READY jobs. -/
def JobTable.orders (t : JobTable) : List Nat :=
  allSlots.filterMap fun n => t.slots[n].bind fun j => match j.stage with
    | .ready order => some order
    | _ => none

/-- A stage with its ready order counted anew. -/
def Stage.renumbered (orders : List Nat) : Stage → Stage
  | .ready order => .ready (orders.filter fun o => decide (o < order)).length
  | st => st

/-- The table ready to give out a ready order: when the counter would pass its largest value the orders are first
renumbered from 0 upward in their present order (R78). The job that enters READY then takes the count of the orders
(DESIGN CHOICE, log 20). -/
def JobTable.withOrder (t : JobTable) : JobTable :=
  if t.readyCounter < Config.max32 then t
  else { t with
    slots := t.slots.map fun j => j.map fun j => { j with stage := j.stage.renumbered t.orders }
    readyCounter := t.orders.length }

/-- A job enters READY with a new ready order, and the arbiter may choose it at once (R78, R153). -/
def State.enterReady (s : State) (n : Slot) : State :=
  let t := s.jobs.withOrder
  let s := s.setJobs { t with readyCounter := t.readyCounter + 1 }
  (s.modifyJob n fun j => { j with stage := .ready t.readyCounter }).arbitrate

/-- A job assessed: READY, or HELD with HELD latched (R77, R146). -/
def State.assessJob (s : State) (n : Slot) : State :=
  match s.job n with
  | none => s
  | some j =>
    let v := j.assess s.settings
    let s := s.modifyJob n fun j => { j with verdict := v }
    if v.ready then s.enterReady n
    else (s.modifyJob n fun j => { j with stage := .held }).latch .held

/-- The three conditions of R77. -/
def Job.assessable (j : Job) : Bool :=
  decide (j.stage = .closing ∧ j.standing = .owned ∧ j.screenedCount = j.bandCount)

/-- A job passed to assessment when the three conditions hold (R77). -/
def State.assessIfComplete (s : State) (n : Slot) : State :=
  if (s.job n).any Job.assessable then s.assessJob n else s

/-! ## Cancellation (R80, R82) -/

/-- The outcome of a completed cancellation (R85). -/
def CancelReason.outcome : CancelReason → DoneOutcome
  | .superseded => .superseded
  | .dropped => .dropped

/-- The Screener holds a band of the slot's live job (R82). -/
def State.screenerHolds (s : State) (n : Slot) : Bool :=
  s.screener.current.any fun c => decide (c.slot = n) && (s.job n).any fun j => decide (j.generation = c.generation)

/-- Entry to CANCELLING; the job ends at once when the Screener holds no band of it (R82). -/
def State.enterCancelling (s : State) (n : Slot) (r : CancelReason) : State :=
  let s := (s.abandonWork n).modifyJob n fun j => { j with stage := .cancelling r }
  if s.screenerHolds n then s else s.endJob n r.outcome

/-- The cancellation of an OWNED job by its stage (R80). -/
def State.cancelOwned (s : State) (n : Slot) (r : CancelReason) : State :=
  match (s.job n).map Job.stage with
  | some .receiving | some .closing | some (.ready _) | some .held => s.enterCancelling n r
  | some .imaging => s.imagerCancel r
  | some (.cancelling _) | none => s

/-- A CLAIM's withdrawal requested (R14). -/
def State.withdrawClaim (s : State) (n : Slot) : State := s.setLink (s.link.withdraw (.slot n))

/-- A CONTENDING job whose claim is lost: its CLAIM withdrawn, the job freed with no DONE (R73, R80). -/
def State.loseClaim (s : State) (n : Slot) : State := (s.withdrawClaim n).freeJob n

/-- A live job cancelled for a supersession (R80, R81). -/
def State.supersedeJob (s : State) (n : Slot) : State :=
  match (s.job n).map Job.standing with
  | some .contending => s.loseClaim n
  | some .owned => s.cancelOwned n .superseded
  | none => s

/-- DROP of a live job (R80, R83). -/
def State.dropJob (s : State) (n : Slot) : State :=
  match s.job n with
  | none => s
  | some j =>
    match j.standing with
    | .owned => s.cancelOwned n .dropped
    | .contending =>
      if j.claimInProgress then
        (s.withdrawClaim n).modifyJob n fun j => { j with withdrawal := some .drop }
      else s.loseClaim n

/-! ## Contending (R68, R69) -/

/-- The conditions for contending (R68). -/
def State.contends (s : State) (key : PlateKey) (version sizeClass : Nat) : Bool :=
  decide (s.station.state = .active) && (s.jobFor key version).isNone && !s.freeSlots.isEmpty
    && (s.settings.sizeClass sizeClass).supported
    && decide (bandsOfHeight (s.settings.sizeClass sizeClass).height ≤ s.unreserved)
    && decide (s.imager.state ≠ .fault) && !s.imager.mediaOut

/-- The record of a new job (R64, R69). -/
def State.newJob (s : State) (generation : Nat) (key : PlateKey) (version sizeClass screeningClass rank : Nat) : Job :=
  { generation := generation, standing := .contending, stage := .receiving, key := key, version := version,
    sizeClass := sizeClass, screeningClass := screeningClass, rank := rank, endAdmitted := false,
    endProcessed := false, quiet := some (s.now + s.settings.quietLimit), admission := none,
    cursor := UnpackCursor.empty,
    bands := List.replicate (bandsOfHeight (s.settings.sizeClass sizeClass).height)
      { state := .awaited, kind := none },
    screenedCount := 0, damagedCount := 0, firstDamage := none, verdict := .notAssessed, retries := 0,
    claimInProgress := false, withdrawal := none }

/-- A generation advanced by one; from 65535 it passes to 0 (R65). -/
def nextGeneration (g : Nat) : Nat := (g + 1) % 65536

/-- A job created in a slot and its CLAIM queued (R69). -/
def State.createJob (s : State) (n : Slot) (key : PlateKey) (version sizeClass screeningClass rank : Nat) : State :=
  let g := nextGeneration s.jobs.generations[n]
  let j := s.newJob g key version sizeClass screeningClass rank
  let s := s.setJobs { s.jobs with generations := s.jobs.generations.set n g, slots := s.jobs.slots.set n (some j) }
  s.setLink (s.link.put (.slot n) (.claim key version none))

/-! ## Notices of the Plate Board (R58) -/

/-- SUPERSEDED: every live job of the key with a version below the new one is cancelled (R81). -/
def State.noticeSuperseded (s : State) (key : PlateKey) (version : Nat) : State :=
  allSlots.foldl (fun s n =>
    if (s.job n).any fun j => decide (j.key = key ∧ j.version < version) then s.supersedeJob n else s) s

/-- CONTESTED: judged once (R68). -/
def State.noticeContested (s : State) (key : PlateKey) (version sizeClass screeningClass rank : Nat) : State :=
  if s.contends key version sizeClass then
    match s.freeSlots with
    | n :: _ => s.createJob n key version sizeClass screeningClass rank
    | [] => s
  else s

/-- The CONTENDING job of a key and version loses its claim (R73). -/
def State.loseContending (s : State) (key : PlateKey) (version : Nat) : State :=
  match s.jobFor key version with
  | none => s
  | some n => if (s.job n).any fun j => decide (j.standing = .contending) then s.loseClaim n else s

/-- OWNED: a CONTENDING job loses its claim when the owner is another station (R73). -/
def State.noticeOwned (s : State) (key : PlateKey) (version : Nat) (owner : Station) : State :=
  if owner = s.settings.station then s else s.loseContending key version

/-- DONE: a CONTENDING job of the version loses its claim (R73). -/
def State.noticeDone (s : State) (key : PlateKey) (version : Nat) : State := s.loseContending key version

/-- UNTAKEN: a CONTENDING job whose CLAIM is not in progress is freed; one in progress is asked to withdraw with
cause WINDOW, unless a cause is present (R74). -/
def State.noticeUntaken (s : State) (key : PlateKey) (version : Nat) : State :=
  match s.jobFor key version with
  | none => s
  | some n =>
    match s.job n with
    | none => s
    | some j =>
      if j.standing = .contending then
        if j.claimInProgress then
          (s.withdrawClaim n).modifyJob n fun j => { j with withdrawal := j.withdrawal.or (some .window) }
        else s.loseClaim n
      else s

/-! ## Reports of the Link Controller on a CLAIM (R15, R71) -/

/-- The board's entry for a key (R44). -/
def Board.entryFor (b : Board) (key : PlateKey) : Option BoardEntry :=
  b.entries.find? fun e => decide (e.key = key)

/-- In progress: the flag is set. -/
def State.claimStarted (s : State) (n : Slot) : State :=
  s.modifyJob n fun j => { j with claimInProgress := true }

/-- Returned to queue: the flag is cleared. -/
def State.claimReturned (s : State) (n : Slot) : State :=
  s.modifyJob n fun j => { j with claimInProgress := false }

/-- The entry for the job's key is CONTESTED with the job's version (R74). -/
def State.contestedAgain (s : State) (j : Job) : Bool :=
  (s.board.entryFor j.key).any fun e => decide (e.version = j.version) && match e.state with
    | .contested _ => true
    | _ => false

/-- Withdrawn at the end of an opening: with cause WINDOW the job queues a new CLAIM when its entry is CONTESTED
again and is freed otherwise (R74); with cause DROP it is freed (R83). -/
def State.claimWithdrawn (s : State) (n : Slot) : State :=
  match s.job n with
  | none => s
  | some j =>
    let s := s.modifyJob n fun j => { j with claimInProgress := false, withdrawal := none }
    match j.withdrawal with
    | none => s
    | some .drop => s.freeJob n
    | some .window =>
      if s.contestedAgain j then s.setLink (s.link.put (.slot n) (.claim j.key j.version none))
      else s.freeJob n

/-- The claim results of R52. -/
inductive ClaimResult where
  | ownedHere | alreadyOwned | superseded | notRecorded
deriving DecidableEq, Repr

/-- The claim result of this station's CLAIM, sent from slot `n`, for the job with its key and version (R72). SUPERSEDED
finds a live job only where its UNTAKEN entry was evicted during the opening and its key came back with a higher
version: the job is freed, as R70 keeps it for that one opening only (DEDUCED, log 27). Where slot `n` no longer has the
job, the result finds none (R80), even if another slot has meanwhile got a job with the same key and version (DESIGN
CHOICE, log 29). -/
def State.claimResult (s : State) (n : Slot) (key : PlateKey) (version : Nat) (r : ClaimResult) : State :=
  match s.job n with
  | none => s
  | some j =>
    if j.key = key ∧ j.version = version ∧ j.standing = .contending then
      match r with
      | .ownedHere =>
        let s := s.modifyJob n fun j =>
          { j with standing := .owned, claimInProgress := false, withdrawal := none }
        if j.withdrawal = some .drop then s.cancelOwned n .dropped else s.assessIfComplete n
      | .alreadyOwned | .superseded | .notRecorded => s.freeJob n
    else s

/-! ## The Imager's endings (R79) -/

/-- The four endings the Imager reports. -/
inductive Ending where
  | plateEnded | retry | wasted
  | cancelled (reason : CancelReason)
deriving DecidableEq, Repr

/-- The outcome of a plate ejected GOOD (R79). -/
def Job.goodOutcome (j : Job) : DoneOutcome := if j.damagedCount = 0 then .clean else .tinted

/-- Job Control's action on an ending (R79). -/
def State.imagerEnding (s : State) (n : Slot) (e : Ending) : State :=
  match e with
  | .plateEnded => s.endJob n (((s.job n).map Job.goodOutcome).getD .clean)
  | .retry => (s.modifyJob n fun j => { j with retries := j.retries + 1 }).enterReady n
  | .wasted => (s.endJob n .wasted).latch .wasted
  | .cancelled r => s.enterCancelling n r

end Sys2Proof.Machine
end

