-- ==== Sys2Proof/Machine/Board.lean ====
section
/-! DEFINITION. The Plate Board (chapter 3): headers, accepted claims and completions, claim windows, orphaning,
eviction and the full board. -/

namespace Sys2Proof.Machine

/-! ## Stamps (R45) and places (R43) -/

/-- The board ready to give out a stamp: when the counter would advance past its largest value the stamps are first
renumbered from 0 upward in the order of the present stamps (R45). All entries are renumbered, by the stamps they
have before the event, the one that the event changes or evicts among them, and the entry that enters a state then
takes the count of the entries (DESIGN CHOICE, log 20). -/
def Board.withStamp (b : Board) : Board :=
  if b.stamp < Config.max32 then b
  else { b with
    entries := b.entries.map fun e =>
      { e with stamp := (b.entries.filter fun d => decide (d.stamp < e.stamp)).length }
    stamp := b.entries.length }

/-- An entry enters a state in place `i` and takes a stamp (R45). -/
def Board.write (b : Board) (i : Nat) (e : BoardEntry) : Board :=
  let b := b.withStamp
  { b with entries := b.entries.set i { e with stamp := b.stamp }, stamp := b.stamp + 1 }

/-- A new entry in the lowest empty place (R43). -/
def Board.append (b : Board) (e : BoardEntry) : Board :=
  let b := b.withStamp
  { b with entries := b.entries ++ [{ e with stamp := b.stamp }], stamp := b.stamp + 1 }

/-- The place of the entry for a key (R44). -/
def Board.placeOf (b : Board) (key : PlateKey) : Option Nat :=
  b.entries.findIdx? fun e => decide (e.key = key)

/-- The state of an entry is the one that eviction looks for, by its number in the order of R56. -/
def EntryState.evictable (n : Nat) : EntryState → Bool
  | .done _ _ _ _ => n == 0
  | .untaken => n == 1
  | .orphaned _ => n == 2
  | .contested _ | .owned _ => false

/-- The older of two places in its present state. -/
def olderPlace (entries : List BoardEntry) (n : Nat) (best : Option Nat) (i : Nat) : Option Nat :=
  match entries[i]? with
  | none => best
  | some e =>
    if e.state.evictable n then
      match best.bind fun j => entries[j]? with
      | none => some i
      | some d => if e.stamp < d.stamp then some i else best
    else best

/-- The place with the smallest stamp among the entries of one sort. -/
def Board.oldest (b : Board) (n : Nat) : Option Nat :=
  (List.range b.entries.length).foldl (olderPlace b.entries n) none

/-- The eviction candidate: the oldest DONE, else the oldest UNTAKEN, else the oldest ORPHANED entry (R56). -/
def Board.evictionCandidate (b : Board) : Option Nat := (b.oldest 0).or ((b.oldest 1).or (b.oldest 2))

/-- A new entry recorded: in an empty place, or in the place of the eviction candidate; none where the board is full
with no candidate (R56, R57). -/
def Board.record (b : Board) (e : BoardEntry) : Option Board :=
  if b.entries.length < Config.boardPlaces then some (b.append e)
  else b.evictionCandidate.map fun i => b.write i e

/-- The number of entries OWNED by a station (R55, R60). -/
def Board.ownedBy (b : Board) (n : Station) : Nat :=
  (b.entries.filter fun e => decide (e.state = .owned n)).length

/-- An event that finds no place: BOARD FULL is set and latched and UNRECORDED rises (R57). -/
def State.boardHasNoRoom (s : State) : State :=
  ((s.setBoard { s.board with full := true }).latch .boardFull).raise .unrecorded

/-- An event ignored as a divergence (R59). -/
def State.boardAnomaly (s : State) : State := s.raise .boardAnomaly

/-! ## Plate headers (R47, R48, R49) -/

/-- The CONTESTED entry of a header, with its window deadline (R47, R49). -/
def State.contestedEntry (s : State) (key : PlateKey) (version sizeClass rank : Nat) : BoardEntry :=
  { key := key, version := version, state := .contested (s.now + s.settings.claimWindow),
    info := some { sizeClass := sizeClass, rank := rank }, stamp := 0 }

/-- A good PLATE HEADER taken by the board (R47). -/
def State.takeHeader (s : State) (key : PlateKey) (version sizeClass screeningClass rank : Nat) : State :=
  let e := s.contestedEntry key version sizeClass rank
  let told (s : State) : State := s.noticeContested key version sizeClass screeningClass rank
  match s.board.placeOf key with
  | none =>
    match s.board.record e with
    | some b => told (s.setBoard b)
    | none => s.boardHasNoRoom
  | some i =>
    match s.board.entries[i]? with
    | none => s
    | some old =>
      if old.version < version then
        let s := s.noticeSuperseded key version
        told (s.setBoard (s.board.write i e))
      else if version < old.version then s.raise .headersIgnored
      else match old.state with
        | .untaken | .orphaned _ => told (s.setBoard (s.board.write i e))
        | .contested _ | .owned _ | .done _ _ _ _ => s.raise .headersIgnored

/-! ## Claim windows (R49, R50) -/

/-- The claim window of the CONTESTED entry in a place expires (R50). -/
def State.windowExpires (s : State) (i : Nat) : State :=
  match s.board.entries[i]? with
  | none => s
  | some e =>
    match e.state with
    | .contested deadline =>
      let s := s.advanceTo deadline
      let s := s.setBoard { s.board.write i { e with state := .untaken } with full := false }
      (s.latch .untaken).noticeUntaken e.key e.version
    | .owned _ | .untaken | .orphaned _ | .done _ _ _ _ => s

/-! ## Accepted claims (R51, R52) -/

/-- The claim result, reported for this station's own CLAIM only; `own` is the slot it was sent from (R52),
whose job alone takes it (DESIGN CHOICE, log 29). -/
def State.reportClaim (s : State) (own : Option Slot) (key : PlateKey) (version : Nat) (r : ClaimResult) : State :=
  match own with
  | some n => s.claimResult n key version r
  | none => s

/-- An accepted CLAIM taken by the board (R51). -/
def State.takeClaim (s : State) (sender : Station) (key : PlateKey) (version : Nat) (own : Option Slot) : State :=
  let e : BoardEntry := { key := key, version := version, state := .owned sender, info := none, stamp := 0 }
  let told (s : State) : State := (s.noticeOwned key version sender).reportClaim own key version .ownedHere
  match s.board.placeOf key with
  | none =>
    match s.board.record e with
    | some b => told (s.setBoard b)
    | none => s.boardHasNoRoom.reportClaim own key version .notRecorded
  | some i =>
    match s.board.entries[i]? with
    | none => s
    | some old =>
      if old.version < version then
        let s := s.noticeSuperseded key version
        told (s.setBoard (s.board.write i e))
      else if version < old.version then s.reportClaim own key version .superseded
      else match old.state with
        | .contested _ | .untaken | .orphaned _ =>
          told (s.setBoard (s.board.write i { old with state := .owned sender }))
        | .owned _ | .done _ _ _ _ => s.boardAnomaly.reportClaim own key version .alreadyOwned

/-! ## Accepted completions (R53) -/

/-- A board with an entry that became DONE; it now holds an eviction candidate, so BOARD FULL is cleared (R57). -/
def State.boardDone (s : State) (b : Board) (key : PlateKey) (version : Nat) : State :=
  (s.setBoard { b with full := false }).noticeDone key version

/-- An accepted DONE taken by the board (R53). -/
def State.takeDone (s : State) (sender : Station) (key : PlateKey) (version : Nat) (outcome : DoneOutcome)
    (damaged : Nat) (first : Option DamageKind) : State :=
  let d : EntryState := .done sender outcome damaged first
  let e : BoardEntry := { key := key, version := version, state := d, info := none, stamp := 0 }
  match s.board.placeOf key with
  | none =>
    match s.board.record e with
    | some b => s.boardDone b key version
    | none => s.boardHasNoRoom
  | some i =>
    match s.board.entries[i]? with
    | none => s
    | some old =>
      if old.version < version then
        let s := s.noticeSuperseded key version
        s.boardDone (s.board.write i e) key version
      else if version < old.version then s
      else match old.state with
        | .contested _ | .untaken =>
          s.boardAnomaly.boardDone (s.board.write i { old with state := d }) key version
        | .owned owner | .orphaned owner =>
          if owner = sender then s.boardDone (s.board.write i { old with state := d }) key version
          else s.boardAnomaly
        | .done _ _ _ _ => s.boardAnomaly

/-! ## Orphaning (R54) -/

/-- One entry orphaned if it is OWNED by the peer. -/
def Board.orphanAt (peer : Station) (b : Board) (i : Nat) : Board :=
  match b.entries[i]? with
  | none => b
  | some e => if e.state = .owned peer then b.write i { e with state := .orphaned peer } else b

/-- Every entry OWNED by a peer becomes ORPHANED, in order of place numbers; ORPHANED is latched once, and BOARD FULL
is cleared, if there was one (R54, R57). -/
def State.orphan (s : State) (peer : Station) : State :=
  if s.board.ownedBy peer = 0 then s
  else
    let b := (List.range s.board.entries.length).foldl (Board.orphanAt peer) s.board
    (s.setBoard { b with full := false }).latch .orphaned

/-! ## Meanings -/

/-- CLAIM_WINDOW_EXPIRY (R50). -/
def execClaimWindowExpiry (place : Nat) (s : State) : Host.Outcome State Fault Refusal :=
  .next (if s.running then s.windowExpires place else s)

end Sys2Proof.Machine
end

