-- ==== Sys2Proof/Machine/Flags.lean ====
section
/-! DEFINITION. The flags that the part computes from its state: the condition code of the roll, the attention line
and the maintenance status byte (R31, R175, R180, R186). -/

namespace Sys2Proof.Machine

/-- The number of bits set, each bit `i` being the `i`-th flag. -/
def flagWord : List Bool → Nat
  | [] => 0
  | f :: fs => (if f then 1 else 0) + 2 * flagWord fs

/-- JOBS FULL: no free job slot (R31). -/
def State.jobsFull (s : State) : Bool := s.freeSlots.isEmpty

/-- The band count of the supported size class with the most bands (R31). -/
def Settings.mostBands (c : Settings) : Nat :=
  c.classes.foldl (fun n k => if k.supported then max n (bandsOfHeight k.height) else n) 0

/-- STORE LOW: fewer unreserved screened buffers than the largest supported plate has bands (R31). -/
def State.storeLow (s : State) : Bool := decide (s.unreserved < s.settings.mostBands)

/-- The condition code (R31, R186). -/
def State.conditionCode (s : State) : Nat :=
  flagWord
    [decide (s.station.state = .joining), decide (s.station.state = .draining), s.jobsFull, s.storeLow,
     decide (s.imager.state = .fault), s.imager.mediaOut, s.roll.overflow, s.board.full]

/-- The attention line: some latched cause has its mask bit clear (R180). -/
def Port.attention (p : Port) : Bool := p.latch &&& ~~~p.mask != 0#16

/-- The maintenance status byte: IN FULL, OUT FULL, READY, ATTENTION, COMMAND PENDING, REFUSED (R175, R186). -/
def Port.statusByte (p : Port) : Byte :=
  byteOf (flagWord
    [p.inputByte.isSome, !p.response.isEmpty, p.ready, p.attention, p.command.isSome, p.refused])

end Sys2Proof.Machine
end

