-- ==== Sys2Proof/Machine/Stations.lean ====
section
/-! DEFINITION. Station Control (chapter 2.1, 2.2, 2.7): the station state machine, the clearing of the blocks, rejoin,
halt, entry to BARRED, JOINING and DETACHED, and frame memory errors. -/

namespace Sys2Proof.Machine

/-! ## Disposal of a plate (R166) -/

/-- What the Imager does at a clearing: it holds no job, a pending cancel is cleared, and a plate is disposed of;
from IMAGING with EJECT SCRAP at once (R166). -/
def State.disposeOfPlate (s : State) (c : Clearing) : State :=
  let i := { s.imager with held := none, pendingCancel := none }
  match s.imager.state with
  | .idle | .fault => s.setImager i
  | .loading | .ejecting => s.setImager { i with disposal := some c }
  | .imaging => (s.setImager { i with disposal := some c }).issueEject .scrap

/-! ## Clearing (R27) -/

/-- The clearings common to both columns of R27. Counts, unattributed log, generations, rolling counter, roll slot
and overflow flag, fill patterns, curves, tiles and the configuration image are kept. -/
def State.clearBlocks (s : State) (c : Clearing) : State :=
  let s := s.setStation { s.station with resumePending := false }
  let s := s.setLink s.link.emptied
  let s := s.setRoll { s.roll with peers := Vector.replicate 16 Peer.unknown, joinPeriod := none, joinSentAt := none }
  let s := s.setBoard Board.cleared
  let s := s.setJobs { s.jobs with slots := Vector.replicate 8 none, readyCounter := 0 }
  let s := s.setReceiver { s.receiver with holding := [] }
  let s := s.setUnpacker Unpacker.cleared
  let s := s.setRing Ring.cleared
  let s := s.setScreener Screener.cleared
  s.disposeOfPlate c

/-- The rest of the halt column: passive link, all timers stopped, framing cleared (R27). -/
def State.stopBlocks (s : State) : State :=
  let s := s.setLink { s.link with phase := s.link.phase.stopped }
  let s := s.setRoll { s.roll with rollTimer := none, isolationTimer := none }
  s.setReceiver { s.receiver with framing := .hunting }

/-- The blocks cleared as for a halt or an entry to BARRED (R20, R27, R28). -/
def State.clearForHalt (s : State) : State := (s.clearBlocks .halt).stopBlocks

/-! ## Entry to JOINING (R21) -/

/-- The isolation timer restarted (R40). -/
def State.restartIsolation (s : State) : State :=
  s.setRoll
    { s.roll with isolationTimer := some (s.now + s.settings.silenceLimit * s.settings.rollPeriod) }

/-- What happens on every entry to JOINING (R21). -/
def State.enterJoining (s : State) : State :=
  let s := s.enter .joining
  let s := s.setLink (s.link.request .presence (.join (s.loader.digest.getD 0#16)))
  let s := s.restartIsolation
  let s := s.setRoll { s.roll with joinPeriod := none, joinSentAt := none }
  s.setDamage { s.damage with total := 0 }

/-- Entry to JOINING from LOADING or DETACHED: the Link Controller synchronises, the roll timer starts, and in FAULT
the Imager takes seen inactive afresh from the line (R2, R21, R29, R162). -/
def State.startJoining (s : State) : State :=
  let s := s.enterJoining
  let s := s.setLink { s.link with phase := .synchronising }
  let s := s.setRoll { s.roll with rollTimer := some (s.now + s.settings.rollPeriod) }
  s.setImager
    { s.imager with
      seenInactive := if s.imager.state = .fault then !s.imager.headReady else s.imager.seenInactive }

/-! ## Rejoin, halt, BARRED, DETACHED -/

/-- Rejoin, taken in JOINING, ACTIVE or DRAINING (R26). -/
def State.rejoin (s : State) : State :=
  if s.running then (s.clearBlocks .rejoin).enterJoining.latch .rejoined else s

/-- Entry to HALTED (R28). -/
def State.halt (s : State) : State :=
  let s := s.clearForHalt
  (s.setStation { s.station with state := .halted, barredReason := none }).latch .halted

/-- Entry to BARRED with a reason (R20). -/
def State.bar (s : State) (r : BarredReason) : State :=
  let s := s.clearForHalt
  (s.setStation { s.station with state := .barred, barredReason := some r }).latch .barred

/-- Entry to DETACHED when the LEAVE has been sent (R25, R23). -/
def State.detach (s : State) : State :=
  let s := s.setStation { s.station with state := .detached, resumePending := false }
  let s := s.setLink { s.link.emptied with phase := .passive }
  let s := s.setRoll
    { s.roll with
      peers := Vector.replicate 16 Peer.unknown, rollTimer := none, isolationTimer := none, joinPeriod := none,
      joinSentAt := none }
  let s := s.setBoard Board.cleared
  let s := s.setReceiver Receiver.afterReset
  let s := s.setUnpacker Unpacker.cleared
  let s := s.setRing Ring.cleared
  let s := s.setScreener Screener.cleared
  s.latch .drainComplete

/-! ## Leaving LOADING (R19, R174) -/

/-- A MEDIA OUT line that is asserted when the station leaves LOADING is taken as passing to asserted (R174). -/
def State.judgeMediaOut (s : State) : State := if s.imager.mediaOut then s.latch .mediaOut else s

/-- The end of loading: JOINING for VALID, BARRED with the reason for INVALID, HALTED where a halt was held (R19). -/
def State.leaveLoading (s : State) (result : Option BarredReason) : State :=
  let s := s.setLoader { s.loader with phase := .ended }
  let s :=
    if s.station.haltRegion.isSome then s.halt
    else match result with
      | some r => s.bar r
      | none => s.startJoining
  s.judgeMediaOut

/-! ## Reset (R19) -/

/-- Reset by the pin or by RESET STATION: every block at its reset values, LOADING. The waiting commands, the lines
that the platesetter drives and the contents of frame memory are not the part's to reset (log 1, log 7). -/
def State.resetPart (s : State) : State :=
  { State.reset with
    pending := s.pending
    freeCount := s.freeCount
    imager := { Imager.afterReset with headReady := s.imager.headReady, mediaOut := s.imager.mediaOut }
    frame := s.frame }

/-! ## Frame memory errors (R41, R42) -/

/-- Correctable errors that a step's reads met, counted in every station state (R41). -/
def State.countCorrected (s : State) (n : Nat) : State := s.raiseBy .corrected n

/-- An uncorrectable error (R42). -/
def State.uncorrectable (s : State) (r : Region) : State :=
  let s := s.raise .uncorrected
  let s := s.setStation { s.station with haltRegion := s.station.haltRegion.or (some r) }
  match s.station.state with
  | .joining | .active | .draining | .detached | .barred => s.halt
  | .loading | .halted => s

/-! ## DRAIN and RESUME (R22 to R24) -/

/-- DRAIN, taken in ACTIVE; with an empty job table the LEAVE is queued at once (R22, R23). -/
def State.drain (s : State) : State := (s.enter .draining).tableEmptied

/-- RESUME in DRAINING, by the LEAVE in the presence place (R24). -/
def State.resumeDraining (s : State) : State :=
  match s.link.presence with
  | some q =>
    if q.msg = .leave then
      (if q.inProgress then
        (s.setLink (s.link.withdraw .presence)).setStation { s.station with resumePending := true }
      else (s.setLink (s.link.withdraw .presence)).enter .active)
    else s.enter .active
  | none => s.enter .active

/-! ## Meanings -/

/-- RESET (R19): the reset pin. -/
def execReset (s : State) : Host.Outcome State Fault Refusal := .next s.resetPart

/-- JOIN_PERIOD_EXPIRY (R21). -/
def execJoinPeriodExpiry (s : State) : Host.Outcome State Fault Refusal :=
  .next (match s.roll.joinPeriod with
    | some deadline =>
      if s.station.state = .joining then
        let s := s.advanceTo deadline
        (s.setRoll { s.roll with joinPeriod := none }).enter .active
      else s
    | none => s)

/-- ISOLATION_TIMER_EXPIRY (R40). -/
def execIsolationTimerExpiry (s : State) : Host.Outcome State Fault Refusal :=
  .next (match s.roll.isolationTimer with
    | some deadline => (s.advanceTo deadline).rejoin
    | none => s)

/-- UNCORRECTABLE_ERROR (R42). -/
def execUncorrectableError (region : Region) (s : State) : Host.Outcome State Fault Refusal :=
  .next (s.uncorrectable region)

end Sys2Proof.Machine
end

