-- ==== Sys2Proof/Machine/Imager.lean ====
section
/-! DEFINITION. The Imager (chapter 9): loading, swaths, the drum watch, the head, ejects, the end of a hold, faults and
their recovery, MEDIA OUT. -/

namespace Sys2Proof.Machine

/-! ## The end of a hold (R161, R162, R166, R167) -/

/-- The ending reported for a held job. -/
def State.endingOf (s : State) (j : Job) : Ending :=
  if s.imager.disposition = some .good then .plateEnded
  else match s.imager.pendingCancel with
    | some r => .cancelled r
    | none => if j.retries < s.settings.retryLimit then .retry else .wasted

/-- The ending reported to Job Control; none for a disposal, which holds no job (R166). -/
def State.reportEnding (s : State) : State :=
  match s.imager.held with
  | none => s
  | some h =>
    match s.job h.slot with
    | none => s
    | some j => s.imagerEnding h.slot (s.endingOf j)

/-- The eject counted by its disposition; a load timeout has none (R167). -/
def State.countEject (s : State) : State :=
  match s.imager.disposition with
  | some .good => s.raise .imaged
  | some .scrap => s.raise .scrapped
  | some .returned => s.raise .returned
  | none => s

/-- The Imager with its hold cleared, in a state. -/
def Imager.released (i : Imager) (st : ImagerState) : Imager :=
  { i with
    state := st, held := none, plate := none, nextSwath := none, swathInOutput := false, disposition := none,
    pendingFault := none, pendingCancel := none, seenInactive := decide (st = .fault) && !i.headReady,
    disposal := none, loadTimer := none, ejectTimer := none,
    drum := { i.drum with running := false }, plateRequest := none, ejectLine := none, swathData := none }

/-- The Imager in FAULT, with HEAD FAULT latched (R161, R162). -/
def State.enterFault (s : State) : State := (s.setImager (s.imager.released .fault)).latch .headFault

/-- The Imager in IDLE, where the arbiter may choose at once (R153, R161). -/
def State.enterIdle (s : State) : State := (s.setImager (s.imager.released .idle)).arbitrate

/-- The end of a hold or of a disposal; `timeout` is whether a timeout ended it. -/
def State.endHold (s : State) (timeout : Bool) : State :=
  let s := s.countEject.reportEnding
  if timeout || s.imager.pendingFault.isSome then s.enterFault else s.enterIdle

/-! ## Loading (R154, R158, R164, R166) -/

/-- Entry to IMAGING: the drum watch starts, and a head that is not ready is lost. The load of the counter begins a new
tick of the prescaler (DESIGN CHOICE, log 21). -/
def State.enterImaging (s : State) : State :=
  let s := s.setImager
    { s.imager with
      state := .imaging, loadTimer := none, plateRequest := none, nextSwath := some 0, swathInOutput := false,
      drum := { running := true, counter := s.settings.windowMax, clocks := 0, indexSeen := false } }
  if s.imager.headReady then s else s.scrapForFault .headLost

/-- LOADED in LOADING. -/
def State.plateLoaded (s : State) : State :=
  match s.imager.disposal, s.imager.pendingCancel with
  | some .rejoin, _ => s.issueEject .returned
  | some .halt, _ => s.issueEject .scrap
  | none, some _ => s.issueEject .returned
  | none, none => s.enterImaging

/-- A line that is ignored where the Imager does not wait for it (R167). -/
def State.ignoreLine (s : State) : State := if s.running then s.raise .lineIgnored else s

/-! ## Swaths and the drum watch (R156, R157) -/

/-- The screened buffer of a SCREENED band. -/
def Band.screenedBuffer (b : Band) : Option Nat :=
  match b.state with
  | .screened n => some n
  | .awaited | .decoding | .queued | .screening => none

/-- The bits of swath `n`: 32 lines of the plate's width from its band's screened buffer (R156). -/
def swathBits (screened : Mem) (buffer n width : Nat) : List (List Bool) :=
  (List.range Config.swathLines).map fun l => (List.range width).map fun x =>
    screened.readDot buffer (Config.swathLines * (n % 8) + l) x

/-- The bits that the Imager sends for swath `n` of the job it holds. -/
def State.swathOf (s : State) (n : Nat) : Option (List (List Bool)) :=
  s.imager.held.bind fun h => (s.job h.slot).bind fun j => (j.band (n / 8)).screenedBuffer.map fun buffer =>
    swathBits s.frame.screened buffer n (s.settings.sizeClass j.sizeClass).width

/-- An INDEX on time: the counter is loaded again and the next swath goes out. The load of the counter begins a new
tick of the prescaler (DESIGN CHOICE, log 21). -/
def State.outputSwath (s : State) : State :=
  s.setImager
    { s.imager with
      swathInOutput := true, swathData := s.imager.nextSwath.bind s.swathOf,
      drum := { running := true, counter := s.settings.windowMax, clocks := 0, indexSeen := true } }

/-- An INDEX that comes too early: with a swath still in output, or, other than the first, with the counter above
the maximum less the minimum (R157). -/
def State.indexEarly (s : State) : Bool :=
  s.imager.swathInOutput
    || (s.imager.drum.indexSeen && decide (s.settings.windowMax - s.settings.windowMin < s.imager.drum.counter))

/-- An INDEX in IMAGING judged by the drum watch. -/
def State.judgeIndex (s : State) : State := if s.indexEarly then s.scrapForFault .drumEarly else s.outputSwath

/-- The station clocks until the counter of a running drum watch reaches 0 (R157). -/
def State.drumClocks (s : State) : Nat := s.imager.drum.counter * s.settings.prescaler - s.imager.drum.clocks

/-- The counter of a running drum watch reaches 0 (R157, R159). -/
def State.drumExpires (s : State) : State := (s.elapse s.drumClocks).scrapForFault .drumLate

/-- INDEX after `ticks` ticks of the drum watch. A counter at 0 already, or one that reaches 0 at an earlier station
clock, expires first: DRUM LATE at the moment it reaches 0, and the INDEX then finds the Imager in EJECTING and does
nothing. At the very clock at which the counter reaches 0 the INDEX comes first (R157, log 10). -/
def State.takeIndex (s : State) (ticks : Nat) : State :=
  let clocks := ticks * s.settings.prescaler
  if s.imager.drum.counter = 0 ∨ s.drumClocks < clocks then s.drumExpires.elapse (clocks - s.drumClocks)
  else (s.elapse clocks).judgeIndex

/-- The swath in output completed (R156, R164). A cancel pending at the last swath scraps the plate (log 14). -/
def State.completeSwath (s : State) : State :=
  let n := s.imager.nextSwath.getD 0 + 1
  let s := s.setImager { s.imager with swathInOutput := false, swathData := none, nextSwath := some n }
  if s.imager.pendingCancel.isSome then s.issueEject .scrap
  else if (s.imager.plate.map PlateGeometry.swathCount) = some n then s.issueEject .good
  else s

/-! ## The head (R158, R162) -/

/-- HEAD READY passes to not asserted. -/
def State.headLost (s : State) : State :=
  match s.imager.state with
  | .imaging => s.scrapForFault .headLost
  | .ejecting => s.recordFault .headLost
  | .fault => s.setImager { s.imager with seenInactive := true }
  | .idle | .loading => s

/-- HEAD READY passes to asserted. -/
def State.headBack (s : State) : State :=
  if s.imager.state = .fault ∧ s.imager.seenInactive = true then
    (s.setImager { s.imager with state := .idle, seenInactive := false }).arbitrate
  else s

/-- A change of HEAD READY, judged while the station is JOINING, ACTIVE or DRAINING (R162, R166, R174). -/
def State.headChanges (s : State) (asserted : Bool) : State :=
  let s := s.setImager { s.imager with headReady := asserted }
  if s.running then (if asserted then s.headBack else s.headLost) else s

/-- A change of MEDIA OUT, judged in every station state after LOADING (R163, R174). -/
def State.mediaChanges (s : State) (asserted : Bool) : State :=
  let s := s.setImager { s.imager with mediaOut := asserted }
  if s.station.state = .loading then s
  else if asserted then s.latch .mediaOut
  else s.arbitrate

/-! ## Meanings -/

/-- LOADED (R154). -/
def execLoaded (s : State) : Host.Outcome State Fault Refusal :=
  .next (if s.imager.state = .loading then s.plateLoaded else s.ignoreLine)

/-- LOAD_TIMEOUT (R155). -/
def execLoadTimeout (s : State) : Host.Outcome State Fault Refusal :=
  .next (match s.imager.loadTimer with
    | some deadline =>
      if s.imager.state = .loading then ((s.advanceTo deadline).recordFault .loadTimeout).endHold true else s
    | none => s)

/-- INDEX (R157). -/
def execIndex (ticks : Nat) (corrected : Nat) (s : State) : Host.Outcome State Fault Refusal :=
  let s := s.countCorrected corrected
  .next (if s.imager.state = .imaging then s.takeIndex ticks else s)

/-- SWATH_COMPLETE (R156). -/
def execSwathComplete (corrected : Nat) (s : State) : Host.Outcome State Fault Refusal :=
  let s := s.countCorrected corrected
  .next (if s.imager.state = .imaging ∧ s.imager.swathInOutput = true then s.completeSwath else s)

/-- DRUM_LATE (R157). -/
def execDrumLate (s : State) : Host.Outcome State Fault Refusal :=
  .next (if s.imager.state = .imaging ∧ s.imager.drum.running = true then s.drumExpires else s)

/-- HEAD_READY_CHANGE (R158, R162). -/
def execHeadReadyChange (asserted : Bool) (s : State) : Host.Outcome State Fault Refusal :=
  .next (if s.imager.headReady = asserted then s else s.headChanges asserted)

/-- EJECTED (R160). -/
def execEjected (s : State) : Host.Outcome State Fault Refusal :=
  .next (if s.imager.state = .ejecting then s.endHold false else s.ignoreLine)

/-- EJECT_TIMEOUT (R160). -/
def execEjectTimeout (s : State) : Host.Outcome State Fault Refusal :=
  .next (match s.imager.ejectTimer with
    | some deadline =>
      if s.imager.state = .ejecting then ((s.advanceTo deadline).recordFault .ejectTimeout).endHold true else s
    | none => s)

/-- MEDIA_OUT_CHANGE (R163). -/
def execMediaOutChange (asserted : Bool) (s : State) : Host.Outcome State Fault Refusal :=
  .next (if s.imager.mediaOut = asserted then s else s.mediaChanges asserted)

end Sys2Proof.Machine
end

