-- ==== Sys2Proof/Machine/Roll.lean ====
section
/-! DEFINITION. The Roll Unit (chapter 2.3 to 2.5): the periodic ROLL, the peer rules, silence, disowning and what
follows the sending of this station's own messages. -/

namespace Sys2Proof.Machine

/-! ## The roll (R29, R30, R31) -/

/-- The present map: this station's own bit and the bit of every PRESENT peer (R30). -/
def State.presentMap (s : State) : Nat :=
  flagWord ((List.finRange 16).map fun n =>
    decide (n = s.settings.station) || decide (s.roll.peers[n].state = .present))

/-- The number of this station's HELD jobs (R30). -/
def State.platesHeld (s : State) : Nat :=
  (allSlots.filter fun n => (s.job n).any fun j => decide (j.stage = .held)).length

/-- Slots 0, 2, 4, 6, 8 and 10 carry the condition code (R30). -/
def carriesCondition (slot : Nat) : Bool := slot % 2 == 0

/-- The item value of a roll slot (R30). -/
def State.rollItem (s : State) (slot : Nat) : Half :=
  BitVec.ofNat 16 (match slot with
    | 1 => s.bid
    | 3 => s.presentMap
    | 5 => s.board.ownedBy s.settings.station
    | 7 => s.platesHeld
    | 9 => s.damage.total
    | 11 => (s.loader.digest.getD 0#16).toNat
    | _ => s.conditionCode)

/-- A condition code computed with the overflow flag set sets the mark (R31). -/
def RollUnit.markCarried (r : RollUnit) : RollUnit :=
  { r with overflowMark := r.overflowMark || (carriesCondition r.slot && r.overflow) }

/-- Counter and slot advanced by one, from 15 and from 11 to 0 (R29). -/
def RollUnit.advance (r : RollUnit) : RollUnit :=
  { r with counter := (r.counter + 1) % 16, slot := (r.slot + 1) % 12 }

/-- The three things done at each expiry of the roll timer (R29). -/
def State.queueRoll (s : State) : State :=
  let m : Msg := .roll s.roll.counter s.roll.slot (s.rollItem s.roll.slot)
  (s.setLink (s.link.request .roll m)).setRoll s.roll.markCarried.advance

/-! ## Own messages sent (R32) -/

/-- The overflow flag cleared by a sent condition code that carried it, if the mark is still set (R31). -/
def RollUnit.overflowSent (r : RollUnit) (slot : Nat) (item : Half) : RollUnit :=
  { r with overflow := r.overflow && !(carriesCondition slot && item.getLsbD 6 && r.overflowMark) }

/-- The join period started at the sending of the JOIN (R21, R32). -/
def State.startJoinPeriod (s : State) : State :=
  s.setRoll
    { s.roll with
      joinSentAt := some s.now
      joinPeriod := some (s.now + s.settings.joinPeriod * s.settings.rollPeriod) }

/-- The Roll Unit takes this station's own sent message (R32). -/
def State.ownSent (s : State) (m : Msg) : State :=
  let s := s.restartIsolation
  match m with
  | .join _ => s.startJoinPeriod
  | .roll _ slot item => s.setRoll (s.roll.overflowSent slot item)
  | .leave | .claim _ _ _ | .done _ _ _ _ _ => s

/-! ## Peer records (R33, R34) -/

/-- The peer record of a station number. -/
def State.peer (s : State) (n : Station) : Peer := s.roll.peers[n]

/-- A peer record written. -/
def State.setPeer (s : State) (n : Station) (p : Peer) : State :=
  s.setRoll { s.roll with peers := s.roll.peers.set n p }

/-- The deadline of a silence timer that starts now (R35). -/
def State.silenceDeadline (s : State) : Nat := s.now + s.settings.silenceLimit * s.settings.rollPeriod

/-- A refreshed record: PRESENT, joining, the silence timer running and the heard mark taken (R33, R34). -/
def State.newPeer (s : State) : Peer :=
  { Peer.unknown with state := .present, joining := true, silence := some s.silenceDeadline, heard := some s.now }

/-- A message other than JOIN and LEAVE heard from a peer that is not LOST: an ABSENT one becomes PRESENT and
PEER JOINED is latched, and a PRESENT one has its timer restarted and its heard mark taken (R34). -/
def State.heardFrom (s : State) (n : Station) : State :=
  match (s.peer n).state with
  | .absent => (s.setPeer n s.newPeer).latch .peerJoined
  | .present | .lost =>
    s.setPeer n { s.peer n with silence := some s.silenceDeadline, heard := some s.now }

/-- A peer's digest stored and judged (R38). -/
def State.judgeDigest (s : State) (n : Station) (d : Half) : State :=
  let p := s.peer n
  let differs := decide (s.loader.digest ≠ some d)
  let s := s.setPeer n { p with items := { p.items with digest := some d }, digestMismatch := differs }
  if differs && !p.digestMismatch then s.latch .digestMismatch else s

/-- A JOIN: PEER JOINED is latched and the digest is judged; from a PRESENT peer it is a restart, which orphans the
peer's plates (R34, R36). -/
def State.takeJoin (s : State) (n : Station) (digest : Half) : State :=
  let s := if (s.peer n).state = .present then s.orphan n else s
  ((s.setPeer n s.newPeer).latch .peerJoined).judgeDigest n digest

/-- A LEAVE from a PRESENT peer (R37). -/
def State.takeLeave (s : State) (n : Station) : State := (s.setPeer n Peer.unknown).orphan n

/-! ## ROLL from a peer (R38, R39) -/

/-- The rolling counter noted: the ROLLs missed since the last one are added to the missed-roll count. -/
def Peer.noteCounter (p : Peer) (counter : Nat) : Peer :=
  { p with
    missed := match p.lastCounter with
      | some last => saturate Config.max8 p.missed ((counter + 15 - last) % 16)
      | none => p.missed
    lastCounter := some counter }

/-- A peer's plates owned judged against this station's board (R38). -/
def Peer.judgeOwned (p : Peer) (item : Half) (owned : Nat) : Peer :=
  { p with
    ownedMismatch := if item.toNat = owned then p.ownedMismatch else saturate Config.max8 p.ownedMismatch 1 }

/-- The five conditions of R39 for a present map from peer `n`. The time since the JOIN was sent is judged in whole
milliseconds of the timebase; R39 states no resolution (DESIGN CHOICE, log 28). -/
def State.disowned (s : State) (n : Station) (map : Half) : Bool :=
  s.running && decide ((s.peer n).state = .present) && !(s.peer n).joining
    && (s.roll.joinSentAt.any fun t => decide (t + s.settings.rollPeriod < s.now))
    && !map.getLsbD s.settings.station.val

/-- The item of a ROLL stored and judged (R38). -/
def State.takeItem (s : State) (n : Station) (slot : Nat) (item : Half) : State :=
  let p := s.peer n
  match slot with
  | 1 => s.setPeer n { p with items := { p.items with bid := some item } }
  | 3 =>
    let s := s.setPeer n { p with items := { p.items with presentMap := some item } }
    if s.disowned n item then s.rejoin else s
  | 5 => s.setPeer n ({ p with items := { p.items with platesOwned := some item } }.judgeOwned item (s.board.ownedBy n))
  | 7 => s.setPeer n { p with items := { p.items with platesHeld := some item } }
  | 9 => s.setPeer n { p with items := { p.items with damageTotal := some item } }
  | 11 => s.judgeDigest n item
  | _ => s.setPeer n { p with items := { p.items with condition := some item }, joining := item.getLsbD 0 }

/-- A ROLL from a PRESENT peer (R38). -/
def State.takeRoll (s : State) (n : Station) (counter slot : Nat) (item : Half) : State :=
  (s.setPeer n ((s.peer n).noteCounter counter)).takeItem n slot item

/-! ## The peer rules (R16, R34) -/

/-- An accepted message of a peer, taken under the peer rules and handed to its owner. -/
def State.takePeerMessage (s : State) (n : Station) (m : Msg) : State :=
  match m with
  | .join digest => s.takeJoin n digest
  | .leave => if (s.peer n).state = .present then s.takeLeave n else s
  | .roll counter slot item =>
    if (s.peer n).state = .lost then s else (s.heardFrom n).takeRoll n counter slot item
  | .claim key version _ =>
    if (s.peer n).state = .lost then s else (s.heardFrom n).takeClaim n key version none
  | .done key version outcome damaged first =>
    if (s.peer n).state = .lost then s else (s.heardFrom n).takeDone n key version outcome damaged first

/-- A peer falls silent (R35). -/
def State.loseContact (s : State) (n : Station) : State :=
  ((s.setPeer n { s.peer n with state := .lost, silence := none }).latch .peerLost).orphan n

/-! ## Meanings -/

/-- ROLL_TIMER_EXPIRY (R29). -/
def execRollTimerExpiry (s : State) : Host.Outcome State Fault Refusal :=
  .next (match s.roll.rollTimer with
    | some deadline =>
      let s := (s.advanceTo deadline).queueRoll
      s.setRoll { s.roll with rollTimer := some (deadline + s.settings.rollPeriod) }
    | none => s)

/-- SILENCE_TIMER_EXPIRY (R35). -/
def execSilenceTimerExpiry (peer : Station) (s : State) : Host.Outcome State Fault Refusal :=
  .next (match (s.peer peer).silence with
    | some deadline => (s.advanceTo deadline).loseContact peer
    | none => s)

end Sys2Proof.Machine
end

