-- ==== Sys2Proof/Machine/Link.lean ====
section
/-! DEFINITION. The Link Controller (chapter 1.2, 1.3, 1.6): openings, contention rounds, the body, the spoil window
and the hand-over of accepted messages. -/

namespace Sys2Proof.Machine

/-- The receive state changed. -/
def State.setPhase (s : State) (ph : LinkPhase) : State := s.setLink { s.link with phase := ph }

/-! ## Reports at the end of an opening (R14, R15, R24) -/

/-- A LEAVE was withdrawn: a resume pending takes the station to ACTIVE (R24). -/
def State.leaveWithdrawn (s : State) : State :=
  if s.station.resumePending then s.setStation { s.station with state := .active, resumePending := false } else s

/-- The message of a place. -/
def Link.message (l : Link) (p : Place) : Option Msg := (l.at p).map (·.msg)

/-- Job Control is told that the CLAIM of a slot was not sent (R15, R74). -/
def State.claimUnsent (s : State) (n : Slot) (r : Unsent) : State :=
  match r with
  | .returned => s.claimReturned n
  | .withdrawn => s.claimWithdrawn n

/-- The candidate of a place was not sent: the queue settles it and its block is told; Job Control acts on a CLAIM,
Station Control on a LEAVE withdrawn. -/
def State.reportUnsent (s : State) (p : Place) : State :=
  let s' := s.setLink (s.link.unsent p)
  match p, s.link.message p, s.link.unsentReport p with
  | .slot n, some (.claim _ _ _), r => s'.claimUnsent n r
  | .presence, _, .withdrawn => s'.leaveWithdrawn
  | _, _, _ => s'

/-- As `reportUnsent`, where there is a candidate. -/
def State.reportContender (s : State) (c : Option Place) : State :=
  match c with
  | some p => s.reportUnsent p
  | none => s

/-! ## Openings (R3) -/

/-- The candidate of a place put in progress with the present bid, its block told; Job Control keeps the flag of a
CLAIM (R3, R12, R15, R71). -/
def State.startCandidate (s : State) (p : Place) : State :=
  let s' := s.setLink (s.link.start p s.bid)
  match p, s.link.message p with
  | .slot n, some (.claim _ _ _) => s'.claimStarted n
  | _, _ => s'

/-- An opening begins. -/
def State.startOpening (s : State) : State :=
  match s.link.candidate with
  | some p => (s.startCandidate p).setPhase (.round (some p) [])
  | none => s.setPhase (.round none [])

/-! ## Contention rounds (R4, R5) -/

/-- The field of the contention key for the round after `n` rounds (R4). -/
def State.contentionField (s : State) (p : Place) (n : Nat) : Nat :=
  match s.link.at p with
  | none => 0
  | some q =>
    match n with
    | 0 => q.msg.rank
    | 1 => q.msg.value
    | _ => s.settings.station.val

/-- Longest hold of the round after `n` rounds, in link units (R1). -/
def longestHold : Nat → Nat
  | 0 => 4
  | 1 => 64
  | _ => 16

/-- A contender's own hold in link units; 0 for a station that does not contend (R4). -/
def State.ownHold (s : State) (c : Option Place) (n : Nat) : Nat :=
  match c with
  | some p => s.contentionField p n + 1
  | none => 0

/-- The receive state after a round was won: the next round, or the body with the winning key (R5). -/
def nextPhase (c : Option Place) : List Nat → LinkPhase
  | [rank, value, sender] =>
    .body (match c with | some p => .sender p | none => .receiver) { rank := rank, value := value, sender := sender }
  | won => .round c won

/-- A broken opening (R5). -/
def State.breakOpening (s : State) (c : Option Place) : State :=
  ((s.setPhase .waiting).raise .spoiled).reportContender c

/-- A round ends with the line low for `low` units, this station's own hold included. -/
def State.endRound (s : State) (c : Option Place) (won : List Nat) (low : Nat) : State :=
  if low = 0 then (if won = [] then s.setPhase .waiting else s.breakOpening c)
  else if longestHold won.length < low then s.breakOpening c
  else if s.ownHold c won.length = low then s.setPhase (nextPhase c (won ++ [low - 1]))
  else (s.setPhase (nextPhase none (won ++ [low - 1]))).reportContender c

/-! ## The body (R6, R7, R8) -/

/-- The sender's readback held: the line carried its own body (R8). -/
def State.readbackHeld (s : State) (p : Place) (framed : Bool) (bytes : List Byte) : Bool :=
  framed && (s.link.message p).any fun m => decide (bytes = encodeBody s.settings.station m)

/-- The body ends: what this station holds in the spoil window and what it has heard. -/
def State.endBody (s : State) (role : LinkRole) (key : WinningKey) (framed : Bool) (bytes : List Byte) : State :=
  match role with
  | .receiver =>
    let heard := judgeBody key framed bytes
    s.setPhase (.spoil .receiver heard.isNone heard)
  | .sender p => s.setPhase (.spoil (.sender p) (!s.readbackHeld p framed bytes) none)
  | .abandoned => s.setPhase (.spoil .abandoned true none)

/-! ## The spoil window (R9, R10, R16) -/

/-- The counts of a spoiled opening (R17). -/
def State.countSpoiled (s : State) (held : Bool) : State :=
  let s := s.raise .spoiled
  if held then s.raise .spoiledHere else s

/-- The opening ends spoiled. -/
def State.endSpoiled (s : State) (role : LinkRole) (held : Bool) : State :=
  let s := (s.setPhase .waiting).countSpoiled held
  match role with
  | .sender p => s.reportUnsent p
  | .receiver | .abandoned => s

/-- The slot of a place. -/
def Place.slot? : Place → Option Slot
  | .slot n => some n
  | .presence | .roll => none

/-- This station's own accepted message handed over (R16, R23, R86). -/
def State.handOverOwn (s : State) (p : Place) (m : Msg) : State :=
  match m with
  | .join _ | .roll _ _ _ => s
  | .leave => s.detach
  | .claim key version _ =>
    let s := match p.slot? with
      | some n => s.claimReturned n
      | none => s
    s.takeClaim s.settings.station key version p.slot?
  | .done key version outcome damaged first =>
    (s.addDamageTotal damaged).takeDone s.settings.station key version outcome damaged first

/-- This station's message is accepted (R9). -/
def State.acceptOwn (s : State) (p : Place) : State :=
  match s.link.message p with
  | none => s.setPhase .waiting
  | some m =>
    let s := (s.setLink { s.link.sent p with phase := .waiting }).raise .sent
    (s.ownSent m).handOverOwn p m

/-- Another station's message is accepted: the own-number check and the hand-over (R10, R16). -/
def State.acceptOther (s : State) (heard : Option (Station × Msg)) : State :=
  let s := s.setPhase .waiting
  match heard with
  | none => s
  | some (sender, m) =>
    if sender = s.settings.station then s.bar .duplicateNumber
    else (s.raise .taken).takePeerMessage sender m

/-- The spoil window ends; `low` is whether the line was low at any point of it (R9). -/
def State.endWindow (s : State) (role : LinkRole) (hold : Bool) (heard : Option (Station × Msg)) (low : Bool) : State :=
  if low || hold then s.endSpoiled role hold
  else match role with
    | .sender p => s.acceptOwn p
    | .receiver => s.acceptOther heard
    | .abandoned => s.setPhase .waiting

/-! ## Meanings -/

/-- LINK_SYNCHRONISED (R2). -/
def execLinkSynchronised (s : State) : Host.Outcome State Fault Refusal :=
  .next (match s.link.phase with
    | .synchronising => s.setPhase .waiting
    | _ => s)

/-- OPENING_START (R3): also after an empty round 1, which no station held. -/
def execOpeningStart (s : State) : Host.Outcome State Fault Refusal :=
  .next (match s.link.phase with
    | .waiting | .round none [] => s.startOpening
    | _ => s)

/-- CONTENTION_ROUND_END (R4, R5): `low` is the low period in link units; the line is low at least as long as this
station holds it. -/
def execContentionRoundEnd (low : Nat) (s : State) : Host.Outcome State Fault Refusal :=
  .next (match s.link.phase with
    | .round c won => s.endRound c won (max low (s.ownHold c won.length))
    | _ => s)

/-- BODY_END (R7, R8): `framed` is whether every byte had its start unit and its stop unit. -/
def execBodyEnd (framed : Bool) (bytes : List Byte) (s : State) : Host.Outcome State Fault Refusal :=
  .next (match s.link.phase with
    | .body role key => s.endBody role key framed bytes
    | _ => s)

/-- SPOIL_WINDOW_END (R9); an owed spoil window is counted and ends in passive (R18). -/
def execSpoilWindowEnd (low : Bool) (s : State) : Host.Outcome State Fault Refusal :=
  .next (match s.link.phase with
    | .spoil role hold heard => s.endWindow role hold heard low
    | .owed => (s.setPhase .passive).countSpoiled true
    | _ => s)

end Sys2Proof.Machine
end

