-- ==== Sys2Proof/Machine/Loader.lean ====
section
/-! DEFINITION. The Configuration Loader (chapter 10): the configuration image, the seven checks, the digest and the
loading of the blocks. -/

namespace Sys2Proof.Machine

/-! ## The image (R169, R187) -/

/-- A byte of the record as it was read; a memory that does not answer reads FFh. -/
def recordByte (record : List Byte) (a : Nat) : Byte := record.getD a 0xFF#8

/-- First byte of tile `t` in the record. -/
def tileOffset (t : Nat) : Nat := Config.tileBase + Config.tilePitch * t

/-- The number of values of a tile of the record. -/
def recordTileValues (record : List Byte) (t : Nat) : Nat :=
  nat16 (recordByte record (tileOffset t)) (recordByte record (tileOffset t + 1))
    * nat16 (recordByte record (tileOffset t + 2)) (recordByte record (tileOffset t + 3))

/-- The image keeps a byte: every byte but those of a tile area beyond the tile's values (R169). -/
def keptByte (record : List Byte) (a : Nat) : Bool :=
  if a < Config.tileBase ∨ Config.imagerBase ≤ a then true
  else
    let t := (a - Config.tileBase) / Config.tilePitch
    let i := (a - Config.tileBase) % Config.tilePitch
    decide (i < 5) || decide (i - 5 < recordTileValues record t)

/-- The configuration image of a record. -/
def imageOf (record : List Byte) : Mem :=
  (List.range Config.recordSize).foldl
    (fun m a => if keptByte record a then m.write a (recordByte record a) else m) []

/-! ## Fields of the image (R187) -/

/-- A one-byte field. -/
def field8 (m : Mem) (a : Nat) : Nat := (m.read a).toNat

/-- First byte of size class `k`. -/
def classOffset (k : Nat) : Nat := 9 + 5 * k

/-- First byte of the curve of separation `k`. -/
def curveOffset (k : Nat) : Nat := 29 + 17 * k

/-- The dot floor of separation `k`; its ceiling follows. -/
def floorOffset (k : Nat) : Nat := 97 + 2 * k

/-- First byte of fill pattern slot `k`. -/
def fillOffset (k : Nat) : Nat := 112 + 11 * k

/-- The settings that an image holds (R170, R187). -/
def settingsOf (m : Mem) : Settings :=
  { station := Fin.ofNat 16 (field8 m 0)
    claimWindow := m.read16 1, rollPeriod := m.read16 3, silenceLimit := field8 m 5, joinPeriod := field8 m 6,
    quietLimit := m.read16 7,
    classes := (List.range 4).map fun k =>
      { supported := field8 m (classOffset k) == 1, width := m.read16 (classOffset k + 1),
        height := m.read16 (classOffset k + 3) },
    curves := (List.range 4).map fun k => (List.range 17).map fun i => field8 m (curveOffset k + i),
    floors := (List.range 4).map fun k => field8 m (floorOffset k),
    ceilings := (List.range 4).map fun k => field8 m (floorOffset k + 1),
    faultTint := field8 m 105,
    actions := (List.range 5).map fun k => if field8 m (106 + k) = 1 then .hold else .tint,
    tintLimit := field8 m 111,
    fills := (List.range 4).map fun k =>
      { enabled := field8 m (fillOffset k) == 1, mask := m.readList (fillOffset k + 1) 8,
        crc := half (m.read (fillOffset k + 9)) (m.read (fillOffset k + 10)) },
    tiles := (List.range 16).map fun t =>
      { width := m.read16 (tileOffset t), height := m.read16 (tileOffset t + 2), step := field8 m (tileOffset t + 4) },
    loadTimeout := field8 m Config.imagerBase, ejectTimeout := field8 m (Config.imagerBase + 1),
    prescaler := field8 m (Config.imagerBase + 2), windowMin := m.read16 (Config.imagerBase + 3),
    windowMax := m.read16 (Config.imagerBase + 5), retryLimit := field8 m (Config.imagerBase + 7) }

/-! ## The checks (R171) -/

/-- A checked item: the byte offset that names it when it fails, and whether it passes. -/
abbrev Item := Nat × Bool

/-- The first failing item of a list. -/
def firstFailing (items : List Item) : Option Nat := (items.find? fun i => !i.2).map (·.1)

/-- A number within bounds. -/
def within (lo hi n : Nat) : Bool := decide (lo ≤ n) && decide (n ≤ hi)

/-- The ranges of one size class; the dimensions of a class that is not supported are not checked (R170). -/
def classItems (m : Mem) (k : Nat) : List Item :=
  let a := classOffset k
  let off := field8 m a == 0
  [(a, within 0 1 (field8 m a)),
   (a + 1, off || (within 1024 16384 (m.read16 (a + 1)) && m.read16 (a + 1) % 32 == 0)),
   (a + 3, off || (within 1024 24576 (m.read16 (a + 3)) && m.read16 (a + 3) % 32 == 0))]

/-- The ranges of one tile, named by its first byte (R170, R182). -/
def tilePasses (m : Mem) (t : Nat) : Bool :=
  let a := tileOffset t
  let w := m.read16 a
  let h := m.read16 (a + 2)
  within 8 256 w && within 8 256 h && decide (field8 m (a + 4) < w)
    && (List.range (w * h)).all fun i => decide (field8 m (a + 5 + i) ≤ 254)

/-- The items of the range check in the order of R170. -/
def rangeItems (m : Mem) : List Item :=
  [(0, within 0 15 (field8 m 0)), (1, within 5 500 (m.read16 1)), (3, within 20 1000 (m.read16 3)),
   (5, within 3 15 (field8 m 5)), (6, within 12 60 (field8 m 6)), (7, within 100 60000 (m.read16 7))]
  ++ (List.range 4).flatMap (classItems m)
  ++ (List.range 8).map (fun k => (97 + k, within 1 254 (field8 m (97 + k))))
  ++ [(105, within 1 254 (field8 m 105))]
  ++ (List.range 5).map (fun k => (106 + k, within 0 1 (field8 m (106 + k))))
  ++ [(111, within 0 96 (field8 m 111))]
  ++ (List.range 4).map (fun k => (fillOffset k, within 0 1 (field8 m (fillOffset k))))
  ++ (List.range 16).map (fun t => (tileOffset t, tilePasses m t))
  ++ [(Config.imagerBase, within 1 60 (field8 m Config.imagerBase)),
      (Config.imagerBase + 1, within 1 60 (field8 m (Config.imagerBase + 1))),
      (Config.imagerBase + 2, [1, 2, 4, 8, 16, 32, 64, 128].contains (field8 m (Config.imagerBase + 2))),
      (Config.imagerBase + 3, within 1 65535 (m.read16 (Config.imagerBase + 3))),
      (Config.imagerBase + 5, within 1 65535 (m.read16 (Config.imagerBase + 5))),
      (Config.imagerBase + 7, within 0 3 (field8 m (Config.imagerBase + 7)))]

/-- The curve of separation `k` starts at 0, ends at 255 and does not decrease. -/
def curvePasses (m : Mem) (k : Nat) : Bool :=
  let p (i : Nat) := field8 m (curveOffset k + i)
  p 0 == 0 && p 16 == 255 && (List.range 16).all fun i => decide (p i ≤ p (i + 1))

/-- The curves. -/
def curveItems (m : Mem) : List Item := (List.range 4).map fun k => (curveOffset k, curvePasses m k)

/-- The dot floor does not exceed the dot ceiling. -/
def floorItems (m : Mem) : List Item :=
  (List.range 4).map fun k => (floorOffset k, decide (field8 m (floorOffset k) ≤ field8 m (floorOffset k + 1)))

/-- Some damage action is TINT. -/
def someTint (m : Mem) : Bool := (List.range 5).any fun k => field8 m (106 + k) == 0

/-- The fault tint lies outside floor to ceiling, where some damage action is TINT. -/
def tintItems (m : Mem) : List Item :=
  (List.range 4).map fun k =>
    (floorOffset k, !(someTint m && within (field8 m (floorOffset k)) (field8 m (floorOffset k + 1)) (field8 m 105)))

/-- Some size class has its supported flag set. -/
def someClass (m : Mem) : Bool := (List.range 4).any fun k => field8 m (classOffset k) == 1

/-- The CRC-16 of every record byte before the checksum equals the checksum. -/
def checksumPasses (record : List Byte) : Bool :=
  decide (crc16 ((List.range Config.checksumBase).map (recordByte record)) =
    half (recordByte record Config.checksumBase) (recordByte record (Config.checksumBase + 1)))

/-- The reason and failing item of a check over items. -/
def itemCheck (reason : BarredReason) (items : List Item) : Option (BarredReason × Option Nat) :=
  (firstFailing items).map fun a => (reason, some a)

/-- The reason of a check without items. -/
def plainCheck (reason : BarredReason) (passes : Bool) : Option (BarredReason × Option Nat) :=
  if passes then none else some (reason, none)

/-- Checks 2 to 7, on the image, in order. -/
def imageFailure (m : Mem) : Option (BarredReason × Option Nat) :=
  (itemCheck .range (rangeItems m)).or
    ((itemCheck .curve (curveItems m)).or
      ((itemCheck .floorCeiling (floorItems m)).or
        ((itemCheck .tintGap (tintItems m)).or
          ((plainCheck .noClass (someClass m)).or
            (plainCheck .drumWindow
              (decide (m.read16 (Config.imagerBase + 3) < m.read16 (Config.imagerBase + 5))))))))

/-- The first failing check with its failing item; none for a VALID record. -/
def recordFailure (record : List Byte) : Option (BarredReason × Option Nat) :=
  (plainCheck .checksum (checksumPasses record)).or (imageFailure (imageOf record))

/-! ## The digest (R172) -/

/-- The CRC-16 of claim window, roll period, silence limit and join period as they stand in the record. -/
def digestOf (m : Mem) : Half := crc16 (m.readList 1 6)

/-! ## Loading the blocks (R173) -/

/-- The values of tile `t` written into the tile store. -/
def loadTile (image : Mem) (tiles : Mem) (t : Nat) : Mem :=
  let a := tileOffset t
  tiles.writeList (t * Config.tileArea) (image.readList (a + 5) (image.read16 a * image.read16 (a + 2)))

/-- Every block given its copies and the sixteen tiles written, in order of class and separation. -/
def State.loadBlocks (s : State) : State :=
  (s.setSettings (settingsOf s.loader.image)).setFrame
    { s.frame with tiles := (List.range 16).foldl (loadTile s.loader.image) s.frame.tiles }

/-- The result of the checks taken (R171, R172). -/
def State.takeChecks (s : State) (image : Mem) (failure : Option (BarredReason × Option Nat)) : State :=
  match failure with
  | none =>
    s.setLoader
      { s.loader with
        phase := .loadingBlocks, validity := .valid, reason := none, failing := none, image := image,
        digest := some (digestOf image) }
  | some (reason, failing) =>
    (s.setLoader
      { s.loader with
        validity := .invalid, reason := some reason, failing := failing, image := image,
        digest := none }).leaveLoading (some reason)

/-! ## Meanings -/

/-- CONFIGURATION_READ_DONE (R171). -/
def execConfigurationReadDone (record : List Byte) (s : State) : Host.Outcome State Fault Refusal :=
  .next (if s.station.state = .loading ∧ s.loader.phase = .reading then
    s.takeChecks (imageOf record) (recordFailure record)
  else s)

/-- LOADING_ENDED (R173, R19). -/
def execLoadingEnded (corrected : Nat) (s : State) : Host.Outcome State Fault Refusal :=
  let s := s.countCorrected corrected
  .next (if s.station.state = .loading ∧ s.loader.phase = .loadingBlocks then s.loadBlocks.leaveLoading none else s)

end Sys2Proof.Machine
end

