-- ==== Sys2Proof/Machine/PageLine.lean ====
section
/-! DEFINITION. The Page Line Receiver (chapter 5): framing, header failures, attribution, the admission cursor, the
three checks, the holding queue, end markers and quiet timers. -/

namespace Sys2Proof.Machine

/-- The framing state changed. -/
def State.setFraming (s : State) (f : Framing) : State := s.setReceiver { s.receiver with framing := f }

/-- A record put at the tail of the holding queue (R99). -/
def State.append (s : State) (r : HoldingRecord) : State :=
  s.setReceiver { s.receiver with holding := s.receiver.holding ++ [r] }

/-! ## Header failures (R90) -/

/-- A header failure: the record is dropped and reported unattributed, and the receiver hunts. -/
def State.headerFails (s : State) (got : List Byte) : State :=
  (s.setFraming .hunting).reportUnattributed (rawHeader got)

/-! ## Attribution (R92) -/

/-- A record's job: one in RECEIVING with end-admitted clear. -/
def Job.takesRecords (j : Job) : Bool := decide (j.stage = .receiving) && !j.endAdmitted

/-! ## Duplicates (R93, R94) -/

/-- The duplicate test. -/
def Job.isDuplicate (j : Job) (band part : Nat) : Bool :=
  j.admission.any fun c => decide (band < c.band) || (decide (band = c.band) && (decide (part ≤ c.part) || c.last))

/-! ## Checks (R95, R96, R97) -/

/-- The first 64 payload bytes with each byte whose mask bit is clear replaced by 00h (R96). -/
def FillPattern.masked (f : FillPattern) (payload : List Byte) : List Byte :=
  (List.range 64).map fun i => if (byteAt f.mask (i / 8)).getLsbD (i % 8) then byteAt payload i else 0#8

/-- A payload of at least 64 bytes matches an enabled fill pattern slot (R96). -/
def FillPattern.matches (f : FillPattern) (payload : List Byte) : Bool :=
  f.enabled && decide (64 ≤ payload.length) && decide (crc16 (f.masked payload) = f.crc)

/-- A holding record is a fragment. -/
def HoldingRecord.isFragment (r : HoldingRecord) : Bool :=
  match r.body with
  | .fragment _ _ _ _ _ => true
  | .endMarker _ => false

/-- All fragment places are taken (R97). -/
def Receiver.isFull (r : Receiver) : Bool :=
  decide (Config.fragmentPlaces ≤ (r.holding.filter HoldingRecord.isFragment).length)

/-- A fragment that was framed: its header as received with the fields the receiver reads from it, its payload, its
CRC bytes as received, and whether a start marker cut it short (R89). -/
structure Arrived where
  header  : List Byte
  band    : Nat
  part    : Nat
  last    : Bool
  payload : List Byte
  crc     : List Byte
  cut     : Bool
deriving DecidableEq, Repr

/-- The header capture: header bytes 1 to 8 and the CRC bytes as received (R183). -/
def Arrived.capture (a : Arrived) : List Byte := (a.header.take 9).drop 1 ++ a.crc

/-- The payload CRC check fails (R95). -/
def Arrived.failsCrc (a : Arrived) : Bool :=
  a.cut || decide (crc16 a.payload ≠ half (byteAt a.crc 0) (byteAt a.crc 1))

/-- A check failed: the fragment is dropped and its band marked (R95 to R97). -/
def State.dropMarked (s : State) (n : Slot) (a : Arrived) (kind : DamageKind) : State :=
  s.markDamage n a.band kind (some a.part) (some a.capture)

/-- The Roll Unit's overflow flag set and its mark cleared (R31, R97). -/
def State.noteOverflow (s : State) : State := s.setRoll { s.roll with overflow := true, overflowMark := false }

/-- A job's quiet timer restarted (R98, R101). -/
def State.restartQuiet (s : State) (n : Slot) : State :=
  s.modifyJob n fun j => { j with quiet := some (s.now + s.settings.quietLimit) }

/-- A fragment admitted (R98). -/
def State.admitFragment (s : State) (n : Slot) (j : Job) (a : Arrived) : State :=
  let r : HoldingRecord :=
    { slot := n, generation := j.generation, key := j.key, version := j.version,
      body := .fragment a.band a.part a.last a.payload a.capture }
  ((s.append r).raise .admitted).restartQuiet n

/-- The admission cursor moved to a taken fragment (R93). -/
def State.moveCursor (s : State) (n : Slot) (a : Arrived) : State :=
  s.modifyJob n fun j => { j with admission := some { band := a.band, part := a.part, last := a.last } }

/-- A taken fragment meets the three checks in order (R95 to R98). -/
def State.checkFragment (s : State) (n : Slot) (j : Job) (a : Arrived) : State :=
  let s := s.moveCursor n a
  if a.failsCrc then s.dropMarked n a .check
  else if s.settings.fills.any fun f => f.matches a.payload then s.dropMarked n a .fill
  else if s.receiver.isFull then ((s.dropMarked n a .overflow).latch .holdingOverflow).noteOverflow
  else s.admitFragment n j a

/-- A fragment of a live job judged (R92, R94). -/
def State.judgeArrived (s : State) (n : Slot) (j : Job) (a : Arrived) : State :=
  if j.takesRecords = false then s.reportLate
  else if j.bandCount ≤ a.band then s.reportUnattributed (rawHeader a.header)
  else if j.isDuplicate a.band a.part then s.reportDuplicate
  else s.checkFragment n j a

/-- A complete FRAGMENT attributed by its key and version (R92). -/
def State.takeArrived (s : State) (key : PlateKey) (version : Nat) (a : Arrived) : State :=
  match s.jobFor key version with
  | none => s.raise .passedOver
  | some n =>
    match s.job n with
    | none => s
    | some j => s.judgeArrived n j a

/-- The CRC bytes of a fragment with `len` payload bytes of which `got` arrived after the header; a byte that never
arrived is a free value (log 5). -/
def State.crcBytes (s : State) (len : Nat) (got : List Byte) : List Byte :=
  [got.getD len (Config.freeByte s.freeCount), got.getD (len + 1) (Config.freeByte (s.freeCount + 1))]

/-- A FRAGMENT is complete, or was cut short, and is judged; the receiver hunts (R89). -/
def State.completeFragment (s : State) (header got : List Byte) (cut : Bool) : State :=
  match headerFields header with
  | some (.fragment key version band part last len) =>
    let a : Arrived :=
      { header := header, band := band, part := part, last := last, payload := got.take len,
        crc := s.crcBytes len got, cut := cut }
    let s := if cut then s.setFreeCount (s.freeCount + 2) else s
    (s.setFraming .hunting).takeArrived key version a
  | _ => s.setFraming .hunting

/-! ## Ends of plates (R100, R102) -/

/-- An end marker admitted for a job: end-admitted is set and the quiet timer stops. -/
def State.admitEnd (s : State) (n : Slot) (j : Job) (origin : EndOrigin) : State :=
  let r : HoldingRecord :=
    { slot := n, generation := j.generation, key := j.key, version := j.version, body := .endMarker origin }
  (s.append r).modifyJob n fun j => { j with endAdmitted := true, quiet := none }

/-- A complete PLATE END (R92, R100). -/
def State.takePlateEnd (s : State) (key : PlateKey) (version : Nat) : State :=
  match s.jobFor key version with
  | none => s.raise .passedOver
  | some n =>
    match s.job n with
    | none => s
    | some j => if j.takesRecords then (s.admitEnd n j .plateEnd).raise .admitted else s.reportLate

/-! ## Framing (R89) -/

/-- A whole header judged (R90): a failure, a complete record, or the beginning of a payload. -/
def State.wholeHeader (s : State) (got : List Byte) : State :=
  match judgeHeader got with
  | none => s.headerFails got
  | some (.plate key version size screen rank) => (s.setFraming .hunting).takeHeader key version size screen rank
  | some (.plateEnd key version) => (s.setFraming .hunting).takePlateEnd key version
  | some (.fragment _ _ _ _ _ _) => s.setFraming (.payload got [])

/-- The header bytes so far judged (R89). -/
def State.takeHeaderBytes (s : State) (got : List Byte) : State :=
  match headerLength (byteAt got 0) with
  | none => s.headerFails got
  | some n => if got.length < n then s.setFraming (.header got) else s.wholeHeader got

/-- Bytes that follow a FRAGMENT header: the payload and two CRC bytes (R183). -/
def payloadBytes (header : List Byte) : Nat := nat16 (byteAt header 7) (byteAt header 8) + 2

/-- The payload bytes so far judged (R89). -/
def State.takePayloadBytes (s : State) (header got : List Byte) : State :=
  if got.length < payloadBytes header then s.setFraming (.payload header got)
  else s.completeFragment header got false

/-- One byte symbol of the page line (R89). -/
def State.feedByte (s : State) (b : Byte) : State :=
  match s.receiver.framing with
  | .hunting => s
  | .header got => s.takeHeaderBytes (got ++ [b])
  | .payload header got => s.takePayloadBytes header (got ++ [b])

/-- Byte symbols of the page line, while the station processes it (R88). -/
def State.feed (s : State) (bytes : List Byte) : State := if s.running then bytes.foldl State.feedByte s else s

/-- The record in progress cut short by a start marker (R89). -/
def State.cutShort (s : State) : State :=
  match s.receiver.framing with
  | .hunting => s
  | .header got => s.headerFails got
  | .payload header got => s.completeFragment header got true

/-! ## Meanings -/

/-- START_MARKER (R89): the byte symbols before it, then the marker. -/
def execStartMarker (bytes : List Byte) (s : State) : Host.Outcome State Fault Refusal :=
  .next (if s.running then ((s.feed bytes).cutShort).setFraming (.header []) else s)

/-- PLATE_HEADER (R91, R47): the byte symbols that complete the record. -/
def execPlateHeader (bytes : List Byte) (s : State) : Host.Outcome State Fault Refusal := .next (s.feed bytes)

/-- HEADER_FAILURE (R90): the byte symbols up to the failure. -/
def execHeaderFailure (bytes : List Byte) (s : State) : Host.Outcome State Fault Refusal := .next (s.feed bytes)

/-- FRAGMENT (R92): the byte symbols that complete the record. -/
def execFragment (bytes : List Byte) (s : State) : Host.Outcome State Fault Refusal := .next (s.feed bytes)

/-- PLATE_END (R100): the byte symbols that complete the record. -/
def execPlateEnd (bytes : List Byte) (s : State) : Host.Outcome State Fault Refusal := .next (s.feed bytes)

/-- QUIET_TIMER_EXPIRY (R102). -/
def execQuietTimerExpiry (slot : Slot) (s : State) : Host.Outcome State Fault Refusal :=
  .next (match s.job slot with
    | none => s
    | some j =>
      match j.quiet with
      | none => s
      | some deadline => ((s.advanceTo deadline).admitEnd slot j .quiet).raise .quietEnds)

end Sys2Proof.Machine
end

