-- ==== Sys2Proof/Machine/Port.lean ====
section
/-! DEFINITION. The Maintenance Port (chapter 11): the input byte, commands and their data bytes, the responses, and
the action commands. -/

namespace Sys2Proof.Machine

/-! ## Response layouts (R177, R182) -/

/-- READ STATUS. The barred reason and failing item, and the halt region, are fields present in a stated state. -/
def State.statusResponse (s : State) : List Byte :=
  [byteOf s.station.state.code]
    ++ opt8 (s.station.barredReason.map BarredReason.code)
    ++ failingBytes (if s.station.state = .barred then s.loader.failing else none)
    ++ opt8 (s.station.haltRegion.map regionCode)
    ++ [byteOf s.loader.validity.code, flagByte s.station.resumePending, byteOf s.imager.state.code]
    ++ opt8 (s.imager.lastFault.map ImagerFault.code)
    ++ [flagByte s.imager.headReady, flagByte s.imager.mediaOut]

/-- READ ATTENTION. -/
def Port.attentionResponse (p : Port) : List Byte := bytes16 p.latch.toNat ++ bytes16 p.mask.toNat

/-- The place of a slot holds a queued DONE. -/
def State.doneQueued (s : State) (n : Slot) : Bool :=
  s.link.slots[n].any fun q => match q.msg with
    | .done _ _ _ _ _ => true
    | _ => false

/-- The ready order of a stage. -/
def Stage.readyOrder : Stage → Option Nat
  | .ready order => some order
  | .receiving | .closing | .imaging | .held | .cancelling _ => none

/-- The cancel reason of a stage. -/
def Stage.cancelReason : Stage → Option CancelReason
  | .cancelling r => some r
  | .receiving | .closing | .ready _ | .imaging | .held => none

/-- The admission cursor with its flag. -/
def admissionBytes (c : Option AdmissionCursor) : List Byte :=
  match c with
  | some c => [flagByte true, byteOf c.band, byteOf c.part, flagByte c.last]
  | none => [0x00#8, 0x00#8, 0x00#8, 0x00#8]

/-- The fields of R64 in their order, but for the band table and the damage record (log 13). -/
def Job.bytes (j : Job) (n : Slot) : List Byte :=
  [byteOf n.val] ++ bytes16 j.generation ++ [byteOf j.standing.code, byteOf j.stage.code] ++ j.key.encode
    ++ [byteOf j.version, byteOf j.sizeClass, byteOf j.screeningClass, byteOf j.rank, byteOf j.bandCount,
        flagByte j.endAdmitted, flagByte j.endProcessed, flagByte j.quiet.isSome]
    ++ admissionBytes j.admission ++ opt8 j.cursor.current ++ [byteOf j.cursor.nextPart] ++ bytes32 j.cursor.pixels
    ++ opt8 j.cursor.buffer ++ [byteOf j.screenedCount, byteOf j.retries] ++ opt32 j.stage.readyOrder
    ++ opt8 (j.stage.cancelReason.map CancelReason.code) ++ [flagByte j.claimInProgress]
    ++ opt8 (j.withdrawal.map WithdrawalCause.code)

/-- READ JOB; a free slot's job fields read 00h (log 13). -/
def State.jobResponse (s : State) (n : Slot) : List Byte :=
  [flagByte (s.job n).isSome, flagByte (s.doneQueued n)]
    ++ match s.job n with
      | some j => j.bytes n
      | none => List.replicate 41 0x00#8

/-- One band of READ BAND MAP. -/
def Band.mapBytes (b : Band) : List Byte :=
  byteOf (b.state.code * 16 + kindCode b.kind) ::
    match b.state with
    | .screened n => bytes16 n
    | .awaited | .decoding | .queued | .screening => bytes16 Config.max16

/-- READ BAND MAP. -/
def State.bandMapResponse (s : State) (n : Slot) (first : Nat) : List Byte :=
  bytes16 s.jobs.generations[n]
    ++ match s.job n with
      | some j => ((j.bands.drop first).take 16).flatMap Band.mapBytes
      | none => []

/-- The first-damage record with its flag. -/
def firstDamageBytes (f : Option FirstDamage) : List Byte :=
  match f with
  | some f =>
    [flagByte true, byteOf f.kind.code, byteOf f.band] ++ opt8 f.part
      ++ (flagByte f.capture.isSome :: f.capture.getD (List.replicate 10 0x00#8))
      ++ bytes16 f.counts.check ++ bytes16 f.counts.fill ++ bytes16 f.counts.overflow ++ bytes16 f.counts.gap
      ++ bytes16 f.counts.format
  | none => List.replicate 26 0x00#8

/-- The damage kinds of a band table, one nibble each, the lower band in the high nibble (log 13). With an odd band
count the spare nibble, the low one of the last byte, is 0 (DESIGN CHOICE, log 22). -/
def kindNibbles : List Band → List Byte
  | [] => []
  | [b] => [byteOf (kindCode b.kind * 16)]
  | b :: c :: rest => byteOf (kindCode b.kind * 16 + kindCode c.kind) :: kindNibbles rest

/-- READ DAMAGE; a free slot has an empty response (log 12). -/
def State.damageResponse (s : State) (n : Slot) (page : Nat) : List Byte :=
  match s.job n with
  | none => []
  | some j =>
    if page = 0 then [byteOf j.verdict.code, byteOf j.damagedCount] ++ firstDamageBytes j.firstDamage
    else kindNibbles j.bands

/-- The owner of an entry. -/
def EntryState.owner : EntryState → Option Station
  | .owned n | .orphaned n | .done n _ _ _ => some n
  | .contested _ | .untaken => none

/-- The window deadline of an entry. -/
def EntryState.deadline : EntryState → Option Nat
  | .contested d => some d
  | .owned _ | .untaken | .orphaned _ | .done _ _ _ _ => none

/-- The outcome, damaged band count and first damage kind of an entry. -/
def EntryState.result : EntryState → Option (DoneOutcome × Nat × Option DamageKind)
  | .done _ o d f => some (o, d, f)
  | .contested _ | .owned _ | .untaken | .orphaned _ => none

/-- A time remaining, as an optional field (R182). -/
def optTime (o : Option Nat) : List Byte := flagByte o.isSome :: timeBytes (o.getD 0)

/-- A board entry with its fields in the order of R43, at time `now`; the time to its window deadline is a difference of
whole milliseconds (DESIGN CHOICE, log 28). -/
def BoardEntry.bytes (e : BoardEntry) (now : Nat) : List Byte :=
  e.key.encode ++ [byteOf e.version, byteOf e.state.code] ++ opt8 (e.state.owner.map Fin.val)
    ++ opt8 (e.info.map HeaderInfo.sizeClass) ++ opt8 (e.info.map HeaderInfo.rank)
    ++ optTime (e.state.deadline.map fun d => d - now)
    ++ opt8 (e.state.result.map fun r => r.1.code) ++ opt8 (e.state.result.map fun r => r.2.1)
    ++ [byteOf (kindCode (e.state.result.bind fun r => r.2.2))] ++ bytes32 e.stamp

/-- An entry's fields, 00h where there is none. -/
def entryBytes (e : Option BoardEntry) (now : Nat) : List Byte :=
  match e with
  | some e => e.bytes now
  | none => List.replicate 25 0x00#8

/-- READ BOARD (R60). -/
def State.boardResponse (s : State) (place : Nat) : List Byte :=
  flagByte (s.board.entries[place]?).isSome :: entryBytes s.board.entries[place]? s.now

/-- The lowest place at or above a start place whose entry is in the state of a code (R60). -/
def Board.find (b : Board) (code start : Nat) : Option Nat :=
  (List.range b.entries.length).find? fun i =>
    decide (start ≤ i) && (b.entries[i]?).any fun e => decide (e.state.code = code)

/-- FIND BOARD (R60). -/
def State.findResponse (s : State) (code start : Nat) : List Byte :=
  let p := s.board.find code start
  flagByte p.isSome :: bytes16 (p.getD 0) ++ entryBytes (p.bind fun i => s.board.entries[i]?) s.now

/-- An item of a peer record. -/
def itemBytes (o : Option Half) : List Byte := opt16 (o.map BitVec.toNat)

/-- READ PEER: the fields of R33 in their order, the silence timer as a flag, the heard mark as the time elapsed, a
difference of whole milliseconds (DESIGN CHOICE, log 28). -/
def State.peerResponse (s : State) (n : Station) : List Byte :=
  let p := s.roll.peers[n]
  [byteOf p.state.code, flagByte p.joining] ++ opt8 p.lastCounter ++ [byteOf p.missed]
    ++ itemBytes p.items.condition ++ itemBytes p.items.bid ++ itemBytes p.items.presentMap
    ++ itemBytes p.items.platesOwned ++ itemBytes p.items.platesHeld ++ itemBytes p.items.damageTotal
    ++ itemBytes p.items.digest
    ++ [flagByte p.digestMismatch, byteOf p.ownedMismatch, flagByte p.silence.isSome]
    ++ optTime (p.heard.map fun t => s.now - t)

/-- READ LOG. -/
def DamageLog.bytes (l : DamageLog) : List Byte :=
  bytes16 l.unattributed ++ bytes16 l.late ++ bytes16 l.stale ++ bytes16 l.duplicate
    ++ (flagByte l.rawHeader.isSome :: l.rawHeader.getD (List.replicate 16 0x00#8))

/-- READ COUNTERS: up to 16 counts from a first one (R178). -/
def Port.counterResponse (p : Port) (first : Nat) : List Byte :=
  ((p.counts.toList.drop first).take 16).flatMap bytes32

/-! ## Answers (R176) -/

/-- A command executed with its response. -/
def State.answer (s : State) (response : List Byte) : State :=
  s.setPort { s.port with command := none, response := response, ready := true, refused := false }

/-- A command refused. -/
def State.refuse (s : State) : State :=
  s.setPort { s.port with command := none, response := [], ready := true, refused := true }

/-- An action command taken when its condition holds and refused otherwise (R179). -/
def State.act (s : State) (taken : Bool) (effect : State) : State := if taken then effect.answer [] else s.refuse

/-- A command about a slot 0 to 7; another value is out of range. -/
def State.onSlot (s : State) (b : Byte) (f : Slot → State) : State :=
  if h : b.toNat < 8 then f ⟨b.toNat, h⟩ else s.refuse

/-! ## Commands (R177 to R180) -/

/-- CLEAR ATTENTION and SET MASK use the attention cause word, bits 15 to 8 first (R186). -/
def wordOf (data : List Byte) : Half := half (byteAt data 0) (byteAt data 1)

/-- READ STATUS, 01h. -/
def State.runReadStatus (s : State) : State := s.answer s.statusResponse

/-- READ ATTENTION, 02h. -/
def State.runReadAttention (s : State) : State := s.answer s.port.attentionResponse

/-- CLEAR ATTENTION, 03h (R180). -/
def State.runClearAttention (s : State) (data : List Byte) : State :=
  (s.setPort { s.port with latch := s.port.latch &&& ~~~wordOf data }).answer []

/-- SET MASK, 04h (R180). -/
def State.runSetMask (s : State) (data : List Byte) : State :=
  (s.setPort { s.port with mask := wordOf data }).answer []

/-- READ JOB, 10h. -/
def State.runReadJob (s : State) (data : List Byte) : State :=
  s.onSlot (byteAt data 0) fun n => s.answer (s.jobResponse n)

/-- READ BAND MAP, 11h. -/
def State.runReadBandMap (s : State) (data : List Byte) : State :=
  s.onSlot (byteAt data 0) fun n =>
    if (byteAt data 1).toNat ≤ 95 then s.answer (s.bandMapResponse n (byteAt data 1).toNat) else s.refuse

/-- READ DAMAGE, 12h. -/
def State.runReadDamage (s : State) (data : List Byte) : State :=
  s.onSlot (byteAt data 0) fun n =>
    if (byteAt data 1).toNat ≤ 1 then s.answer (s.damageResponse n (byteAt data 1).toNat) else s.refuse

/-- READ BOARD, 18h. -/
def State.runReadBoard (s : State) (data : List Byte) : State :=
  let place := nat16 (byteAt data 0) (byteAt data 1)
  if place < Config.boardPlaces then s.answer (s.boardResponse place) else s.refuse

/-- FIND BOARD, 19h. -/
def State.runFindBoard (s : State) (data : List Byte) : State :=
  let start := nat16 (byteAt data 1) (byteAt data 2)
  if (byteAt data 0).toNat ≤ 4 ∧ start < Config.boardPlaces then
    s.answer (s.findResponse (byteAt data 0).toNat start)
  else s.refuse

/-- READ PEER, 1Ch. -/
def State.runReadPeer (s : State) (data : List Byte) : State :=
  if h : (byteAt data 0).toNat < 16 then s.answer (s.peerResponse ⟨(byteAt data 0).toNat, h⟩) else s.refuse

/-- READ COUNTERS, 20h (R178). -/
def State.runReadCounters (s : State) (data : List Byte) : State :=
  if (byteAt data 0).toNat ≤ 20 then s.answer (s.port.counterResponse (byteAt data 0).toNat) else s.refuse

/-- CLEAR COUNTERS, 21h (R178). -/
def State.runClearCounters (s : State) : State :=
  (s.setPort { s.port with counts := Vector.replicate 21 0 }).answer []

/-- READ LOG, 22h. -/
def State.runReadLog (s : State) : State := s.answer s.damage.log.bytes

/-- CLEAR LOG, 23h (R145). -/
def State.runClearLog (s : State) : State := (s.setDamage { s.damage with log := DamageLog.empty }).answer []

/-- READ SETTING, 28h. -/
def State.runReadSetting (s : State) (data : List Byte) : State :=
  let offset := (byteAt data 0).toNat * 65536 + nat16 (byteAt data 1) (byteAt data 2)
  s.answer (s.loader.image.readList offset 64)

/-- RELEASE, 30h (R84, R147). -/
def State.runRelease (s : State) (data : List Byte) : State :=
  s.onSlot (byteAt data 0) fun n =>
    s.act ((s.job n).any fun j => decide (j.stage = .held))
      ((s.modifyJob n fun j => { j with verdict := .released }).enterReady n)

/-- DROP, 31h (R83). -/
def State.runDrop (s : State) (data : List Byte) : State :=
  s.onSlot (byteAt data 0) fun n => s.act (s.job n).isSome (s.dropJob n)

/-- DRAIN, 32h (R22). -/
def State.runDrain (s : State) : State := s.act (decide (s.station.state = .active)) s.drain

/-- RESUME, 33h (R24). -/
def State.runResume (s : State) : State :=
  match s.station.state with
  | .draining => s.act true s.resumeDraining
  | .detached => s.act true s.startJoining
  | .loading | .barred | .joining | .active | .halted => s.refuse

/-- RESET STATION, 3Fh (R179). The port takes its reset values with the rest of the part. -/
def State.runResetStation (s : State) : State := s.resetPart

/-! ## Taking bytes (R175, R176) -/

/-- The number of data bytes a command takes; none where the byte names no command. -/
def commandData (code : Byte) : Option Nat :=
  match code.toNat with
  | 0x01 | 0x02 | 0x21 | 0x22 | 0x23 | 0x32 | 0x33 | 0x3F => some 0
  | 0x10 | 0x1C | 0x20 | 0x30 | 0x31 => some 1
  | 0x03 | 0x04 | 0x11 | 0x12 | 0x18 => some 2
  | 0x19 | 0x28 => some 3
  | _ => none

/-- A command executed with all its data bytes. -/
def State.execute (s : State) (code : Byte) (data : List Byte) : State :=
  match code.toNat with
  | 0x01 => s.runReadStatus
  | 0x02 => s.runReadAttention
  | 0x03 => s.runClearAttention data
  | 0x04 => s.runSetMask data
  | 0x10 => s.runReadJob data
  | 0x11 => s.runReadBandMap data
  | 0x12 => s.runReadDamage data
  | 0x18 => s.runReadBoard data
  | 0x19 => s.runFindBoard data
  | 0x1C => s.runReadPeer data
  | 0x20 => s.runReadCounters data
  | 0x21 => s.runClearCounters
  | 0x22 => s.runReadLog
  | 0x23 => s.runClearLog
  | 0x28 => s.runReadSetting data
  | 0x30 => s.runRelease data
  | 0x31 => s.runDrop data
  | 0x32 => s.runDrain
  | 0x33 => s.runResume
  | 0x3F => s.runResetStation
  | _ => s.refuse

/-- A pending command abandoned, the response emptied, READY and REFUSED cleared (R176). -/
def State.beginCommand (s : State) : State :=
  s.setPort { s.port with command := none, response := [], ready := false, refused := false }

/-- In LOADING the port takes READ STATUS only (R176). -/
def State.admitsCommand (s : State) (code : Byte) : Bool := decide (s.station.state ≠ .loading) || code == 0x01#8

/-- The port takes a command byte (R176). -/
def State.takeCommandByte (s : State) (code : Byte) : State :=
  let s := s.beginCommand
  match commandData code with
  | none => s.refuse
  | some n =>
    if s.admitsCommand code = false then s.refuse
    else if n = 0 then s.execute code []
    else s.setPort { s.port with command := some { code := code, got := [] } }

/-- The port takes a data byte (R175, R176). -/
def State.takeDataByte (s : State) (b : Byte) : State :=
  match s.port.command with
  | none => s.raise .strayData
  | some c =>
    let got := c.got ++ [b]
    if got.length < (commandData c.code).getD 0 then
      s.setPort { s.port with command := some { c with got := got } }
    else (s.setPort { s.port with command := none }).execute c.code got

/-- The input byte emptied (R175). -/
def State.clearInput (s : State) : State := s.setPort { s.port with inputByte := none }

/-- The port can take this command byte now: it stands in the input byte, or the input byte is empty and the lane
processor writes it in this step (log 11). -/
def Port.ready? (p : Port) (code : Byte) : Bool :=
  decide (p.inputByte = none ∨ p.inputByte = some (.command, code))

/-- A command byte and the data bytes that follow it in the same step, each written and taken; all of them are lost
where another byte fills the input byte (log 11). -/
def State.portCommand (s : State) (code : Byte) (data : List Byte) : State :=
  if s.port.ready? code then data.foldl State.takeDataByte (s.clearInput.takeCommandByte code)
  else s.raiseBy .overrun (1 + data.length)

/-- A byte written to the input byte (R175). -/
def State.writeInput (s : State) (address : PortAddress) (byte : Byte) : State :=
  match s.port.inputByte with
  | none => s.setPort { s.port with inputByte := some (address, byte) }
  | some _ => s.raise .overrun

/-- A read of the data address (R177). -/
def State.readData (s : State) : State :=
  s.setPort { s.port with response := s.port.response.tail, lastRead := s.port.response.headD 0x00#8 }

/-! ## Meanings -/

/-- INPUT_BYTE_WRITE (R175). -/
def execInputByteWrite (address : PortAddress) (byte : Byte) (s : State) : Host.Outcome State Fault Refusal :=
  .next (s.writeInput address byte)

/-- DATA_BYTE_TAKEN (R176): the port takes the data byte that the input byte holds. -/
def execDataByteTaken (s : State) : Host.Outcome State Fault Refusal :=
  .next (match s.port.inputByte with
    | some (.data, b) => s.clearInput.takeDataByte b
    | some (.command, _) | none => s)

/-- UNKNOWN_COMMAND (R176). -/
def execUnknownCommand (code : Byte) (s : State) : Host.Outcome State Fault Refusal := .next (s.portCommand code [])

/-- DATA_READ (R177). -/
def execDataRead (s : State) : Host.Outcome State Fault Refusal := .next s.readData

/-- READ_STATUS (R177). -/
def execReadStatus (s : State) : Host.Outcome State Fault Refusal := .next (s.portCommand 0x01#8 [])

/-- READ_ATTENTION (R177). -/
def execReadAttention (s : State) : Host.Outcome State Fault Refusal := .next (s.portCommand 0x02#8 [])

/-- READ_JOB (R177). -/
def execReadJob (data : List Byte) (s : State) : Host.Outcome State Fault Refusal := .next (s.portCommand 0x10#8 data)

/-- READ_BAND_MAP (R177). -/
def execReadBandMap (data : List Byte) (s : State) : Host.Outcome State Fault Refusal :=
  .next (s.portCommand 0x11#8 data)

/-- READ_DAMAGE (R177). -/
def execReadDamage (data : List Byte) (s : State) : Host.Outcome State Fault Refusal :=
  .next (s.portCommand 0x12#8 data)

/-- READ_BOARD (R60). -/
def execReadBoard (data : List Byte) (s : State) : Host.Outcome State Fault Refusal := .next (s.portCommand 0x18#8 data)

/-- FIND_BOARD (R60). -/
def execFindBoard (data : List Byte) (s : State) : Host.Outcome State Fault Refusal := .next (s.portCommand 0x19#8 data)

/-- READ_PEER (R177). -/
def execReadPeer (data : List Byte) (s : State) : Host.Outcome State Fault Refusal := .next (s.portCommand 0x1C#8 data)

/-- READ_LOG (R177). -/
def execReadLog (s : State) : Host.Outcome State Fault Refusal := .next (s.portCommand 0x22#8 [])

/-- READ_SETTING (R177). -/
def execReadSetting (data : List Byte) (s : State) : Host.Outcome State Fault Refusal :=
  .next (s.portCommand 0x28#8 data)

/-- READ_COUNTERS (R178). -/
def execReadCounters (data : List Byte) (s : State) : Host.Outcome State Fault Refusal :=
  .next (s.portCommand 0x20#8 data)

/-- CLEAR_COUNTERS (R178). -/
def execClearCounters (s : State) : Host.Outcome State Fault Refusal := .next (s.portCommand 0x21#8 [])

/-- CLEAR_LOG (R145). -/
def execClearLog (s : State) : Host.Outcome State Fault Refusal := .next (s.portCommand 0x23#8 [])

/-- SET_MASK (R180). -/
def execSetMask (data : List Byte) (s : State) : Host.Outcome State Fault Refusal := .next (s.portCommand 0x04#8 data)

/-- CLEAR_ATTENTION (R180). -/
def execClearAttention (data : List Byte) (s : State) : Host.Outcome State Fault Refusal :=
  .next (s.portCommand 0x03#8 data)

/-- RELEASE (R84). -/
def execRelease (data : List Byte) (s : State) : Host.Outcome State Fault Refusal := .next (s.portCommand 0x30#8 data)

/-- DROP (R83). -/
def execDrop (data : List Byte) (s : State) : Host.Outcome State Fault Refusal := .next (s.portCommand 0x31#8 data)

/-- DRAIN (R22). -/
def execDrain (s : State) : Host.Outcome State Fault Refusal := .next (s.portCommand 0x32#8 [])

/-- RESUME (R24). -/
def execResume (s : State) : Host.Outcome State Fault Refusal := .next (s.portCommand 0x33#8 [])

/-- RESET_STATION (R179). -/
def execResetStation (s : State) : Host.Outcome State Fault Refusal := .next (s.portCommand 0x3F#8 [])

end Sys2Proof.Machine
end

