-- ==== Sys2Proof/Machine/Screener.lean ====
section
/-! DEFINITION. The Screener (chapter 7.4 to 7.9): taking descriptors, tone curves, clamp, threshold tiles and the tile
walker, writing screened bands and finishing them. -/

namespace Sys2Proof.Machine

/-! ## Output values (R132, R133) -/

/-- A point of a separation's tone curve. -/
def Settings.point (c : Settings) (sep : Sep) (k : Nat) : Nat := (c.curves.getD sep.code []).getD k 0

/-- The tone curve (R132). -/
def Settings.curveValue (c : Settings) (sep : Sep) (t : Nat) : Nat :=
  if t = 0 then 0
  else if t = 255 then 255
  else
    let k := t / 16
    c.point sep k + (c.point sep (k + 1) - c.point sep k) * (t % 16) / 16

/-- The clamp at the dot floor and ceiling of the separation (R133). -/
def Settings.clamp (c : Settings) (sep : Sep) (u : Nat) : Nat :=
  if u < c.floors.getD sep.code 0 then 0
  else if c.ceilings.getD sep.code 0 < u then 255
  else u

/-- The output value of a tone. -/
def Settings.output (c : Settings) (sep : Sep) (t : Nat) : Nat := c.clamp sep (c.curveValue sep t)

/-! ## Threshold tiles (R134, R135) -/

/-- The number of the tile of a screening class and separation. -/
def tileNumber (screeningClass : Nat) (sep : Sep) : Nat := screeningClass * 4 + sep.code

/-- The shape of a tile. -/
def Settings.tile (c : Settings) (n : Nat) : TileShape := c.tiles.getD n { width := 0, height := 0, step := 0 }

/-- The threshold of a tile at a row base and a column (log 7: the tiles stand 65536 bytes apart). -/
def threshold (tiles : Mem) (n row col : Nat) : Nat := (tiles.read (n * Config.tileArea + row + col)).toNat

/-- The row base the walker sets at the start of plate line `y`. -/
def TileShape.rowBase (t : TileShape) (y : Nat) : Nat := y % t.height * t.width

/-- The column the walker sets at the start of plate line `y`. -/
def TileShape.firstColumn (t : TileShape) (y : Nat) : Nat := t.step * (y / t.height) % t.width

/-- The walker's column advanced by one, back to 0 when it reaches the tile width. -/
def TileShape.nextColumn (t : TileShape) (col : Nat) : Nat := if col + 1 = t.width then 0 else col + 1

/-- The threshold that R134 gives for the pixel at plate line `y` and column `x`. -/
def TileShape.thresholdAt (t : TileShape) (tiles : Mem) (n y x : Nat) : Nat :=
  threshold tiles n (y % t.height * t.width) ((x + t.step * (y / t.height)) % t.width)

/-! ## Screening a band (R131, R136) -/

/-- What is constant while one band is screened. -/
structure ScreenJob where
  settings : Settings
  sep      : Sep
  tileNo   : Nat
  width    : Nat
  band     : Nat
  buffer   : Option Nat
  screened : Nat
deriving DecidableEq, Repr

/-- The output value of the pixel at column `x` of line `l`: from its tone, or the fault tint for a damaged band. -/
def ScreenJob.outputAt (c : ScreenJob) (f : FrameMemory) (l x : Nat) : Nat :=
  match c.buffer with
  | some b => c.settings.output c.sep (f.bands.read (bandAddress b l x)).toNat
  | none => c.settings.faultTint

/-- One pixel: its dot decided against the walker's threshold and written, the walker's column advanced. -/
def ScreenJob.pixel (c : ScreenJob) (f : FrameMemory) (l rowBase : Nat) (m : Mem × Nat) (x : Nat) : Mem × Nat :=
  (m.1.writeDot c.screened l x (decide (threshold f.tiles c.tileNo rowBase m.2 < c.outputAt f l x)),
   (c.settings.tile c.tileNo).nextColumn m.2)

/-- One line, from column 0 to column W - 1. -/
def ScreenJob.line (c : ScreenJob) (f : FrameMemory) (m : Mem) (l : Nat) : Mem :=
  let t := c.settings.tile c.tileNo
  let y := c.band * Config.bandLines + l
  ((List.range c.width).foldl (c.pixel f l (t.rowBase y)) (m, t.firstColumn y)).1

/-- All lines of the band. -/
def ScreenJob.write (c : ScreenJob) (f : FrameMemory) (lines : Nat) : Mem :=
  (List.range lines).foldl (c.line f) f.screened

/-- What the Screener writes for its current band. -/
def State.screenJob (s : State) (c : CurrentBand) : ScreenJob :=
  { settings := s.settings, sep := c.sep, tileNo := tileNumber c.screeningClass c.sep,
    width := (s.settings.sizeClass c.sizeClass).width, band := c.band, buffer := c.buffer, screened := c.screened }

/-- Every line of the current band written, whether or not its job still lives (R66, R130, R131, R136). -/
def State.writeScreened (s : State) (c : CurrentBand) : State :=
  s.setFrame
    { s.frame with
      screened := (s.screenJob c).write s.frame (bandLinesOf (s.settings.sizeClass c.sizeClass).height c.band) }

/-! ## Taking a descriptor (R127, R128) -/

/-- The current band of a descriptor and its job, with the walker at the band's first line (R127, R135). -/
def State.currentOf (s : State) (d : Descriptor) (j : Job) (screened : Nat) : CurrentBand :=
  let y := d.band * Config.bandLines
  let t := s.settings.tile (tileNumber j.screeningClass j.key.sep)
  { slot := d.slot, generation := s.jobs.generations[d.slot], band := d.band, buffer := d.buffer,
    screened := screened, sizeClass := j.sizeClass, screeningClass := j.screeningClass, sep := j.key.sep,
    plateLine := y, column := 0, walkerRow := t.rowBase y, walkerCol := t.firstColumn y }

/-- The entry at the consumer index taken: a void descriptor is skipped, another becomes the current band. A
descriptor that is not void names a live job (R128), and a free screened buffer is there (R129). -/
def State.takeEntry (s : State) (d : Descriptor) : State :=
  if d.void then (s.setRing s.ring.advance).returnBuffer d.buffer
  else match s.job d.slot, s.screener.store with
    | some j, x :: rest =>
      ((s.setRing s.ring.advance).setScreener { current := some (s.currentOf d j x), store := rest }).modifyJob d.slot
        fun j => j.modifyBand d.band fun b => { b with state := .screening }
    | _, _ => s

/-! ## Finishing a band (R130) -/

/-- A band SCREENED in its job, which may be assessed (R137, R77). -/
def State.recordScreened (s : State) (c : CurrentBand) : State :=
  (s.modifyJob c.slot fun j =>
    { j.modifyBand c.band fun b => { b with state := .screened c.screened } with
      screenedCount := j.screenedCount + 1 }).assessIfComplete c.slot

/-- The finish by what the slot holds: the band is recorded, or its screened buffer returns and a cancellation is
completed. A band that the slot's job has not in SCREENING is of a job 65536 generations before: it is not recorded
(DESIGN CHOICE, log 25). -/
def State.finishBand (s : State) (c : CurrentBand) : State :=
  let s := (s.setScreener { s.screener with current := none }).returnBuffer c.buffer
  match s.job c.slot with
  | none => s.returnScreened c.screened
  | some j =>
    if j.generation = c.generation then
      match j.stage with
      | .receiving | .closing =>
        if (j.band c.band).state = .screening then s.recordScreened c else s.returnScreened c.screened
      | .cancelling r => (s.returnScreened c.screened).endJob c.slot r.outcome
      | .ready _ | .imaging | .held => s.returnScreened c.screened
    else s.returnScreened c.screened

/-- The current band written and finished. -/
def State.bandFinished (s : State) (c : CurrentBand) : State := (s.writeScreened c).finishBand c

/-! ## Meanings -/

/-- SCREENER_TAKE (R128). -/
def execScreenerTake (s : State) : Host.Outcome State Fault Refusal :=
  .next (match s.screener.current with
    | some _ => s
    | none =>
      if s.ring.isEmpty then s
      else match s.ring.entries[s.ring.consumer].descriptor with
        | some d => s.takeEntry d
        | none => s)

/-- BAND_FINISHED (R130). -/
def execBandFinished (corrected : Nat) (s : State) : Host.Outcome State Fault Refusal :=
  let s := s.countCorrected corrected
  .next (match s.screener.current with
    | some c => s.bandFinished c
    | none => s)

end Sys2Proof.Machine
end

