-- ==== Sys2Proof/Machine/Unpacker.lean ====
section
/-! DEFINITION. The Unpacker (chapter 6): taking records, band and part order, beginning and ending bands, decoding
run codes, end markers and the waits for a buffer and for ring room. -/

namespace Sys2Proof.Machine

/-! ## Band geometry (R107) -/

/-- The width of a job's plate. -/
def State.plateWidth (s : State) (j : Job) : Nat := (s.settings.sizeClass j.sizeClass).width

/-- The lines of band `b` of a job's plate. -/
def State.linesOfBand (s : State) (j : Job) (b : Nat) : Nat :=
  bandLinesOf (s.settings.sizeClass j.sizeClass).height b

/-- The pixel count of band `b` of a job's plate. -/
def State.pixelCount (s : State) (j : Job) (b : Nat) : Nat := s.plateWidth j * s.linesOfBand j b

/-! ## Ending bands (R117) -/

/-- The Unpacker waits for ring room. -/
def Unpacker.waitsForRing (u : Unpacker) : Bool :=
  match u.work with
  | .waitRing _ _ => true
  | .free | .decoding | .waitBuffer => false

/-- The Unpacker's work changed. -/
def State.setWork (s : State) (w : UnpackWork) : State := s.setUnpacker { s.unpacker with work := w }

/-- A cursor whose band ended complete: the buffer stays until the descriptor enters the ring. -/
def UnpackCursor.ended (c : UnpackCursor) : UnpackCursor := { UnpackCursor.empty with buffer := c.buffer }

/-- A placed descriptor's band QUEUED in the band table; a complete band's buffer has passed to the descriptor. -/
def Job.placed (j : Job) (d : Descriptor) : Job :=
  { j.modifyBand d.band fun b => { b with state := .queued } with
    cursor := if d.buffer.isSome then { j.cursor with buffer := none } else j.cursor }

/-- A descriptor enters the ring (R125, R117). -/
def State.placeDescriptor (s : State) (d : Descriptor) : State :=
  (s.setRing (s.ring.place d)).modifyJob d.slot fun j => j.placed d

/-- A descriptor placed, or held ready while the ring is full (R117). -/
def State.offerDescriptor (s : State) (d : Descriptor) (after : AfterRing) : State :=
  if s.ring.isFull then s.setWork (.waitRing d after) else s.placeDescriptor d

/-- Band `b` of a slot's job ended with the kind its table entry carries, or complete where it carries none. -/
def State.endBand (s : State) (n : Slot) (b : Nat) (after : AfterRing) : State :=
  match s.job n with
  | none => s
  | some j =>
    if (j.band b).kind.isSome then
      let s := (s.returnBuffer j.cursor.buffer).modifyJob n fun j => { j with cursor := UnpackCursor.empty }
      s.offerDescriptor { slot := n, band := b, buffer := none, void := false } after
    else
      let s := s.modifyJob n fun j => { j with cursor := j.cursor.ended }
      s.offerDescriptor { slot := n, band := b, buffer := j.cursor.buffer, void := false } after

/-- GAP reported on a band that carries no kind (R109, R118, R120). -/
def State.reportGap (s : State) (n : Slot) (b : Nat) : State :=
  if (s.job n).any fun j => (j.band b).kind.isNone then s.markDamage n b .gap none none else s

/-- A band ended with its kind, or as GAP; `taken` is the kind that the head record was taken with, kept over a wait
for ring room (R110). -/
def State.endAsGap (s : State) (n : Slot) (b : Nat) (taken : Option DamageKind) : State :=
  (s.reportGap n b).endBand n b (.judgeOn taken)

/-! ## Band order (R109, R118) -/

/-- The current band of a slot's job. -/
def State.currentBand (s : State) (n : Slot) : Option Nat := (s.job n).bind fun j => j.cursor.current

/-- The first step: a current band below `b` ends. -/
def State.endCurrentBelow (s : State) (n : Slot) (b : Nat) (taken : Option DamageKind) : State :=
  match s.currentBand n with
  | some c => if c < b then s.endAsGap n c taken else s
  | none => s

/-- One band of the second step: ended if it is AWAITED, unless the Unpacker waits for ring room. -/
def State.endIfAwaited (n : Slot) (taken : Option DamageKind) (s : State) (a : Nat) : State :=
  if !s.unpacker.waitsForRing && (s.job n).any fun j => decide ((j.band a).state = .awaited) then
    s.endAsGap n a taken
  else s

/-- Both steps: the current band below `b`, then every AWAITED band below `b` in increasing order. -/
def State.orderBands (s : State) (n : Slot) (b : Nat) (taken : Option DamageKind) : State :=
  (List.range b).foldl (State.endIfAwaited n taken) (s.endCurrentBelow n b taken)

/-! ## Fragments (R110, R111, R112) -/

/-- The head record dropped and counted in PARTS DISCARDED. -/
def State.discardHead (s : State) : State := (s.raise .partsDiscarded).finishHead

/-- A band ended as damaged, and the head record then dropped; a wait for ring room comes between. -/
def State.endAndDiscard (s : State) (n : Slot) (b : Nat) (taken : Option DamageKind) : State :=
  let s := s.endAsGap n b taken
  if s.unpacker.waitsForRing then s else s.discardHead

/-- A band begun with the lowest free buffer, or the wait for one (R112). -/
def State.beginBand (s : State) (n : Slot) (b : Nat) : State :=
  match s.unpacker.pool with
  | [] => s.setWork .waitBuffer
  | x :: rest =>
    (s.setUnpacker { work := .decoding, pool := rest }).modifyJob n fun j =>
      { j.modifyBand b fun e => { e with state := .decoding } with
        cursor := { current := some b, nextPart := 0, pixels := 0, buffer := some x } }

/-- A fragment that has passed the band order judged against its band and its part (R110, R111). `taken` is the
damage kind of the band as it stood when the record was taken: a kind marked since then, during a wait for ring room,
takes effect at the next record only (R110). A part of the current band below the next part, which R111 says does not
reach the Unpacker, does so once the slot's generation has come round: it ends the band as a part above the next does
(DESIGN CHOICE, log 25). -/
def State.judgeBand (s : State) (n : Slot) (b part : Nat) (taken : Option DamageKind) : State :=
  match s.job n with
  | none => s
  | some j =>
    match (j.band b).state with
    | .queued | .screening | .screened _ => s.discardHead
    | .decoding =>
      if taken.isSome ∨ part ≠ j.cursor.nextPart then s.endAndDiscard n b taken else s.setWork .decoding
    | .awaited =>
      if taken.isSome then s.discardHead
      else if part = 0 then s.beginBand n b
      else s.endAndDiscard n b taken

/-- A fragment that is not stale (R109 to R112). -/
def State.judgeFragment (s : State) (n : Slot) (b part : Nat) (taken : Option DamageKind) : State :=
  let s := s.orderBands n b taken
  if s.unpacker.waitsForRing then s else s.judgeBand n b part taken

/-! ## End markers (R118, R77) -/

/-- The end processed: the job passes to CLOSING, the marker leaves, and the job may be assessed. -/
def State.processEnd (s : State) (n : Slot) : State :=
  ((s.modifyJob n fun j => { j with endProcessed := true, stage := .closing }).finishHead).assessIfComplete n

/-- An end marker that is not stale. -/
def State.judgeEnd (s : State) (n : Slot) : State :=
  let s := s.orderBands n (((s.job n).map Job.bandCount).getD 0) none
  if s.unpacker.waitsForRing then s else s.processEnd n

/-! ## Taking records (R108) -/

/-- The stale judgement. -/
def State.isStale (s : State) (r : HoldingRecord) : Bool :=
  !(s.job r.slot).any fun j => decide (j.generation = r.generation ∧ j.stage = .receiving)

/-- The damage kind that a fragment's band carries now; an end marker has no band of its own. -/
def State.kindFor (s : State) (r : HoldingRecord) : Option DamageKind :=
  match r.body with
  | .fragment band _ _ _ _ => (s.job r.slot).bind fun j => (j.band band).kind
  | .endMarker _ => none

/-- A record that is not stale acted on by its kind; `taken` is the damage kind it was taken with. -/
def State.actOn (s : State) (r : HoldingRecord) (taken : Option DamageKind) : State :=
  match r.body with
  | .fragment band part _ _ _ => s.judgeFragment r.slot band part taken
  | .endMarker _ => s.judgeEnd r.slot

/-- The head record taken, from the stale judgement on. -/
def State.takeHead (s : State) : State :=
  match s.receiver.holding with
  | [] => s
  | r :: _ => if s.isStale r then s.dropStale else s.actOn r (s.kindFor r)

/-! ## Decoding (R113 to R116) -/

/-- The tone of pixel `i` of a run, at column `x` of line `l`; COPY ABOVE reads the line above back (R113, R114). -/
def Run.tone (r : Run) (m : Mem) (buffer l x i : Nat) : Byte :=
  match r with
  | .blank => 0#8
  | .solid => 0xFF#8
  | .toneRun t => t
  | .toneList ts => byteAt ts i
  | .copyAbove => m.read (bandAddress buffer (l - 1) x)

/-- One pixel of a run written at its raster position. -/
def Run.writePixel (r : Run) (buffer width pos : Nat) (m : Mem) (i : Nat) : Mem :=
  let l := (pos + i) / width
  let x := (pos + i) % width
  m.write (bandAddress buffer l x) (r.tone m buffer l x i)

/-- The pixels of a run written in raster order. -/
def Run.write (r : Run) (buffer width pos n : Nat) (m : Mem) : Mem :=
  (List.range n).foldl (r.writePixel buffer width pos) m

/-- The checks made before a run's pixels are written: no COPY ABOVE that begins on line 0, no pixel past the band's
last (R115). -/
def Run.fits (r : Run) (width count pos n : Nat) : Bool :=
  !(decide (r = .copyAbove) && decide (pos < width)) && decide (pos + n ≤ count)

/-- How the codes of a payload end: a FORMAT error, or the pixels decoded at the end of the payload. -/
inductive CodesEnd where
  | format
  | reached (pixels : Nat)
deriving DecidableEq, Repr

/-- A payload decoded code by code (R114). The code that reaches the count in a part without the last-part flag is
written before the FORMAT error is found (R115). `fuel` is at least the number of codes left. -/
def decodeCodes (buffer width count : Nat) (last : Bool) : Nat → List Byte → Nat → Mem → Mem × CodesEnd
  | _, [], pos, m => (m, .reached pos)
  | 0, _ :: _, _, m => (m, .format)
  | fuel + 1, b :: bs, pos, m =>
    match readRun (b :: bs) with
    | none => (m, .format)
    | some (r, n, rest) =>
      if r.fits width count pos n then
        let m := r.write buffer width pos n m
        if pos + n = count ∧ last = false then (m, .format)
        else decodeCodes buffer width count last fuel rest (pos + n) m
      else (m, .format)

/-- The three ways in which a part ends (R114). -/
inductive PartEnd where
  | format
  | complete
  | finished (pixels : Nat)
deriving DecidableEq, Repr

/-- The end of a part from the end of its codes: short of the count in a last part or in part 15 is FORMAT (R115). -/
def CodesEnd.partEnd (e : CodesEnd) (count : Nat) (part : Nat) (last : Bool) : PartEnd :=
  match e with
  | .format => .format
  | .reached p => if p = count then .complete else if last || decide (part = 15) then .format else .finished p

/-- The current band ended after its last record, which is then finished (R115, R116). -/
def State.endDecoding (s : State) (n : Slot) (b : Nat) : State :=
  let s := s.endBand n b .recordDone
  if s.unpacker.waitsForRing then s else s.finishHead

/-- The end of a part acted on. -/
def State.endPart (s : State) (n : Slot) (b part : Nat) (capture : List Byte) (e : PartEnd) : State :=
  match e with
  | .format => (s.markDamage n b .format (some part) (some capture)).endDecoding n b
  | .complete => (s.raise .bandsDecoded).endDecoding n b
  | .finished p =>
    (s.modifyJob n fun j => { j with cursor := { j.cursor with nextPart := j.cursor.nextPart + 1, pixels := p } }).finishHead

/-- A part decoded into a band buffer of a job. -/
def State.decodePart (s : State) (n : Slot) (j : Job) (b buffer part : Nat) (last : Bool)
    (payload capture : List Byte) : State :=
  let count := s.pixelCount j b
  let d := decodeCodes buffer (s.plateWidth j) count last payload.length payload j.cursor.pixels s.frame.bands
  (s.setFrame { s.frame with bands := d.1 }).endPart n b part capture (d.2.partEnd count part last)

/-- The decoding of the head fragment ends. -/
def State.partDecoded (s : State) : State :=
  match s.receiver.holding with
  | [] => s
  | r :: _ =>
    match r.body, s.job r.slot with
    | .fragment _ part last payload capture, some j =>
      match j.cursor.current, j.cursor.buffer with
      | some b, some buffer => s.decodePart r.slot j b buffer part last payload capture
      | _, _ => s
    | _, _ => s

/-! ## Waits (R112, R117) -/

/-- A waiting descriptor enters the ring and the Unpacker goes on from the point at which it waited. -/
def State.resumeAfterRing (s : State) (d : Descriptor) (after : AfterRing) : State :=
  let s := (s.placeDescriptor d).setWork .free
  match after, s.receiver.holding with
  | .recordDone, _ => s.finishHead
  | .judgeOn _, [] => s
  | .judgeOn taken, r :: _ => s.actOn r taken

/-! ## Meanings -/

/-- TAKE_HEAD_RECORD (R108). -/
def execTakeHeadRecord (corrected : Nat) (s : State) : Host.Outcome State Fault Refusal :=
  let s := s.countCorrected corrected
  .next (match s.unpacker.work with
    | .free => s.takeHead
    | .decoding | .waitBuffer | .waitRing _ _ => s)

/-- TAKE_HEAD_ANEW (R112): taken when the Unpacker waits for a buffer. -/
def execTakeHeadAnew (corrected : Nat) (s : State) : Host.Outcome State Fault Refusal :=
  let s := s.countCorrected corrected
  .next (match s.unpacker.work with
    | .waitBuffer => (s.setWork .free).takeHead
    | .free | .decoding | .waitRing _ _ => s)

/-- PART_DECODED (R114). -/
def execPartDecoded (corrected : Nat) (s : State) : Host.Outcome State Fault Refusal :=
  let s := s.countCorrected corrected
  .next (match s.unpacker.work with
    | .decoding => s.partDecoded
    | .free | .waitBuffer | .waitRing _ _ => s)

/-- DESCRIPTOR_ENTERS_RING (R117, R125). -/
def execDescriptorEntersRing (s : State) : Host.Outcome State Fault Refusal :=
  .next (match s.unpacker.work with
    | .waitRing d after => if s.ring.isFull then s else s.resumeAfterRing d after
    | .free | .decoding | .waitBuffer => s)

end Sys2Proof.Machine
end

