-- ==== Sys2Proof/Machine/Dispatch.lean ====
section
/-! DEFINITION. One arm for each command: its effect on everything but the queue of waiting commands. -/

namespace Sys2Proof.Machine

/-- The effect of a command. -/
def exec (i : Instr) (s : State) : Host.Outcome State Fault Refusal :=
  match i with
  | .reset => Sys2Proof.Machine.execReset s
  | .configurationReadDone record => Sys2Proof.Machine.execConfigurationReadDone record s
  | .loadingEnded corrected => Sys2Proof.Machine.execLoadingEnded corrected s
  | .linkSynchronised => Sys2Proof.Machine.execLinkSynchronised s
  | .openingStart => Sys2Proof.Machine.execOpeningStart s
  | .contentionRoundEnd low => Sys2Proof.Machine.execContentionRoundEnd low s
  | .bodyEnd framed bytes => Sys2Proof.Machine.execBodyEnd framed bytes s
  | .spoilWindowEnd low => Sys2Proof.Machine.execSpoilWindowEnd low s
  | .rollTimerExpiry => Sys2Proof.Machine.execRollTimerExpiry s
  | .joinPeriodExpiry => Sys2Proof.Machine.execJoinPeriodExpiry s
  | .silenceTimerExpiry peer => Sys2Proof.Machine.execSilenceTimerExpiry peer s
  | .isolationTimerExpiry => Sys2Proof.Machine.execIsolationTimerExpiry s
  | .uncorrectableError region => Sys2Proof.Machine.execUncorrectableError region s
  | .plateHeader bytes => Sys2Proof.Machine.execPlateHeader bytes s
  | .claimWindowExpiry place => Sys2Proof.Machine.execClaimWindowExpiry place s
  | .startMarker bytes => Sys2Proof.Machine.execStartMarker bytes s
  | .headerFailure bytes => Sys2Proof.Machine.execHeaderFailure bytes s
  | .fragment bytes => Sys2Proof.Machine.execFragment bytes s
  | .plateEnd bytes => Sys2Proof.Machine.execPlateEnd bytes s
  | .quietTimerExpiry slot => Sys2Proof.Machine.execQuietTimerExpiry slot s
  | .takeHeadRecord corrected => Sys2Proof.Machine.execTakeHeadRecord corrected s
  | .takeHeadAnew corrected => Sys2Proof.Machine.execTakeHeadAnew corrected s
  | .partDecoded corrected => Sys2Proof.Machine.execPartDecoded corrected s
  | .descriptorEntersRing => Sys2Proof.Machine.execDescriptorEntersRing s
  | .screenerTake => Sys2Proof.Machine.execScreenerTake s
  | .bandFinished corrected => Sys2Proof.Machine.execBandFinished corrected s
  | .loaded => Sys2Proof.Machine.execLoaded s
  | .loadTimeout => Sys2Proof.Machine.execLoadTimeout s
  | .index ticks corrected => Sys2Proof.Machine.execIndex ticks corrected s
  | .swathComplete corrected => Sys2Proof.Machine.execSwathComplete corrected s
  | .drumLate => Sys2Proof.Machine.execDrumLate s
  | .headReadyChange asserted => Sys2Proof.Machine.execHeadReadyChange asserted s
  | .ejected => Sys2Proof.Machine.execEjected s
  | .ejectTimeout => Sys2Proof.Machine.execEjectTimeout s
  | .mediaOutChange asserted => Sys2Proof.Machine.execMediaOutChange asserted s
  | .inputByteWrite address byte => Sys2Proof.Machine.execInputByteWrite address byte s
  | .dataByteTaken => Sys2Proof.Machine.execDataByteTaken s
  | .unknownCommand code => Sys2Proof.Machine.execUnknownCommand code s
  | .dataRead => Sys2Proof.Machine.execDataRead s
  | .readStatus => Sys2Proof.Machine.execReadStatus s
  | .readAttention => Sys2Proof.Machine.execReadAttention s
  | .readJob data => Sys2Proof.Machine.execReadJob data s
  | .readBandMap data => Sys2Proof.Machine.execReadBandMap data s
  | .readDamage data => Sys2Proof.Machine.execReadDamage data s
  | .readBoard data => Sys2Proof.Machine.execReadBoard data s
  | .findBoard data => Sys2Proof.Machine.execFindBoard data s
  | .readPeer data => Sys2Proof.Machine.execReadPeer data s
  | .readLog => Sys2Proof.Machine.execReadLog s
  | .readSetting data => Sys2Proof.Machine.execReadSetting data s
  | .readCounters data => Sys2Proof.Machine.execReadCounters data s
  | .clearCounters => Sys2Proof.Machine.execClearCounters s
  | .clearLog => Sys2Proof.Machine.execClearLog s
  | .setMask data => Sys2Proof.Machine.execSetMask data s
  | .clearAttention data => Sys2Proof.Machine.execClearAttention data s
  | .release data => Sys2Proof.Machine.execRelease data s
  | .drop data => Sys2Proof.Machine.execDrop data s
  | .drain => Sys2Proof.Machine.execDrain s
  | .resume => Sys2Proof.Machine.execResume s
  | .resetStation => Sys2Proof.Machine.execResetStation s

end Sys2Proof.Machine
end

