-- ==== Sys2Proof/Safety.lean ====
section
/-! DEFINITION. What the station keeps from step to step: the canonical form of its byte memories, the kinds of
message that its queue places hold, the laws of the board, of the reservation, of the link's passivity, of the holding
queue, of the Imager's job and of the band buffers. -/

namespace Sys2Proof.Machine

/-- Every byte memory is in its canonical form (log 7). -/
def State.memoriesCanonical (s : State) : Prop :=
  s.frame.bands.WF ∧ s.frame.screened.WF ∧ s.frame.tiles.WF ∧ s.loader.image.WF

/-- A place takes a message's kind (R11). -/
def Place.admits : Place → Msg → Bool
  | .roll, .roll _ _ _ => true
  | .presence, .join _ => true
  | .presence, .leave => true
  | .slot _, .claim _ _ _ => true
  | .slot _, .done _ _ _ _ _ => true
  | _, _ => false

/-- A queued message and its replacement suit their place (R11). -/
def Queued.suits (q : Queued) (p : Place) : Prop :=
  p.admits q.msg = true ∧ ∀ m, q.replacement = some m → p.admits m = true

/-- Every place holds only the kinds reserved for it (R11). -/
def Link.placesHold (l : Link) : Prop := ∀ p q, l.at p = some q → q.suits p

/-- The board has at most 512 entries, at most one for each key (R43, R44). -/
def Board.lawful (b : Board) : Prop :=
  b.entries.length ≤ Config.boardPlaces ∧ (b.entries.map (·.key)).Nodup

/-- The reservations of all live jobs together never exceed the screened store (R66). -/
def State.reservationFits (s : State) : Prop := s.reserved ≤ Config.screenedBuffers

/-- Outside JOINING, ACTIVE and DRAINING the Link Controller is passive, or finishes a spoil window it owes (R2,
R18). -/
def State.linkPassive (s : State) : Prop :=
  s.running = false → s.link.phase = .passive ∨ s.link.phase = .owed

/-! ## Laws that stand together -/

/-- Every OWNED entry names this station or a peer that it holds PRESENT (R55). The board of a station in LOADING is
empty (R61), so a new station number finds no entry. -/
def State.ownersLawful (s : State) : Prop :=
  (s.station.state = .loading → s.board.entries = []) ∧
  ∀ e ∈ s.board.entries, ∀ n, e.state = .owned n → n = s.settings.station ∨ (s.peer n).state = .present

/-- The holding queue has at most 8192 fragments and at most one end marker for each slot; a slot with an end marker has
a live job whose end is admitted and whose quiet timer is stopped (R99, R100, R102). -/
def State.holdingLawful (s : State) : Prop :=
  (s.receiver.holding.filter HoldingRecord.isFragment).length ≤ Config.fragmentPlaces ∧
  ∀ n, (s.receiver.holding.filter fun r => r.isEndOf n).length ≤ 1 ∧
    ((∃ r ∈ s.receiver.holding, r.isEndOf n = true) →
      ∃ j, s.job n = some j ∧ j.endAdmitted = true ∧ j.quiet = none)

/-- A JOIN stands in the queue only in JOINING before the join period, a LEAVE only in DRAINING with no live job, and
neither is ever replaced (R13, R21, R23). -/
def State.presenceLawful (s : State) : Prop :=
  ∀ q, s.link.presence = some q → q.replacement = none ∧
    (q.msg = .leave → s.station.state = .draining ∧ ∀ n, s.job n = none) ∧
    ∀ d, q.msg = .join d → s.station.state = .joining ∧ s.roll.joinPeriod = none

/-- A CONTENDING job is in RECEIVING or CLOSING, and only a CONTENDING job has a withdrawal cause (R64, R70, R71). -/
def Job.standingLawful (j : Job) : Prop :=
  (j.standing = .contending → j.stage = .receiving ∨ j.stage = .closing) ∧
  (j.withdrawal ≠ none → j.standing = .contending)

/-- A current band is a band of the plate in DECODING, and neither it nor a band below it is AWAITED (R107, R109). -/
def Job.cursorLawful (j : Job) : Prop :=
  ∀ c, j.cursor.current = some c →
    c < j.bands.length ∧ (∀ a, a ≤ c → (j.band a).state ≠ .awaited) ∧ (j.band c).state = .decoding

/-- Every live job keeps both laws. -/
def State.jobsLawful (s : State) : Prop := ∀ n j, s.job n = some j → j.standingLawful ∧ j.cursorLawful

/-- A job is in stage IMAGING exactly while the Imager holds it, and the Imager holds at most one job, a live one, and
only in LOADING, IMAGING and EJECTING (R152). -/
def State.imagerLawful (s : State) : Prop :=
  (∀ n j, s.job n = some j →
    (j.stage = .imaging ↔ s.imager.held = some { slot := n, generation := j.generation })) ∧
  ∀ h, s.imager.held = some h →
    s.imager.state.busy = true ∧ ∃ j, s.job h.slot = some j ∧ j.generation = h.generation

/-- A descriptor that waits for ring room is of a live job whose cursor, with no current band, still has the descriptor's
buffer; where the Unpacker will judge on, the record at the head is of that job, in RECEIVING (R105, R110, R117). With no
such wait a cursor without a current band has no buffer (R107). -/
def State.waitLawful (s : State) : Prop :=
  (∀ d after, s.unpacker.work = .waitRing d after →
    ∃ j, s.job d.slot = some j ∧ j.cursor.current = none ∧ j.cursor.buffer = d.buffer ∧
      ∀ taken, after = .judgeOn taken →
        j.stage = .receiving ∧ ∃ r rest, s.receiver.holding = r :: rest ∧ r.slot = d.slot ∧ r.generation = j.generation) ∧
  ∀ n j, s.job n = some j → j.cursor.current = none →
    (∀ d after, s.unpacker.work = .waitRing d after → d.slot ≠ n) → j.cursor.buffer = none

/-- The Screener's entries are those from the consumer index on up to the producer index (R124). -/
def Ring.lawful (r : Ring) : Prop :=
  (r.producerPass = r.consumerPass → r.consumer ≤ r.producer ∧
    ∀ i, r.owns i = decide (r.consumer ≤ i ∧ i < r.producer)) ∧
  (r.producerPass ≠ r.consumerPass → r.producer ≤ r.consumer ∧
    ∀ i, r.owns i = decide (r.consumer ≤ i ∨ i < r.producer))

/-- A slot's cursor has the buffer. -/
def State.cursorHas (s : State) (b : Nat) (n : Slot) : Bool :=
  decide ((s.job n).bind (fun j => j.cursor.buffer) = some b)

/-- A descriptor that is the Screener's to take has the buffer. -/
def Ring.has (r : Ring) (b : Nat) (i : Fin 32) : Bool :=
  r.owns i && decide (r.entries[i].descriptor.bind (fun d => d.buffer) = some b)

/-- The number of places that a buffer is in: the pool, the jobs' cursors, the ring's descriptors, the current band. -/
def State.buffersHeld (s : State) (b : Nat) : Nat :=
  s.unpacker.pool.count b + allSlots.countP (s.cursorHas b) + (List.finRange 32).countP (s.ring.has b)
    + (if s.screener.current.bind (fun c => c.buffer) = some b then 1 else 0)

/-- Each of the 16 band buffers is in exactly one place (R106). -/
def State.buffersLawful (s : State) : Prop :=
  ∀ b, s.buffersHeld b = if b < Config.bandBuffers then 1 else 0

/-- An entry that the Screener will make its current band: its own, with a descriptor that is not void (R128). -/
def Ring.takes (r : Ring) (i : Fin 32) (d : Descriptor) : Prop :=
  r.owns i = true ∧ r.entries[i].descriptor = some d ∧ d.void = false

/-- The states in the band table of a slot's live job; a free slot has no bands. -/
def State.bandStates (s : State) (n : Slot) : List BandState :=
  ((s.job n).map fun j => j.bands.map fun b => b.state).getD []

/-- A descriptor that is not void names a QUEUED band of a live job, and no two name the same band; the band of a
descriptor that waits for ring room is still AWAITED or DECODING (R117, R126, R128). -/
def State.bandsLawful (s : State) : Prop :=
  (∀ i d, s.ring.takes i d → (s.bandStates d.slot)[d.band]? = some .queued) ∧
  (∀ i k d e, s.ring.takes i d → s.ring.takes k e → d.slot = e.slot → d.band = e.band → i = k) ∧
  ∀ d after, s.unpacker.work = .waitRing d after →
    (s.bandStates d.slot)[d.band]? = some .awaited ∨ (s.bandStates d.slot)[d.band]? = some .decoding

/-- The number of places that a screened buffer is in: the store, the live jobs' SCREENED bands, the current band. -/
def State.screenedHeld (s : State) (b : Nat) : Nat :=
  s.screener.store.count b + (allSlots.map fun n => (s.bandStates n).count (.screened b)).sum
    + (if s.screener.current.map (fun c => c.screened) = some b then 1 else 0)

/-- Each of the 768 screened buffers is in exactly one place (R129). -/
def State.screenedLawful (s : State) : Prop :=
  ∀ b, s.screenedHeld b = if b < Config.screenedBuffers then 1 else 0

/-- The pool and the store are rising lists, so that the first of each is its lowest number (R112, R129). -/
def State.listsRise (s : State) : Prop :=
  s.unpacker.pool.Pairwise (· < ·) ∧ s.screener.store.Pairwise (· < ·)

/-- The laws of the screened store and of what it rests on. -/
def State.storeLawful (s : State) : Prop := s.bandsLawful ∧ s.screenedLawful ∧ s.listsRise

/-- The laws together: the proof of each rests on others. -/
def State.lawful (s : State) : Prop :=
  (s.ownersLawful ∧ s.holdingLawful ∧ s.link.placesHold ∧ s.presenceLawful ∧ s.jobsLawful ∧ s.imagerLawful ∧
    s.waitLawful ∧ s.ring.lawful ∧ s.buffersLawful) ∧ s.storeLawful

/-! ## Words of the statements -/

/-- The port can take the command byte: its input byte is empty or holds it (R175). -/
def State.takesCommand (s : State) (code : Byte) : Prop :=
  s.port.inputByte = none ∨ s.port.inputByte = some (.command, code)

/-- The port outside LOADING can take the command byte (R176). -/
def State.opensTo (s : State) (code : Byte) : Prop := s.takesCommand code ∧ s.station.state ≠ .loading

/-- Only the port has changed: a command was executed with this response (R176). -/
def State.answered (s : State) (response : List Byte) : State :=
  { s with
    port := { s.port with inputByte := none, command := none, response := response, ready := true, refused := false } }

/-- Only the port has changed: a command was refused (R176). -/
def State.turnedAway (s : State) : State :=
  { s with
    port := { s.port with inputByte := none, command := none, response := [], ready := true, refused := true } }

/-- A maintenance count one higher, or at its largest value (R178). -/
def Port.counted (p : Port) (c : Count) : Port :=
  { p with counts := p.counts.set c.number (min (p.counts[c.number] + 1) 4294967295) }

/-- A maintenance count higher by `k`, up to its largest value (R178). -/
def Port.countedBy (p : Port) (c : Count) (k : Nat) : Port :=
  { p with counts := p.counts.set c.number (min (p.counts[c.number] + k) 4294967295) }

/-- A cause latched (R180). -/
def Port.latched (p : Port) (c : Cause) : Port := { p with latch := p.latch ||| (1#16 <<< c.bit) }

/-- The Imager in EJECTING with a disposition, the eject line asserted, the eject timer started and all output
stopped (R156, R157, R160). -/
def State.ejecting (s : State) (d : Disposition) : Imager :=
  { s.imager with
    state := .ejecting, disposition := some d, ejectLine := some d,
    ejectTimer := some (s.now + s.settings.ejectTimeout * 1000), loadTimer := none, plateRequest := none,
    nextSwath := none, swathInOutput := false, swathData := none, drum := { s.imager.drum with running := false } }

/-- The Imager after a clearing: it holds no job and no cancel; a plate that is loading or being ejected goes on to its
disposal, and one that is being imaged is ejected SCRAP (R166). -/
def State.disposed (s : State) (c : Clearing) : Imager :=
  match s.imager.state with
  | .idle | .fault => { s.imager with held := none, pendingCancel := none }
  | .loading | .ejecting => { s.imager with held := none, pendingCancel := none, disposal := some c }
  | .imaging => { s.ejecting .scrap with held := none, pendingCancel := none, disposal := some c }

/-- The ring at its reset values: every pass mark 1, no descriptor, indices and passes 0 (R139). -/
def Ring.emptied (r : Ring) : Prop :=
  (∀ i : Fin 32, r.entries[i] = { descriptor := none, mark := true }) ∧ r.producer = 0 ∧ r.consumer = 0 ∧
    r.producerPass = false ∧ r.consumerPass = false

/-- In the ring `q` every descriptor of the Screener's that names the slot has its void mark set; all else is as in `r`
(R126). An entry is the Screener's when its mark is the pass that the Screener holds on next reaching it (R124). -/
def Ring.voidedIn (r q : Ring) (n : Slot) : Prop :=
  q.producer = r.producer ∧ q.producerPass = r.producerPass ∧ q.consumer = r.consumer ∧
  q.consumerPass = r.consumerPass ∧
  ∀ i : Fin 32, q.entries[i] =
    if r.entries[i].mark = (if r.consumer ≤ i then r.consumerPass else !r.consumerPass) then
      { r.entries[i] with
        descriptor := r.entries[i].descriptor.map fun d => if d.slot = n then { d with void := true } else d }
    else r.entries[i]

/-- A fragment of the slot is at the head of the holding queue. -/
def State.headIsFragmentOf (s : State) (n : Slot) : Prop :=
  ∃ r rest, s.receiver.holding = r :: rest ∧ r.isFragment = true ∧ r.slot = n

/-- The Unpacker of `t` has stopped its work for the slot's job of `s` (R119), and the slot's end marker has left the
holding queue (R99). Work on a fragment of the job ends, and so does a wait with a descriptor of the job: the head record,
if it is a fragment of the job, is dropped and reported stale. A wait for a buffer stands, and its end takes the head
record anew (R112). -/
def State.unpackingStopped (s t : State) (n : Slot) : Prop :=
  let becomes (work : UnpackWork) (holding : List HoldingRecord) (stale : Nat) : Prop :=
    t.unpacker.work = work ∧
      t.receiver.holding = holding.filter (fun r => r.isFragment || decide (r.slot ≠ n)) ∧
      t.damage = { s.damage with log := { s.damage.log with stale := stale } }
  let stands := becomes s.unpacker.work s.receiver.holding s.damage.log.stale
  let drops := becomes .free s.receiver.holding.tail (min (s.damage.log.stale + 1) 65535)
  (s.unpacker.work = .free ∨ s.unpacker.work = .waitBuffer → stands) ∧
  (s.unpacker.work = .decoding →
    (s.headIsFragmentOf n → drops) ∧ ∀ m, m ≠ n → s.headIsFragmentOf m → stands) ∧
  ∀ d after, s.unpacker.work = .waitRing d after →
    (d.slot ≠ n → stands) ∧
    (d.slot = n →
      (s.headIsFragmentOf n → drops) ∧
      (¬ s.headIsFragmentOf n → becomes .free s.receiver.holding s.damage.log.stale))

/-- The work of the slot's job in the data path has ceased (R75, R82): its descriptors are void (R126), the band buffer of
its cursor is back in the pool (R106), and the Unpacker has stopped (R119). -/
def State.workCeased (s t : State) (n : Slot) : Prop :=
  s.ring.voidedIn t.ring n ∧
  (∀ x, x ∈ t.unpacker.pool ↔ (∃ j, s.job n = some j ∧ j.cursor.buffer = some x) ∨ x ∈ s.unpacker.pool) ∧
  s.unpackingStopped t n ∧ t.screener.current = s.screener.current

/-- The slot's job has been freed: its work has ceased, and the buffers of its SCREENED bands are back in the store
(R75, R86, R129). -/
def State.freed (s t : State) (n : Slot) : Prop :=
  t.job n = none ∧ s.workCeased t n ∧
  ∀ x, x ∈ t.screener.store ↔
    (∃ j, s.job n = some j ∧ ∃ b ∈ j.bands, b.state = .screened x) ∨ x ∈ s.screener.store

/-! ## Numbers given out -/

/-- Numbers given anew: from 0 upward, in the order of the old ones (R12, R45, R78). -/
def renumbers (old : List Nat) (new : Nat → Nat) : Prop :=
  (∀ a ∈ old, new a < old.length) ∧ ∀ a ∈ old, ∀ b ∈ old, (new a < new b ↔ a < b)

/-- The queue as it stands when it gives out a queue age: unchanged while the counter can advance, else with the ages of
its messages renumbered and the counter at their number (R12; that a message which a request replaces counts, and one
that has left its place does not, is log 20). -/
def Link.readiedAs (l r : Link) : Prop :=
  (l.ageCounter < 4294967295 → r = l) ∧
  (4294967295 ≤ l.ageCounter → ∃ new : Nat → Nat, renumbers (l.queued.map (·.age)) new ∧
    let aged (q : Queued) : Queued := { q with age := new q.age }
    r = { l with
      roll := l.roll.map aged, presence := l.presence.map aged, slots := l.slots.map fun q => q.map aged
      ageCounter := l.queued.length })

/-- The queue `t` is `l` with a message put in a place with a new queue age (R12, R13). -/
def Link.puts (l t : Link) (p : Place) (m : Msg) : Prop :=
  ∃ r : Link, l.readiedAs r ∧
    t = { r.setPlace p (some
            { msg := m, age := r.ageCounter, inProgress := false, withdrawal := false, replacement := none })
          with ageCounter := r.ageCounter + 1 }

/-- The board as it stands when it gives out a stamp: unchanged while the counter can advance, else with the stamps of
its entries renumbered and the counter at their number (R45; that the entry which the event changes or evicts counts is
log 20). -/
def Board.readiedAs (b r : Board) : Prop :=
  (b.stamp < 4294967295 → r = b) ∧
  (4294967295 ≤ b.stamp → ∃ new : Nat → Nat, renumbers (b.entries.map (·.stamp)) new ∧
    r = { b with entries := b.entries.map fun e => { e with stamp := new e.stamp }, stamp := b.entries.length })

/-- The job table as it stands when it gives out a ready order: unchanged while the counter can advance, else with the
orders of its READY jobs renumbered and the counter at their number (R78; that the job which enters READY does not
count is log 20). -/
def JobTable.readiedAs (t r : JobTable) : Prop :=
  (t.readyCounter < 4294967295 → r = t) ∧
  (4294967295 ≤ t.readyCounter → ∃ new : Nat → Nat, renumbers t.orders new ∧
    r = { t with
      slots := t.slots.map fun j => j.map fun j => { j with
        stage := match j.stage with
          | .ready order => .ready (new order)
          | stage => stage }
      readyCounter := t.orders.length })

/-- The table `t` is `u` with the slot's job `j` in READY with a new ready order (R78). -/
def JobTable.readies (u t : JobTable) (n : Slot) (j : Job) : Prop :=
  ∃ r : JobTable, u.readiedAs r ∧
    t = { r with
      slots := r.slots.set n (some { j with stage := .ready r.readyCounter }), readyCounter := r.readyCounter + 1 }

/-! ## Assessment -/

/-- The verdict that the assessment of a job gives (R146): no damaged band, CLEAN; a damaged band whose kind has the
action HOLD, held for kind; else within the tint limit, or held for count. -/
def Job.hasVerdict (j : Job) (g : Settings) (v : Verdict) : Prop :=
  (j.damagedCount = 0 ∧ v = .clean) ∨
  (1 ≤ j.damagedCount ∧
    (((∃ b ∈ j.bands, ∃ kind, b.kind = some kind ∧ g.action kind = .hold) ∧ v = .heldForKind) ∨
      ((∀ b ∈ j.bands, ∀ kind, b.kind = some kind → g.action kind = .tint) ∧
        ((j.damagedCount ≤ g.tintLimit ∧ v = .withinTint) ∨ (g.tintLimit < j.damagedCount ∧ v = .heldForCount)))))

/-- `t` is `u` after the assessment of the slot's job `j` gave a verdict, where the Imager takes no plate: READY with the
next ready order, or HELD with HELD latched (R77, R146). -/
def State.assessed (u t : State) (n : Slot) (j : Job) (v : Verdict) : Prop :=
  (v = .clean ∨ v = .withinTint →
    ∃ jobs : JobTable, u.jobs.readies jobs n { j with verdict := v } ∧ t = { u with jobs := jobs }) ∧
  (v = .heldForKind ∨ v = .heldForCount →
    t = { u with
      jobs := { u.jobs with slots := u.jobs.slots.set n (some { j with verdict := v, stage := .held }) }
      port := u.port.latched .held })

/-! ## What the end of a job leaves -/

/-- The freeing of the slot's job leaves a draining station with no live job (R23). -/
def State.drainedBy (s : State) (n : Slot) : Prop := s.station.state = .draining ∧ ∀ m, m ≠ n → s.job m = none

/-- The link of `t` after the slot's job of `s` was freed, where `l` is the link with the slot's place settled: a
draining station whose last job it was has a LEAVE queued in the presence place (R23), held as the replacement of a
message there that is in progress (R13). -/
def State.leaveFollows (s t : State) (n : Slot) (l : Link) : Prop :=
  t.station = s.station ∧
  (¬ s.drainedBy n → t.link = l) ∧
  (s.drainedBy n →
    ((∀ q, l.presence = some q → q.inProgress = false) → l.puts t.link .presence .leave) ∧
    ∀ q, l.presence = some q → q.inProgress = true →
      t.link = { l with presence := some { q with replacement := some .leave } })

/-- Everything is as before but the slot's job, the data path that it had, and the outgoing queue. -/
def State.besides (s t : State) (n : Slot) : Prop :=
  (∀ m, m ≠ n → t.job m = s.job m) ∧ t.jobs.generations = s.jobs.generations ∧
  t.jobs.readyCounter = s.jobs.readyCounter ∧ t.station = s.station ∧ t.settings = s.settings ∧ t.loader = s.loader ∧
  t.link.phase = s.link.phase ∧ t.roll = s.roll ∧ t.board = s.board ∧ t.receiver.framing = s.receiver.framing ∧
  t.imager = s.imager ∧ t.port = s.port ∧ t.frame = s.frame ∧ t.clock = s.clock ∧ t.pending = s.pending

/-- A job's DONE with an outcome (R85, R148). -/
def Job.doneWith (j : Job) (outcome : DoneOutcome) : Msg :=
  .done j.key j.version outcome j.damagedCount (if 1 ≤ j.damagedCount then j.firstDamage.map (·.kind) else none)

/-- The slot's job `j` has ended with an outcome: its DONE stands in the slot's place with a new queue age, and the job
is freed, which may leave a LEAVE behind it (R23, R85, R86). -/
def State.endsWithDone (s t : State) (n : Slot) (j : Job) (outcome : DoneOutcome) : Prop :=
  s.freed t n ∧ ∃ l : Link, s.link.puts l (.slot n) (j.doneWith outcome) ∧ s.leaveFollows t n l

/-- A job that is cancelled keeps its record but for its stage, its quiet timer and its cursors (R82). -/
def Job.cancelledFor (j : Job) (reason : CancelReason) : Job :=
  { j with
    stage := .cancelling reason, quiet := none, admission := none
    cursor := { current := none, nextPart := 0, pixels := 0, buffer := none } }

/-! ## Supersession and contending -/

/-- A supersession of the key by the version leaves the job as it is: one of another key, or of no lower version, one in
CANCELLING, and one whose cancel the Imager holds already (R80, R81). -/
def State.outlasts (s : State) (j : Job) (key : PlateKey) (version : Nat) : Prop :=
  j.key ≠ key ∨ version ≤ j.version ∨
    (j.standing = .owned ∧
      ((∃ reason, j.stage = .cancelling reason) ∨ (j.stage = .imaging ∧ s.imager.pendingCancel ≠ none)))

/-- The slot's live job `j` of `s` has been superseded in `u` (R80, R81, R82). CONTENDING: its CLAIM leaves the queue,
or is asked to withdraw where it is in progress, and it is freed with no DONE. OWNED: it ends with its DONE as
SUPERSEDED, waits in CANCELLING for a band that the Screener holds, or leaves the Imager a cancel pending, which scraps
a plate with no swath in output at once (R164). -/
def State.superseded (s u : State) (n : Slot) (j : Job) : Prop :=
  (j.standing = .contending →
    s.freed u n ∧ s.besides u n ∧
    ((∀ q, s.link.slots[n] = some q → q.inProgress = false) →
      u.link.slots[n] = none ∧ s.leaveFollows u n { s.link with slots := s.link.slots.set n none }) ∧
    ∀ q, s.link.slots[n] = some q → q.inProgress = true →
      s.leaveFollows u n { s.link with slots := s.link.slots.set n (some { q with withdrawal := true }) }) ∧
  (j.standing = .owned →
    (j.stage = .receiving ∨ j.stage = .closing ∨ j.stage = .held ∨ (∃ order, j.stage = .ready order) →
      ((∀ c, s.screener.current = some c → c.slot = n → c.generation ≠ j.generation) →
        s.endsWithDone u n j .superseded ∧ s.besides u n) ∧
      ∀ c, s.screener.current = some c → c.slot = n → c.generation = j.generation →
        s.workCeased u n ∧ s.besides u n ∧ u.job n = some (j.cancelledFor .superseded) ∧ u.link = s.link ∧
          u.screener = s.screener) ∧
    (j.stage = .imaging → s.imager.pendingCancel = none →
      s.imager.state = .loading ∨ s.imager.state = .ejecting ∨ s.imager.state = .imaging →
      u = { s with imager :=
        if s.imager.state = .imaging ∧ s.imager.swathInOutput = false
          then { s.ejecting .scrap with pendingCancel := some .superseded }
          else { s.imager with pendingCancel := some .superseded } }))

/-- Job Control of `u` has judged a CONTESTED notice, and `t` is what it leaves (R68, R69). Where every condition for
contending holds, the lowest free slot takes a job with the slot's next generation, every band AWAITED and the quiet
timer running, and its CLAIM is queued; where one does not, nothing changes. -/
def State.judges (u t : State) (key : PlateKey) (version size screen rank : Nat) : Prop :=
  let bands := bandsOfHeight (u.settings.sizeClass size).height
  let may := u.station.state = .active ∧ u.jobFor key version = none ∧
    (u.settings.sizeClass size).supported = true ∧ bands ≤ u.unreserved ∧ u.imager.state ≠ .fault ∧
    u.imager.mediaOut = false
  (¬ may ∨ u.freeSlots = [] → t = u) ∧
  ∀ n rest, may → u.freeSlots = n :: rest →
    ∃ l : Link, u.link.puts l (.slot n) (.claim key version none) ∧
      t = { u with
        jobs := { u.jobs with
          generations := u.jobs.generations.set n ((u.jobs.generations[n] + 1) % 65536)
          slots := u.jobs.slots.set n (some
            { generation := (u.jobs.generations[n] + 1) % 65536, standing := .contending, stage := .receiving,
              key := key, version := version, sizeClass := size, screeningClass := screen, rank := rank,
              endAdmitted := false, endProcessed := false, quiet := some (u.now + u.settings.quietLimit),
              admission := none, cursor := { current := none, nextPart := 0, pixels := 0, buffer := none },
              bands := List.replicate bands { state := .awaited, kind := none },
              screenedCount := 0, damagedCount := 0, firstDamage := none, verdict := .notAssessed, retries := 0,
              claimInProgress := false, withdrawal := none }) }
        link := l }

/-! ## The data path, and messages and headers -/

/-- A job one of whose bands has ended as damaged at the Unpacker (R109, R111, R118): with the kind it carries, else as
GAP, reported with no part and no capture (R120, R141, R142); the band is QUEUED and the cursor is empty (R117). -/
def Job.gapEnded (j : Job) (b : Nat) : Job :=
  { j with
    bands := j.bands.modify b fun e => { state := .queued, kind := some (e.kind.getD .gap) }
    damagedCount := if (j.band b).kind = none then j.damagedCount + 1 else j.damagedCount
    firstDamage :=
      if (j.band b).kind = none then
        some (match j.firstDamage with
          | none => { kind := .gap, band := b, part := none, capture := none,
                      counts := { check := 0, fill := 0, overflow := 0, gap := 1, format := 0 } }
          | some f => { f with counts := { f.counts with gap := min (f.counts.gap + 1) 65535 } })
      else j.firstDamage
    cursor := { current := none, nextPart := 0, pixels := 0, buffer := none } }

/-- The ring with a damaged descriptor placed at the producer index (R117, R125). -/
def Ring.withDamaged (r : Ring) (n : Slot) (b : Nat) : Ring :=
  { r with
    entries := r.entries.set r.producer
      { descriptor := some { slot := n, band := b, buffer := none, void := false }, mark := r.producerPass }
    producer := r.producer + 1
    producerPass := if r.producer = 31 then !r.producerPass else r.producerPass }

/-- Band `o` is the first that the order of the bands ends for a record of a band above it (R109, R118): the current band
below `b`, or with no current band the lowest AWAITED one below `b`. -/
def Job.endsFirst (j : Job) (o b : Nat) : Prop :=
  o < b ∧
  (j.cursor.current = some o ∨
    (j.cursor.current = none ∧ j.cursor.buffer = none ∧ (j.band o).state = .awaited ∧
      ∀ a, a < o → (j.band a).state ≠ .awaited))

/-- A well-formed plate key (R90). -/
def PlateKey.inRange (k : PlateKey) : Prop := k.title ≤ 15 ∧ k.edition ≤ 63 ∧ 1 ≤ k.page ∧ k.page ≤ 255

/-- A header whose every field lies in its range (R90). -/
def Header.inRange : Header → Prop
  | .plate key version size screen rank => key.inRange ∧ version ≤ 255 ∧ size ≤ 3 ∧ screen ≤ 3 ∧ rank ≤ 7
  | .fragment key version band part _ length =>
    key.inRange ∧ version ≤ 255 ∧ band ≤ 95 ∧ part ≤ 15 ∧ length ≤ 4096
  | .plateEnd key version => key.inRange ∧ version ≤ 255

/-- A message whose every field lies in its range (R7). -/
def Msg.inRange : Msg → Prop
  | .join _ => True
  | .leave => True
  | .roll counter slot _ => counter ≤ 15 ∧ slot ≤ 11
  | .claim key version bid => key.inRange ∧ version ≤ 255 ∧ ∃ b, bid = some b ∧ b ≤ 63
  | .done key version _ damaged first =>
    key.inRange ∧ version ≤ 255 ∧ damaged ≤ 96 ∧ (first.isSome = true ↔ 1 ≤ damaged)

/-- The contention key that a station's message wins with (R4). -/
def Msg.contentionKey (m : Msg) (sender : Station) : WinningKey :=
  { rank := m.rank, value := m.value, sender := sender.val }

end Sys2Proof.Machine
end

