-- ==== Sys2Proof/Certificates/Slice0/Obligations.lean ====
section
/-! DEFINITION. The statements for the provers: one proposition each, about one step, a command or a function. -/

open Sys2Proof Sys2Proof.Machine

/-! ## The step -/

/-- A step takes the command at the front of the queue and runs it on the state with the rest of the queue. -/
def Obligations.StepRunsFrontCommand : Prop :=
  ∀ (c : Instr) (rest : List Instr) (s : State), s.pending = c :: rest →
    step s = exec c { s with pending := rest }

/-- Every command ends in a next state, and no command touches the commands that wait behind it. With no command
waiting, one station clock passes, and nothing but the clock and a running drum watch changes (the model's choice,
log 2). -/
def Obligations.EveryStepGoesOn : Prop :=
  (∀ (c : Instr) (s : State), ∃ t : State, exec c s = .next t ∧ t.pending = s.pending) ∧
  ∀ s : State, s.pending = [] →
    step s = .next
      { s with
        clock := s.clock + 1
        imager := { s.imager with
          drum := { s.imager.drum with
            counter := if s.imager.drum.running = true
              then s.imager.drum.counter - (s.imager.drum.clocks + 1) / s.settings.prescaler
              else s.imager.drum.counter
            clocks := if s.imager.drum.running = true
              then (s.imager.drum.clocks + 1) % s.settings.prescaler
              else s.imager.drum.clocks } } }

/-! ## Reset and start-up -/

/-- RESET puts every block at its reset values; the waiting commands, the platesetter's lines and the contents of
frame memory are not the part's to reset (log 1, log 7). -/
def Obligations.ResetCommandEffect : Prop :=
  ∀ s : State, exec .reset s = .next
    { State.reset with
      pending := s.pending, freeCount := s.freeCount, frame := s.frame,
      imager := { State.reset.imager with headReady := s.imager.headReady, mediaOut := s.imager.mediaOut } }

/-- The reset values of the blocks. -/
def Obligations.ResetStateValues : Prop :=
  State.reset.station = { state := .loading, barredReason := none, haltRegion := none, resumePending := false } ∧
  State.reset.loader =
    { phase := .reading, validity := .notChecked, reason := none, failing := none, image := [], digest := none } ∧
  (∀ p : Place, State.reset.link.at p = none) ∧ State.reset.link.ageCounter = 0 ∧
  State.reset.link.phase = .passive ∧
  (∀ n : Station, State.reset.peer n = Peer.unknown) ∧ State.reset.roll.counter = 0 ∧ State.reset.roll.slot = 0 ∧
  State.reset.roll.overflow = false ∧ State.reset.roll.rollTimer = none ∧ State.reset.roll.isolationTimer = none ∧
  State.reset.board = { entries := [], full := false, stamp := 0 } ∧
  (∀ n : Slot, State.reset.job n = none ∧ State.reset.jobs.generations[n] = 0) ∧
  State.reset.jobs.readyCounter = 0 ∧ State.reset.unreserved = 768 ∧ State.reset.freeSlots.length = 8 ∧
  State.reset.receiver = { framing := .hunting, holding := [] } ∧
  State.reset.unpacker.work = .free ∧ State.reset.unpacker.pool = List.range 16 ∧
  (∀ i : Fin 32, State.reset.ring.entries[i] = { descriptor := none, mark := true }) ∧
  State.reset.ring.producer = 0 ∧ State.reset.ring.consumer = 0 ∧ State.reset.ring.producerPass = false ∧
  State.reset.ring.consumerPass = false ∧ State.reset.ring.isEmpty = true ∧ State.reset.ring.isFull = false ∧
  State.reset.screener.current = none ∧ State.reset.screener.store = List.range 768 ∧
  State.reset.damage.log = { unattributed := 0, rawHeader := none, late := 0, stale := 0, duplicate := 0 } ∧
  State.reset.damage.total = 0 ∧
  State.reset.imager.state = .idle ∧ State.reset.imager.held = none ∧ State.reset.imager.lastFault = none ∧
  State.reset.imager.pendingFault = none ∧ State.reset.imager.pendingCancel = none ∧
  State.reset.imager.plateRequest = none ∧ State.reset.imager.ejectLine = none ∧
  State.reset.imager.swathData = none ∧
  State.reset.port.statusByte = 0x04#8 ∧ State.reset.port.latch = 0#16 ∧ State.reset.port.mask = 0xFFFF#16 ∧
  (∀ i : Fin 21, State.reset.port.counts[i] = 0)

/-- The seven checks in their order: the reason is that of the first check that fails, the failing item is the
offset of the first failing item of checks 2 to 5 and absent for checks 1, 6 and 7. The checksum is the CRC-16 of
the record's bytes before it. The items by their first byte in the record, with their bounds: station number 0 to
15, claim window 5 to 500, roll period 20 to 1000, silence limit 3 to 15, join period 12 to 60, quiet limit 100 to
60000; the supported flags 0 or 1, and in a supported class a width 1024 to 16384 and a height 1024 to 24576, each a
multiple of 32; floors, ceilings and fault tint 1 to 254; damage actions 0 or 1; tint limit 0 to 96; fill pattern
enables 0 or 1; each tile 8 to 256 wide and high, its step below its width and its values at most 254; load and
eject timeout 1 to 60; the prescaler a power of two from 1 to 128; window minimum and maximum at least 1; retry
limit 0 to 3. A curve fails unless it runs from 0 to 255 and does not decrease, a floor when it exceeds its ceiling,
and the fault tint of a separation when it lies from floor to ceiling while some damage action is TINT. The CRC-16:
a register that starts at FFFFh takes each byte from bit 7 to bit 0; each bit shifts it left by one, and combines it
with 1021h by exclusive or where its bit 15 and the data bit differ; 29B1h for the nine digits 1 to 9. -/
def Obligations.ChecksStopAtTheFirstFailure : Prop :=
  (∀ record : List Byte,
    let m := imageOf record
    (checksumPasses record = false → recordFailure record = some (.checksum, none)) ∧
    (checksumPasses record = true →
      (∀ a, firstFailing (rangeItems m) = some a → recordFailure record = some (.range, some a)) ∧
      (firstFailing (rangeItems m) = none →
        (∀ a, firstFailing (curveItems m) = some a → recordFailure record = some (.curve, some a)) ∧
        (firstFailing (curveItems m) = none →
          (∀ a, firstFailing (floorItems m) = some a → recordFailure record = some (.floorCeiling, some a)) ∧
          (firstFailing (floorItems m) = none →
            (∀ a, firstFailing (tintItems m) = some a → recordFailure record = some (.tintGap, some a)) ∧
            (firstFailing (tintItems m) = none →
              (someClass m = false → recordFailure record = some (.noClass, none)) ∧
              (someClass m = true →
                (m.read16 1048817 ≤ m.read16 1048815 → recordFailure record = some (.drumWindow, none)) ∧
                (m.read16 1048815 < m.read16 1048817 → recordFailure record = none)))))))) ∧
  (∀ record : List Byte, checksumPasses record = true ↔
    crc16 ((List.range 1048820).map fun a => record.getD a 0xFF#8) =
      BitVec.ofNat 16 ((record.getD 1048820 0xFF#8).toNat * 256 + (record.getD 1048821 0xFF#8).toNat)) ∧
  (∀ m : Mem,
    let byte (a : Nat) : Nat := (m.read a).toNat
    let word (a : Nat) : Nat := byte a * 256 + byte (a + 1)
    let out (lo hi n : Nat) : Prop := n < lo ∨ hi < n
    let first (items : List Item) (fails : Nat → Prop) : Prop :=
      (firstFailing items = none ↔ ∀ a, ¬ fails a) ∧
        ∀ a, firstFailing items = some a ↔ fails a ∧ ∀ c, c < a → ¬ fails c
    first (rangeItems m) (fun a =>
      (a = 0 ∧ out 0 15 (byte a)) ∨ (a = 1 ∧ out 5 500 (word a)) ∨ (a = 3 ∧ out 20 1000 (word a)) ∨
      (a = 5 ∧ out 3 15 (byte a)) ∨ (a = 6 ∧ out 12 60 (byte a)) ∨ (a = 7 ∧ out 100 60000 (word a)) ∨
      (∃ k, k < 4 ∧
        ((a = 9 + 5 * k ∧ out 0 1 (byte a)) ∨
         (a = 10 + 5 * k ∧ byte (9 + 5 * k) ≠ 0 ∧ (out 1024 16384 (word a) ∨ word a % 32 ≠ 0)) ∨
         (a = 12 + 5 * k ∧ byte (9 + 5 * k) ≠ 0 ∧ (out 1024 24576 (word a) ∨ word a % 32 ≠ 0)))) ∨
      (97 ≤ a ∧ a ≤ 105 ∧ out 1 254 (byte a)) ∨ (106 ≤ a ∧ a ≤ 110 ∧ out 0 1 (byte a)) ∨
      (a = 111 ∧ out 0 96 (byte a)) ∨ (∃ k, k < 4 ∧ a = 112 + 11 * k ∧ out 0 1 (byte a)) ∨
      (∃ t, t < 16 ∧ a = 156 + 65541 * t ∧
        (out 8 256 (word a) ∨ out 8 256 (word (a + 2)) ∨ word a ≤ byte (a + 4) ∨
          ∃ i, i < word a * word (a + 2) ∧ 254 < byte (a + 5 + i))) ∨
      (a = 1048812 ∧ out 1 60 (byte a)) ∨ (a = 1048813 ∧ out 1 60 (byte a)) ∨
      (a = 1048814 ∧ byte a ∉ [1, 2, 4, 8, 16, 32, 64, 128]) ∨ (a = 1048815 ∧ word a < 1) ∨
      (a = 1048817 ∧ word a < 1) ∨ (a = 1048819 ∧ out 0 3 (byte a))) ∧
    first (curveItems m) (fun a => ∃ k, k < 4 ∧ a = 29 + 17 * k ∧
      (byte a ≠ 0 ∨ byte (a + 16) ≠ 255 ∨ ∃ i, i < 16 ∧ byte (a + i + 1) < byte (a + i))) ∧
    first (floorItems m) (fun a => ∃ k, k < 4 ∧ a = 97 + 2 * k ∧ byte (a + 1) < byte a) ∧
    first (tintItems m) (fun a => ∃ k, k < 4 ∧ a = 97 + 2 * k ∧ (∃ i, i < 5 ∧ byte (106 + i) = 0) ∧
      byte a ≤ byte 105 ∧ byte 105 ≤ byte (a + 1)) ∧
    (someClass m = true ↔ ∃ k, k < 4 ∧ byte (9 + 5 * k) = 1)) ∧
  (let shifted (r : Half) (bit : Bool) : Half :=
     if (r.getLsbD 15 != bit) = true then (r <<< 1) ^^^ 0x1021#16 else r <<< 1
   crc16 [] = 0xFFFF#16 ∧
   (∀ (bytes : List Byte) (b : Byte), crc16 (bytes ++ [b]) =
     (List.range 8).foldl (fun r k => shifted r (b.getLsbD (7 - k))) (crc16 bytes)) ∧
   crc16 [0x31#8, 0x32#8, 0x33#8, 0x34#8, 0x35#8, 0x36#8, 0x37#8, 0x38#8, 0x39#8] = 0x29B1#16)

/-- A record that passes every check: VALID, no reason, the digest over the six plant-setting bytes as they stand in
the record; the station stays LOADING while the blocks are loaded. The image of a record reads as the record does,
FFh where a byte of it did not come (the model's choice for a record operand that is short, log 17), but for the
values of a tile's area beyond its width times its height, and every address past the record's end, which read 00h. -/
def Obligations.ValidRecordBeginsLoading : Prop :=
  (∀ (record : List Byte) (s : State), s.station.state = .loading → s.loader.phase = .reading →
    recordFailure record = none →
    exec (.configurationReadDone record) s = .next
      { s with
        loader :=
          { phase := .loadingBlocks, validity := .valid, reason := none, failing := none, image := imageOf record,
            digest := some (crc16 ([1, 2, 3, 4, 5, 6].map fun a => record.getD a 0xFF#8)) } }) ∧
  ∀ (record : List Byte) (a : Nat),
    let word (a : Nat) : Nat := (record.getD a 0xFF#8).toNat * 256 + (record.getD (a + 1) 0xFF#8).toNat
    (a < 156 ∨ (1048812 ≤ a ∧ a < 1048822) → (imageOf record).read a = record.getD a 0xFF#8) ∧
    (∀ n i, n < 16 → a = 156 + 65541 * n + i →
      let kept := word (156 + 65541 * n) * word (158 + 65541 * n)
      (i < 5 ∨ (i < 65541 ∧ i < 5 + kept) → (imageOf record).read a = record.getD a 0xFF#8) ∧
      (5 + kept ≤ i → i < 65541 → (imageOf record).read a = 0x00#8)) ∧
    (1048822 ≤ a → (imageOf record).read a = 0x00#8)

/-- A record that fails a check: INVALID with its reason and failing item, the station BARRED with that reason where
no halt was held, BARRED latched, and no block loaded. -/
def Obligations.InvalidRecordBars : Prop :=
  ∀ (record : List Byte) (s : State) (reason : BarredReason) (failing : Option Nat),
    s.station.state = .loading → s.loader.phase = .reading → s.station.haltRegion = none →
    recordFailure record = some (reason, failing) →
    ∃ t : State, exec (.configurationReadDone record) s = .next t ∧
      t.station.state = .barred ∧ t.station.barredReason = some reason ∧
      t.loader.validity = .invalid ∧ t.loader.reason = some reason ∧ t.loader.failing = failing ∧
      t.loader.digest = none ∧ t.loader.image = imageOf record ∧
      t.port.latch =
        (s.port.latched .barred).latch ||| (if s.imager.mediaOut then 1#16 <<< Cause.mediaOut.bit else 0#16) ∧
      t.settings = s.settings ∧ t.frame = s.frame ∧ t.port.counts = s.port.counts ∧
      (t.link.phase = .passive ∨ t.link.phase = .owed)

/-- The end of a valid load with no halt held: JOINING, a JOIN with the digest queued, the roll timer and the
isolation timer started, no join period, the damage total zero, the blocks' settings the record's. -/
def Obligations.LoadingEndedJoins : Prop :=
  ∀ (corrected : Nat) (s : State), s.station.state = .loading → s.loader.phase = .loadingBlocks →
    s.station.haltRegion = none → s.link.presence = none →
    ∃ t : State, exec (.loadingEnded corrected) s = .next t ∧
      t.station.state = .joining ∧ t.settings = settingsOf s.loader.image ∧
      (∃ q, t.link.presence = some q ∧ q.msg = .join (s.loader.digest.getD 0#16) ∧ q.inProgress = false) ∧
      t.link.phase = .synchronising ∧
      t.roll.rollTimer = some (s.now + t.settings.rollPeriod) ∧
      t.roll.isolationTimer = some (s.now + t.settings.silenceLimit * t.settings.rollPeriod) ∧
      t.roll.joinPeriod = none ∧ t.roll.joinSentAt = none ∧ t.damage.total = 0 ∧
      t.damage.log = s.damage.log ∧ t.loader = { s.loader with phase := .ended } ∧
      t.frame.bands = s.frame.bands ∧ t.frame.screened = s.frame.screened ∧
      (s.imager.mediaOut = true → t.port.latch = (s.port.latched .mediaOut).latch) ∧
      (s.imager.mediaOut = false → t.port.latch = s.port.latch) ∧
      t.board = s.board ∧ t.jobs = s.jobs ∧ t.receiver = s.receiver

/-- The end of a valid load gives the blocks the settings that stand in the record at their offsets, most significant
byte first: station number 0, claim window 1, roll period 3, silence limit 5, join period 6, quiet limit 7; from 9 on
four size classes of 5 bytes (flag, width, height); from 29 on four curves of 17; from 97 on a floor and a ceiling for
each separation; fault tint 105; from 106 on the five damage actions, 1 for HOLD; tint limit 111; from 112 on four
fill patterns of 11 (enable, mask, CRC); from 156 on sixteen tiles of 65541 (width, height, step, values); from
1048812 on load timeout, eject timeout, prescaler, window minimum and maximum, retry limit. It writes each tile's
values into the tile store in row order; that the tiles are 65536 bytes apart there is the model's choice (log 7). -/
def Obligations.LoadingEndedWritesTiles : Prop :=
  ∀ (corrected : Nat) (s : State), s.station.state = .loading → s.loader.phase = .loadingBlocks →
    s.memoriesCanonical →
    let byte (a : Nat) : Nat := (s.loader.image.read a).toNat
    let word (a : Nat) : Nat := byte a * 256 + byte (a + 1)
    ∃ t : State, exec (.loadingEnded corrected) s = .next t ∧
      t.settings.station.val = byte 0 % 16 ∧ t.settings.claimWindow = word 1 ∧ t.settings.rollPeriod = word 3 ∧
      t.settings.silenceLimit = byte 5 ∧ t.settings.joinPeriod = byte 6 ∧ t.settings.quietLimit = word 7 ∧
      (∀ k, k < 4 →
        t.settings.sizeClass k =
          { supported := decide (byte (9 + 5 * k) = 1), width := word (10 + 5 * k), height := word (12 + 5 * k) } ∧
        t.settings.floors[k]? = some (byte (97 + 2 * k)) ∧ t.settings.ceilings[k]? = some (byte (98 + 2 * k)) ∧
        t.settings.fills[k]? = some
          { enabled := decide (byte (112 + 11 * k) = 1)
            mask := (List.range 8).map fun i => s.loader.image.read (113 + 11 * k + i)
            crc := BitVec.ofNat 16 (word (121 + 11 * k)) }) ∧
      (∀ sep i, i < 17 → t.settings.point sep i = byte (29 + 17 * sep.code + i)) ∧
      t.settings.faultTint = byte 105 ∧
      (∀ kind, t.settings.action kind = if byte (105 + kind.code) = 1 then .hold else .tint) ∧
      t.settings.tintLimit = byte 111 ∧
      (∀ n, n < 16 → t.settings.tile n =
        { width := word (156 + 65541 * n), height := word (158 + 65541 * n), step := byte (160 + 65541 * n) }) ∧
      t.settings.loadTimeout = byte 1048812 ∧ t.settings.ejectTimeout = byte 1048813 ∧
      t.settings.prescaler = byte 1048814 ∧ t.settings.windowMin = word 1048815 ∧
      t.settings.windowMax = word 1048817 ∧ t.settings.retryLimit = byte 1048819 ∧
      ∀ n i, n < 16 → (∀ k, k < 16 → word (156 + 65541 * k) * word (158 + 65541 * k) ≤ 65536) →
        i < word (156 + 65541 * n) * word (158 + 65541 * n) →
        t.frame.tiles.read (n * 65536 + i) = s.loader.image.read (161 + 65541 * n + i)

/-! ## The plant link -/

/-- Synchronising ends in waiting for an opening. An opening with no eligible message has no candidate here. With a
candidate, the message is in progress and the station contends in round 1: a DONE with rank 3 and value 0; a CLAIM with
rank 2 and the present bid as its value, its job's flag set; a JOIN or LEAVE with rank 1 and value 0; a ROLL with rank 0
and value 0; each with this station's number in round 3. -/
def Obligations.OpeningStartsCandidate : Prop :=
  ∀ (s : State) (q : Queued),
    let contends (t : State) (p : Place) (rank value : Nat) : Prop :=
      exec .openingStart s = .next t ∧ t.contentionField p 0 = rank ∧ t.contentionField p 1 = value ∧
        t.contentionField p 2 = s.settings.station.val
    (s.link.phase = .synchronising →
      exec .linkSynchronised s = .next { s with link := { s.link with phase := .waiting } }) ∧
    (s.link.phase = .waiting ∨ s.link.phase = .round none [] →
      (s.link.candidate = none →
        exec .openingStart s = .next { s with link := { s.link with phase := .round none [] } }) ∧
      (∀ n key version outcome damaged first, s.link.candidate = some (.slot n) → s.link.slots[n] = some q →
        q.msg = .done key version outcome damaged first →
        contends
          { s with link := { s.link with
              slots := s.link.slots.set n (some { q with inProgress := true })
              phase := .round (some (.slot n)) [] } } (.slot n) 3 0) ∧
      (∀ n key version bid, s.link.candidate = some (.slot n) → s.link.slots[n] = some q →
        q.msg = .claim key version bid →
        contends
          { s with
            link := { s.link with
              slots := s.link.slots.set n (some { q with msg := .claim key version (some s.bid), inProgress := true })
              phase := .round (some (.slot n)) [] }
            jobs := { s.jobs with
              slots := s.jobs.slots.set n ((s.job n).map fun j => { j with claimInProgress := true }) } }
          (.slot n) 2 s.bid) ∧
      (s.link.candidate = some .presence → s.link.presence = some q → (q.msg = .leave ∨ ∃ d, q.msg = .join d) →
        contends
          { s with link := { s.link with
              presence := some { q with inProgress := true }, phase := .round (some .presence) [] } } .presence 1 0) ∧
      (∀ c k x, s.link.candidate = some .roll → s.link.roll = some q → q.msg = .roll c k x →
        contends
          { s with link := { s.link with
              roll := some { q with inProgress := true }, phase := .round (some .roll) [] } } .roll 0 0))

/-- The candidate is a queued message with no withdrawal pending that no other such message precedes: by rank, highest
first, then by queue age, smallest first. There is none only when no message is eligible. -/
def Obligations.CandidateComesFirst : Prop :=
  ∀ l : Link,
    (∀ p, l.candidate = some p → ∃ q, l.at p = some q ∧ q.withdrawal = false ∧
      ∀ r x, l.at r = some x → x.withdrawal = false →
        x.msg.rank ≤ q.msg.rank ∧ (x.msg.rank = q.msg.rank → q.age ≤ x.age)) ∧
    (l.candidate = none → ∀ p q, l.at p = some q → q.withdrawal = true)

/-- A contention round that the line leaves won: the winning value is the low period less one; a contender that held
as long as the line was low goes on, and after round 3 it sends; a station that does not contend receives. -/
def Obligations.RoundWon : Prop :=
  ∀ (s : State) (c : Option Place) (won : List Nat) (low limit : Nat), s.link.phase = .round c won →
    (won.length, limit) ∈ [(0, 4), (1, 64), (2, 16)] → 0 < low → low ≤ limit →
    (∀ p, c = some p → s.contentionField p won.length + 1 = low) →
    exec (.contentionRoundEnd low) s = .next
      { s with link := { s.link with
        phase := match won with
          | [rank, value] =>
            .body (match c with | some p => .sender p | none => .receiver)
              { rank := rank, value := value, sender := low - 1 }
          | _ => .round c (won ++ [low - 1]) } }

/-- A contender that finds the line still low has lost, and goes on as a receiver; a round held too long breaks the
opening, and SPOILED rises. Either way its message returns to queued in its old place with its queue age, a CLAIM's
job flag is cleared, and a ROLL's replacement is queued in its place with a new queue age (the model's choice, log
15; which messages a renumbering counts: log 20). With a withdrawal pending it leaves the queue instead: a LEAVE
takes a station with a resume pending to ACTIVE; a CLAIM with cause DROP frees its job with no DONE, and one with
cause WINDOW is queued anew when its entry is CONTESTED again with the job's version, and frees its job otherwise;
one whose job is already gone only leaves the queue. A job that is freed leaves the data path: every descriptor in
the ring that names it is void, the buffers of its SCREENED bands return to the store and the buffer of its cursor
to the pool, its end marker leaves the holding queue, and the Unpacker's work on its record stops, the record being
dropped as stale. A draining station that so loses its last live job has a LEAVE queued, or held as the replacement
of a message in progress in the presence place. An empty round 1 makes an empty opening; a later round with no
holder breaks the opening too. -/
def Obligations.LostEmptyAndBrokenRounds : Prop :=
  (∀ (s : State) (p : Place) (won : List Nat) (low limit : Nat) (q : Queued) (phase : LinkPhase) (port : Port),
     s.link.phase = .round (some p) won → (won.length, limit) ∈ [(0, 4), (1, 64), (2, 16)] → s.link.at p = some q →
     (s.contentionField p won.length + 1 < low ∧ low ≤ limit ∧ port = s.port ∧
         phase = (match won with
           | [rank, value] => .body .receiver { rank := rank, value := value, sender := low - 1 }
           | _ => .round none (won ++ [low - 1]))) ∨
       (limit < low ∧ port = s.port.counted .spoiled ∧ phase = .waiting) →
     let ends (t : State) : Prop := exec (.contentionRoundEnd low) s = .next t
     let left (l : Link) : State := { s with link := { l with phase := phase }, port := port }
     let back : Queued := { q with inProgress := false }
     (q.withdrawal = false → q.replacement = none →
       (p = .roll → ends (left { s.link with roll := some back })) ∧
       (p = .presence → ends (left { s.link with presence := some back })) ∧
       (∀ n key version outcome damaged first, p = .slot n → q.msg = .done key version outcome damaged first →
         ends (left { s.link with slots := s.link.slots.set n (some back) })) ∧
       (∀ n key version bid, p = .slot n → q.msg = .claim key version bid →
         ends { left { s.link with slots := s.link.slots.set n (some back) } with
           jobs := { s.jobs with
             slots := s.jobs.slots.set n ((s.job n).map fun j => { j with claimInProgress := false }) } })) ∧
     (∀ m, p = .roll → q.replacement = some m →
       ∃ l : Link, Link.puts { s.link with roll := none } l .roll m ∧ ends (left l)) ∧
     (q.withdrawal = true → q.replacement = none →
       (p = .presence → q.msg = .leave →
         ends { left { s.link with presence := none } with
           station := if s.station.resumePending = true then
               { s.station with state := .active, resumePending := false }
             else s.station }) ∧
       (∀ n key version bid j, p = .slot n → q.msg = .claim key version bid → s.job n = some j →
         let contested := ∃ e, s.board.entryFor j.key = some e ∧ e.version = j.version ∧ ∃ d, e.state = .contested d
         let emptied : Link := { s.link with slots := s.link.slots.set n none }
         (j.withdrawal = some .window → contested →
           ∃ l : Link, emptied.puts l (.slot n) (.claim j.key j.version none) ∧
             ends { left l with jobs := { s.jobs with
               slots := s.jobs.slots.set n (some ({ j with claimInProgress := false, withdrawal := none })) } }) ∧
         (j.withdrawal = some .drop ∨ (j.withdrawal = some .window ∧ ¬ contested) →
           ∃ t, ends t ∧ s.freed t n ∧ t.link.slots[n] = none ∧ (∀ m, m ≠ n → t.job m = s.job m) ∧
             t.link.phase = phase ∧ t.port = port ∧ t.board = s.board ∧ t.frame = s.frame ∧
             s.leaveFollows t n (left emptied).link)) ∧
       (∀ n key version bid, p = .slot n → q.msg = .claim key version bid → s.job n = none →
         ends (left { s.link with slots := s.link.slots.set n none })))) ∧
  (∀ (s : State) (won : List Nat),
     (s.link.phase = .round none [] →
       exec (.contentionRoundEnd 0) s = .next { s with link := { s.link with phase := .waiting } }) ∧
     (s.link.phase = .round none won →
       ∀ low limit, (won.length, limit) ∈ [(0, 4), (1, 64), (2, 16)] →
         limit < low ∨ (low = 0 ∧ won ≠ []) →
         exec (.contentionRoundEnd low) s = .next
           { s with link := { s.link with phase := .waiting }, port := s.port.counted .spoiled }))

/-- The end of the body: a receiver holds the line in the spoil window exactly when the body is bad; a sender holds
it exactly when its readback failed; a station that abandoned its message holds it. A spoiled opening, one in which
the line was low at any point of the spoil window: SPOILED rises, SPOILED HERE too where this station held the line.
A receiver, and a station whose message was abandoned, change nothing else. A sender's message returns to queued in
its old place with its queue age, a CLAIM's job flag is cleared, and a ROLL's replacement is queued in its place
with a new queue age (the model's choice, log 15; which messages a renumbering counts: log 20). With a withdrawal
pending it leaves the queue instead: a LEAVE takes a station with a resume pending to ACTIVE; a CLAIM with cause
DROP frees its job with no DONE, and one with cause WINDOW is queued anew when its entry is CONTESTED again with the
job's version, and frees its job otherwise; one whose job is already gone only leaves the queue. A job that is freed
leaves the data path: every descriptor in the ring that names it is void, the buffers of its SCREENED bands return
to the store and the buffer of its cursor to the pool, its end marker leaves the holding queue, and the Unpacker's
work on its record stops, the record being dropped as stale. A draining station that so loses its last live job has
a LEAVE queued, or held as the replacement of a message in progress in the presence place. A spoil window owed after
a halt ends in passive with both counts raised. -/
def Obligations.BodyEndAndSpoiledWindow : Prop :=
  (∀ (s : State) (key : WinningKey) (framed : Bool) (bytes : List Byte),
     (s.link.phase = .body .receiver key →
       exec (.bodyEnd framed bytes) s = .next { s with link := { s.link with
         phase := .spoil .receiver (judgeBody key framed bytes).isNone (judgeBody key framed bytes) } }) ∧
     (∀ p q, s.link.phase = .body (.sender p) key → s.link.at p = some q →
       exec (.bodyEnd framed bytes) s = .next { s with link := { s.link with
         phase := .spoil (.sender p) (!(framed && decide (bytes = encodeBody s.settings.station q.msg))) none } }) ∧
     (s.link.phase = .body .abandoned key →
       exec (.bodyEnd framed bytes) s = .next { s with link := { s.link with phase := .spoil .abandoned true none } })) ∧
  (∀ (s : State) (hold low : Bool) (heard : Option (Station × Msg)) (port : Port),
     (port = if hold = true then (s.port.counted .spoiled).counted .spoiledHere else s.port.counted .spoiled) →
     (s.link.phase = .spoil .receiver hold heard ∨ s.link.phase = .spoil .abandoned hold heard → (low || hold) = true →
       exec (.spoilWindowEnd low) s = .next { s with link := { s.link with phase := .waiting }, port := port }) ∧
     (s.link.phase = .owed →
       exec (.spoilWindowEnd low) s = .next
         { s with
           link := { s.link with phase := .passive }
           port := (s.port.counted .spoiled).counted .spoiledHere }) ∧
     (∀ p q, s.link.phase = .spoil (.sender p) hold heard → s.link.at p = some q → (low || hold) = true →
       let ends (t : State) : Prop := exec (.spoilWindowEnd low) s = .next t
       let left (l : Link) : State := { s with link := { l with phase := .waiting }, port := port }
       let back : Queued := { q with inProgress := false }
       (q.withdrawal = false → q.replacement = none →
         (p = .roll → ends (left { s.link with roll := some back })) ∧
         (p = .presence → ends (left { s.link with presence := some back })) ∧
         (∀ n key version outcome damaged first, p = .slot n → q.msg = .done key version outcome damaged first →
           ends (left { s.link with slots := s.link.slots.set n (some back) })) ∧
         (∀ n key version bid, p = .slot n → q.msg = .claim key version bid →
           ends { left { s.link with slots := s.link.slots.set n (some back) } with
             jobs := { s.jobs with
               slots := s.jobs.slots.set n ((s.job n).map fun j => { j with claimInProgress := false }) } })) ∧
       (∀ m, p = .roll → q.replacement = some m →
         ∃ l : Link, Link.puts { s.link with roll := none } l .roll m ∧ ends (left l)) ∧
       (q.withdrawal = true → q.replacement = none →
         (p = .presence → q.msg = .leave →
           ends { left { s.link with presence := none } with
             station := if s.station.resumePending = true then
                 { s.station with state := .active, resumePending := false }
               else s.station }) ∧
         (∀ n key version bid j, p = .slot n → q.msg = .claim key version bid → s.job n = some j →
           let contested :=
             ∃ e, s.board.entryFor j.key = some e ∧ e.version = j.version ∧ ∃ d, e.state = .contested d
           let emptied : Link := { s.link with slots := s.link.slots.set n none }
           (j.withdrawal = some .window → contested →
             ∃ l : Link, emptied.puts l (.slot n) (.claim j.key j.version none) ∧
               ends { left l with jobs := { s.jobs with
                 slots := s.jobs.slots.set n
                   (some ({ j with claimInProgress := false, withdrawal := none })) } }) ∧
           (j.withdrawal = some .drop ∨ (j.withdrawal = some .window ∧ ¬ contested) →
             ∃ t, ends t ∧ s.freed t n ∧ t.link.slots[n] = none ∧ (∀ m, m ≠ n → t.job m = s.job m) ∧
               t.link.phase = .waiting ∧ t.port = port ∧ t.board = s.board ∧ t.frame = s.frame ∧
               s.leaveFollows t n (left emptied).link)) ∧
         (∀ n key version bid, p = .slot n → q.msg = .claim key version bid → s.job n = none →
           ends (left { s.link with slots := s.link.slots.set n none })))))

/-- A receiver finds good what a station with the winning key sends: decoding an encoded body gives the sender and
the message. It finds nothing else good: a body that it takes is framed, has every field in its range, is the one
that the sender sends, and has the key that won. The bodies that it finds bad are those with broken framing, a kind
byte that names no kind, a length other than the kind's, a wrong nibble check, a sender above 15, a roll slot above
11, a separation nibble above 3, an edition above 63, a page of 0, a bid above 63, an outcome not in its list, a
damaged band count above 96, a first damage kind that is present with no damaged band, or not in its list with one,
and a rank, a value or a sender other than the winning one. The bytes of each kind of body stand in their order,
with the nibble check of HeaderRoundTrip last. -/
def Obligations.BodyRoundTrip : Prop :=
  (∀ (m : Msg) (sender : Station), m.inRange →
    judgeBody (m.contentionKey sender) true (encodeBody sender m) = some (sender, m)) ∧
  (∀ (key : WinningKey) (framed : Bool) (bytes : List Byte) (sender : Station) (m : Msg),
    judgeBody key framed bytes = some (sender, m) →
    framed = true ∧ m.inRange ∧ bytes = encodeBody sender m ∧ key = m.contentionKey sender) ∧
  (∀ (key : WinningKey) (framed : Bool) (bytes : List Byte),
    let byte (i : Nat) : Nat := (byteAt bytes i).toNat
    let lengths := [(0x11, 5), (0x12, 3), (0x13, 6), (0x14, 8), (0x15, 10)]
    judgeBody key framed bytes = none ↔
      framed = false ∨ (byte 0, bytes.length) ∉ lengths ∨ bytes.getLast? ≠ some (nibbleCheck bytes.dropLast) ∨
      15 < byte 1 ∨ (byte 0 = 0x13 ∧ 11 < byte 2 % 16) ∨
      ((byte 0 = 0x14 ∨ byte 0 = 0x15) ∧ (3 < byte 2 % 16 ∨ 63 < byte 3 ∨ byte 4 = 0)) ∨
      (byte 0 = 0x14 ∧ 63 < byte 6) ∨
      (byte 0 = 0x15 ∧
        (byte 6 ∉ [1, 2, 3, 4, 5] ∨ 96 < byte 7 ∨ (byte 7 = 0 ∧ byte 8 ≠ 0) ∨
          (1 ≤ byte 7 ∧ byte 8 ∉ [1, 2, 3, 4, 5]))) ∨
      key.rank ≠ (if byte 0 = 0x15 then 3 else if byte 0 = 0x14 then 2 else if byte 0 = 0x13 then 0 else 1) ∨
      key.value ≠ (if byte 0 = 0x14 then byte 6 else 0) ∨ key.sender ≠ byte 1) ∧
  ∀ (sender : Station) (digest item : Half) (counter slot version bid damaged : Nat) (key : PlateKey)
    (outcome : DoneOutcome) (first : Option DamageKind),
    let byte (n : Nat) : Byte := BitVec.ofNat 8 n
    let plate : List Byte := [byte (key.title * 16 + key.sep.code), byte key.edition, byte key.page]
    let sealed (bytes : List Byte) : List Byte := bytes ++ [nibbleCheck bytes]
    encodeBody sender (.join digest) =
      sealed [0x11#8, byte sender.val, byte (digest.toNat / 256), byte digest.toNat] ∧
    encodeBody sender .leave = sealed [0x12#8, byte sender.val] ∧
    encodeBody sender (.roll counter slot item) =
      sealed [0x13#8, byte sender.val, byte (counter * 16 + slot), byte (item.toNat / 256), byte item.toNat] ∧
    encodeBody sender (.claim key version (some bid)) =
      sealed (0x14#8 :: byte sender.val :: plate ++ [byte version, byte bid]) ∧
    encodeBody sender (.done key version outcome damaged first) =
      sealed (0x15#8 :: byte sender.val :: plate ++ [byte version, byte outcome.code, byte damaged,
        byte (match first with | some kind => kind.code | none => 0)])

/-- This station's JOIN, ROLL or DONE accepted: it leaves the queue, SENT rises and the isolation timer restarts. A
JOIN starts the join period. A condition code that carried the overflow flag clears the flag if its mark is still set.
A DONE leaves its slot's place empty and adds its damaged band count to the damage total; on the board, the entry of
its version that this station owns or owned becomes DONE with the DONE's fields and a new stamp (which entries a
renumbering counts: log 20) and BOARD FULL is cleared, while one of a higher version stays. Here no live job has the
DONE's key and version. -/
def Obligations.OwnJoinRollOrDoneAccepted : Prop :=
  ∀ (s : State) (q : Queued) (heard : Option (Station × Msg)), q.replacement = none →
    (∀ digest, s.link.phase = .spoil (.sender .presence) false heard → s.link.presence = some q →
      q.msg = .join digest →
      exec (.spoilWindowEnd false) s = .next
        { s with
          link := { s.link with presence := none, phase := .waiting }
          port := s.port.counted .sent
          roll := { s.roll with
            isolationTimer := some (s.now + s.settings.silenceLimit * s.settings.rollPeriod)
            joinSentAt := some s.now
            joinPeriod := some (s.now + s.settings.joinPeriod * s.settings.rollPeriod) } }) ∧
    (∀ counter slot item, s.link.phase = .spoil (.sender .roll) false heard → s.link.roll = some q →
      q.msg = .roll counter slot item → slot ≤ 11 →
      exec (.spoilWindowEnd false) s = .next
        { s with
          link := { s.link with roll := none, phase := .waiting }
          port := s.port.counted .sent
          roll := { s.roll with
            isolationTimer := some (s.now + s.settings.silenceLimit * s.settings.rollPeriod)
            overflow := if slot ∈ [0, 2, 4, 6, 8, 10] ∧ item.getLsbD 6 = true ∧ s.roll.overflowMark = true
              then false else s.roll.overflow } }) ∧
    (∀ n key version outcome damaged first i e, s.link.phase = .spoil (.sender (.slot n)) false heard →
      s.link.slots[n] = some q → q.msg = .done key version outcome damaged first → s.jobFor key version = none →
      s.board.placeOf key = some i → s.board.entries[i]? = some e →
      let sent (board : Board) : State :=
        { s with
          link := { s.link with slots := s.link.slots.set n none, phase := .waiting }
          port := s.port.counted .sent
          roll := { s.roll with
            isolationTimer := some (s.now + s.settings.silenceLimit * s.settings.rollPeriod) }
          damage := { s.damage with total := min (s.damage.total + damaged) 65535 }
          board := board }
      (e.version = version → e.state = .owned s.settings.station ∨ e.state = .orphaned s.settings.station →
        ∃ r : Board, s.board.readiedAs r ∧
          exec (.spoilWindowEnd false) s = .next (sent
            { entries := r.entries.set i
                { e with state := .done s.settings.station outcome damaged first, stamp := r.stamp }
              full := false, stamp := r.stamp + 1 })) ∧
      (version < e.version → exec (.spoilWindowEnd false) s = .next (sent s.board)))

/-- A draining station's LEAVE accepted: DETACHED with DRAIN COMPLETE latched, the queue empty and the link passive,
the board and the peer table cleared, the roll and isolation timers stopped; the rolling counter, the roll slot, the
unattributed log and the Imager are kept. -/
def Obligations.OwnLeaveDetaches : Prop :=
  ∀ (s : State) (q : Queued) (heard : Option (Station × Msg)),
    s.link.phase = .spoil (.sender .presence) false heard → s.link.presence = some q → q.msg = .leave →
    ∃ t : State, exec (.spoilWindowEnd false) s = .next t ∧
      t.station.state = .detached ∧ t.station.resumePending = false ∧ t.station.haltRegion = s.station.haltRegion ∧
      t.port = (s.port.counted .sent).latched .drainComplete ∧
      (∀ p, t.link.at p = none) ∧ t.link.phase = .passive ∧ t.link.ageCounter = 0 ∧
      t.board = { entries := [], full := false, stamp := 0 } ∧ (∀ n, t.peer n = Peer.unknown) ∧
      t.roll.rollTimer = none ∧ t.roll.isolationTimer = none ∧ t.roll.joinPeriod = none ∧
      t.roll.counter = s.roll.counter ∧ t.roll.slot = s.roll.slot ∧ t.roll.overflow = s.roll.overflow ∧
      t.receiver = { framing := .hunting, holding := [] } ∧ t.jobs = s.jobs ∧ t.damage = s.damage ∧
      t.imager = s.imager ∧ t.frame = s.frame ∧ t.settings = s.settings ∧ t.loader = s.loader

/-- An accepted message that bears this station's number and was not sent here bars the station: BARRED with reason
DUPLICATE NUMBER, every job freed, the board, the peer table and the outgoing queue emptied, all timers stopped, the
holding queue, the ring, the Unpacker and the Screener cleared, the link passive; the message is not handed over, so
TAKEN does not rise. The Imager holds no job and has no cancel pending; it keeps a plate that is loading or being
ejected for its disposal, and ejects one that is being imaged SCRAP at once. -/
def Obligations.DuplicateNumberBars : Prop :=
  ∀ (s : State) (m : Msg), s.link.phase = .spoil .receiver false (some (s.settings.station, m)) →
    ∃ t : State, exec (.spoilWindowEnd false) s = .next t ∧
      t.station.state = .barred ∧ t.station.barredReason = some .duplicateNumber ∧
      t.port = s.port.latched .barred ∧
      (∀ n, t.job n = none) ∧ t.jobs.generations = s.jobs.generations ∧ t.jobs.readyCounter = 0 ∧
      t.board = { entries := [], full := false, stamp := 0 } ∧ (∀ n, t.peer n = Peer.unknown) ∧
      (∀ p, t.link.at p = none) ∧ t.link.ageCounter = 0 ∧ t.link.phase = .passive ∧ t.receiver.holding = [] ∧
      t.receiver.framing = .hunting ∧ t.unpacker = { work := .free, pool := List.range 16 } ∧
      t.screener = { current := none, store := List.range 768 } ∧ t.ring.emptied ∧ t.imager = s.disposed .halt ∧
      t.roll.rollTimer = none ∧ t.roll.isolationTimer = none ∧ t.roll.joinPeriod = none ∧
      t.roll.counter = s.roll.counter ∧ t.roll.slot = s.roll.slot ∧ t.damage = s.damage ∧ t.frame = s.frame ∧
      t.settings = s.settings

/-- A JOIN, ROLL, CLAIM or DONE from an ABSENT peer, and a JOIN from a LOST one: its record is refreshed and becomes
PRESENT with the joining flag set, its silence timer starts, PEER JOINED is latched, and the message is taken as from a
PRESENT peer; a JOIN's digest is judged and nothing is orphaned. A LEAVE from an ABSENT peer is not passed on. A LEAVE
from a PRESENT peer: the record takes its reset values, every entry that peer owned becomes ORPHANED and no other entry
changes state; ORPHANED is latched if there was one, and no other cause is. A JOIN from a PRESENT peer is a restart:
every entry it owned becomes ORPHANED, its record is refreshed with the joining flag set, PEER JOINED is latched and
the digest judged. A ROLL from a PRESENT peer that does not disown the station, as one at slot 3 does not whose map has
this station's bit set, or whose peer is joining, or that comes before this station's JOIN was sent or no later than
one roll period after it (in whole milliseconds, the model's choice, log 28): the missed ROLLs are counted, the item is
stored as its slot gives and judged, the silence timer restarts. A peer's silence timer expires: LOST with its other
fields kept, PEER LOST latched, and every entry it owned ORPHANED. -/
def Obligations.PeerRecordFollowsItsPeer : Prop :=
  (∀ (s : State) (n : Station) (m : Msg), s.link.phase = .spoil .receiver false (some (n, m)) →
     n ≠ s.settings.station → (s.peer n).state ≠ .present →
     let refreshed : Peer :=
       { Peer.unknown with
         state := .present, joining := true
         silence := some (s.now + s.settings.silenceLimit * s.settings.rollPeriod), heard := some s.now }
     (∀ d, m = .join d →
       exec (.spoilWindowEnd false) s = .next
         { s with
           link := { s.link with phase := .waiting }
           roll := { s.roll with
             peers := s.roll.peers.set n { refreshed with
               items := { Peer.unknown.items with digest := some d }
               digestMismatch := decide (s.loader.digest ≠ some d) } }
           port := if s.loader.digest ≠ some d
             then ((s.port.counted .taken).latched .peerJoined).latched .digestMismatch
             else (s.port.counted .taken).latched .peerJoined }) ∧
     ((s.peer n).state = .absent → m = .leave →
       exec (.spoilWindowEnd false) s = .next
         { s with link := { s.link with phase := .waiting }, port := s.port.counted .taken }) ∧
     ((s.peer n).state = .absent → m ≠ .leave → (∀ d, m ≠ .join d) →
       ∃ t : State, exec (.spoilWindowEnd false) s = .next t ∧
         exec (.spoilWindowEnd false)
           { s with
             roll := { s.roll with peers := s.roll.peers.set n refreshed }, port := s.port.latched .peerJoined } =
           .next t ∧
         (t.peer n).state = .present ∧ (t.peer n).silence = refreshed.silence ∧ (t.peer n).heard = refreshed.heard ∧
         (∀ k, k ≠ n → t.peer k = s.peer k) ∧ t.port.latch &&& 0x0020#16 = 0x0020#16)) ∧
  (∀ (s : State) (n : Station), s.link.phase = .spoil .receiver false (some (n, .leave)) → n ≠ s.settings.station →
     (s.peer n).state = .present →
     ∃ t : State, exec (.spoilWindowEnd false) s = .next t ∧
       t.peer n = Peer.unknown ∧ (∀ m, m ≠ n → t.peer m = s.peer m) ∧
       t.board.entries.map (fun e => (e.key, e.version, e.state, e.info)) = s.board.entries.map (fun e =>
         (e.key, e.version, if e.state = .owned n then .orphaned n else e.state, e.info)) ∧
       t.port = (if ∃ e ∈ s.board.entries, e.state = .owned n then (s.port.counted .taken).latched .orphaned
         else s.port.counted .taken) ∧
       t.link = { s.link with phase := .waiting } ∧ t.jobs = s.jobs ∧ t.station = s.station ∧ t.frame = s.frame) ∧
  (∀ (s : State) (n : Station) (d : Half), s.link.phase = .spoil .receiver false (some (n, .join d)) →
     n ≠ s.settings.station → (s.peer n).state = .present →
     let orphaned (p : Port) : Port := if ∃ e ∈ s.board.entries, e.state = .owned n then p.latched .orphaned else p
     let judged (p : Port) : Port := if s.loader.digest ≠ some d then p.latched .digestMismatch else p
     ∃ t : State, exec (.spoilWindowEnd false) s = .next t ∧
       t.peer n = { Peer.unknown with
         state := .present, joining := true
         silence := some (s.now + s.settings.silenceLimit * s.settings.rollPeriod), heard := some s.now
         items := { Peer.unknown.items with digest := some d }
         digestMismatch := decide (s.loader.digest ≠ some d) } ∧
       (∀ m, m ≠ n → t.peer m = s.peer m) ∧
       t.board.entries.map (fun e => (e.key, e.version, e.state, e.info)) = s.board.entries.map (fun e =>
         (e.key, e.version, if e.state = .owned n then .orphaned n else e.state, e.info)) ∧
       t.port = judged ((orphaned (s.port.counted .taken)).latched .peerJoined) ∧
       t.link = { s.link with phase := .waiting } ∧ t.jobs = s.jobs ∧ t.station = s.station ∧ t.frame = s.frame) ∧
  (∀ (s : State) (n : Station) (counter slot : Nat) (item : Half),
     s.link.phase = .spoil .receiver false (some (n, .roll counter slot item)) → n ≠ s.settings.station →
     (s.peer n).state = .present → slot ≤ 11 →
     (slot = 3 → item.getLsbD s.settings.station.val = true ∨ (s.peer n).joining = true ∨
       s.roll.joinSentAt = none ∨ ∃ sent, s.roll.joinSentAt = some sent ∧ s.now ≤ sent + s.settings.rollPeriod) →
     let heard : Peer :=
       { s.peer n with
         silence := some (s.now + s.settings.silenceLimit * s.settings.rollPeriod), heard := some s.now
         missed := match (s.peer n).lastCounter with
           | some last => min ((s.peer n).missed + (counter + 15 - last) % 16) 255
           | none => (s.peer n).missed
         lastCounter := some counter }
     let owned := (s.board.entries.filter fun e => decide (e.state = .owned n)).length
     let record : Peer := match slot with
       | 1 => { heard with items := { heard.items with bid := some item } }
       | 3 => { heard with items := { heard.items with presentMap := some item } }
       | 5 => { heard with
           items := { heard.items with platesOwned := some item }
           ownedMismatch := if item.toNat = owned then heard.ownedMismatch else min (heard.ownedMismatch + 1) 255 }
       | 7 => { heard with items := { heard.items with platesHeld := some item } }
       | 9 => { heard with items := { heard.items with damageTotal := some item } }
       | 11 => { heard with
           items := { heard.items with digest := some item }
           digestMismatch := decide (s.loader.digest ≠ some item) }
       | _ => { heard with items := { heard.items with condition := some item }, joining := item.getLsbD 0 }
     exec (.spoilWindowEnd false) s = .next
       { s with
         link := { s.link with phase := .waiting }
         roll := { s.roll with peers := s.roll.peers.set n record }
         port := if slot = 11 ∧ s.loader.digest ≠ some item ∧ (s.peer n).digestMismatch = false
           then (s.port.counted .taken).latched .digestMismatch else s.port.counted .taken }) ∧
  (∀ (s : State) (n : Station) (deadline : Nat), (s.peer n).silence = some deadline → deadline ≤ s.now →
     ∃ t : State, exec (.silenceTimerExpiry n) s = .next t ∧
       t.peer n = { s.peer n with state := .lost, silence := none } ∧ (∀ m, m ≠ n → t.peer m = s.peer m) ∧
       t.board.entries.map (fun e => (e.key, e.version, e.state, e.info)) = s.board.entries.map (fun e =>
         (e.key, e.version, if e.state = .owned n then .orphaned n else e.state, e.info)) ∧
       t.port = (if ∃ e ∈ s.board.entries, e.state = .owned n then (s.port.latched .peerLost).latched .orphaned
         else s.port.latched .peerLost) ∧
       t.jobs = s.jobs ∧ t.link = s.link ∧ t.station = s.station ∧ t.frame = s.frame)

/-- A CLAIM or a DONE of a PRESENT peer on the board. A CLAIM, with no CONTENDING job of this station for its
version, makes an entry of its version that is CONTESTED, UNTAKEN or ORPHANED the claimant's, which keeps its size
class and rank; one that is OWNED or DONE ignores it, and BOARD ANOMALY rises. A DONE, with no such job either: of
the entry's version, it makes an entry DONE that the sender owns or owned, and one that is CONTESTED or UNTAKEN too,
which raises BOARD ANOMALY; any other entry of that version ignores it, and BOARD ANOMALY rises. Either supersedes
an entry of a lower version than its own, and cancels the live job of the key: a CONTENDING one is freed, its CLAIM
withdrawn or asked to withdraw; an OWNED one ends with a DONE as SUPERSEDED where the Imager and the Screener hold
nothing of it, waits in CANCELLING for a band that the Screener holds, or leaves the Imager a cancel pending; one
already CANCELLING, or whose cancel the Imager holds, stays as it is; the station does not contend for the new
version. Either is ignored by one of a higher, and for a key without an entry creates one: in an empty place, else
in that of the oldest DONE, UNTAKEN or ORPHANED entry, in that order; with none it is not recorded, BOARD FULL is
set and latched, and UNRECORDED rises. A CONTENDING job for the version of a CLAIM or DONE so recorded loses its
CLAIM and is freed. A job that is freed leaves the data path: its ring descriptors are void, its screened buffers
and its cursor's buffer are returned, its end marker leaves the holding queue, and the Unpacker drops its record as
stale. A draining station that so loses its last live job has a LEAVE queued, or held as the replacement of a
message in progress in the presence place. The peer's silence timer restarts. Each entry that enters a state takes a
new stamp (which entries a renumbering counts: log 20). Of a LOST peer any message but a JOIN is not passed on:
TAKEN rises and nothing else comes of it. -/
def Obligations.PeerClaimOrDoneRecorded : Prop :=
  ∀ (s : State) (n : Station) (m : Msg), s.link.phase = .spoil .receiver false (some (n, m)) →
    n ≠ s.settings.station →
    let heard (port : Port) (board : Board) : State :=
      { s with
        link := { s.link with phase := .waiting }
        port := port
        board := board
        roll := { s.roll with
          peers := s.roll.peers.set n ({ s.peer n with
            silence := some (s.now + s.settings.silenceLimit * s.settings.rollPeriod), heard := some s.now }) } }
    let taken := s.port.counted .taken
    let ends (t : State) : Prop := exec (.spoilWindowEnd false) s = .next t
    let becomes (port : Port) (board : Board) : Prop := ends (heard port board)
    let sort (x : EntryState) : Nat := match x with
      | .done _ _ _ _ => 0
      | .untaken => 1
      | .orphaned _ => 2
      | .contested _ | .owned _ => 3
    ((s.peer n).state = .present → ∃ r : Board, s.board.readiedAs r ∧
      let entered (i : Nat) (e : BoardEntry) (full : Bool) : Board :=
        { entries := r.entries.set i e, full := full, stamp := r.stamp + 1 }
      let creates (e : BoardEntry) (full : Bool) : Prop :=
        (s.board.entries.length < 512 →
          becomes taken { entries := r.entries ++ [e], full := full, stamp := r.stamp + 1 }) ∧
        (512 ≤ s.board.entries.length →
          (∀ i old, s.board.entries[i]? = some old → sort old.state ≤ 2 →
            (∀ k d, s.board.entries[k]? = some d → k ≠ i →
              sort old.state < sort d.state ∨ (sort old.state = sort d.state ∧ old.stamp < d.stamp)) →
            becomes taken (entered i e full)) ∧
          ((∀ d ∈ s.board.entries, sort d.state = 3) →
            becomes ((taken.latched .boardFull).counted .unrecorded) { s.board with full := true }))
      let supersedes (key : PlateKey) (version i : Nat) (fresh : BoardEntry) (full : Bool) : Prop :=
        ((∀ k j, s.job k = some j → s.outlasts j key version) → becomes taken (entered i fresh full)) ∧
        ∀ k j, s.job k = some j → j.key = key → j.version < version →
          (∀ y x, y ≠ k → s.job y = some x → s.outlasts x key version) →
          ∃ t : State, ends t ∧ (heard taken (entered i fresh full)).superseded t k j
      let settled (key : PlateKey) (version : Nat) : Prop :=
        ∀ k j, s.job k = some j → j.key = key → j.version = version → j.standing = .owned
      (∀ key version bid, m = .claim key version bid → settled key version →
        let fresh : BoardEntry :=
          { key := key, version := version, state := .owned n, info := none, stamp := r.stamp }
        (s.board.placeOf key = none → creates fresh s.board.full) ∧
        (∀ i e, s.board.placeOf key = some i → s.board.entries[i]? = some e →
          (e.version < version → supersedes key version i fresh s.board.full) ∧
          (version < e.version → becomes taken s.board) ∧
          (e.version = version →
            ((∃ d, e.state = .contested d) ∨ e.state = .untaken ∨ (∃ o, e.state = .orphaned o) →
              becomes taken (entered i { e with state := .owned n, stamp := r.stamp } s.board.full)) ∧
            ((∃ o, e.state = .owned o) ∨ (∃ o x y z, e.state = .done o x y z) →
              becomes (taken.counted .boardAnomaly) s.board)))) ∧
      (∀ key version outcome damaged first, m = .done key version outcome damaged first → settled key version →
        let fresh : BoardEntry :=
          { key := key, version := version, state := .done n outcome damaged first, info := none, stamp := r.stamp }
        (s.board.placeOf key = none → creates fresh false) ∧
        (∀ i e, s.board.placeOf key = some i → s.board.entries[i]? = some e →
          let done : Board := entered i { e with state := .done n outcome damaged first, stamp := r.stamp } false
          (e.version < version → supersedes key version i fresh false) ∧
          (version < e.version → becomes taken s.board) ∧
          (e.version = version →
            (e.state = .owned n ∨ e.state = .orphaned n → becomes taken done) ∧
            (e.state = .untaken ∨ (∃ d, e.state = .contested d) → becomes (taken.counted .boardAnomaly) done) ∧
            ((∃ o, o ≠ n ∧ (e.state = .owned o ∨ e.state = .orphaned o)) ∨ (∃ o x y z, e.state = .done o x y z) →
              becomes (taken.counted .boardAnomaly) s.board)))) ∧
      (∀ key version (x : EntryState) k j i e,
        (∃ bid, m = .claim key version bid ∧ x = .owned n) ∨
          (∃ outcome damaged first, m = .done key version outcome damaged first ∧ x = .done n outcome damaged first) →
        s.jobFor key version = some k → s.job k = some j → j.standing = .contending →
        (∀ q, s.link.slots[k] = some q → q.inProgress = false) →
        s.board.placeOf key = some i → s.board.entries[i]? = some e → e.version = version →
        e.state = .untaken ∨ (∃ d, e.state = .contested d) →
        ∃ t : State, ends t ∧ s.freed t k ∧ t.link.slots[k] = none ∧ (∀ y, y ≠ k → t.job y = s.job y) ∧
          t.board.entries = r.entries.set i { e with state := x, stamp := r.stamp } ∧
          s.leaveFollows t k { s.link with slots := s.link.slots.set k none, phase := .waiting })) ∧
    ((s.peer n).state = .lost → (∀ d, m ≠ .join d) →
      ends { s with link := { s.link with phase := .waiting }, port := taken })

/-- This station's CLAIM is accepted: it leaves the queue and SENT rises. OWNED HERE: on an entry of its version
that is CONTESTED, UNTAKEN or ORPHANED, on one of a lower version where no other job of the key is thereby
cancelled, and with no entry, in an empty place or in that of the oldest DONE, else of the oldest UNTAKEN, else of
the oldest ORPHANED entry, the board names this station and the job's standing becomes OWNED; a job in CLOSING with
every band SCREENED is then assessed: READY with the next ready order where it is CLEAN or within the tint limit
(and the Imager takes no plate; else ArbiterTakesTheFirstReady), HELD with HELD latched where it is held for kind or
for count; one with withdrawal cause DROP is cancelled: with no band in the Screener it ends with a DONE as DROPPED
and is freed, and with one there it waits in CANCELLING. ALREADY OWNED, on an entry of its version that is OWNED or
DONE, which raises BOARD ANOMALY, and NOT RECORDED, on a full board whose every entry is CONTESTED or OWNED: the job
is freed with no DONE. So is one that SUPERSEDED, on an entry of a higher version, finds alive (the model's choice,
log 27: R72 says that none is); a CLAIM whose job was freed in its opening changes no job, whatever the board makes
of it, and so it is where another slot has meanwhile got a job of its key and version (the model's choice, log 29:
R72 goes by key and version, R80 says that the result finds no job). The entry takes a new stamp, and a DONE a new
queue age (what a renumbering counts: log 20). A job that is freed leaves the data path: its ring descriptors are
void, its screened buffers and its cursor's buffer are returned, its end marker leaves the holding queue, and the
Unpacker drops its record as stale. A draining station that so loses its last live job has a LEAVE queued, or held
as the replacement of a message in progress in the presence place. One that enters CANCELLING gives up the same, but
for its SCREENED bands' buffers. -/
def Obligations.OwnClaimOwnsTheJob : Prop :=
  ∀ (s : State) (n : Slot) (q : Queued) (key : PlateKey) (version : Nat) (bid : Option Nat)
    (heard : Option (Station × Msg)),
    s.link.phase = .spoil (.sender (.slot n)) false heard → s.link.slots[n] = some q →
    q.msg = .claim key version bid → q.replacement = none →
    ∃ r : Board, s.board.readiedAs r ∧
    let ends (t : State) : Prop := exec (.spoilWindowEnd false) s = .next t
    let sent (port : Port) (board : Board) (jobs : JobTable) : State :=
      { s with
        link := { s.link with slots := s.link.slots.set n none, phase := .waiting }
        port := port
        roll := { s.roll with
          isolationTimer := some (s.now + s.settings.silenceLimit * s.settings.rollPeriod) }
        board := board
        jobs := jobs }
    let counted := s.port.counted .sent
    let entered (i : Nat) (e : BoardEntry) : Board :=
      { r with entries := r.entries.set i e, stamp := r.stamp + 1 }
    let fresh : BoardEntry :=
      { key := key, version := version, state := .owned s.settings.station, info := none, stamp := r.stamp }
    let open' (e : BoardEntry) : Prop :=
      (∃ d, e.state = .contested d) ∨ e.state = .untaken ∨ (∃ o, e.state = .orphaned o)
    let sort (x : EntryState) : Nat := match x with
      | .done _ _ _ _ => 0
      | .untaken => 1
      | .orphaned _ => 2
      | .contested _ | .owned _ => 3
    let owns (board : Board) : Prop :=
      (s.board.placeOf key = none ∧ s.board.entries.length < 512 ∧
          board = { r with entries := r.entries ++ [fresh], stamp := r.stamp + 1 }) ∨
        (∃ i old, s.board.placeOf key = none ∧ 512 ≤ s.board.entries.length ∧ s.board.entries[i]? = some old ∧
          sort old.state ≤ 2 ∧
          (∀ k d, s.board.entries[k]? = some d → k ≠ i →
            sort old.state < sort d.state ∨ (sort old.state = sort d.state ∧ old.stamp < d.stamp)) ∧
          board = entered i fresh) ∨
        ∃ i e, s.board.placeOf key = some i ∧ s.board.entries[i]? = some e ∧
          ((e.version = version ∧ open' e ∧
              board = entered i { e with state := .owned s.settings.station, stamp := r.stamp }) ∨
            (e.version < version ∧ (∀ k x, k ≠ n → s.job k = some x → s.outlasts x key version) ∧
              board = entered i fresh))
    (∀ j board, s.job n = some j → j.key = key → j.version = version → j.standing = .contending → owns board →
      let owned (k : Job) : Job := { k with standing := .owned, claimInProgress := false, withdrawal := none }
      let jobs (k : Job) : JobTable := { s.jobs with slots := s.jobs.slots.set n (some k) }
      (j.withdrawal ≠ some .drop →
        (j.stage = .receiving ∨ (j.stage = .closing ∧ j.screenedCount ≠ j.bands.length) →
          ends (sent counted board (jobs (owned j)))) ∧
        (∀ v, j.stage = .closing → j.screenedCount = j.bands.length → j.hasVerdict s.settings v →
          (v = .clean ∨ v = .withinTint → s.imager.state ≠ .idle ∨ s.imager.mediaOut = true) →
          ∃ t : State, ends t ∧ (sent counted board (jobs (owned j))).assessed t n (owned j) v)) ∧
      (j.withdrawal = some .drop → j.stage = .receiving ∨ j.stage = .closing →
        (∀ c, s.screener.current = some c → c.slot = n → c.generation ≠ j.generation) →
        ∃ t : State, ends t ∧ (sent counted board s.jobs).endsWithDone t n j .dropped ∧
          (∀ k, k ≠ n → t.job k = s.job k) ∧ t.board = board ∧ t.port = counted) ∧
      (∀ c, j.withdrawal = some .drop → j.stage = .receiving ∨ j.stage = .closing → s.screener.current = some c →
        c.slot = n → c.generation = j.generation →
        ∃ t : State, ends t ∧ s.workCeased t n ∧ t.board = board ∧ t.link = (sent counted board s.jobs).link ∧
          t.screener = s.screener ∧
          t.jobs = jobs (owned (j.cancelledFor .dropped)))) ∧
    (∀ j, s.job n = some j → j.key = key → j.version = version → j.standing = .contending →
      let freed (port : Port) (board : Board) : Prop :=
        ∃ t : State, ends t ∧ s.freed t n ∧ t.link.slots[n] = none ∧ (∀ k, k ≠ n → t.job k = s.job k) ∧
          t.board = board ∧ t.port = port ∧ s.leaveFollows t n (sent port board s.jobs).link
      (∀ i e, s.board.placeOf key = some i → s.board.entries[i]? = some e → e.version = version →
        (∃ o, e.state = .owned o) ∨ (∃ o x y z, e.state = .done o x y z) →
        freed (counted.counted .boardAnomaly) s.board) ∧
      (∀ i e, s.board.placeOf key = some i → s.board.entries[i]? = some e → version < e.version →
        freed counted s.board) ∧
      (s.board.placeOf key = none → 512 ≤ s.board.entries.length →
        (∀ e ∈ s.board.entries, (∃ d, e.state = .contested d) ∨ ∃ o, e.state = .owned o) →
        freed ((counted.latched .boardFull).counted .unrecorded) { s.board with full := true })) ∧
    (s.job n = none →
      (∀ i e, s.board.placeOf key = some i → s.board.entries[i]? = some e → version < e.version →
        ends (sent counted s.board s.jobs)) ∧
      (∀ board, owns board → ends (sent counted board s.jobs)))

/-! ## The Roll Unit and Station Control -/

/-- The item of each roll slot. The condition code has JOINING, DRAINING, JOBS FULL (no slot is free), STORE LOW (fewer
unreserved screened buffers than a supported size class has bands), HEAD FAULT, MEDIA OUT, HOLDING OVERFLOW and BOARD FULL
in bits 0 to 7; the other items are the bid, the present map, the plates owned and held, the damage total and the
digest. -/
def Obligations.RollItemOfEachSlot : Prop :=
  ∀ s : State,
    let unreserved := 768 - ((List.finRange 8).map fun n => ((s.job n).map fun j => j.bands.length).getD 0).sum
    let free := ((List.finRange 8).filter fun n => decide (s.job n = none ∧ s.link.slots[n] = none)).length
    (∀ k ∈ [0, 2, 4, 6, 8, 10],
      (s.rollItem k).getLsbD 0 = decide (s.station.state = .joining) ∧
      (s.rollItem k).getLsbD 1 = decide (s.station.state = .draining) ∧
      (s.rollItem k).getLsbD 2 = decide (free = 0) ∧
      ((s.rollItem k).getLsbD 3 = true ↔
        ∃ c ∈ s.settings.classes, c.supported = true ∧ unreserved < (c.height + 255) / 256) ∧
      (s.rollItem k).getLsbD 4 = decide (s.imager.state = .fault) ∧
      (s.rollItem k).getLsbD 5 = s.imager.mediaOut ∧
      (s.rollItem k).getLsbD 6 = s.roll.overflow ∧
      (s.rollItem k).getLsbD 7 = s.board.full ∧
      ∀ i, 8 ≤ i → (s.rollItem k).getLsbD i = false) ∧
    s.rollItem 1 = BitVec.ofNat 16 (min 7 free * 8 + min 7 (unreserved / 96)) ∧
    (∀ n : Station, (s.rollItem 3).getLsbD n.val =
      (decide (n = s.settings.station) || decide ((s.peer n).state = .present))) ∧
    s.rollItem 5 = BitVec.ofNat 16
      (s.board.entries.filter fun e => decide (e.state = .owned s.settings.station)).length ∧
    s.rollItem 7 = BitVec.ofNat 16
      ((List.finRange 8).filter fun n => decide ((s.job n).map (·.stage) = some .held)).length ∧
    s.rollItem 9 = BitVec.ofNat 16 s.damage.total ∧
    (∀ d, s.loader.digest = some d → s.rollItem 11 = d)

/-- An expiry of the roll timer makes a ROLL with the present counter, slot and item; the counter and the slot advance,
and the next expiry is one roll period later. With no ROLL in the roll place it is queued; one that is queued and not
in progress it replaces, with a new queue age; of one in progress it becomes the replacement, in place of an earlier
replacement. A replacement is queued with a new queue age when the ROLL before it has been sent. A queue age is the
counter's value, and the counter advances by one; a counter at 4294967295 is first set to the number of queued
messages, whose ages are renumbered from 0 upward in their order; that the replaced ROLL counts among them, and the
sent one does not, is the model's choice (log 20). The end of the join period in JOINING: the station enters ACTIVE. An
expiry of any timer whose deadline lies ahead is that expiry at the deadline: the clock moves on to it, and a running
drum watch counts the whole ticks that pass, and stays at 0 (the model's choice, log 2); the statements of the expiries
say what follows there. -/
def Obligations.RollTimerAndJoinPeriod : Prop :=
  (∀ (s : State) (deadline : Nat), deadline ≤ s.now →
    let next : Msg := .roll s.roll.counter s.roll.slot (s.rollItem s.roll.slot)
    let advanced : RollUnit :=
      { s.roll with
        counter := (s.roll.counter + 1) % 16
        slot := (s.roll.slot + 1) % 12
        overflowMark := s.roll.overflowMark || (decide (s.roll.slot % 2 = 0) && s.roll.overflow)
        rollTimer := some (deadline + s.settings.rollPeriod) }
    (s.roll.rollTimer = some deadline → (∀ q, s.link.roll = some q → q.inProgress = false) →
      ∃ l : Link, s.link.puts l .roll next ∧ exec .rollTimerExpiry s = .next { s with link := l, roll := advanced }) ∧
    (∀ q, s.roll.rollTimer = some deadline → s.link.roll = some q → q.inProgress = true →
      exec .rollTimerExpiry s = .next
        { s with link := { s.link with roll := some { q with replacement := some next } }, roll := advanced }) ∧
    (s.roll.joinPeriod = some deadline → s.station.state = .joining →
      exec .joinPeriodExpiry s = .next
        { s with
          station := { s.station with state := .active }
          roll := { s.roll with joinPeriod := none } })) ∧
  (∀ (s : State) (q : Queued) (m : Msg) (heard : Option (Station × Msg)) (counter slot : Nat) (item : Half),
    s.link.phase = .spoil (.sender .roll) false heard → s.link.roll = some q → q.msg = .roll counter slot item →
    q.replacement = some m →
    ∃ t : State, exec (.spoilWindowEnd false) s = .next t ∧ t.port = s.port.counted .sent ∧
      Link.puts { s.link with roll := none, phase := .waiting } t.link .roll m) ∧
  ∀ (s : State) (c : Instr) (deadline : Nat), s.now < deadline →
    (c = .rollTimerExpiry ∧ s.roll.rollTimer = some deadline) ∨
      (c = .joinPeriodExpiry ∧ s.roll.joinPeriod = some deadline ∧ s.station.state = .joining) ∨
      (c = .isolationTimerExpiry ∧ s.roll.isolationTimer = some deadline) ∨
      (∃ n, c = .silenceTimerExpiry n ∧ (s.peer n).silence = some deadline) ∨
      (∃ n j, c = .quietTimerExpiry n ∧ s.job n = some j ∧ j.quiet = some deadline) ∨
      (∃ i e, c = .claimWindowExpiry i ∧ s.running = true ∧ s.board.entries[i]? = some e ∧
        e.state = .contested deadline) ∨
      (c = .loadTimeout ∧ s.imager.loadTimer = some deadline ∧ s.imager.state = .loading) ∨
      (c = .ejectTimeout ∧ s.imager.ejectTimer = some deadline ∧ s.imager.state = .ejecting) →
    let drum := s.imager.drum
    let clocks := drum.clocks + (deadline * 100000 - s.clock)
    let there : State :=
      { s with
        clock := deadline * 100000
        imager := { s.imager with
          drum := if drum.running
            then { drum with
              counter := drum.counter - clocks / s.settings.prescaler, clocks := clocks % s.settings.prescaler }
            else drum } }
    there.now = deadline ∧ exec c s = exec c there

/-- Isolation in JOINING, ACTIVE or DRAINING is a rejoin, and so is being disowned: a ROLL at slot 3 from a PRESENT
peer that is not joining, more than a roll period after this station's JOIN was sent, whose map has this station's bit
clear; that this time is judged in whole milliseconds of the timebase is the model's choice (log 28). A rejoin: JOINING with REJOINED latched, every job freed with no DONE, the board and the peer table emptied,
the holding queue, the ring, the Unpacker and the Screener cleared, a new JOIN alone in the queue, the roll timer
running on, the damage total zero. A message in progress is abandoned: in the rounds the station contends no more, and
in the body and the spoil window it holds the line throughout the spoil window; the receive state is otherwise kept.
That the round gap after round 3 counts as the body is the model's choice (log 26).
The Imager holds no job and has no cancel pending; it keeps a plate that is loading or being ejected for its disposal,
and ejects one that is being imaged SCRAP at once. -/
def Obligations.IsolationAndDisowningRejoin : Prop :=
  ∀ (s : State), s.station.state ∈ [.joining, .active, .draining] →
    let rejoined (t : State) : Prop :=
      t.station = { s.station with state := .joining, resumePending := false } ∧
      (∀ n, t.job n = none) ∧ t.jobs.generations = s.jobs.generations ∧
      t.jobs.readyCounter = 0 ∧ t.board = { entries := [], full := false, stamp := 0 } ∧
      (∀ n, t.peer n = Peer.unknown) ∧
      (∀ p q, t.link.at p = some q → p = .presence ∧ q.msg = .join (s.loader.digest.getD 0#16)) ∧
      (t.link.at .presence).isSome = true ∧ t.receiver.holding = [] ∧ t.receiver.framing = s.receiver.framing ∧
      t.roll.rollTimer = s.roll.rollTimer ∧ t.roll.counter = s.roll.counter ∧ t.roll.slot = s.roll.slot ∧
      t.roll.isolationTimer = some (s.now + s.settings.silenceLimit * s.settings.rollPeriod) ∧
      t.roll.joinPeriod = none ∧ t.roll.joinSentAt = none ∧
      t.unpacker = { work := .free, pool := List.range 16 } ∧
      t.screener = { current := none, store := List.range 768 } ∧ t.ring.emptied ∧ t.imager = s.disposed .rejoin ∧
      t.damage.total = 0 ∧ t.damage.log = s.damage.log ∧ t.frame = s.frame ∧ t.settings = s.settings
    (∀ deadline, s.roll.isolationTimer = some deadline → deadline ≤ s.now →
      ∃ t : State, exec .isolationTimerExpiry s = .next t ∧ rejoined t ∧ t.port = s.port.latched .rejoined ∧
        t.link.phase = (match s.link.phase with
          | .round _ won => .round none won
          | .body (.sender _) key => .body .abandoned key
          | .spoil (.sender _) _ _ => .spoil .abandoned true none
          | phase => phase)) ∧
    (∀ n counter item sent, s.link.phase = .spoil .receiver false (some (n, .roll counter 3 item)) →
      n ≠ s.settings.station → (s.peer n).state = .present → (s.peer n).joining = false →
      s.roll.joinSentAt = some sent → sent + s.settings.rollPeriod < s.now →
      item.getLsbD s.settings.station.val = false →
      ∃ t : State, exec (.spoilWindowEnd false) s = .next t ∧ rejoined t ∧
        t.port = (s.port.counted .taken).latched .rejoined ∧ t.link.phase = .waiting)

/-- An uncorrectable error: UNCORRECTED rises; in LOADING the region is recorded and the halt held; in HALTED the
region already recorded is kept; in every other state the station enters HALTED with HALTED latched and its blocks
cleared: no job, no board entry, no peer, no queued message, no timer, the holding queue, the ring, the Unpacker and
the Screener empty. The link is passive, but owes a spoil window for an own message that was in its body or its spoil
window; that a receiver which holds the line in a spoil window drops it, and that the round gap after round 3 counts
as the body, are the model's choices (logs 24 and 26). The Imager
holds no job and has no cancel pending; it keeps a plate that is loading or being ejected for its disposal, and ejects
one that is being imaged SCRAP at once. A halt held during LOADING makes the end of a load, or a failed check, end in
HALTED with the recorded region. -/
def Obligations.UncorrectableErrorHalts : Prop :=
  (∀ (s : State) (r : Region),
     (s.station.state = .loading ∨ s.station.state = .halted →
       exec (.uncorrectableError r) s = .next
         { s with
           port := s.port.counted .uncorrected
           station := { s.station with haltRegion := some (s.station.haltRegion.getD r) } }) ∧
     (s.station.state ∈ [.joining, .active, .draining, .detached, .barred] →
       ∃ t : State, exec (.uncorrectableError r) s = .next t ∧
         t.station = { state := .halted, barredReason := none, haltRegion := some (s.station.haltRegion.getD r),
                       resumePending := false } ∧
         t.port = (s.port.counted .uncorrected).latched .halted ∧ (∀ n, t.job n = none) ∧
         t.board = { entries := [], full := false, stamp := 0 } ∧ (∀ n, t.peer n = Peer.unknown) ∧
         (∀ p, t.link.at p = none) ∧ t.link.ageCounter = 0 ∧
         t.link.phase = (match s.link.phase with
           | .body (.sender _) _ | .body .abandoned _ | .spoil (.sender _) _ _ | .spoil .abandoned _ _ | .owed => .owed
           | .passive | .synchronising | .waiting | .round _ _ | .body .receiver _ | .spoil .receiver _ _ => .passive) ∧
         t.roll.rollTimer = none ∧ t.roll.isolationTimer = none ∧ t.roll.joinPeriod = none ∧
         t.receiver.holding = [] ∧ t.receiver.framing = .hunting ∧
         t.unpacker = { work := .free, pool := List.range 16 } ∧
         t.screener = { current := none, store := List.range 768 } ∧ t.ring.emptied ∧ t.imager = s.disposed .halt ∧
         t.frame = s.frame ∧ t.settings = s.settings ∧
         t.damage = s.damage)) ∧
  (∀ (s : State) (r : Region), s.station.state = .loading → s.station.haltRegion = some r →
     (s.loader.phase = .loadingBlocks → ∀ corrected : Nat,
       ∃ t : State, exec (.loadingEnded corrected) s = .next t ∧ t.station.state = .halted ∧
         t.station.haltRegion = some r ∧ t.port.latch &&& 0x4000#16 = 0x4000#16 ∧
         (t.link.phase = .passive ∨ t.link.phase = .owed)) ∧
     (s.loader.phase = .reading → ∀ (record : List Byte) (x : BarredReason × Option Nat),
       recordFailure record = some x →
       ∃ t : State, exec (.configurationReadDone record) s = .next t ∧ t.station.state = .halted ∧
         t.station.haltRegion = some r ∧ t.port.latch &&& 0x4000#16 = 0x4000#16 ∧ t.loader.reason = some x.1))

/-! ## The Plate Board and the page line -/

/-- A good PLATE HEADER for a key the board does not hold: a CONTESTED entry with its window deadline and a new
stamp. Where the station contends, the lowest free slot takes a job with the slot's next generation, every band
AWAITED and the quiet timer running, and its CLAIM is queued with a new queue age (what a renumbering of stamps or
ages counts: log 20). Where it does not contend, nothing else changes. An entry is found by its key; a slot is free
with no live job and no message in its place; the unreserved count is 768 less the bands of the live jobs. -/
def Obligations.PlateHeaderContests : Prop :=
  (∀ (b : Board) (key : PlateKey),
    (b.placeOf key = none ↔ ∀ e ∈ b.entries, e.key ≠ key) ∧
    (∀ i, b.placeOf key = some i → ∃ e, b.entries[i]? = some e ∧ e.key = key) ∧
    b.entryFor key = (b.placeOf key).bind fun i => b.entries[i]?) ∧
  (∀ s : State,
    s.freeSlots = (List.finRange 8).filter (fun n => decide (s.job n = none ∧ s.link.slots[n] = none)) ∧
    s.unreserved = 768 - ((List.finRange 8).map fun n => ((s.job n).map fun j => j.bands.length).getD 0).sum) ∧
  ∀ (s : State) (key : PlateKey) (version size screen rank : Nat),
    (Header.plate key version size screen rank).inRange → s.running = true → s.receiver.framing = .header [] →
    s.board.placeOf key = none → s.board.entries.length < 512 →
    ∃ (r : Board) (t : State), s.board.readiedAs r ∧
      exec (.plateHeader (Header.plate key version size screen rank).encode) s = .next t ∧
      State.judges
        { s with
          receiver := { s.receiver with framing := .hunting }
          board := { r with
            entries := r.entries ++
              [{ key := key, version := version, state := .contested (s.now + s.settings.claimWindow),
                 info := some { sizeClass := size, rank := rank }, stamp := r.stamp }]
            stamp := r.stamp + 1 } } t key version size screen rank

/-- A good PLATE HEADER against an entry for its key, in JOINING, ACTIVE or DRAINING. Of a lower version, or of the
entry's version when it is CONTESTED, OWNED or DONE: ignored and counted, and the station does not contend. Of the
entry's version when it is UNTAKEN or ORPHANED, or of a higher version: the entry is CONTESTED anew with a new stamp
(which entries a renumbering counts: log 20), and Job Control judges the notice: where the station contends, the lowest
free slot takes a job and its CLAIM is queued, and where it does not, nothing else changes. A higher version first
cancels the live job of the key, and the station then contends, if it may, with what that leaves: a CONTENDING job is
freed with its CLAIM withdrawn, or asked to withdraw where it is in progress; an OWNED one that neither the Imager nor
the Screener holds ends with a DONE as SUPERSEDED and is freed, one with a band in the Screener waits in CANCELLING,
and one in IMAGING leaves the Imager a cancel pending, which scraps a plate with no swath in output at once; one
already CANCELLING, or whose cancel the Imager holds, stays as it is. For a key that a full board does not hold: the
oldest DONE, else the oldest UNTAKEN, else the oldest ORPHANED entry gives its place, and the notice is judged; with
none of them, BOARD FULL, UNRECORDED rises, and the station does not contend. A job that is freed leaves the data path:
every descriptor in the ring that names it is void, the buffers of its SCREENED bands return to the store and the
buffer of its cursor to the pool, its end marker leaves the holding queue, and the Unpacker's work on its record stops,
the record being dropped as stale. A draining station that so loses its last live job has a LEAVE queued, or held as
the replacement of a message in progress in the presence place. One that enters CANCELLING gives up the same, but for
its SCREENED bands' buffers. -/
def Obligations.PlateHeaderAgainstTheBoard : Prop :=
  ∀ (s : State) (key : PlateKey) (version size screen rank : Nat),
    (Header.plate key version size screen rank).inRange → s.running = true → s.receiver.framing = .header [] →
    ∃ r : Board, s.board.readiedAs r ∧
    let c : Instr := .plateHeader (Header.plate key version size screen rank).encode
    let hunting : Receiver := { s.receiver with framing := .hunting }
    let contested (i : Nat) : State :=
      { s with
        receiver := hunting
        board := { r with
          entries := r.entries.set i
            { key := key, version := version, state := .contested (s.now + s.settings.claimWindow),
              info := some { sizeClass := size, rank := rank }, stamp := r.stamp }
          stamp := r.stamp + 1 } }
    let judged (u : State) : Prop := ∃ t : State, exec c s = .next t ∧ u.judges t key version size screen rank
    (∀ i e, s.board.placeOf key = some i → s.board.entries[i]? = some e →
      (version < e.version ∨
        (version = e.version ∧ e.state ≠ .untaken ∧ ∀ n, e.state ≠ .orphaned n) →
        exec c s = .next { s with receiver := hunting, port := s.port.counted .headersIgnored }) ∧
      ((version = e.version ∧ (e.state = .untaken ∨ ∃ n, e.state = .orphaned n)) ∨
        (e.version < version ∧ ∀ n j, s.job n = some j → s.outlasts j key version) → judged (contested i)) ∧
      (∀ n j, e.version < version → s.job n = some j → j.key = key → j.version < version →
        (∀ m k, m ≠ n → s.job m = some k → s.outlasts k key version) →
        ∃ u : State, (contested i).superseded u n j ∧ judged u)) ∧
    (s.board.placeOf key = none → 512 ≤ s.board.entries.length →
      let sort (x : EntryState) : Nat := match x with
        | .done _ _ _ _ => 0
        | .untaken => 1
        | .orphaned _ => 2
        | .contested _ | .owned _ => 3
      (∀ i e, s.board.entries[i]? = some e → sort e.state ≤ 2 →
        (∀ k d, s.board.entries[k]? = some d → k ≠ i →
          sort e.state < sort d.state ∨ (sort e.state = sort d.state ∧ e.stamp < d.stamp)) →
        judged (contested i)) ∧
      ((∀ e ∈ s.board.entries, sort e.state = 3) →
        exec c s = .next
          { s with
            receiver := hunting
            board := { s.board with full := true }
            port := (s.port.latched .boardFull).counted .unrecorded }))

/-- A claim window expires: the entry is UNTAKEN with a new stamp, the counter's value, and the counter advances by
one; a counter at 4294967295 is first set to the number of entries, whose stamps are renumbered from 0 upward in their
order (that the expiring entry counts among them is the model's choice, log 20); UNTAKEN is latched and BOARD FULL is
cleared. A CONTENDING job of the version whose CLAIM is not in progress loses its claim: the CLAIM leaves the queue and
the job is freed. A job that is freed leaves the data path: every descriptor in the ring that names it is void, the
buffers of its SCREENED bands return to the store and the buffer of its cursor to the pool, its end marker leaves the
holding queue, and the Unpacker's work on its record stops, the record being dropped as stale. A draining station that
so loses its last live job has a LEAVE queued, or held as the replacement of a message in progress in the presence
place. One whose CLAIM is in progress lives to the end of the opening: the withdrawal of the CLAIM is held pending,
with cause WINDOW unless the job carries a cause already. -/
def Obligations.ClaimWindowExpires : Prop :=
  ∀ (s : State) (i deadline : Nat) (e : BoardEntry), s.running = true → s.board.entries[i]? = some e →
    e.state = .contested deadline → deadline ≤ s.now →
    ∃ r : Board, s.board.readiedAs r ∧
    let board : Board :=
      { entries := r.entries.set i { e with state := .untaken, stamp := r.stamp }, full := false,
        stamp := r.stamp + 1 }
    (s.jobFor e.key e.version = none →
      exec (.claimWindowExpiry i) s = .next { s with board := board, port := s.port.latched .untaken }) ∧
    (∀ n j, s.jobFor e.key e.version = some n → s.job n = some j → j.standing = .contending →
      j.claimInProgress = false → (∀ q, s.link.slots[n] = some q → q.inProgress = false) →
      ∃ t : State, exec (.claimWindowExpiry i) s = .next t ∧
        t.board = board ∧ t.port = s.port.latched .untaken ∧ s.freed t n ∧ t.link.slots[n] = none ∧
        (∀ m, m ≠ n → t.job m = s.job m) ∧ t.jobs.generations = s.jobs.generations ∧ t.frame = s.frame ∧
        s.leaveFollows t n { s.link with slots := s.link.slots.set n none }) ∧
    (∀ n j q, s.jobFor e.key e.version = some n → s.job n = some j → j.standing = .contending →
      j.claimInProgress = true → s.link.slots[n] = some q → q.inProgress = true →
      exec (.claimWindowExpiry i) s = .next
        { s with
          board := board
          port := s.port.latched .untaken
          link := { s.link with slots := s.link.slots.set n (some { q with withdrawal := true }) }
          jobs := { s.jobs with
            slots := s.jobs.slots.set n (some ({ j with withdrawal := some (j.withdrawal.getD .window) })) } })

/-- A start marker ends hunting; one that finds header bytes makes them a header failure. One that finds a FRAGMENT
short of its payload and its CRC, the bytes that came just before it counted, cuts it short: the FRAGMENT is judged at
once, passed over when no live job has its key and version, LATE when its job takes records no more (a job that takes
it: DroppedFragmentMarksItsBand), and the marker begins the next record; the model numbers its free values (log 5). A
first byte that names no kind, and a whole header whose nibble check or a field's range fails, are header failures
too: the record is dropped and reported unattributed with its raw header, the first such report since the log was
cleared keeping its place. -/
def Obligations.StartMarkerAndHeaderFailure : Prop :=
  ∀ s : State, s.running = true →
    let failed (s : State) (got : List Byte) (f : Framing) : State :=
      { s with
        receiver := { s.receiver with framing := f }
        damage := { s.damage with log := { s.damage.log with
          unattributed := min (s.damage.log.unattributed + 1) 65535
          rawHeader := s.damage.log.rawHeader.or (some (got.take 16 ++ List.replicate (16 - got.length) 0x00#8)) } }
        port := s.port.latched .unattributed }
    (∀ bytes, s.receiver.framing = .hunting →
      exec (.startMarker bytes) s = .next { s with receiver := { s.receiver with framing := .header [] } }) ∧
    (∀ got, s.receiver.framing = .header got →
      exec (.startMarker []) s = .next (failed s got (.header []))) ∧
    (∀ key version band part last length got bytes,
      let h := Header.fragment key version band part last length
      let cut : State :=
        { s with receiver := { s.receiver with framing := .header [] }, freeCount := s.freeCount + 2 }
      h.inRange → s.receiver.framing = .payload h.encode got → got.length + bytes.length < length + 2 →
      (s.jobFor key version = none →
        exec (.startMarker bytes) s = .next { cut with port := s.port.counted .passedOver }) ∧
      (∀ n j, s.jobFor key version = some n → s.job n = some j → j.stage ≠ .receiving ∨ j.endAdmitted = true →
        exec (.startMarker bytes) s = .next
          { cut with damage := { s.damage with log := { s.damage.log with
              late := min (s.damage.log.late + 1) 65535 } } })) ∧
    (∀ b, s.receiver.framing = .header [] → b ≠ 0x01#8 → b ≠ 0x02#8 → b ≠ 0x03#8 →
      exec (.headerFailure [b]) s = .next (failed s [b] .hunting)) ∧
    (∀ bytes, s.receiver.framing = .header [] → headerLength (byteAt bytes 0) = some bytes.length →
      judgeHeader bytes = none →
      exec (.headerFailure bytes) s = .next (failed s bytes .hunting))

/-- A header judged is the header encoded: for every page-line header with its fields in their ranges, the
receiver's judgement of its bytes gives back every field, and its kind byte gives its length. Of its kind's length
no other bytes are a good header: one that the receiver takes has every field in its range and is encoded so. The
headers that fail are those with a wrong nibble check, a kind byte that names no kind, a separation nibble above 3,
an edition above 63 or a page of 0, a PLATE HEADER with a size class or screening class above 3 or a rank above 7,
and a FRAGMENT with a band above 95, a part above 15 or a payload length above 4096. The nibble check: its high
nibble is the sum of all nibbles, its low nibble the sum of the high nibbles less the sum of the low ones, each
modulo 16. The bytes of each kind of header stand in their order, with the check last. -/
def Obligations.HeaderRoundTrip : Prop :=
  (∀ h : Header, h.inRange →
    judgeHeader h.encode = some h ∧ headerLength (byteAt h.encode 0) = some h.encode.length) ∧
  (∀ (h : Header) (bytes : List Byte), headerLength (byteAt bytes 0) = some bytes.length →
    judgeHeader bytes = some h → h.inRange ∧ bytes = h.encode) ∧
  (∀ bytes : List Byte,
    let byte (i : Nat) : Nat := (byteAt bytes i).toNat
    judgeHeader bytes = none ↔
      bytes.getLast? ≠ some (nibbleCheck bytes.dropLast) ∨ byte 0 ∉ [0x01, 0x02, 0x03] ∨
      3 < byte 1 % 16 ∨ 63 < byte 2 ∨ byte 3 = 0 ∨
      (byte 0 = 0x01 ∧ (3 < byte 5 / 16 ∨ 3 < byte 5 % 16 ∨ 7 < byte 6)) ∨
      (byte 0 = 0x02 ∧ (95 < byte 5 ∨ 15 < byte 6 % 128 ∨ 4096 < byte 7 * 256 + byte 8))) ∧
  (∀ bytes : List Byte,
    let high (i : Nat) : Nat := (bytes.getD i 0x00#8).toNat / 16
    let low (i : Nat) : Nat := (bytes.getD i 0x00#8).toNat % 16
    let even := ((List.range bytes.length).map high).sum
    let odd := ((List.range bytes.length).map low).sum
    (nibbleCheck bytes).toNat / 16 = (even + odd) % 16 ∧
      (((nibbleCheck bytes).toNat % 16 : Nat) : Int) = ((even : Int) - (odd : Int)) % 16) ∧
  ∀ (key : PlateKey) (version size screen rank band part length : Nat) (last : Bool),
    let byte (n : Nat) : Byte := BitVec.ofNat 8 n
    let plate : List Byte := [byte (key.title * 16 + key.sep.code), byte key.edition, byte key.page]
    let sealed (bytes : List Byte) : List Byte := bytes ++ [nibbleCheck bytes]
    (Header.plate key version size screen rank).encode =
      sealed (0x01#8 :: plate ++ [byte version, byte (size * 16 + screen), byte rank]) ∧
    (Header.fragment key version band part last length).encode =
      sealed (0x02#8 :: plate ++ [byte version, byte band, byte ((if last = true then 128 else 0) + part),
        byte (length / 256), byte length]) ∧
    (Header.plateEnd key version).encode = sealed (0x03#8 :: plate ++ [byte version])

/-- A FRAGMENT of a job that is taken and passes the three checks is admitted: it joins the tail of the holding queue
with its job's slot and generation, the cursor moves to it, the quiet timer restarts and ADMITTED rises. -/
def Obligations.FragmentAdmitted : Prop :=
  ∀ (s : State) (key : PlateKey) (version band part : Nat) (last : Bool) (payload : List Byte) (hi lo : Byte)
    (n : Slot) (j : Job),
    let h := Header.fragment key version band part last payload.length
    h.inRange → s.running = true → s.receiver.framing = .header [] → s.jobFor key version = some n →
    s.job n = some j → j.stage = .receiving → j.endAdmitted = false → band < j.bands.length →
    (∀ c, j.admission = some c → c.band < band ∨ (c.band = band ∧ c.part < part ∧ c.last = false)) →
    crc16 payload = half hi lo → (∀ f ∈ s.settings.fills, f.matches payload = false) →
    (s.receiver.holding.filter HoldingRecord.isFragment).length < 8192 →
    exec (.fragment (h.encode ++ payload ++ [hi, lo])) s = .next
      { s with
        receiver :=
          { framing := .hunting
            holding := s.receiver.holding ++
              [{ slot := n, generation := j.generation, key := j.key, version := j.version,
                 body := .fragment band part last payload ((h.encode.take 9).drop 1 ++ [hi, lo]) }] }
        jobs := { s.jobs with
          slots := s.jobs.slots.set n (some ({ j with
            admission := some { band := band, part := part, last := last }
            quiet := some (s.now + s.settings.quietLimit) })) }
        port := s.port.counted .admitted }

/-- A taken FRAGMENT that fails a check is dropped and marks its band: CHECK for its payload CRC, else FILL for a
fill pattern, else OVERFLOW for a full holding queue, which also latches HOLDING OVERFLOW and sets the overflow
flag. The cursor moves, the quiet timer does not restart, the holding queue is as it was. The first mark of a band
gives it its kind and raises the damaged band count, the first of a job makes its first-damage record, and every
mark raises the record's count of its kind. Nothing else of the job or of the station changes. A FRAGMENT that a
start marker cuts short, with payload or CRC bytes still to come, fails its CRC check in the same way, whatever it
carried; a CRC byte that never arrived is a free value of the captured fields, and the marker begins the next record
(log 5). A payload matches a fill pattern slot exactly when the slot is enabled, the payload has at least 64 bytes,
and the CRC-16 of its first 64, each with a clear mask bit replaced by 00h, is the slot's; bit k of mask byte i
stands for byte 8 i + k. -/
def Obligations.DroppedFragmentMarksItsBand : Prop :=
  (∀ (s : State) (key : PlateKey) (version band part : Nat) (last : Bool) (payload : List Byte) (hi lo : Byte)
    (n : Slot) (j : Job) (kind : DamageKind),
    let h := Header.fragment key version band part last payload.length
    h.inRange → s.running = true → s.receiver.framing = .header [] → s.jobFor key version = some n →
    s.job n = some j → j.stage = .receiving → j.endAdmitted = false → band < j.bands.length →
    (∀ c, j.admission = some c → c.band < band ∨ (c.band = band ∧ c.part < part ∧ c.last = false)) →
    (kind = .check ∧ crc16 payload ≠ half hi lo) ∨
      (kind = .fill ∧ crc16 payload = half hi lo ∧ ∃ f ∈ s.settings.fills, f.matches payload = true) ∨
      (kind = .overflow ∧ crc16 payload = half hi lo ∧ (∀ f ∈ s.settings.fills, f.matches payload = false) ∧
        8192 ≤ (s.receiver.holding.filter HoldingRecord.isFragment).length) →
    let up (c : KindCounts) : KindCounts := match kind with
      | .check => { c with check := min (c.check + 1) 65535 }
      | .fill => { c with fill := min (c.fill + 1) 65535 }
      | .overflow => { c with overflow := min (c.overflow + 1) 65535 }
      | .gap | .format => c
    exec (.fragment (h.encode ++ payload ++ [hi, lo])) s = .next
      { s with
        receiver := { s.receiver with framing := .hunting }
        jobs := { s.jobs with slots := s.jobs.slots.set n (some ({ j with
          admission := some { band := band, part := part, last := last }
          bands := j.bands.modify band fun b => { b with kind := some (b.kind.getD kind) }
          damagedCount := if (j.band band).kind = none then j.damagedCount + 1 else j.damagedCount
          firstDamage := some (match j.firstDamage with
            | some r => { r with counts := up r.counts }
            | none =>
              { kind := kind, band := band, part := some part
                capture := some ((h.encode.take 9).drop 1 ++ [hi, lo])
                counts := up { check := 0, fill := 0, overflow := 0, gap := 0, format := 0 } }) })) }
        port := if kind = .overflow then s.port.latched .holdingOverflow else s.port
        roll := if kind = .overflow then { s.roll with overflow := true, overflowMark := false } else s.roll }) ∧
  (∀ (s : State) (key : PlateKey) (version band part : Nat) (last : Bool) (length : Nat) (got bytes : List Byte)
    (n : Slot) (j : Job),
    let h := Header.fragment key version band part last length
    h.inRange → s.running = true → s.receiver.framing = .payload h.encode got →
    got.length + bytes.length < length + 2 → s.jobFor key version = some n →
    s.job n = some j → j.stage = .receiving → j.endAdmitted = false → band < j.bands.length →
    (∀ c, j.admission = some c → c.band < band ∨ (c.band = band ∧ c.part < part ∧ c.last = false)) →
    ∃ crc : List Byte, crc.length = 2 ∧
      (∀ i x, (got ++ bytes)[length + i]? = some x → crc[i]? = some x) ∧
      exec (.startMarker bytes) s = .next
        { s with
          receiver := { s.receiver with framing := .header [] }
          freeCount := s.freeCount + 2
          jobs := { s.jobs with slots := s.jobs.slots.set n (some ({ j with
            admission := some { band := band, part := part, last := last }
            bands := j.bands.modify band fun b => { b with kind := some (b.kind.getD .check) }
            damagedCount := if (j.band band).kind = none then j.damagedCount + 1 else j.damagedCount
            firstDamage := some (match j.firstDamage with
              | some r => { r with counts := { r.counts with check := min (r.counts.check + 1) 65535 } }
              | none =>
                { kind := .check, band := band, part := some part
                  capture := some ((h.encode.take 9).drop 1 ++ crc)
                  counts := { check := 1, fill := 0, overflow := 0, gap := 0, format := 0 } }) })) } }) ∧
  ∀ (f : FillPattern) (payload : List Byte),
    f.matches payload = true ↔ f.enabled = true ∧ 64 ≤ payload.length ∧
      ∃ kept : List Byte, kept.length = 64 ∧ crc16 kept = f.crc ∧
        ∀ i k, i < 8 → k < 8 → kept[8 * i + k]? =
          if (f.mask.getD i 0x00#8).getLsbD k = true then payload[8 * i + k]? else some 0x00#8

/-- A FRAGMENT that is not taken, whatever its payload and CRC: passed over when no live job has its key and
version; LATE when the job has end-admitted set or has left RECEIVING; unattributed with its raw header when its
band index is not below the job's band count; a duplicate by the admission cursor, which does not move. The live job
of a record is one with its key and version. -/
def Obligations.FragmentNotTaken : Prop :=
  (∀ (s : State) (key : PlateKey) (version band part : Nat) (last : Bool) (payload : List Byte) (hi lo : Byte),
    let h := Header.fragment key version band part last payload.length
    h.inRange → s.running = true → s.receiver.framing = .header [] →
    let after := { s with receiver := { s.receiver with framing := .hunting } }
    (s.jobFor key version = none →
      exec (.fragment (h.encode ++ payload ++ [hi, lo])) s = .next
        { after with port := s.port.counted .passedOver }) ∧
    ∀ n j, s.jobFor key version = some n → s.job n = some j →
      (j.stage ≠ .receiving ∨ j.endAdmitted = true →
        exec (.fragment (h.encode ++ payload ++ [hi, lo])) s = .next
          { after with damage := { s.damage with log := { s.damage.log with
              late := min (s.damage.log.late + 1) 65535 } } }) ∧
      (j.stage = .receiving → j.endAdmitted = false →
        (j.bands.length ≤ band →
          exec (.fragment (h.encode ++ payload ++ [hi, lo])) s = .next
            { after with
              damage := { s.damage with log := { s.damage.log with
                unattributed := min (s.damage.log.unattributed + 1) 65535
                rawHeader := s.damage.log.rawHeader.or (some (h.encode ++ List.replicate 6 0x00#8)) } }
              port := s.port.latched .unattributed }) ∧
        (band < j.bands.length → ∀ c, j.admission = some c →
          band < c.band ∨ (band = c.band ∧ (part ≤ c.part ∨ c.last = true)) →
          exec (.fragment (h.encode ++ payload ++ [hi, lo])) s = .next
            { after with damage := { s.damage with log := { s.damage.log with
                duplicate := min (s.damage.log.duplicate + 1) 65535 } } }))) ∧
  ∀ (s : State) (key : PlateKey) (version : Nat),
    (s.jobFor key version = none ↔ ∀ n j, s.job n = some j → ¬ (j.key = key ∧ j.version = version)) ∧
    ∀ n, s.jobFor key version = some n → ∃ j, s.job n = some j ∧ j.key = key ∧ j.version = version

/-- A PLATE END of a job is admitted as an end marker with origin PLATE END, whatever the holding queue holds:
end-admitted is set, the quiet timer stops and ADMITTED rises. One of no live job is passed over, one that comes late is
LATE. A quiet timer that expires admits an end marker with origin QUIET and raises QUIET ENDS. -/
def Obligations.PlateEndAndQuietTimer : Prop :=
  ∀ s : State,
    (∀ key version, (Header.plateEnd key version).inRange → s.running = true → s.receiver.framing = .header [] →
      s.jobFor key version = none →
      exec (.plateEnd (Header.plateEnd key version).encode) s = .next
        { s with receiver := { s.receiver with framing := .hunting }, port := s.port.counted .passedOver }) ∧
    ∀ (n : Slot) (j : Job), s.job n = some j →
      let ended (origin : EndOrigin) (f : Framing) (c : Count) : State :=
        { s with
          receiver :=
            { framing := f
              holding := s.receiver.holding ++
                [{ slot := n, generation := j.generation, key := j.key, version := j.version,
                   body := .endMarker origin }] }
          jobs := { s.jobs with slots := s.jobs.slots.set n (some ({ j with endAdmitted := true, quiet := none })) }
          port := s.port.counted c }
      (∀ key version, (Header.plateEnd key version).inRange → s.running = true → s.receiver.framing = .header [] →
        s.jobFor key version = some n →
        (j.stage = .receiving → j.endAdmitted = false →
          exec (.plateEnd (Header.plateEnd key version).encode) s = .next (ended .plateEnd .hunting .admitted)) ∧
        (j.stage ≠ .receiving ∨ j.endAdmitted = true →
          exec (.plateEnd (Header.plateEnd key version).encode) s = .next
            { s with
              receiver := { s.receiver with framing := .hunting }
              damage := { s.damage with log := { s.damage.log with
                late := min (s.damage.log.late + 1) 65535 } } })) ∧
      (∀ deadline, j.quiet = some deadline → deadline ≤ s.now →
        exec (.quietTimerExpiry n) s = .next (ended .quiet s.receiver.framing .quietEnds))

/-! ## The Unpacker and the band ring -/

/-- A head record whose job is gone, or has left RECEIVING, is stale: it leaves the holding queue and is counted, by
TAKE HEAD RECORD and, when the wait for a buffer ends, by TAKE HEAD ANEW. An end marker of a job in RECEIVING, with
every band ended: end-processed is set, the job is CLOSING and the marker leaves. The bands that are open end first,
the current band and then each that is still AWAITED in rising order: each with the kind it carries, else as GAP,
which raises the damaged band count; a damaged descriptor enters the ring, the cursor's buffer returns and the
marker is judged on. A full ring holds the Unpacker at the first of them, with the marker at the head;
DescriptorEntersRing says how it goes on. An owned job whose bands are all SCREENED is assessed at once: READY with
the next ready order (what a renumbering counts: log 20) where it is CLEAN or within the tint limit (and the Imager
takes no plate; else ArbiterTakesTheFirstReady), HELD with HELD latched where it is held for kind or for count. -/
def Obligations.StaleRecordsAndEndMarkers : Prop :=
  ∀ (s : State) (corrected : Nat) (r : HoldingRecord) (rest : List HoldingRecord) (c : Instr),
    s.receiver.holding = r :: rest →
    (s.unpacker.work = .free ∧ c = .takeHeadRecord corrected) ∨
      (s.unpacker.work = .waitBuffer ∧ c = .takeHeadAnew corrected) →
    let finished : State :=
      { s with
        port := s.port.countedBy .corrected corrected
        receiver := { s.receiver with holding := rest }
        unpacker := { s.unpacker with work := .free } }
    ((∀ j, s.job r.slot = some j → j.generation ≠ r.generation ∨ j.stage ≠ .receiving) →
      exec c s = .next
        { finished with
          damage := { s.damage with log := { s.damage.log with stale := min (s.damage.log.stale + 1) 65535 } } }) ∧
    (∀ origin j, r.body = .endMarker origin → s.job r.slot = some j → j.generation = r.generation →
      j.stage = .receiving →
      ((∀ a, a < j.bands.length → (j.band a).state ≠ .awaited) → j.cursor.current = none →
        (j.standing = .contending ∨ j.screenedCount ≠ j.bands.length →
          exec c s = .next { finished with
            jobs := { s.jobs with
              slots := s.jobs.slots.set r.slot (some ({ j with endProcessed := true, stage := .closing })) } }) ∧
        (∀ v, j.standing = .owned → j.screenedCount = j.bands.length → j.hasVerdict s.settings v →
          (v = .clean ∨ v = .withinTint → s.imager.state ≠ .idle ∨ s.imager.mediaOut = true) →
          let ended : Job := { j with endProcessed := true, stage := .closing }
          ∃ t : State, exec c s = .next t ∧
            State.assessed
              { finished with jobs := { s.jobs with slots := s.jobs.slots.set r.slot (some ended) } } t r.slot ended v)) ∧
      (∀ o pool, j.endsFirst o j.bands.length → s.unpacker.pool.Pairwise (· < ·) → pool.Pairwise (· < ·) →
        (∀ x, x ∈ pool ↔ j.cursor.buffer = some x ∨ x ∈ s.unpacker.pool) →
        (s.ring.isFull = false →
          exec c s = exec c
            { s with
              unpacker := { s.unpacker with pool := pool }
              ring := s.ring.withDamaged r.slot o
              jobs := { s.jobs with slots := s.jobs.slots.set r.slot (some (j.gapEnded o)) } }) ∧
        (s.ring.isFull = true →
          exec c s = .next
            { s with
              port := finished.port
              unpacker :=
                { work := .waitRing { slot := r.slot, band := o, buffer := none, void := false } (.judgeOn none)
                  pool := pool }
              jobs := { s.jobs with
                slots := s.jobs.slots.set r.slot (some ({ j.gapEnded o with
                  bands := j.bands.modify o fun e => { e with kind := some (e.kind.getD .gap) } })) } })) ∧
      (∀ b, b < j.bands.length → (∀ a, a < j.bands.length → a ≠ b → (j.band a).state ≠ .awaited) →
        (j.cursor.current = some b ∧ (j.band b).state = .decoding) ∨
          (j.cursor.current = none ∧ j.cursor.buffer = none ∧ (j.band b).state = .awaited) →
        (s.ring.isFull = false → j.screenedCount ≠ j.bands.length →
          ∃ (t : State) (k : Job), exec c s = .next t ∧ t.job r.slot = some k ∧
            (∀ n, n ≠ r.slot → t.job n = s.job n) ∧ k.stage = .closing ∧ k.endProcessed = true ∧
            k.bands = j.bands.modify b (fun x => { state := .queued, kind := some (x.kind.getD .gap) }) ∧
            k.damagedCount = (if (j.band b).kind = none then j.damagedCount + 1 else j.damagedCount) ∧
            k.cursor = { current := none, nextPart := 0, pixels := 0, buffer := none } ∧
            (∀ x, x ∈ t.unpacker.pool ↔ j.cursor.buffer = some x ∨ x ∈ s.unpacker.pool) ∧
            t.unpacker.work = .free ∧ t.receiver = finished.receiver ∧ t.port = finished.port ∧
            t.ring = s.ring.withDamaged r.slot b ∧
            t.frame = s.frame) ∧
        (s.ring.isFull = true →
          ∃ (t : State) (k : Job), exec c s = .next t ∧ t.job r.slot = some k ∧ k.stage = .receiving ∧
            k.bands = j.bands.modify b (fun x => { x with kind := some (x.kind.getD .gap) }) ∧
            t.unpacker.work =
              .waitRing { slot := r.slot, band := b, buffer := none, void := false } (.judgeOn none) ∧
            t.receiver = s.receiver ∧ t.ring = s.ring)))

/-- A fragment at the head, of a job in RECEIVING. The bands below its own end first, the current band and then each
AWAITED band in rising order: each with the kind it carries, else as GAP, which raises the damaged band count; a
damaged descriptor enters the ring, the cursor's buffer returns and the fragment is judged on. A full ring holds the
Unpacker at the first of them, with the fragment at the head; DescriptorEntersRing says how it goes on. With every band
below it past AWAITED: part 0 of an AWAITED band that carries no kind begins the band: the band takes the buffer of the
lowest number, its cursor is at part 0 and pixel 0; with no buffer free the Unpacker waits with the record at the head;
a current band below it ends first, as GAP, and its buffer returns. The next part of the current band goes on to
decoding; a later part is a GAP, and so is a part above 0 of an AWAITED band: the band ends damaged, its buffer
returns, a damaged descriptor enters the ring and the record is dropped and counted. A part of the current band below
the next part, for which R111 has no row, is taken as a later one (the model's choice, log 25). So ends the current
band at any record once it carries a kind. A fragment of an AWAITED band that carries a kind, or of a band that has ended, is
dropped and counted, and nothing else changes. -/
def Obligations.FragmentAtTheHead : Prop :=
  ∀ (s : State) (corrected : Nat) (r : HoldingRecord) (rest : List HoldingRecord) (j : Job) (b part : Nat)
    (last : Bool) (payload capture : List Byte) (c : Instr),
    s.receiver.holding = r :: rest → r.body = .fragment b part last payload capture → s.job r.slot = some j →
    j.generation = r.generation → j.stage = .receiving → b < j.bands.length →
    (s.unpacker.work = .free ∧ c = .takeHeadRecord corrected) ∨
      (s.unpacker.work = .waitBuffer ∧ c = .takeHeadAnew corrected) →
    let counted : State := { s with port := s.port.countedBy .corrected corrected }
    let discarded : State :=
      { counted with
        port := (s.port.countedBy .corrected corrected).counted .partsDiscarded
        receiver := { s.receiver with holding := rest }
        unpacker := { s.unpacker with work := .free } }
    let empty : UnpackCursor := { current := none, nextPart := 0, pixels := 0, buffer := none }
    (∀ o pool, j.endsFirst o b → s.unpacker.pool.Pairwise (· < ·) → pool.Pairwise (· < ·) →
      (∀ x, x ∈ pool ↔ j.cursor.buffer = some x ∨ x ∈ s.unpacker.pool) →
      (s.ring.isFull = false →
        exec c s = exec c
          { s with
            unpacker := { s.unpacker with pool := pool }
            ring := s.ring.withDamaged r.slot o
            jobs := { s.jobs with slots := s.jobs.slots.set r.slot (some (j.gapEnded o)) } }) ∧
      (s.ring.isFull = true →
        exec c s = .next
          { counted with
            unpacker :=
              { work := .waitRing { slot := r.slot, band := o, buffer := none, void := false }
                  (.judgeOn (j.band b).kind)
                pool := pool }
            jobs := { s.jobs with
              slots := s.jobs.slots.set r.slot (some ({ j.gapEnded o with
                bands := j.bands.modify o fun e => { e with kind := some (e.kind.getD .gap) } })) } })) ∧
    ((∀ a, a < b → (j.band a).state ≠ .awaited) →
      (j.cursor.current = none → j.band b = { state := .awaited, kind := none } → part = 0 →
        (∀ x pool, s.unpacker.pool = x :: pool →
          exec c s = .next
            { counted with
              unpacker := { work := .decoding, pool := pool }
              jobs := { s.jobs with
                slots := s.jobs.slots.set r.slot (some ({ j with
                  bands := j.bands.modify b fun e => { e with state := .decoding }
                  cursor := { current := some b, nextPart := 0, pixels := 0, buffer := some x } })) } }) ∧
        (s.unpacker.pool = [] →
          exec c s = .next { counted with unpacker := { s.unpacker with work := .waitBuffer } })) ∧
      (∀ d x, j.cursor.current = some d → d < b → (j.band d).state = .decoding → (j.band d).kind = none →
        j.cursor.buffer = some x → j.band b = { state := .awaited, kind := none } → part = 0 →
        s.ring.isFull = false → s.unpacker.pool.Pairwise (· < ·) →
        ∃ (t : State) (k : Job) (y : Nat), exec c s = .next t ∧ t.job r.slot = some k ∧
          k.bands = (j.bands.modify d fun _ => { state := .queued, kind := some .gap }).modify b
            (fun e => { e with state := .decoding }) ∧
          k.damagedCount = j.damagedCount + 1 ∧
          k.cursor = { current := some b, nextPart := 0, pixels := 0, buffer := some y } ∧
          (y = x ∨ y ∈ s.unpacker.pool) ∧ (∀ z, z = x ∨ z ∈ s.unpacker.pool → y ≤ z) ∧
          (∀ z, z ∈ t.unpacker.pool → z = x ∨ z ∈ s.unpacker.pool) ∧ y ∉ t.unpacker.pool ∧
          t.unpacker.work = .decoding ∧ t.ring = s.ring.withDamaged r.slot d ∧ t.receiver = s.receiver ∧
          t.port = counted.port) ∧
      (j.cursor.current = some b → (j.band b).state = .decoding → (j.band b).kind = none → part = j.cursor.nextPart →
        exec c s = .next { counted with unpacker := { s.unpacker with work := .decoding } }) ∧
      ((j.cursor.current = some b ∧ (j.band b).state = .decoding ∧
            ((j.band b).kind ≠ none ∨ part ≠ j.cursor.nextPart)) ∨
          (j.cursor.current = none ∧ j.cursor.buffer = none ∧ j.band b = { state := .awaited, kind := none } ∧
            0 < part) →
        (s.ring.isFull = false →
          ∃ (t : State) (k : Job), exec c s = .next t ∧ t.job r.slot = some k ∧
            (∀ n, n ≠ r.slot → t.job n = s.job n) ∧
            k.bands = j.bands.modify b (fun x => { state := .queued, kind := some (x.kind.getD .gap) }) ∧
            k.damagedCount = (if (j.band b).kind = none then j.damagedCount + 1 else j.damagedCount) ∧
            (j.firstDamage = none → (j.band b).kind = none → ∃ f, k.firstDamage = some f ∧ f.kind = .gap ∧ f.band = b ∧
              f.part = none ∧ f.capture = none) ∧
            ((j.band b).kind ≠ none → k.firstDamage = j.firstDamage) ∧ k.cursor = empty ∧ k.stage = .receiving ∧
            (∀ x, x ∈ t.unpacker.pool ↔ j.cursor.buffer = some x ∨ x ∈ s.unpacker.pool) ∧
            t.unpacker.work = .free ∧ t.ring = s.ring.withDamaged r.slot b ∧ t.receiver = discarded.receiver ∧
            t.port = discarded.port ∧ t.frame = s.frame) ∧
        (s.ring.isFull = true →
          ∃ t : State, exec c s = .next t ∧ t.receiver = s.receiver ∧ t.ring = s.ring ∧ t.port = counted.port ∧
            t.unpacker.work = .waitRing { slot := r.slot, band := b, buffer := none, void := false }
              (.judgeOn (j.band b).kind))) ∧
      (j.cursor.current = none →
        ((j.band b).state = .awaited ∧ (j.band b).kind ≠ none) ∨ (j.band b).state = .queued ∨
          (j.band b).state = .screening ∨ (∃ x, (j.band b).state = .screened x) →
        exec c s = .next discarded))

/-- The end of a part that finished the band's pixels short of the count and may be followed by another part: the
part is counted into the cursor and its record leaves. One that brought the band to its count: BANDS DECODED rises,
and with room in the ring the band's descriptor with its buffer enters at the producer index, the band is QUEUED and
the cursor is empty; a full ring holds the Unpacker with that descriptor, the buffer still the cursor's and the
record at the head. The codes of a part are decoded one by one: an empty payload leaves the pixels decoded where
they are; a code that cannot be read, a COPY ABOVE that begins on line 0 and a run that passes the band's last pixel
are FORMAT errors found before a pixel is written; any other run is written at its position, and the decoding goes
on after it with the bytes that follow, but for the run that reaches the count in a part without the last-part flag,
which is a FORMAT error once it is written. -/
def Obligations.PartDecodedGoesOn : Prop :=
  (∀ (s : State) (corrected : Nat) (r : HoldingRecord) (rest : List HoldingRecord) (j : Job) (band b buffer part : Nat)
    (last : Bool) (payload capture : List Byte) (p : Nat),
    s.unpacker.work = .decoding → s.receiver.holding = r :: rest →
    r.body = .fragment band part last payload capture → s.job r.slot = some j → j.cursor.current = some b →
    j.cursor.buffer = some buffer →
    let width := (s.settings.sizeClass j.sizeClass).width
    let count := width * bandLinesOf (s.settings.sizeClass j.sizeClass).height b
    let d := decodeCodes buffer width count last payload.length payload j.cursor.pixels s.frame.bands
    d.2 = .reached p →
    (p ≠ count → last = false → part ≠ 15 →
      exec (.partDecoded corrected) s = .next
        { s with
          port := s.port.countedBy .corrected corrected
          frame := { s.frame with bands := d.1 }
          receiver := { s.receiver with holding := rest }
          unpacker := { s.unpacker with work := .free }
          jobs := { s.jobs with slots := s.jobs.slots.set r.slot (some ({ j with
            cursor := { j.cursor with nextPart := j.cursor.nextPart + 1, pixels := p } })) } }) ∧
    (p = count → (j.band b).kind = none → s.ring.isFull = false →
      exec (.partDecoded corrected) s = .next
        { s with
          port := (s.port.countedBy .corrected corrected).counted .bandsDecoded
          frame := { s.frame with bands := d.1 }
          receiver := { s.receiver with holding := rest }
          unpacker := { s.unpacker with work := .free }
          ring := { s.ring with
            entries := s.ring.entries.set s.ring.producer
              { descriptor := some { slot := r.slot, band := b, buffer := some buffer, void := false },
                mark := s.ring.producerPass }
            producer := s.ring.producer + 1
            producerPass := if s.ring.producer = 31 then !s.ring.producerPass else s.ring.producerPass }
          jobs := { s.jobs with slots := s.jobs.slots.set r.slot (some ({ j with
            bands := j.bands.modify b fun e => { e with state := .queued }
            cursor := { current := none, nextPart := 0, pixels := 0, buffer := none } })) } }) ∧
    (p = count → (j.band b).kind = none → s.ring.isFull = true →
      exec (.partDecoded corrected) s = .next
        { s with
          port := (s.port.countedBy .corrected corrected).counted .bandsDecoded
          frame := { s.frame with bands := d.1 }
          unpacker := { s.unpacker with
            work := .waitRing { slot := r.slot, band := b, buffer := some buffer, void := false } .recordDone }
          jobs := { s.jobs with slots := s.jobs.slots.set r.slot (some ({ j with
            cursor := { current := none, nextPart := 0, pixels := 0, buffer := some buffer } })) } })) ∧
  ∀ (buffer width count pos : Nat) (last : Bool) (payload : List Byte) (m : Mem),
    let decoded (payload : List Byte) (pos : Nat) (m : Mem) : Mem × CodesEnd :=
      decodeCodes buffer width count last payload.length payload pos m
    (payload = [] → decoded payload pos m = (m, .reached pos)) ∧
    (payload ≠ [] → readRun payload = none → decoded payload pos m = (m, .format)) ∧
    (∀ r n rest, payload ≠ [] → readRun payload = some (r, n, rest) →
      ((r = .copyAbove ∧ pos < width) ∨ count < pos + n → decoded payload pos m = (m, .format)) ∧
      ((r = .copyAbove → width ≤ pos) → pos + n ≤ count →
        (pos + n = count → last = false → decoded payload pos m = (r.write buffer width pos n m, .format)) ∧
        (pos + n < count ∨ last = true →
          decoded payload pos m = decoded rest (pos + n) (r.write buffer width pos n m))))

/-- A FORMAT error in a part of a job in RECEIVING: a band that carried no kind takes FORMAT and the damaged band
count rises, one that carried a kind keeps it; the job's first-damage record is made, or its FORMAT count rises; the
cursor is empty and its buffer returns to the pool. With room in the ring a damaged descriptor without a buffer
enters it, the band is QUEUED and the record leaves; a full ring holds the Unpacker with that descriptor and the
record at the head. Among the errors are the end of a last part, or of part 15, short of the count, and every code
that cannot be read: one of kind 5 to 7, one with length field 31 and fewer than two bytes after it or an extended
length under 32, and a TONE RUN or TONE LIST with fewer tone bytes left than it needs. -/
def Obligations.FormatErrorEndsTheBand : Prop :=
  (∀ (s : State) (corrected : Nat) (r : HoldingRecord) (rest : List HoldingRecord) (j : Job) (band b buffer part : Nat)
    (last : Bool) (payload capture : List Byte),
    s.unpacker.work = .decoding → s.receiver.holding = r :: rest →
    r.body = .fragment band part last payload capture → s.job r.slot = some j → j.stage = .receiving →
    j.cursor.current = some b → j.cursor.buffer = some buffer → b < j.bands.length →
    let width := (s.settings.sizeClass j.sizeClass).width
    let count := width * bandLinesOf (s.settings.sizeClass j.sizeClass).height b
    let d := decodeCodes buffer width count last payload.length payload j.cursor.pixels s.frame.bands
    (d.2 = .format ∨ ∃ p, d.2 = .reached p ∧ p ≠ count ∧ (last = true ∨ part = 15)) →
    ∃ (t : State) (k : Job), exec (.partDecoded corrected) s = .next t ∧ t.job r.slot = some k ∧
      (∀ n, n ≠ r.slot → t.job n = s.job n) ∧
      k.bands = j.bands.modify b (fun e =>
        { state := if s.ring.isFull = true then e.state else .queued, kind := some (e.kind.getD .format) }) ∧
      k.damagedCount = (if (j.band b).kind = none then j.damagedCount + 1 else j.damagedCount) ∧
      k.cursor = { current := none, nextPart := 0, pixels := 0, buffer := none } ∧
      k.firstDamage = some (match j.firstDamage with
        | some f => { f with counts := { f.counts with format := min (f.counts.format + 1) 65535 } }
        | none =>
          { kind := .format, band := b, part := some part, capture := some capture
            counts := { check := 0, fill := 0, overflow := 0, gap := 0, format := 1 } }) ∧
      k.stage = .receiving ∧
      (∀ x, x ∈ t.unpacker.pool ↔ x = buffer ∨ x ∈ s.unpacker.pool) ∧
      (s.ring.isFull = false →
        t.unpacker.work = .free ∧ t.receiver = { s.receiver with holding := rest } ∧
          t.ring = s.ring.withDamaged r.slot b) ∧
      (s.ring.isFull = true →
        t.unpacker.work = .waitRing { slot := r.slot, band := b, buffer := none, void := false } .recordDone ∧
          t.receiver = s.receiver ∧ t.ring = s.ring) ∧
      t.port = s.port.countedBy .corrected corrected ∧ t.frame = { s.frame with bands := d.1 } ∧
      t.screener = s.screener ∧ t.damage = s.damage) ∧
  ∀ (c : Byte) (rest : List Byte),
    let kind := c.toNat / 32
    let field := c.toNat % 32
    (5 ≤ kind → readRun (c :: rest) = none) ∧
    (field = 31 → rest.length < 2 → readRun (c :: rest) = none) ∧
    (∀ hi lo after, field = 31 → rest = hi :: lo :: after →
      (hi.toNat * 256 + lo.toNat < 32 → readRun (c :: rest) = none) ∧
      (kind = 2 → after = [] → readRun (c :: rest) = none) ∧
      (kind = 3 → after.length < hi.toNat * 256 + lo.toNat → readRun (c :: rest) = none)) ∧
    (field < 31 →
      (kind = 2 → rest = [] → readRun (c :: rest) = none) ∧
      (kind = 3 → rest.length < field + 1 → readRun (c :: rest) = none))

/-- The layout of a run code: bits 7 to 5 give the kind, kinds 5 to 7 are invalid, bits 4 to 0 give the length field, 31
meaning that the two following bytes, most significant first, give the length; the tone bytes come after them. -/
def Obligations.RunCodeLayout : Prop :=
  (∀ (c : Byte) (rest : List Byte), 5 ≤ c.toNat / 32 → readRun (c :: rest) = none) ∧
  (∀ (c hi lo : Byte) (rest : List Byte) (n : Nat) (head : List Byte),
    (c.toNat % 32 < 31 ∧ n = c.toNat % 32 + 1 ∧ head = [c]) ∨
      (c.toNat % 32 = 31 ∧ n = hi.toNat * 256 + lo.toNat ∧ 32 ≤ n ∧ head = [c, hi, lo]) →
    (c.toNat / 32 = 0 → readRun (head ++ rest) = some (.blank, n, rest)) ∧
    (c.toNat / 32 = 1 → readRun (head ++ rest) = some (.solid, n, rest)) ∧
    (c.toNat / 32 = 2 → ∀ tone, readRun (head ++ tone :: rest) = some (.toneRun tone, n, rest)) ∧
    (c.toNat / 32 = 3 → ∀ tones : List Byte, tones.length = n →
      readRun (head ++ tones ++ rest) = some (.toneList tones, n, rest)) ∧
    (c.toNat / 32 = 4 → readRun (head ++ rest) = some (.copyAbove, n, rest))) ∧
  readRun [0x5F#8, 0x00#8, 0xC8#8, 0x80#8] = some (.toneRun 128#8, 200, [])

/-- A run of `n` pixels from raster position `pos` writes each pixel's byte at its column and line of the band buffer: tone
0 for BLANK, 255 for SOLID, its tones for TONE RUN and TONE LIST, and for COPY ABOVE, from line 1 on, the tone of the
line above; every other byte of the band buffers is as before. -/
def Obligations.RunWritesInRasterOrder : Prop :=
  ∀ (r : Run) (buffer width pos n : Nat) (m : Mem), m.WF → 0 < width → width ≤ 16384 →
    (r = .copyAbove → width ≤ pos) →
    let m' := r.write buffer width pos n m
    (∀ i, i < n →
      let l := (pos + i) / width
      let x := (pos + i) % width
      m'.read (bandAddress buffer l x) = match r with
        | .blank => 0x00#8
        | .solid => 0xFF#8
        | .toneRun tone => tone
        | .toneList tones => tones.getD i 0x00#8
        | .copyAbove => m'.read (bandAddress buffer (l - 1) x)) ∧
    (∀ a, (∀ i, i < n → a ≠ bandAddress buffer ((pos + i) / width) ((pos + i) % width)) → m'.read a = m.read a) ∧
    m'.WF

/-- When the ring has room again, the waiting descriptor enters at the producer index with a clear void mark and its
band is QUEUED. A record that was finished with it leaves the holding queue. With a record that was not, the
Unpacker goes on, with what it found when the record was taken, whatever has been marked in the wait. A fragment of
the band that waited, and one of another band that has ended, is dropped and counted. One of an AWAITED band, with
every band below it past AWAITED then, is judged by the kind its band carried when the record was taken: with none,
part 0 begins the band, or waits for a buffer; with one, the record is dropped and counted. An end marker whose last
band this was ends the job's data: CLOSING. The next band to end, the lowest that is still AWAITED below the
fragment's, or below the end of the plate at an end marker, or the fragment's own at a part above 0, carries its
kind, else is marked GAP: its descriptor waits in turn where the ring is full again, and else the Unpacker goes on
as at the end of that wait. Where nothing has been marked on its band in the wait, the record is judged as one taken
anew. A full ring, one whose entry at the producer index is the Screener's, changes nothing. -/
def Obligations.DescriptorEntersRing : Prop :=
  (∀ r : Ring, r.isFull = true ↔
    r.entries[r.producer].mark = (if r.consumer ≤ r.producer then r.consumerPass else !r.consumerPass)) ∧
  ∀ (s : State) (d : Descriptor) (after : AfterRing) (j : Job), s.unpacker.work = .waitRing d after →
    s.job d.slot = some j →
    let placed : Job :=
      { j with
        bands := j.bands.modify d.band fun e => { e with state := .queued }
        cursor := if d.buffer.isSome then { j.cursor with buffer := none } else j.cursor }
    let entered (k : Job) : State :=
      { s with
        unpacker := { s.unpacker with work := .free }
        ring := { s.ring with
          entries := s.ring.entries.set s.ring.producer
            { descriptor := some { d with void := false }, mark := s.ring.producerPass }
          producer := s.ring.producer + 1
          producerPass := if s.ring.producer = 31 then !s.ring.producerPass else s.ring.producerPass }
        jobs := { s.jobs with slots := s.jobs.slots.set d.slot (some k) } }
    (s.ring.isFull = true → exec .descriptorEntersRing s = .next s) ∧
    (s.ring.isFull = false →
      (after = .recordDone →
        exec .descriptorEntersRing s = .next
          { entered placed with receiver := { s.receiver with holding := s.receiver.holding.tail } }) ∧
      (∀ taken r rest, after = .judgeOn taken → s.receiver.holding = r :: rest → r.slot = d.slot →
        j.cursor.current = none →
        (∀ b part last payload capture, r.body = .fragment b part last payload capture → d.band < j.bands.length →
          (∀ a, a < b → a ≠ d.band → (j.band a).state ≠ .awaited) →
          (b = d.band ∨ (j.band b).state = .queued ∨ (j.band b).state = .screening ∨
              (∃ x, (j.band b).state = .screened x) ∨ ((j.band b).state = .awaited ∧ taken ≠ none) →
            exec .descriptorEntersRing s = .next
              { entered placed with
                receiver := { s.receiver with holding := rest }, port := s.port.counted .partsDiscarded }) ∧
          (b ≠ d.band → (j.band b).state = .awaited → taken = none → part = 0 →
            (∀ x pool, s.unpacker.pool = x :: pool →
              exec .descriptorEntersRing s = .next
                { entered { j with
                    bands := placed.bands.modify b fun e => { e with state := .decoding }
                    cursor := { current := some b, nextPart := 0, pixels := 0, buffer := some x } } with
                  unpacker := { work := .decoding, pool := pool } }) ∧
            (s.unpacker.pool = [] →
              exec .descriptorEntersRing s = .next
                { entered placed with unpacker := { s.unpacker with work := .waitBuffer } }))) ∧
        (∀ o, o < j.bands.length → o ≠ d.band → (j.band o).state = .awaited → j.stage = .receiving →
          placed.cursor.buffer = none → d.band < j.bands.length →
          (∀ a, a < o → a ≠ d.band → (j.band a).state ≠ .awaited) →
          (∃ origin, r.body = .endMarker origin ∧ taken = none) ∨
            (∃ b part last payload capture, r.body = .fragment b part last payload capture ∧ b < j.bands.length ∧
              (o < b ∨ (o = b ∧ 0 < part ∧ taken = none))) →
          let next : State :=
            { entered ({ placed.gapEnded o with
                bands := placed.bands.modify o fun e => { e with kind := some (e.kind.getD .gap) } }) with
              unpacker := { s.unpacker with
                work := .waitRing { slot := d.slot, band := o, buffer := none, void := false } (.judgeOn taken) } }
          (next.ring.isFull = true → exec .descriptorEntersRing s = .next next) ∧
          (next.ring.isFull = false → exec .descriptorEntersRing s = exec .descriptorEntersRing next)) ∧
        (∀ origin, r.body = .endMarker origin → d.band < j.bands.length →
          (∀ a, a < j.bands.length → a ≠ d.band → (j.band a).state ≠ .awaited) →
          j.standing = .contending ∨ j.screenedCount ≠ j.bands.length →
          exec .descriptorEntersRing s = .next
            { entered { placed with endProcessed := true, stage := .closing } with
              receiver := { s.receiver with holding := rest } })) ∧
      (∀ taken r rest, after = .judgeOn taken → s.receiver.holding = r :: rest → r.slot = d.slot →
        r.generation = j.generation → j.stage = .receiving →
        taken = (match r.body with
          | .fragment b _ _ _ _ => (j.band b).kind
          | .endMarker _ => none) →
        s.port.counts[Count.corrected.number] ≤ 4294967295 →
        exec .descriptorEntersRing s = exec (.takeHeadRecord 0) (entered placed)))

/-! ## The Screener -/

/-- An idle Screener takes the entry at the consumer index: a void descriptor is skipped and its buffer returns;
another becomes the current band, with the free screened buffer of the lowest number, its job's generation, size
class, screening class and separation (log 23), and the walker at the band's first plate line, and its band is
SCREENING. An empty ring, one whose entry at the consumer index has not the consumer pass as its mark, or a Screener
that is busy, changes nothing. -/
def Obligations.ScreenerTakesDescriptor : Prop :=
  ∀ (s : State),
    let passed : Ring :=
      { s.ring with
        consumer := s.ring.consumer + 1
        consumerPass := if s.ring.consumer = 31 then !s.ring.consumerPass else s.ring.consumerPass }
    (s.ring.isEmpty = true ↔ s.ring.entries[s.ring.consumer].mark ≠ s.ring.consumerPass) ∧
    ((∃ c, s.screener.current = some c) ∨ s.ring.isEmpty = true → exec .screenerTake s = .next s) ∧
    (∀ d, s.screener.current = none → s.ring.isEmpty = false →
      s.ring.entries[s.ring.consumer].descriptor = some d →
      (d.void = true → ∃ t : State, exec .screenerTake s = .next t ∧ t.ring = passed ∧ t.screener = s.screener ∧
        t.jobs = s.jobs ∧ t.frame = s.frame ∧ t.unpacker.work = s.unpacker.work ∧
        ∀ x, x ∈ t.unpacker.pool ↔ d.buffer = some x ∨ x ∈ s.unpacker.pool) ∧
      (d.void = false → ∀ x store j, s.screener.store = x :: store → s.job d.slot = some j →
        let tile := s.settings.tile (j.screeningClass * 4 + j.key.sep.code)
        let y := d.band * 256
        exec .screenerTake s = .next
          { s with
            ring := passed
            screener :=
              { current := some
                  { slot := d.slot, generation := s.jobs.generations[d.slot], band := d.band, buffer := d.buffer,
                    screened := x, sizeClass := j.sizeClass, screeningClass := j.screeningClass, sep := j.key.sep,
                    plateLine := y, column := 0, walkerRow := y % tile.height * tile.width,
                    walkerCol := tile.step * (y / tile.height) % tile.width }
                store := store }
            jobs := { s.jobs with slots := s.jobs.slots.set d.slot (some ({ j with
              bands := j.bands.modify d.band fun e => { e with state := .screening } })) } }))

/-- The finish of the Screener's current band. A live job that has the band in SCREENING, in RECEIVING, or in CLOSING
with no assessment due: the band is SCREENED with its screened buffer, the screened count rises, the band buffer
returns and the Screener is idle. A job that is gone: the screened buffer returns and no job changes; so it is where
the slot's job has not the band in SCREENING (the model's choice, log 25). A job in CANCELLING: the screened buffer
returns, and the cancellation is complete: its DONE is queued and the job is freed, leaving the data path (R126, R129,
R119); a draining station that so loses its last live job has a LEAVE queued after it, or held as the replacement of a
message in progress in the presence place (R23). -/
def Obligations.BandFinishedByItsJob : Prop :=
  ∀ (s : State) (corrected : Nat) (c : CurrentBand), s.screener.current = some c →
    (∀ j, s.job c.slot = some j → j.generation = c.generation → (j.band c.band).state = .screening →
      j.stage = .receiving ∨ (j.stage = .closing ∧ (j.standing = .contending ∨ j.screenedCount + 1 ≠ j.bands.length)) →
      ∃ t : State, exec (.bandFinished corrected) s = .next t ∧
        t.jobs = { s.jobs with slots := s.jobs.slots.set c.slot (some ({ j with
          bands := j.bands.modify c.band fun e => { e with state := .screened c.screened }
          screenedCount := j.screenedCount + 1 })) } ∧
        t.screener = { s.screener with current := none } ∧ t.port = s.port.countedBy .corrected corrected ∧
        (∀ x, x ∈ t.unpacker.pool ↔ c.buffer = some x ∨ x ∈ s.unpacker.pool) ∧ t.link = s.link ∧
        t.frame.bands = s.frame.bands ∧ t.frame.tiles = s.frame.tiles) ∧
    ((∀ j, s.job c.slot = some j → j.generation ≠ c.generation ∨
        ((j.stage = .receiving ∨ j.stage = .closing) ∧ (j.band c.band).state ≠ .screening)) →
      ∃ t : State, exec (.bandFinished corrected) s = .next t ∧ t.jobs = s.jobs ∧ t.screener.current = none ∧
        (∀ x, x ∈ t.screener.store ↔ x = c.screened ∨ x ∈ s.screener.store) ∧
        (∀ x, x ∈ t.unpacker.pool ↔ c.buffer = some x ∨ x ∈ s.unpacker.pool) ∧ t.link = s.link) ∧
    (∀ j reason, s.job c.slot = some j → j.generation = c.generation → j.stage = .cancelling reason →
      ∃ (t : State) (pool store : List Nat), exec (.bandFinished corrected) s = .next t ∧
        (∀ x, x ∈ pool ↔ c.buffer = some x ∨ x ∈ s.unpacker.pool) ∧
        (∀ x, x ∈ store ↔ x = c.screened ∨ x ∈ s.screener.store) ∧
        State.endsWithDone
          { s with
            unpacker := { s.unpacker with pool := pool }
            screener := { current := none, store := store } } t c.slot j
          (match reason with | .superseded => .superseded | .dropped => .dropped) ∧
        ∀ n, n ≠ c.slot → t.job n = s.job n)

/-- The last band of an owned job in CLOSING is finished: the plate is assessed. No damaged band: CLEAN. Else a
damaged band whose kind has the action HOLD: held for kind. Else a damaged band count within the tint limit: within
tint. Else held for count. A held plate is HELD with HELD latched; any other is READY with the next ready order,
where the Imager is not IDLE or MEDIA OUT is asserted, so that it takes no plate (ArbiterTakesTheFirstReady says
what it takes). What a renumbering of the ready orders counts is the model's choice (log 20). -/
def Obligations.LastBandAssessesThePlate : Prop :=
  ∀ (s : State) (corrected : Nat) (c : CurrentBand) (j : Job) (v : Verdict), s.screener.current = some c →
    s.job c.slot = some j → j.generation = c.generation → j.stage = .closing → j.standing = .owned →
    j.screenedCount + 1 = j.bands.length → (j.band c.band).state = .screening → j.hasVerdict s.settings v →
    (v = .clean ∨ v = .withinTint → s.imager.state ≠ .idle ∨ s.imager.mediaOut = true) →
    let screened : Job :=
      { j with
        bands := j.bands.modify c.band fun e => { e with state := .screened c.screened }
        screenedCount := j.screenedCount + 1 }
    ∃ t u : State, exec (.bandFinished corrected) s = .next t ∧ u.assessed t c.slot screened v ∧
      u.jobs = { s.jobs with slots := s.jobs.slots.set c.slot (some screened) } ∧ u.imager = s.imager ∧
      u.port = s.port.countedBy .corrected corrected ∧ u.link = s.link ∧ u.board = s.board

/-- The dots of a finished band, whether its job still lives or has gone: the pixel at column x of line l carries a
dot exactly when its output value is greater than the threshold at row y mod Ht and column (x + S × ⌊y / Ht⌋) mod Wt
of the tile of the band's screening class and separation, where y is the plate line; its output value is the curve
value of its tone, 0 where that is below the dot floor of the separation and 255 where it is above the dot ceiling,
and is the fault tint in a damaged band. Every other dot of the screened store reads as before: those of every other
screened buffer, and those of the band's own at the lines and columns that the band does not have; the band buffers
and the tile store are unchanged. The tiles stand 65536 bytes apart and the buffers at their pitches by the model's
choice (log 7); the band keeps its size class, screening class and separation (log 23). -/
def Obligations.DotsFollowTheTile : Prop :=
  ∀ (s : State) (corrected : Nat) (c : CurrentBand), s.memoriesCanonical → s.screener.current = some c →
    (s.settings.sizeClass c.sizeClass).width ≤ 16384 →
    let floor := s.settings.floors.getD c.sep.code 0
    let ceiling := s.settings.ceilings.getD c.sep.code 0
    let clamped (u : Nat) : Nat := if u < floor then 0 else if ceiling < u then 255 else u
    let width := (s.settings.sizeClass c.sizeClass).width
    let lines := bandLinesOf (s.settings.sizeClass c.sizeClass).height c.band
    ∃ t : State, exec (.bandFinished corrected) s = .next t ∧
      (0 < (s.settings.tile (c.screeningClass * 4 + c.sep.code)).width → ∀ l x, l < lines → x < width →
        let n := c.screeningClass * 4 + c.sep.code
        let tile := s.settings.tile n
        let y := c.band * 256 + l
        let threshold := (s.frame.tiles.read
          (n * 65536 + y % tile.height * tile.width + (x + tile.step * (y / tile.height)) % tile.width)).toNat
        let output := match c.buffer with
          | some b => clamped (s.settings.curveValue c.sep (s.frame.bands.read (bandAddress b l x)).toNat)
          | none => s.settings.faultTint
        t.frame.screened.readDot c.screened l x = decide (threshold < output)) ∧
      (∀ b l x, l < 256 → x < 16384 → b ≠ c.screened ∨ lines ≤ l ∨ width ≤ x →
        t.frame.screened.readDot b l x = s.frame.screened.readDot b l x) ∧
      t.frame.bands = s.frame.bands ∧ t.frame.tiles = s.frame.tiles

/-- The tone curve: tones 0 and 255 pass unchanged whatever the curve. For a separation whose 17 points run from p0, which
is 0, to p16, which is 255, and do not decrease, as the points loaded from a VALID record do: for any other tone t, with k
the whole part and f the remainder of t divided by 16, the curve value is p_k plus (p_{k+1} - p_k) times f divided by 16,
rounded down; at a multiple of 16 it is the point itself, it lies between p_k and p_{k+1}, and it never decreases as the
tone rises. The curve used for a band that the Screener takes is that of the separation of its job's plate key. -/
def Obligations.ToneCurve : Prop :=
  (∀ (g : Settings) (sep : Sep), g.curveValue sep 0 = 0 ∧ g.curveValue sep 255 = 255 ∧
    (g.point sep 0 = 0 → g.point sep 16 = 255 → (∀ i, i < 16 → g.point sep i ≤ g.point sep (i + 1)) →
      (∀ t, 1 ≤ t → t ≤ 254 →
        g.curveValue sep t =
          g.point sep (t / 16) + (g.point sep (t / 16 + 1) - g.point sep (t / 16)) * (t % 16) / 16 ∧
        (t % 16 = 0 → g.curveValue sep t = g.point sep (t / 16)) ∧
        g.point sep (t / 16) ≤ g.curveValue sep t ∧ g.curveValue sep t ≤ g.point sep (t / 16 + 1)) ∧
      (∀ t u, t ≤ u → u ≤ 255 → g.curveValue sep t ≤ g.curveValue sep u))) ∧
  (∀ (record : List Byte) (sep : Sep), recordFailure record = none →
    (settingsOf (imageOf record)).point sep 0 = 0 ∧ (settingsOf (imageOf record)).point sep 16 = 255 ∧
    ∀ i, i < 16 → (settingsOf (imageOf record)).point sep i ≤ (settingsOf (imageOf record)).point sep (i + 1)) ∧
  ∀ (s : State) (d : Descriptor) (j : Job) (b x : Nat) (store : List Nat), s.screener.current = none →
    s.ring.isEmpty = false → s.ring.entries[s.ring.consumer].descriptor = some d → d.void = false →
    d.buffer = some b → s.job d.slot = some j → s.screener.store = x :: store →
    ∃ (t : State) (c : CurrentBand), exec .screenerTake s = .next t ∧ t.screener.current = some c ∧
      ∀ l x, (t.screenJob c).outputAt t.frame l x =
        s.settings.clamp j.key.sep (s.settings.curveValue j.key.sep (s.frame.bands.read (bandAddress b l x)).toNat)

/-! ## The Imager -/

/-- LOADED in LOADING. Nothing pending and the head ready: IMAGING, swath 0 next, the drum watch started at the window
maximum, with a new tick of the prescaler (the model's choice, log 21). The head not ready: the plate is scrapped at
once with HEAD LOST. A cancel pending: ejected RETURN. A disposal: ejected RETURN after a rejoin, SCRAP after a halt.
In any other Imager state of a running station, LINE IGNORED rises. -/
def Obligations.LoadedOutcomes : Prop :=
  ∀ s : State,
    (s.imager.state = .loading →
      (s.imager.disposal = none → s.imager.pendingCancel = none →
        let imaging : Imager :=
          { s.imager with
            state := .imaging, loadTimer := none, plateRequest := none, nextSwath := some 0, swathInOutput := false,
            drum := { running := true, counter := s.settings.windowMax, clocks := 0, indexSeen := false } }
        (s.imager.headReady = true → exec .loaded s = .next { s with imager := imaging }) ∧
        (s.imager.headReady = false →
          exec .loaded s = .next
            { s with
              imager := { s.ejecting .scrap with
                pendingFault := s.imager.pendingFault.or (some .headLost), lastFault := some .headLost,
                drum := { imaging.drum with running := false } }
              port := s.port.counted .imagerFaults })) ∧
      (∀ r, s.imager.disposal = none → s.imager.pendingCancel = some r →
        exec .loaded s = .next { s with imager := s.ejecting .returned }) ∧
      (s.imager.disposal = some .rejoin → exec .loaded s = .next { s with imager := s.ejecting .returned }) ∧
      (s.imager.disposal = some .halt → exec .loaded s = .next { s with imager := s.ejecting .scrap })) ∧
    (s.imager.state ≠ .loading →
      exec .loaded s = .next (if s.running = true then { s with port := s.port.counted .lineIgnored } else s))

/-- INDEX in IMAGING after `ticks` tick lengths of a drum watch. On time: the counter is loaded again and the next
swath goes out, 32 lines of the plate's width read from its band's screened buffer. With a swath still in output, or,
other than the first, above the maximum less the minimum: DRUM EARLY. At a later station clock than that at which the
counter reaches 0, the clocks of the tick in course counted, or with the counter at 0 before: DRUM LATE, with the plate
ejected from the moment at which the counter reached 0. A completed swath: the next one waits for its INDEX; after the
last the plate is ejected GOOD; with a cancel pending it is scrapped. An INDEX in any other Imager state does nothing:
only the corrected bits read are counted, and no time passes (logs 4, 9 and 10). That the INDEX comes first at the very
clock of the counter's 0, that a load begins a new tick, and the plate's end with a cancel at the last swath are the
model's choices (logs 10, 21, 14). -/
def Obligations.IndexAndSwathComplete : Prop :=
  (∀ (s : State) (ticks corrected : Nat), s.imager.state = .imaging → s.imager.drum.running = true →
     s.imager.drum.clocks < s.settings.prescaler →
     let passed := ticks * s.settings.prescaler + s.imager.drum.clocks
     let due := s.imager.drum.counter * s.settings.prescaler
     let left := s.imager.drum.counter - ticks
     let early := s.imager.swathInOutput = true ∨
       (s.imager.drum.indexSeen = true ∧ s.settings.windowMax - s.settings.windowMin < left)
     (passed ≤ due → s.imager.drum.counter ≠ 0 → ¬ early →
       (∀ n h j buffer, s.imager.nextSwath = some n → s.imager.held = some h → s.job h.slot = some j →
         (j.band (n / 8)).state = .screened buffer →
         exec (.index ticks corrected) s = .next
           { s with
             clock := s.clock + ticks * s.settings.prescaler
             port := s.port.countedBy .corrected corrected
             imager := { s.imager with
               swathInOutput := true
               swathData := some ((List.range 32).map fun l =>
                 (List.range (s.settings.sizeClass j.sizeClass).width).map fun x =>
                   s.frame.screened.readDot buffer (32 * (n % 8) + l) x)
               drum := { running := true, counter := s.settings.windowMax, clocks := 0, indexSeen := true } } })) ∧
     (∀ fault clocks,
       (passed ≤ due ∧ s.imager.drum.counter ≠ 0 ∧ early ∧ fault = .drumEarly ∧
           clocks = ticks * s.settings.prescaler) ∨
         ((due < passed ∨ s.imager.drum.counter = 0) ∧ fault = .drumLate ∧ clocks = due - s.imager.drum.clocks) →
       ∃ t : State, exec (.index ticks corrected) s = .next t ∧
         t.imager.state = .ejecting ∧ t.imager.ejectLine = some .scrap ∧ t.imager.disposition = some .scrap ∧
         t.imager.lastFault = some fault ∧ t.imager.pendingFault = s.imager.pendingFault.or (some fault) ∧
         t.imager.swathInOutput = false ∧ t.imager.swathData = none ∧ t.imager.drum.running = false ∧
         t.imager.ejectTimer = some ((s.clock + clocks) / 100000 + s.settings.ejectTimeout * 1000) ∧
         t.clock = s.clock + ticks * s.settings.prescaler ∧
         t.port = (s.port.countedBy .corrected corrected).counted .imagerFaults ∧ t.jobs = s.jobs)) ∧
  (∀ (s : State) (corrected n : Nat) (g : PlateGeometry), s.imager.state = .imaging → s.imager.swathInOutput = true →
     s.imager.nextSwath = some n → s.imager.plate = some g →
     let counted : State := { s with port := s.port.countedBy .corrected corrected }
     (s.imager.pendingCancel = none → n + 1 ≠ g.swathCount →
       exec (.swathComplete corrected) s = .next
         { counted with
           imager := { s.imager with swathInOutput := false, swathData := none, nextSwath := some (n + 1) } }) ∧
     (s.imager.pendingCancel = none → n + 1 = g.swathCount →
       exec (.swathComplete corrected) s = .next { counted with imager := s.ejecting .good }) ∧
     (∀ r, s.imager.pendingCancel = some r →
       exec (.swathComplete corrected) s = .next { counted with imager := s.ejecting .scrap })) ∧
  ∀ (s : State) (ticks corrected : Nat), s.imager.state ≠ .imaging →
    exec (.index ticks corrected) s = .next { s with port := s.port.countedBy .corrected corrected }

/-- The lines of the platesetter. A drum watch that runs out scraps the plate with DRUM LATE. HEAD READY that passes
to not asserted scraps the plate in IMAGING; in EJECTING it is recorded as the pending fault, unless one stands, and
as the last fault, and the eject goes on with its disposition; in FAULT the Imager takes it as seen inactive. One
that passes to asserted then ends FAULT, and the Imager is IDLE. Outside JOINING, ACTIVE and DRAINING only the line
changes, and so it is in IDLE and LOADING, and where HEAD READY is asserted again in any state but FAULT, or in
FAULT that has not seen it inactive. MEDIA OUT that passes to asserted is latched, but in LOADING; one that clears
changes only the line where the Imager is not IDLE, the station is not running, or no job is READY. -/
def Obligations.PlatesetterLines : Prop :=
  ∀ s : State,
    (s.imager.state = .imaging → s.imager.drum.running = true →
      ∃ t : State, exec .drumLate s = .next t ∧ t.imager.state = .ejecting ∧
        t.imager.ejectLine = some .scrap ∧ t.imager.lastFault = some .drumLate ∧
        t.imager.pendingFault = s.imager.pendingFault.or (some .drumLate) ∧ t.imager.drum.running = false ∧
        t.port = s.port.counted .imagerFaults ∧ t.jobs = s.jobs) ∧
    (s.running = true → s.imager.headReady = true →
      (s.imager.state = .imaging →
        exec (.headReadyChange false) s = .next
          { s with
            imager := { s.ejecting .scrap with
              headReady := false, pendingFault := s.imager.pendingFault.or (some .headLost)
              lastFault := some .headLost }
            port := s.port.counted .imagerFaults }) ∧
      (s.imager.state = .ejecting →
        exec (.headReadyChange false) s = .next
          { s with
            imager := { s.imager with
              headReady := false, pendingFault := s.imager.pendingFault.or (some .headLost)
              lastFault := some .headLost }
            port := s.port.counted .imagerFaults }) ∧
      (s.imager.state = .fault →
        exec (.headReadyChange false) s = .next
          { s with imager := { s.imager with headReady := false, seenInactive := true } })) ∧
    (s.running = true → s.imager.headReady = false → s.imager.state = .fault → s.imager.seenInactive = true →
      (s.imager.mediaOut = true ∨ ∀ n j order, s.job n = some j → j.stage ≠ .ready order) →
      exec (.headReadyChange true) s = .next
        { s with imager := { s.imager with headReady := true, state := .idle, seenInactive := false } }) ∧
    (∀ b, s.running = false → s.imager.headReady = !b →
      exec (.headReadyChange b) s = .next { s with imager := { s.imager with headReady := b } }) ∧
    (∀ b, s.imager.headReady = (!b) →
      s.imager.state = .idle ∨ s.imager.state = .loading ∨
        (b = true ∧ (s.imager.state ≠ .fault ∨ s.imager.seenInactive = false)) →
      exec (.headReadyChange b) s = .next { s with imager := { s.imager with headReady := b } }) ∧
    (s.imager.mediaOut = false →
      exec (.mediaOutChange true) s = .next
        { s with
          imager := { s.imager with mediaOut := true }
          port := if s.station.state = .loading then s.port else s.port.latched .mediaOut }) ∧
    (s.imager.mediaOut = true →
      s.imager.state ≠ .idle ∨ s.running = false ∨ (∀ n j order, s.job n = some j → j.stage ≠ .ready order) →
      exec (.mediaOutChange false) s = .next { s with imager := { s.imager with mediaOut := false } })

/-- The arbiter takes a job at each event that makes it choose, with MEDIA OUT not asserted in JOINING, ACTIVE or
DRAINING: MEDIA OUT clears while the Imager is IDLE; the Imager enters IDLE, from FAULT when HEAD READY is asserted
again, or at EJECTED with no fault pending, after a disposal, a plate ejected GOOD and one whose cancel was pending;
a job enters READY while the Imager is IDLE, released from HELD, or assessed CLEAN or within the tint limit at its
last band, at its end marker or at its own CLAIM (what a renumbering of the ready orders counts: log 20). It takes
of the READY jobs, as they then stand, the one of highest rank, and of those the one with the lowest ready order:
the job is IMAGING, the Imager LOADING with its slot, generation and plate, its size class requested and the load
timer started. -/
def Obligations.ArbiterTakesTheFirstReady : Prop :=
  ∀ s : State, s.running = true →
    let first (jobs : JobTable) (n : Slot) (j : Job) : Prop :=
      ∃ order, jobs.slots[n] = some j ∧ j.stage = .ready order ∧
        ∀ m k o, m ≠ n → jobs.slots[m] = some k → k.stage = .ready o →
          k.rank < j.rank ∨ (k.rank = j.rank ∧ order < o)
    let plate (j : Job) : PlateGeometry :=
      { sizeClass := j.sizeClass, bandCount := j.bands.length,
        swathCount := (s.settings.sizeClass j.sizeClass).height / 32 }
    let takes (c : Instr) (jobs : JobTable) : Prop := ∀ n j, first jobs n j →
      ∃ t : State, exec c s = .next t ∧
        t.jobs = { jobs with slots := jobs.slots.set n (some ({ j with stage := .imaging })) } ∧
        t.imager.state = .loading ∧ t.imager.held = some { slot := n, generation := j.generation } ∧
        t.imager.plate = some (plate j) ∧ t.imager.plateRequest = some j.sizeClass ∧
        t.imager.loadTimer = some (s.now + s.settings.loadTimeout * 1000)
    let readied (c : Instr) (n : Slot) (j : Job) : Prop := ∃ jobs, s.jobs.readies jobs n j ∧ takes c jobs
    let passes (j : Job) (v : Verdict) : Prop := j.hasVerdict s.settings v ∧ (v = .clean ∨ v = .withinTint)
    (∀ n j, s.imager.state = .idle → s.imager.mediaOut = true → first s.jobs n j →
      exec (.mediaOutChange false) s = .next
        { s with
          jobs := { s.jobs with slots := s.jobs.slots.set n (some ({ j with stage := .imaging })) }
          imager := { s.imager with
            mediaOut := false, state := .loading, held := some { slot := n, generation := j.generation },
            plate := some (plate j), plateRequest := some j.sizeClass,
            loadTimer := some (s.now + s.settings.loadTimeout * 1000) } }) ∧
    (s.imager.mediaOut = false →
      (s.imager.state = .fault → s.imager.seenInactive = true → s.imager.headReady = false →
        takes (.headReadyChange true) s.jobs) ∧
      (s.imager.state = .ejecting → s.imager.pendingFault = none →
        (s.imager.held = none → takes .ejected s.jobs) ∧
        ∀ h j, s.imager.held = some h → s.job h.slot = some j →
          s.imager.disposition = some .good ∨
            (s.imager.disposition ≠ some .good ∧ s.imager.pendingCancel ≠ none ∧
              ∀ c, s.screener.current = some c → c.slot = h.slot → c.generation ≠ j.generation) →
          takes .ejected { s.jobs with slots := s.jobs.slots.set h.slot none }) ∧
      (s.imager.state = .idle →
        (∀ (a : Byte) (h : a.toNat < 8) (j : Job), s.opensTo 0x30#8 → s.job ⟨a.toNat, h⟩ = some j →
          j.stage = .held → readied (.release [a]) ⟨a.toNat, h⟩ { j with verdict := .released }) ∧
        (∀ (corrected : Nat) (c : CurrentBand) (j : Job) (v : Verdict), s.screener.current = some c →
          s.job c.slot = some j → j.generation = c.generation → j.stage = .closing → j.standing = .owned →
          j.screenedCount + 1 = j.bands.length → (j.band c.band).state = .screening → passes j v →
          readied (.bandFinished corrected) c.slot { j with
            bands := j.bands.modify c.band fun e => { e with state := .screened c.screened }
            screenedCount := j.screenedCount + 1, verdict := v }) ∧
        (∀ (corrected : Nat) (r : HoldingRecord) (rest : List HoldingRecord) (origin : EndOrigin) (j : Job)
          (v : Verdict), s.unpacker.work = .free → s.receiver.holding = r :: rest → r.body = .endMarker origin →
          s.job r.slot = some j → j.generation = r.generation → j.stage = .receiving → j.standing = .owned →
          j.cursor.current = none → j.screenedCount = j.bands.length →
          (∀ a, a < j.bands.length → (j.band a).state ≠ .awaited) → passes j v →
          readied (.takeHeadRecord corrected) r.slot { j with endProcessed := true, verdict := v }) ∧
        (∀ (n : Slot) (q : Queued) (j : Job) (bid : Option Nat) (heard : Option (Station × Msg)) (i : Nat)
          (e : BoardEntry) (v : Verdict), s.link.phase = .spoil (.sender (.slot n)) false heard →
          s.link.slots[n] = some q → q.msg = .claim j.key j.version bid → q.replacement = none →
          s.job n = some j → j.standing = .contending → j.withdrawal ≠ some .drop → j.stage = .closing →
          j.screenedCount = j.bands.length → s.board.placeOf j.key = some i → s.board.entries[i]? = some e →
          e.version = j.version → (∃ d, e.state = .contested d) → passes j v →
          readied (.spoilWindowEnd false) n { j with
            standing := .owned, claimInProgress := false, withdrawal := none, verdict := v })))

/-- The end of a hold. EJECTED after GOOD: IMAGED rises, the job's DONE is queued as CLEAN or TINTED and the job is
freed; with no fault pending the Imager no longer holds the plate, and is IDLE where no READY job can be taken.
EJECTED of a scrapped plate with a fault and no cancel pending: a retry while the retry count is below the limit,
else WASTED. With a cancel pending, EJECTED or an eject timeout of a plate that is not GOOD, and a load timeout, end
the job with its DONE as SUPERSEDED or DROPPED. With none, a load timeout and an eject timeout of a scrapped plate
are a retry below the limit, else WASTED; an eject timeout of a GOOD plate ends it CLEAN or TINTED. A retry is READY
with the next ready order (what a renumbering counts: log 20). A job that is freed leaves the data path: its ring
descriptors are void, its screened buffers and its cursor's buffer are returned, its end marker leaves the holding
queue, and the Unpacker drops its record as stale. A draining station that so loses its last live job has a LEAVE
queued, or held as the replacement of a message in progress in the presence place. An eject timeout or a load
timeout, recorded as a fault, ends the hold in FAULT with HEAD FAULT latched; a fault pending does so at EJECTED.
The end of a disposal, which holds no job, changes no job and queues nothing: the eject is counted, and the Imager
is in FAULT for a fault pending or a timeout, and IDLE otherwise. EJECTED in any Imager state but EJECTING is
ignored, and LINE IGNORED rises in JOINING, ACTIVE and DRAINING. -/
def Obligations.EjectEndsTheHold : Prop :=
  (∀ (s : State) (h : HeldJob) (j : Job), s.running = true → s.imager.held = some h → s.job h.slot = some j →
    let ended (t : State) (outcome : DoneOutcome) : Prop := s.endsWithDone t h.slot j outcome
    let faulted (t : State) : Prop := t.imager.state = .fault ∧ t.imager.held = none
    let retried (t : State) : Prop :=
      s.jobs.readies t.jobs h.slot { j with retries := j.retries + 1 } ∧ t.link = s.link
    let left (t : State) : Prop :=
      ((t.imager.state = .idle ∧ t.imager.held = none) ∨
        (t.imager.state = .loading ∧ ∃ x, t.imager.held = some x ∧ x.slot ≠ h.slot)) ∧
      ((s.imager.mediaOut = true ∨ ∀ m k o, m ≠ h.slot → s.job m = some k → k.stage ≠ .ready o) →
        t.imager.state = .idle ∧ t.imager.held = none)
    (s.imager.state = .ejecting → s.imager.disposition = some .good →
      ∃ t : State, exec .ejected s = .next t ∧ ended t (if j.damagedCount = 0 then .clean else .tinted) ∧
        (s.imager.pendingFault = none → left t ∧ t.port = s.port.counted .imaged) ∧
        (s.imager.pendingFault ≠ none → faulted t ∧ t.port = (s.port.counted .imaged).latched .headFault)) ∧
    (s.imager.state = .ejecting → s.imager.disposition = some .scrap → s.imager.pendingCancel = none →
      s.imager.pendingFault ≠ none →
      ∃ t : State, exec .ejected s = .next t ∧ faulted t ∧
        (j.retries < s.settings.retryLimit →
          retried t ∧ t.port = (s.port.counted .scrapped).latched .headFault) ∧
        (s.settings.retryLimit ≤ j.retries →
          ended t .wasted ∧ t.port = ((s.port.counted .scrapped).latched .wasted).latched .headFault)) ∧
    (∀ reason, s.imager.pendingCancel = some reason →
      (∀ c, s.screener.current = some c → c.slot = h.slot → c.generation ≠ j.generation) →
      let outcome : DoneOutcome := match reason with | .superseded => .superseded | .dropped => .dropped
      (∀ d count, s.imager.state = .ejecting → s.imager.disposition = some d →
        (d = .scrap ∧ count = Count.scrapped) ∨ (d = .returned ∧ count = Count.returned) →
        (∃ t : State, exec .ejected s = .next t ∧ ended t outcome ∧
          (s.imager.pendingFault = none → left t ∧ t.port = s.port.counted count) ∧
          (s.imager.pendingFault ≠ none → faulted t ∧ t.port = (s.port.counted count).latched .headFault)) ∧
        ∀ deadline, deadline ≤ s.now → s.imager.ejectTimer = some deadline →
          ∃ t : State, exec .ejectTimeout s = .next t ∧ faulted t ∧ t.imager.ejectLine = none ∧
            t.imager.lastFault = some .ejectTimeout ∧ ended t outcome ∧
            t.port = ((s.port.counted .imagerFaults).counted count).latched .headFault) ∧
      (∀ deadline, deadline ≤ s.now → s.imager.state = .loading → s.imager.loadTimer = some deadline →
        s.imager.disposition = none →
        ∃ t : State, exec .loadTimeout s = .next t ∧ ended t outcome ∧ faulted t ∧
          t.port = (s.port.counted .imagerFaults).latched .headFault)) ∧
    (∀ deadline, deadline ≤ s.now →
      (s.imager.state = .loading → s.imager.loadTimer = some deadline → s.imager.disposition = none →
        s.imager.pendingCancel = none →
        ∃ t : State, exec .loadTimeout s = .next t ∧ faulted t ∧
          t.imager.plateRequest = none ∧ t.imager.lastFault = some .loadTimeout ∧
          (j.retries < s.settings.retryLimit →
            retried t ∧ t.port = (s.port.counted .imagerFaults).latched .headFault) ∧
          (s.settings.retryLimit ≤ j.retries →
            ended t .wasted ∧ t.port = ((s.port.counted .imagerFaults).latched .wasted).latched .headFault)) ∧
      (s.imager.state = .ejecting → s.imager.ejectTimer = some deadline → s.imager.disposition = some .scrap →
        s.imager.pendingCancel = none →
        let port := (s.port.counted .imagerFaults).counted .scrapped
        ∃ t : State, exec .ejectTimeout s = .next t ∧ faulted t ∧
          t.imager.ejectLine = none ∧ t.imager.lastFault = some .ejectTimeout ∧
          (j.retries < s.settings.retryLimit → retried t ∧ t.port = port.latched .headFault) ∧
          (s.settings.retryLimit ≤ j.retries →
            ended t .wasted ∧ t.port = (port.latched .wasted).latched .headFault)) ∧
      (s.imager.state = .ejecting → s.imager.ejectTimer = some deadline → s.imager.disposition = some .good →
        ∃ t : State, exec .ejectTimeout s = .next t ∧ faulted t ∧
          t.imager.ejectLine = none ∧ t.imager.lastFault = some .ejectTimeout ∧
          ended t (if j.damagedCount = 0 then .clean else .tinted) ∧
          t.port = ((s.port.counted .imagerFaults).counted .imaged).latched .headFault))) ∧
  (∀ s : State, s.imager.held = none →
    let settled (t : State) (state : ImagerState) : Prop :=
      t.imager.state = state ∧ t.imager.held = none ∧ t.imager.disposal = none ∧ t.imager.pendingFault = none ∧
        t.imager.ejectLine = none ∧ t.imager.plateRequest = none ∧ t.jobs = s.jobs ∧ t.link = s.link
    (∀ d count, s.imager.disposition = some d →
      (d, count) ∈ [(Disposition.good, Count.imaged), (.scrap, .scrapped), (.returned, .returned)] →
      s.imager.state = .ejecting →
      (s.imager.pendingFault ≠ none →
        ∃ t : State, exec .ejected s = .next t ∧ settled t .fault ∧
          t.port = (s.port.counted count).latched .headFault) ∧
      (s.imager.pendingFault = none →
        s.running = false ∨ s.imager.mediaOut = true ∨ (∀ m k o, s.job m = some k → k.stage ≠ .ready o) →
        ∃ t : State, exec .ejected s = .next t ∧ settled t .idle ∧ t.port = s.port.counted count) ∧
      (∀ deadline, s.imager.ejectTimer = some deadline → deadline ≤ s.now →
        ∃ t : State, exec .ejectTimeout s = .next t ∧ settled t .fault ∧
          t.port = ((s.port.counted .imagerFaults).counted count).latched .headFault)) ∧
    (∀ deadline, s.imager.state = .loading → s.imager.disposition = none → s.imager.loadTimer = some deadline →
      deadline ≤ s.now →
      ∃ t : State, exec .loadTimeout s = .next t ∧ settled t .fault ∧
        t.port = (s.port.counted .imagerFaults).latched .headFault)) ∧
  ∀ s : State, s.imager.state ≠ .ejecting →
    exec .ejected s = .next (if s.running = true then { s with port := s.port.counted .lineIgnored } else s)

/-! ## The Maintenance Port -/

/-- A byte written to an empty input byte is held with its address; one written to a full one is lost and OVERRUN rises. A
data byte that no command awaits is ignored and STRAY DATA rises. A read of the data address answers the next response
byte, and 00h when none is left (the byte answered stands in the model's own lastRead, log 6). A byte that names no
command is refused, and in LOADING so is every command but READ STATUS, whose data bytes are then stray (that a command's
row carries its data bytes is log 11). A command taken byte by byte through the input byte ends as the command with its
data bytes: the command byte waits for its data, each data byte but the last is collected, and the last executes it. -/
def Obligations.PortTakesBytes : Prop :=
  (∀ (s : State) (address : PortAddress) (b : Byte),
     (s.port.inputByte = none →
       exec (.inputByteWrite address b) s = .next { s with port := { s.port with inputByte := some (address, b) } }) ∧
     (s.port.inputByte ≠ none →
       exec (.inputByteWrite address b) s = .next { s with port := s.port.counted .overrun }) ∧
     (s.port.inputByte = some (.data, b) → s.port.command = none →
       exec .dataByteTaken s = .next { s with port := { s.port.counted .strayData with inputByte := none } }) ∧
     (∀ r rest, s.port.response = r :: rest →
       exec .dataRead s = .next { s with port := { s.port with response := rest, lastRead := r } }) ∧
     (s.port.response = [] →
       exec .dataRead s = .next { s with port := { s.port with lastRead := 0x00#8 } }) ∧
     (∀ code, commandData code = none → s.takesCommand code → exec (.unknownCommand code) s = .next s.turnedAway)) ∧
  (∀ s : State, s.station.state = .loading →
     (∀ code c, (code, c) ∈ [(0x02#8, Instr.readAttention), (0x21#8, .clearCounters), (0x22#8, .readLog),
         (0x23#8, .clearLog), (0x32#8, .drain), (0x33#8, .resume), (0x3F#8, .resetStation)] →
       s.takesCommand code → exec c s = .next s.turnedAway) ∧
     (∀ code f, (code, f) ∈ [(0x03#8, Instr.clearAttention), (0x04#8, .setMask), (0x10#8, .readJob),
         (0x11#8, .readBandMap), (0x12#8, .readDamage), (0x18#8, .readBoard), (0x19#8, .findBoard),
         (0x1C#8, .readPeer), (0x20#8, .readCounters), (0x28#8, .readSetting), (0x30#8, .release),
         (0x31#8, .drop)] →
       s.takesCommand code →
       exec (f []) s = .next s.turnedAway ∧
       ∀ data, data ≠ [] →
         exec (f data) s = .next
           { s.turnedAway with port := s.turnedAway.port.countedBy .strayData data.length })) ∧
  (∀ (s : State) (code : Byte) (f : List Byte → Instr) (b1 b2 b3 : Byte), s.opensTo code →
     let collecting (got : List Byte) : State :=
       { s with port := { s.port with
         inputByte := none, command := some { code := code, got := got }, response := [], ready := false,
         refused := false } }
     let takes (t : State) (b : Byte) (o : Host.Outcome State Fault Refusal) : Prop :=
       ∃ u : State, exec (.inputByteWrite .data b) t = .next u ∧ exec .dataByteTaken u = o
     ((code, f) ∈ [(0x10#8, Instr.readJob), (0x1C#8, .readPeer), (0x20#8, .readCounters), (0x30#8, .release),
         (0x31#8, .drop)] →
       exec (f []) s = .next (collecting []) ∧ takes (collecting []) b1 (exec (f [b1]) s)) ∧
     ((code, f) ∈ [(0x03#8, Instr.clearAttention), (0x04#8, .setMask), (0x11#8, .readBandMap), (0x12#8, .readDamage),
         (0x18#8, .readBoard)] →
       exec (f []) s = .next (collecting []) ∧ takes (collecting []) b1 (.next (collecting [b1])) ∧
         takes (collecting [b1]) b2 (exec (f [b1, b2]) s)) ∧
     ((code, f) ∈ [(0x19#8, Instr.findBoard), (0x28#8, .readSetting)] →
       exec (f []) s = .next (collecting []) ∧ takes (collecting []) b1 (.next (collecting [b1])) ∧
         takes (collecting [b1]) b2 (.next (collecting [b1, b2])) ∧
         takes (collecting [b1, b2]) b3 (exec (f [b1, b2, b3]) s)))

/-- The read commands that take no slot, outside LOADING but for READ STATUS, answer and change nothing but the
port. The failing item of READ STATUS is present in BARRED only (the model's choice, log 18). The codes of station
state, Imager state and fault, board state and separation run from 0 in the order of their lists, those of barred
reason, validity, region and verdict as their table gives, those of damage kind and outcome from 1, with 0 for no
kind; the 21 counts have the numbers 0 to 20 in the order of R178. -/
def Obligations.ReadsAnswer : Prop :=
  (∀ s : State,
    (s.takesCommand 0x01#8 → exec .readStatus s = .next (s.answered
      ([byteOf s.station.state.code, flagByte s.station.barredReason.isSome,
        byteOf ((s.station.barredReason.map BarredReason.code).getD 0)]
        ++ failingBytes (if s.station.state = .barred then s.loader.failing else none)
        ++ [flagByte s.station.haltRegion.isSome, byteOf ((s.station.haltRegion.map regionCode).getD 0),
            byteOf s.loader.validity.code, flagByte s.station.resumePending, byteOf s.imager.state.code,
            flagByte s.imager.lastFault.isSome, byteOf ((s.imager.lastFault.map ImagerFault.code).getD 0),
            flagByte s.imager.headReady, flagByte s.imager.mediaOut]))) ∧
    (s.opensTo 0x02#8 → exec .readAttention s = .next (s.answered
      (bytes16 s.port.latch.toNat ++ bytes16 s.port.mask.toNat))) ∧
    (s.opensTo 0x22#8 → exec .readLog s = .next (s.answered
      (bytes16 s.damage.log.unattributed ++ bytes16 s.damage.log.late ++ bytes16 s.damage.log.stale
        ++ bytes16 s.damage.log.duplicate
        ++ flagByte s.damage.log.rawHeader.isSome :: s.damage.log.rawHeader.getD (List.replicate 16 0x00#8)))) ∧
    (∀ a b c, s.opensTo 0x28#8 → exec (.readSetting [a, b, c]) s = .next (s.answered
      ((List.range 64).map fun i =>
        s.loader.image.read (a.toNat * 65536 + (b.toNat * 256 + c.toNat) + i)))) ∧
    (∀ a, s.opensTo 0x20#8 →
      (a.toNat ≤ 20 → exec (.readCounters [a]) s = .next (s.answered
        (((s.port.counts.toList.drop a.toNat).take 16).flatMap bytes32))) ∧
      (20 < a.toNat → exec (.readCounters [a]) s = .next s.turnedAway))) ∧
  ([StationState.loading, .barred, .joining, .active, .draining, .detached, .halted].map (·.code) = List.range 7 ∧
    [ImagerState.idle, .loading, .imaging, .ejecting, .fault].map (·.code) = List.range 5 ∧
    [ImagerFault.drumLate, .drumEarly, .headLost, .loadTimeout, .ejectTimeout].map (·.code) = List.range 5 ∧
    [BarredReason.checksum, .range, .curve, .floorCeiling, .tintGap, .noClass, .drumWindow, .duplicateNumber].map
      (·.code) = List.range 8 ∧
    [Validity.notChecked, .valid, .invalid].map (·.code) = List.range 3 ∧
    [Region.holding, .bandBuffers, .screenedStore, .tileStore].map regionCode = List.range 4 ∧
    [Verdict.notAssessed, .clean, .withinTint, .heldForKind, .heldForCount, .released].map (·.code) = List.range 6 ∧
    [Sep.k, .c, .m, .y].map (·.code) = List.range 4 ∧
    [DamageKind.check, .fill, .overflow, .gap, .format].map (·.code) = [1, 2, 3, 4, 5] ∧
    [DoneOutcome.clean, .tinted, .superseded, .dropped, .wasted].map (·.code) = [1, 2, 3, 4, 5] ∧
    kindCode none = 0 ∧ (∀ kind : DamageKind, kindCode (some kind) = kind.code) ∧
    (∀ (time : Nat) (n : Station) (outcome : DoneOutcome) (damaged : Nat) (first : Option DamageKind),
      [EntryState.contested time, .owned n, .untaken, .orphaned n, .done n outcome damaged first].map (·.code) =
        List.range 5) ∧
    [Count.sent, .taken, .spoiled, .spoiledHere, .corrected, .uncorrected, .headersIgnored, .boardAnomaly, .unrecorded,
      .admitted, .passedOver, .quietEnds, .bandsDecoded, .partsDiscarded, .imaged, .scrapped, .returned, .imagerFaults,
      .lineIgnored, .overrun, .strayData].map (·.number.val) = List.range 21)

/-- The reads of one job, board place or peer answer its fields in the order of their rules and change nothing but
the port; a slot above 7, a band above 95, a page above 1, a place above 511, an entry state above 4 and a peer
above 15 are refused. READ DAMAGE of a free slot answers nothing (log 12). Where the fields of an absent group
stand, and the joining of those the rules leave to the reader, are the model's (log 13), with the nibble that an odd
band count leaves spare (log 22); the places of the board are the positions of its list (log 19). That the times
which READ BOARD, FIND BOARD and READ PEER answer, to a window deadline and since a heard mark, are differences of
whole milliseconds is the model's choice (log 28). -/
def Obligations.ReadsOfOneThing : Prop :=
  ∀ (s : State) (a b c : Byte),
    let zeros (n : Nat) : List Byte := List.replicate n 0x00#8
    let time (n : Nat) : List Byte := 0x01#8 :: bytes32 (min n 4294967295)
    let entry (e : BoardEntry) : List Byte :=
      let info : List Byte := match e.info with
        | some i => [0x01#8, byteOf i.sizeClass, 0x01#8, byteOf i.rank]
        | none => zeros 4
      e.key.encode ++ [byteOf e.version]
        ++ (match e.state with
          | .contested deadline => [0#8, 0#8, 0#8] ++ info ++ time (deadline - s.now) ++ zeros 5
          | .owned n => [1#8, 1#8, byteOf n.val] ++ info ++ zeros 10
          | .untaken => [2#8, 0#8, 0#8] ++ info ++ zeros 10
          | .orphaned n => [3#8, 1#8, byteOf n.val] ++ info ++ zeros 10
          | .done n outcome damaged first =>
            [4#8, 1#8, byteOf n.val] ++ info ++ zeros 5
              ++ [1#8, byteOf outcome.code, 1#8, byteOf damaged, byteOf (kindCode first)])
        ++ bytes32 e.stamp
    (s.opensTo 0x10#8 →
      (8 ≤ a.toNat → exec (.readJob [a]) s = .next s.turnedAway) ∧
      ∀ h : a.toNat < 8, ∀ queued : Bool,
        (queued = true ↔ ∃ q key version outcome damaged first,
          s.link.slots[a.toNat] = some q ∧ q.msg = .done key version outcome damaged first) →
        (s.job ⟨a.toNat, h⟩ = none →
          exec (.readJob [a]) s = .next (s.answered ([0x00#8, flagByte queued] ++ zeros 41))) ∧
        (∀ j, s.job ⟨a.toNat, h⟩ = some j →
          exec (.readJob [a]) s = .next (s.answered (
            [0x01#8, flagByte queued, byteOf a.toNat] ++ bytes16 j.generation
              ++ [byteOf (match j.standing with | .contending => 0 | .owned => 1),
                  byteOf (match j.stage with
                    | .receiving => 0 | .closing => 1 | .ready _ => 2 | .imaging => 3 | .held => 4
                    | .cancelling _ => 5)]
              ++ j.key.encode
              ++ [byteOf j.version, byteOf j.sizeClass, byteOf j.screeningClass, byteOf j.rank,
                  byteOf j.bands.length, flagByte j.endAdmitted, flagByte j.endProcessed, flagByte j.quiet.isSome]
              ++ (match j.admission with
                | some x => [0x01#8, byteOf x.band, byteOf x.part, flagByte x.last]
                | none => zeros 4)
              ++ [flagByte j.cursor.current.isSome, byteOf (j.cursor.current.getD 0), byteOf j.cursor.nextPart]
              ++ bytes32 j.cursor.pixels
              ++ [flagByte j.cursor.buffer.isSome, byteOf (j.cursor.buffer.getD 0), byteOf j.screenedCount,
                  byteOf j.retries]
              ++ (match j.stage with | .ready order => 0x01#8 :: bytes32 order | _ => zeros 5)
              ++ (match j.stage with
                | .cancelling .superseded => [0x01#8, 0x00#8] | .cancelling .dropped => [0x01#8, 0x01#8]
                | _ => zeros 2)
              ++ [flagByte j.claimInProgress]
              ++ (match j.withdrawal with
                | some .window => [0x01#8, 0x00#8] | some .drop => [0x01#8, 0x01#8] | none => zeros 2))))) ∧
    (s.opensTo 0x11#8 → exec (.readBandMap [a, b]) s = .next (if h : a.toNat < 8 ∧ b.toNat ≤ 95
      then s.answered (bytes16 s.jobs.generations[a.toNat]
        ++ (match s.job ⟨a.toNat, h.1⟩ with
            | some j => ((j.bands.drop b.toNat).take 16).flatMap (fun x => match x.state with
                | .awaited => byteOf (kindCode x.kind) :: [0xFF#8, 0xFF#8]
                | .decoding => byteOf (16 + kindCode x.kind) :: [0xFF#8, 0xFF#8]
                | .queued => byteOf (32 + kindCode x.kind) :: [0xFF#8, 0xFF#8]
                | .screening => byteOf (48 + kindCode x.kind) :: [0xFF#8, 0xFF#8]
                | .screened n => byteOf (64 + kindCode x.kind) :: bytes16 n)
            | none => []))
      else s.turnedAway)) ∧
    (s.opensTo 0x12#8 →
      (8 ≤ a.toNat ∨ 1 < b.toNat → exec (.readDamage [a, b]) s = .next s.turnedAway) ∧
      ∀ h : a.toNat < 8,
        (s.job ⟨a.toNat, h⟩ = none → b.toNat ≤ 1 → exec (.readDamage [a, b]) s = .next (s.answered [])) ∧
        (∀ j, s.job ⟨a.toNat, h⟩ = some j →
          (b.toNat = 0 → exec (.readDamage [a, b]) s = .next (s.answered (
            [byteOf j.verdict.code, byteOf j.damagedCount]
              ++ (match j.firstDamage with
                | none => zeros 26
                | some f =>
                  [0x01#8, byteOf f.kind.code, byteOf f.band, flagByte f.part.isSome, byteOf (f.part.getD 0),
                    flagByte f.capture.isSome]
                    ++ f.capture.getD (zeros 10) ++ bytes16 f.counts.check ++ bytes16 f.counts.fill
                    ++ bytes16 f.counts.overflow ++ bytes16 f.counts.gap ++ bytes16 f.counts.format)))) ∧
          (b.toNat = 1 → exec (.readDamage [a, b]) s = .next (s.answered (
            let kind (i : Nat) : Nat := kindCode (j.bands[i]?.bind fun x => x.kind)
            (List.range ((j.bands.length + 1) / 2)).map fun i => byteOf (kind (2 * i) * 16 + kind (2 * i + 1))))))) ∧
    (s.opensTo 0x18#8 → exec (.readBoard [a, b]) s = .next (if nat16 a b < 512
      then s.answered (match s.board.entries[nat16 a b]? with
        | some e => 0x01#8 :: entry e
        | none => zeros 26)
      else s.turnedAway)) ∧
    (s.opensTo 0x19#8 →
      let found (p : Nat) (e : BoardEntry) : Prop :=
        s.board.entries[p]? = some e ∧ nat16 b c ≤ p ∧ e.state.code = a.toNat
      (4 < a.toNat ∨ 512 ≤ nat16 b c → exec (.findBoard [a, b, c]) s = .next s.turnedAway) ∧
      (a.toNat ≤ 4 → nat16 b c < 512 →
        ((∀ p e, ¬ found p e) → exec (.findBoard [a, b, c]) s = .next (s.answered (zeros 28))) ∧
        (∀ p e, found p e → (∀ q d, found q d → p ≤ q) →
          exec (.findBoard [a, b, c]) s = .next (s.answered (0x01#8 :: bytes16 p ++ entry e))))) ∧
    (s.opensTo 0x1C#8 →
      (16 ≤ a.toNat → exec (.readPeer [a]) s = .next s.turnedAway) ∧
      ∀ h : a.toNat < 16,
        let p := s.peer ⟨a.toNat, h⟩
        let item (o : Option Half) : List Byte := flagByte o.isSome :: bytes16 ((o.map BitVec.toNat).getD 0)
        exec (.readPeer [a]) s = .next (s.answered (
          [byteOf (match p.state with | .absent => 0 | .present => 1 | .lost => 2), flagByte p.joining,
              flagByte p.lastCounter.isSome, byteOf (p.lastCounter.getD 0), byteOf p.missed]
            ++ item p.items.condition ++ item p.items.bid ++ item p.items.presentMap ++ item p.items.platesOwned
            ++ item p.items.platesHeld ++ item p.items.damageTotal ++ item p.items.digest
            ++ [flagByte p.digestMismatch, byteOf p.ownedMismatch, flagByte p.silence.isSome]
            ++ (match p.heard with | some t => time (s.now - t) | none => zeros 5))))

/-- CLEAR COUNTERS zeroes every count, CLEAR LOG empties the unattributed log, SET MASK replaces the mask and CLEAR
ATTENTION clears the latched causes whose bits it carries; nothing else changes but the port's command state. The 16
causes have the bits 0 to 15 in the order of R186. The attention line is asserted while a latched cause has its mask
bit clear, and the status byte has IN FULL, OUT FULL, READY, ATTENTION, COMMAND PENDING and REFUSED in bits 0 to 5. -/
def Obligations.ClearsAndMask : Prop :=
  (∀ (s : State) (hi lo : Byte),
    (s.opensTo 0x21#8 → exec .clearCounters s = .next
      { s.answered [] with port := { (s.answered []).port with counts := Vector.replicate 21 0 } }) ∧
    (s.opensTo 0x23#8 → exec .clearLog s = .next
      { s.answered [] with
        damage := { s.damage with
          log := { unattributed := 0, rawHeader := none, late := 0, stale := 0, duplicate := 0 } } }) ∧
    (s.opensTo 0x04#8 → exec (.setMask [hi, lo]) s = .next
      { s.answered [] with port := { (s.answered []).port with mask := BitVec.ofNat 16 (hi.toNat * 256 + lo.toNat) } }) ∧
    (s.opensTo 0x03#8 → exec (.clearAttention [hi, lo]) s = .next
      { s.answered [] with port := { (s.answered []).port with
          latch := s.port.latch &&& ~~~(BitVec.ofNat 16 (hi.toNat * 256 + lo.toNat)) } })) ∧
  [Cause.untaken, .orphaned, .held, .wasted, .peerLost, .peerJoined, .digestMismatch, .rejoined, .headFault, .mediaOut,
    .drainComplete, .holdingOverflow, .boardFull, .unattributed, .halted, .barred].map (·.bit) = List.range 16 ∧
  ∀ p : Port,
    (p.attention = true ↔ ∃ k, k < 16 ∧ p.latch.getLsbD k = true ∧ p.mask.getLsbD k = false) ∧
    (List.range 8).map (fun k => p.statusByte.getLsbD k) =
      [p.inputByte.isSome, !p.response.isEmpty, p.ready, p.attention, p.command.isSome, p.refused, false, false]

/-- RELEASE of a HELD job: READY with the counter's value as its ready order, and the counter advances by one; a
counter at 4294967295 is first set to the number of READY jobs, whose orders are renumbered from 0 upward in their
order (that the released job does not count among them is the model's choice, log 20); of any other slot it is
refused. DROP of a slot with no live job is refused, and so are both with a slot above 7. Of a CONTENDING job: with
its CLAIM not in progress it frees the job with no DONE, and with the CLAIM in progress it asks for the withdrawal
with cause DROP. Of an OWNED job: it ends with a DONE as DROPPED where the Imager and the Screener hold nothing of
it, waits in CANCELLING for a band that the Screener holds, leaves the Imager a cancel pending, and changes nothing
of one already CANCELLING. A job that is freed leaves the data path: its ring descriptors are void, its screened
buffers and its cursor's buffer are returned, its end marker leaves the holding queue, and the Unpacker drops its
record as stale. A draining station that so loses its last live job has a LEAVE queued, or held as the replacement
of a message in progress in the presence place. One that enters CANCELLING gives up the same, but for its SCREENED
bands' buffers. DRAIN in ACTIVE: DRAINING, and with no live job a LEAVE is queued; refused in every other state.
RESUME in DRAINING: ACTIVE, a queued LEAVE withdrawn; with the LEAVE in progress its withdrawal and the resume are
pending; in DETACHED: JOINING, with the JOIN and its digest queued, the link synchronising, the roll and isolation
timers started, no join period, no earlier sending of a JOIN, the damage total zero, and in FAULT seen inactive as
the line stands; refused in every other state. RESET STATION resets the part; that the platesetter's lines, the
waiting commands, the free values and frame memory stand is the model's (logs 1, 5 and 7). -/
def Obligations.ActionCommands : Prop :=
  ∀ s : State,
    (∀ a : Byte, s.opensTo 0x30#8 → ∀ h : a.toNat < 8,
      (∀ j, s.job ⟨a.toNat, h⟩ = some j → j.stage = .held → s.imager.state ≠ .idle ∨ s.imager.mediaOut = true →
        ∃ r : JobTable, s.jobs.readiedAs r ∧
          exec (.release [a]) s = .next
            { s.answered [] with jobs := { r with
                slots := r.slots.set a.toNat
                  (some ({ j with verdict := .released, stage := .ready r.readyCounter }))
                readyCounter := r.readyCounter + 1 } }) ∧
      ((∀ j, s.job ⟨a.toNat, h⟩ = some j → j.stage ≠ .held) → exec (.release [a]) s = .next s.turnedAway)) ∧
    (∀ a : Byte, 8 ≤ a.toNat →
      (s.opensTo 0x30#8 → exec (.release [a]) s = .next s.turnedAway) ∧
      (s.opensTo 0x31#8 → exec (.drop [a]) s = .next s.turnedAway)) ∧
    (∀ a : Byte, s.opensTo 0x31#8 → ∀ h : a.toNat < 8,
      (s.job ⟨a.toNat, h⟩ = none → exec (.drop [a]) s = .next s.turnedAway) ∧
      ∀ j, s.job ⟨a.toNat, h⟩ = some j →
        let with' (k : Job) : JobTable := { s.jobs with slots := s.jobs.slots.set a.toNat (some k) }
        (j.standing = .contending → j.claimInProgress = false →
          (∀ q, s.link.slots[a.toNat] = some q → q.inProgress = false) →
          ∃ t : State, exec (.drop [a]) s = .next t ∧ t.port = (s.answered []).port ∧ s.freed t ⟨a.toNat, h⟩ ∧
            t.link.slots[a.toNat] = none ∧ (∀ m, m ≠ ⟨a.toNat, h⟩ → t.job m = s.job m) ∧
            s.leaveFollows t ⟨a.toNat, h⟩ { s.link with slots := s.link.slots.set a.toNat none }) ∧
        (∀ q, j.standing = .contending → j.claimInProgress = true → s.link.slots[a.toNat] = some q →
          q.inProgress = true →
          exec (.drop [a]) s = .next
            { s.answered [] with
              link := { s.link with slots := s.link.slots.set a.toNat (some { q with withdrawal := true }) }
              jobs := with' { j with withdrawal := some .drop } }) ∧
        (j.standing = .owned →
          (j.stage = .receiving ∨ j.stage = .closing ∨ j.stage = .held ∨ (∃ o, j.stage = .ready o) →
            ((∀ c, s.screener.current = some c → c.slot = ⟨a.toNat, h⟩ → c.generation ≠ j.generation) →
              ∃ t : State, exec (.drop [a]) s = .next t ∧ t.port = (s.answered []).port ∧
                s.endsWithDone t ⟨a.toNat, h⟩ j .dropped ∧ ∀ m, m ≠ ⟨a.toNat, h⟩ → t.job m = s.job m) ∧
            (∀ c, s.screener.current = some c → c.slot = ⟨a.toNat, h⟩ → c.generation = j.generation →
              ∃ t : State, exec (.drop [a]) s = .next t ∧ t.port = (s.answered []).port ∧
                t.jobs = with' (j.cancelledFor .dropped) ∧
                s.workCeased t ⟨a.toNat, h⟩ ∧ t.link = s.link ∧ t.screener = s.screener)) ∧
          (j.stage = .imaging →
            s.imager.state = .loading ∨ s.imager.state = .ejecting ∨ s.imager.state = .imaging →
            (s.imager.pendingCancel ≠ none → exec (.drop [a]) s = .next (s.answered [])) ∧
            (s.imager.pendingCancel = none →
              exec (.drop [a]) s = .next
                { s.answered [] with
                  imager := if s.imager.state = .imaging ∧ s.imager.swathInOutput = false
                    then { s.ejecting .scrap with pendingCancel := some .dropped }
                    else { s.imager with pendingCancel := some .dropped } })) ∧
          (∀ reason, j.stage = .cancelling reason → exec (.drop [a]) s = .next (s.answered [])))) ∧
    (s.opensTo 0x32#8 →
      (s.station.state = .active → (∃ n, s.job n ≠ none) →
        exec .drain s = .next { s.answered [] with station := { s.station with state := .draining } }) ∧
      (s.station.state = .active → (∀ n, s.job n = none) → s.link.presence = none →
        ∃ l : Link, s.link.puts l .presence .leave ∧
          exec .drain s = .next
            { s.answered [] with station := { s.station with state := .draining }, link := l }) ∧
      (s.station.state ≠ .active → exec .drain s = .next s.turnedAway)) ∧
    (s.opensTo 0x33#8 →
      (s.station.state = .draining →
        (s.link.presence = none →
          exec .resume s = .next { s.answered [] with station := { s.station with state := .active } }) ∧
        (∀ q, s.link.presence = some q → q.msg = .leave →
          (q.inProgress = false →
            exec .resume s = .next
              { s.answered [] with
                station := { s.station with state := .active }, link := { s.link with presence := none } }) ∧
          (q.inProgress = true →
            exec .resume s = .next
              { s.answered [] with
                station := { s.station with resumePending := true }
                link := { s.link with presence := some { q with withdrawal := true } } }))) ∧
      (s.station.state = .detached →
        ∃ t : State, exec .resume s = .next t ∧ t.station = { s.station with state := .joining } ∧
          t.port = (s.answered []).port ∧ t.link.phase = .synchronising ∧
          t.roll.rollTimer = some (s.now + s.settings.rollPeriod)) ∧
      (s.station.state = .detached → s.link.presence = none → ∀ digest, s.loader.digest = some digest →
        ∃ l : Link, Link.puts { s.link with phase := .synchronising } l .presence (.join digest) ∧
        exec .resume s = .next
          { s.answered [] with
            station := { s.station with state := .joining }
            link := l
            roll := { s.roll with
              rollTimer := some (s.now + s.settings.rollPeriod)
              isolationTimer := some (s.now + s.settings.silenceLimit * s.settings.rollPeriod)
              joinPeriod := none, joinSentAt := none }
            damage := { s.damage with total := 0 }
            imager := { s.imager with
              seenInactive := if s.imager.state = .fault then !s.imager.headReady else s.imager.seenInactive } }) ∧
      (s.station.state ∈ [.barred, .joining, .active, .halted] → exec .resume s = .next s.turnedAway)) ∧
    (s.opensTo 0x3F#8 → exec .resetStation s = .next
      { State.reset with
        pending := s.pending, freeCount := s.freeCount, frame := s.frame,
        imager := { State.reset.imager with headReady := s.imager.headReady, mediaOut := s.imager.mediaOut } })

/-! ## Invariants -/

/-- Every step keeps the byte memories in their canonical form: addresses rising, no listed byte equal to what an
unlisted one reads as. -/
def Obligations.MemoriesStayCanonical : Prop :=
  ∀ s t : State, s.memoriesCanonical → step s = .next t → t.memoriesCanonical

/-- Every step keeps the law of the outgoing queue: a ROLL in the roll place, a JOIN or LEAVE in the presence place, and a
CLAIM or DONE in the place of a slot, so at most 10 messages. Every step also keeps the Link Controller passive outside
JOINING, ACTIVE and DRAINING, but for a spoil window that it owes. -/
def Obligations.QueuePlacesAndPassivityStayLawful : Prop :=
  ∀ s t : State, step s = .next t →
    (s.link.placesHold → t.link.placesHold) ∧ (s.linkPassive → t.linkPassive)

/-- Every step keeps the laws of the board and of the reservation: at most 512 entries, at most one for each plate key,
and the reservations of all live jobs within 768 screened buffers (R43, R44, R66). From a state in which the Link
Controller is passive outside JOINING, ACTIVE and DRAINING, but for a spoil window that it owes, every step also keeps
`State.lawful`: every OWNED entry names this station or a peer that it holds PRESENT, and the board is empty in LOADING
(R55, R61); the holding queue has at most 8192 fragments and at most one end marker for each slot, and a slot with an
end marker has a live job whose end is admitted and whose quiet timer is stopped (R99); a job is in IMAGING exactly
while the Imager holds it, and the Imager holds at most one job, a live one, in LOADING, IMAGING and EJECTING only
(R152); each of the 16 band buffers is in exactly one place, the pool, a job's cursor, a descriptor that is the
Screener's, or the current band (R106); each of the 768 screened buffers is in exactly one place, the store, a SCREENED
band of a live job, or the current band (R129); the pool and the store are rising lists, so that the first of each is
its lowest number. The laws that they rest on are: the kinds of message in the queue's places; a JOIN stands in the
presence place only in JOINING before the join period, a LEAVE only in DRAINING with no live job, and neither is
replaced; a CONTENDING job is in RECEIVING or CLOSING and only such a job has a withdrawal cause; a current band is a
DECODING band of the plate, and no band below it is AWAITED; a descriptor that waits for ring room is of a live job,
its band AWAITED or DECODING; a descriptor that is not void names a QUEUED band of a live job, no two the same; the
ring's entries from the consumer index on up to the producer index are the Screener's. They rest on log 25 (the model's
choice where a generation has come round again). -/
def Obligations.BoardAndReservationStayLawful : Prop :=
  ∀ s t : State, step s = .next t →
    (s.board.lawful → t.board.lawful) ∧ (s.reservationFits → t.reservationFits) ∧
    (s.linkPassive → s.lawful → t.lawful)

/-- After reset the memories are canonical, the queue, the board and the reservation lawful, and the link passive; the
laws that stand together (R55, R99, R106, R129, R152, the rising lists and those that they rest on) hold as well. -/
def Obligations.ResetIsLawful : Prop :=
  State.reset.memoriesCanonical ∧ State.reset.link.placesHold ∧ State.reset.board.lawful ∧
  State.reset.reservationFits ∧ State.reset.linkPassive ∧ State.reset.lawful
end

