-- ==== Sys2Proof/Laws/Codes.lean ====
section
/-! SUPPORT. Run codes: a code takes at least its own byte from the payload, so the decoding of a payload needs no more
fuel than the payload has bytes (R113, R115). -/

namespace Sys2Proof.Machine

/-- A code that is read leaves fewer bytes than there were. -/
theorem readRun_shorter {payload rest : List Byte} {r : Run} {n : Nat} (h : readRun payload = some (r, n, rest)) :
    rest.length < payload.length := by
  cases payload with
  | nil => simp [readRun] at h
  | cons c t =>
    simp only [readRun] at h
    have key : ∀ x : Nat × List Byte, x.2.length ≤ t.length → (match c.toNat / 32 with
      | 0 => some (Run.blank, x.1, x.2)
      | 1 => some (.solid, x.1, x.2)
      | 2 => match x.2 with
        | t :: rest => some (.toneRun t, x.1, rest)
        | [] => none
      | 3 => if x.1 ≤ x.2.length then some (.toneList (x.2.take x.1), x.1, x.2.drop x.1) else none
      | 4 => some (.copyAbove, x.1, x.2)
      | _ => none) = some (r, n, rest) → rest.length < (c :: t).length := by
      intro x hx e
      simp only [List.length_cons]
      split at e
      · cases e; omega
      · cases e; omega
      · split at e
        · rename_i heq
          cases e
          rw [heq] at hx
          simp only [List.length_cons] at hx
          omega
        · cases e
      · split at e
        · cases e
          simp only [List.length_drop]
          omega
        · cases e
      · cases e; omega
      · cases e
    split at h
    · split at h
      · split at h
        · exact key _ (by simp; omega) h
        · simp at h
      · simp at h
    · exact key _ (by simp) h

/-- Fuel beyond the length of the payload changes nothing. -/
theorem decodeCodes_fuel (buffer width count : Nat) (last : Bool) (fuel : Nat) (payload : List Byte) (pos : Nat) (m : Mem)
    (h : payload.length ≤ fuel) :
    decodeCodes buffer width count last fuel payload pos m =
      decodeCodes buffer width count last payload.length payload pos m := by
  induction fuel using Nat.strong_induction_on generalizing payload pos m with
  | _ f ih =>
    cases payload with
    | nil => cases f <;> rfl
    | cons b bs =>
      cases f with
      | zero => simp at h
      | succ f =>
        simp only [List.length_cons, decodeCodes]
        cases e : readRun (b :: bs) with
        | none => rfl
        | some x =>
          obtain ⟨r, n, rest⟩ := x
          have hs := readRun_shorter e
          simp only [List.length_cons] at hs h
          dsimp only
          split
          · split
            · rfl
            · rw [ih f (by omega) rest _ _ (by omega)]
              by_cases hb : bs.length < f + 1
              · rw [ih bs.length hb rest _ _ (by omega)]
              · omega
          · rfl

end Sys2Proof.Machine
end

