-- ==== Sys2Proof/Laws/State.lean ====
section
/-! SUPPORT. The updates of a state: one lemma for each field after each update, true by definition, so that no
later proof unfolds a record update. -/

namespace Sys2Proof.Machine.State

variable (s : State)

/-! ### setPending -/

@[simp] theorem setPending_pending (x : List Instr) : (s.setPending x).pending = x := rfl
@[simp] theorem setPending_clock (x : List Instr) : (s.setPending x).clock = s.clock := rfl
@[simp] theorem setPending_freeCount (x : List Instr) : (s.setPending x).freeCount = s.freeCount := rfl
@[simp] theorem setPending_station (x : List Instr) : (s.setPending x).station = s.station := rfl
@[simp] theorem setPending_settings (x : List Instr) : (s.setPending x).settings = s.settings := rfl
@[simp] theorem setPending_loader (x : List Instr) : (s.setPending x).loader = s.loader := rfl
@[simp] theorem setPending_link (x : List Instr) : (s.setPending x).link = s.link := rfl
@[simp] theorem setPending_roll (x : List Instr) : (s.setPending x).roll = s.roll := rfl
@[simp] theorem setPending_board (x : List Instr) : (s.setPending x).board = s.board := rfl
@[simp] theorem setPending_jobs (x : List Instr) : (s.setPending x).jobs = s.jobs := rfl
@[simp] theorem setPending_receiver (x : List Instr) : (s.setPending x).receiver = s.receiver := rfl
@[simp] theorem setPending_unpacker (x : List Instr) : (s.setPending x).unpacker = s.unpacker := rfl
@[simp] theorem setPending_ring (x : List Instr) : (s.setPending x).ring = s.ring := rfl
@[simp] theorem setPending_screener (x : List Instr) : (s.setPending x).screener = s.screener := rfl
@[simp] theorem setPending_damage (x : List Instr) : (s.setPending x).damage = s.damage := rfl
@[simp] theorem setPending_imager (x : List Instr) : (s.setPending x).imager = s.imager := rfl
@[simp] theorem setPending_port (x : List Instr) : (s.setPending x).port = s.port := rfl
@[simp] theorem setPending_frame (x : List Instr) : (s.setPending x).frame = s.frame := rfl

/-! ### setClock -/

@[simp] theorem setClock_pending (x : Nat) : (s.setClock x).pending = s.pending := rfl
@[simp] theorem setClock_clock (x : Nat) : (s.setClock x).clock = x := rfl
@[simp] theorem setClock_freeCount (x : Nat) : (s.setClock x).freeCount = s.freeCount := rfl
@[simp] theorem setClock_station (x : Nat) : (s.setClock x).station = s.station := rfl
@[simp] theorem setClock_settings (x : Nat) : (s.setClock x).settings = s.settings := rfl
@[simp] theorem setClock_loader (x : Nat) : (s.setClock x).loader = s.loader := rfl
@[simp] theorem setClock_link (x : Nat) : (s.setClock x).link = s.link := rfl
@[simp] theorem setClock_roll (x : Nat) : (s.setClock x).roll = s.roll := rfl
@[simp] theorem setClock_board (x : Nat) : (s.setClock x).board = s.board := rfl
@[simp] theorem setClock_jobs (x : Nat) : (s.setClock x).jobs = s.jobs := rfl
@[simp] theorem setClock_receiver (x : Nat) : (s.setClock x).receiver = s.receiver := rfl
@[simp] theorem setClock_unpacker (x : Nat) : (s.setClock x).unpacker = s.unpacker := rfl
@[simp] theorem setClock_ring (x : Nat) : (s.setClock x).ring = s.ring := rfl
@[simp] theorem setClock_screener (x : Nat) : (s.setClock x).screener = s.screener := rfl
@[simp] theorem setClock_damage (x : Nat) : (s.setClock x).damage = s.damage := rfl
@[simp] theorem setClock_imager (x : Nat) : (s.setClock x).imager = s.imager := rfl
@[simp] theorem setClock_port (x : Nat) : (s.setClock x).port = s.port := rfl
@[simp] theorem setClock_frame (x : Nat) : (s.setClock x).frame = s.frame := rfl

/-! ### setFreeCount -/

@[simp] theorem setFreeCount_pending (x : Nat) : (s.setFreeCount x).pending = s.pending := rfl
@[simp] theorem setFreeCount_clock (x : Nat) : (s.setFreeCount x).clock = s.clock := rfl
@[simp] theorem setFreeCount_freeCount (x : Nat) : (s.setFreeCount x).freeCount = x := rfl
@[simp] theorem setFreeCount_station (x : Nat) : (s.setFreeCount x).station = s.station := rfl
@[simp] theorem setFreeCount_settings (x : Nat) : (s.setFreeCount x).settings = s.settings := rfl
@[simp] theorem setFreeCount_loader (x : Nat) : (s.setFreeCount x).loader = s.loader := rfl
@[simp] theorem setFreeCount_link (x : Nat) : (s.setFreeCount x).link = s.link := rfl
@[simp] theorem setFreeCount_roll (x : Nat) : (s.setFreeCount x).roll = s.roll := rfl
@[simp] theorem setFreeCount_board (x : Nat) : (s.setFreeCount x).board = s.board := rfl
@[simp] theorem setFreeCount_jobs (x : Nat) : (s.setFreeCount x).jobs = s.jobs := rfl
@[simp] theorem setFreeCount_receiver (x : Nat) : (s.setFreeCount x).receiver = s.receiver := rfl
@[simp] theorem setFreeCount_unpacker (x : Nat) : (s.setFreeCount x).unpacker = s.unpacker := rfl
@[simp] theorem setFreeCount_ring (x : Nat) : (s.setFreeCount x).ring = s.ring := rfl
@[simp] theorem setFreeCount_screener (x : Nat) : (s.setFreeCount x).screener = s.screener := rfl
@[simp] theorem setFreeCount_damage (x : Nat) : (s.setFreeCount x).damage = s.damage := rfl
@[simp] theorem setFreeCount_imager (x : Nat) : (s.setFreeCount x).imager = s.imager := rfl
@[simp] theorem setFreeCount_port (x : Nat) : (s.setFreeCount x).port = s.port := rfl
@[simp] theorem setFreeCount_frame (x : Nat) : (s.setFreeCount x).frame = s.frame := rfl

/-! ### setStation -/

@[simp] theorem setStation_pending (x : StationControl) : (s.setStation x).pending = s.pending := rfl
@[simp] theorem setStation_clock (x : StationControl) : (s.setStation x).clock = s.clock := rfl
@[simp] theorem setStation_freeCount (x : StationControl) : (s.setStation x).freeCount = s.freeCount := rfl
@[simp] theorem setStation_station (x : StationControl) : (s.setStation x).station = x := rfl
@[simp] theorem setStation_settings (x : StationControl) : (s.setStation x).settings = s.settings := rfl
@[simp] theorem setStation_loader (x : StationControl) : (s.setStation x).loader = s.loader := rfl
@[simp] theorem setStation_link (x : StationControl) : (s.setStation x).link = s.link := rfl
@[simp] theorem setStation_roll (x : StationControl) : (s.setStation x).roll = s.roll := rfl
@[simp] theorem setStation_board (x : StationControl) : (s.setStation x).board = s.board := rfl
@[simp] theorem setStation_jobs (x : StationControl) : (s.setStation x).jobs = s.jobs := rfl
@[simp] theorem setStation_receiver (x : StationControl) : (s.setStation x).receiver = s.receiver := rfl
@[simp] theorem setStation_unpacker (x : StationControl) : (s.setStation x).unpacker = s.unpacker := rfl
@[simp] theorem setStation_ring (x : StationControl) : (s.setStation x).ring = s.ring := rfl
@[simp] theorem setStation_screener (x : StationControl) : (s.setStation x).screener = s.screener := rfl
@[simp] theorem setStation_damage (x : StationControl) : (s.setStation x).damage = s.damage := rfl
@[simp] theorem setStation_imager (x : StationControl) : (s.setStation x).imager = s.imager := rfl
@[simp] theorem setStation_port (x : StationControl) : (s.setStation x).port = s.port := rfl
@[simp] theorem setStation_frame (x : StationControl) : (s.setStation x).frame = s.frame := rfl

/-! ### setSettings -/

@[simp] theorem setSettings_pending (x : Settings) : (s.setSettings x).pending = s.pending := rfl
@[simp] theorem setSettings_clock (x : Settings) : (s.setSettings x).clock = s.clock := rfl
@[simp] theorem setSettings_freeCount (x : Settings) : (s.setSettings x).freeCount = s.freeCount := rfl
@[simp] theorem setSettings_station (x : Settings) : (s.setSettings x).station = s.station := rfl
@[simp] theorem setSettings_settings (x : Settings) : (s.setSettings x).settings = x := rfl
@[simp] theorem setSettings_loader (x : Settings) : (s.setSettings x).loader = s.loader := rfl
@[simp] theorem setSettings_link (x : Settings) : (s.setSettings x).link = s.link := rfl
@[simp] theorem setSettings_roll (x : Settings) : (s.setSettings x).roll = s.roll := rfl
@[simp] theorem setSettings_board (x : Settings) : (s.setSettings x).board = s.board := rfl
@[simp] theorem setSettings_jobs (x : Settings) : (s.setSettings x).jobs = s.jobs := rfl
@[simp] theorem setSettings_receiver (x : Settings) : (s.setSettings x).receiver = s.receiver := rfl
@[simp] theorem setSettings_unpacker (x : Settings) : (s.setSettings x).unpacker = s.unpacker := rfl
@[simp] theorem setSettings_ring (x : Settings) : (s.setSettings x).ring = s.ring := rfl
@[simp] theorem setSettings_screener (x : Settings) : (s.setSettings x).screener = s.screener := rfl
@[simp] theorem setSettings_damage (x : Settings) : (s.setSettings x).damage = s.damage := rfl
@[simp] theorem setSettings_imager (x : Settings) : (s.setSettings x).imager = s.imager := rfl
@[simp] theorem setSettings_port (x : Settings) : (s.setSettings x).port = s.port := rfl
@[simp] theorem setSettings_frame (x : Settings) : (s.setSettings x).frame = s.frame := rfl

/-! ### setLoader -/

@[simp] theorem setLoader_pending (x : Loader) : (s.setLoader x).pending = s.pending := rfl
@[simp] theorem setLoader_clock (x : Loader) : (s.setLoader x).clock = s.clock := rfl
@[simp] theorem setLoader_freeCount (x : Loader) : (s.setLoader x).freeCount = s.freeCount := rfl
@[simp] theorem setLoader_station (x : Loader) : (s.setLoader x).station = s.station := rfl
@[simp] theorem setLoader_settings (x : Loader) : (s.setLoader x).settings = s.settings := rfl
@[simp] theorem setLoader_loader (x : Loader) : (s.setLoader x).loader = x := rfl
@[simp] theorem setLoader_link (x : Loader) : (s.setLoader x).link = s.link := rfl
@[simp] theorem setLoader_roll (x : Loader) : (s.setLoader x).roll = s.roll := rfl
@[simp] theorem setLoader_board (x : Loader) : (s.setLoader x).board = s.board := rfl
@[simp] theorem setLoader_jobs (x : Loader) : (s.setLoader x).jobs = s.jobs := rfl
@[simp] theorem setLoader_receiver (x : Loader) : (s.setLoader x).receiver = s.receiver := rfl
@[simp] theorem setLoader_unpacker (x : Loader) : (s.setLoader x).unpacker = s.unpacker := rfl
@[simp] theorem setLoader_ring (x : Loader) : (s.setLoader x).ring = s.ring := rfl
@[simp] theorem setLoader_screener (x : Loader) : (s.setLoader x).screener = s.screener := rfl
@[simp] theorem setLoader_damage (x : Loader) : (s.setLoader x).damage = s.damage := rfl
@[simp] theorem setLoader_imager (x : Loader) : (s.setLoader x).imager = s.imager := rfl
@[simp] theorem setLoader_port (x : Loader) : (s.setLoader x).port = s.port := rfl
@[simp] theorem setLoader_frame (x : Loader) : (s.setLoader x).frame = s.frame := rfl

/-! ### setLink -/

@[simp] theorem setLink_pending (x : Link) : (s.setLink x).pending = s.pending := rfl
@[simp] theorem setLink_clock (x : Link) : (s.setLink x).clock = s.clock := rfl
@[simp] theorem setLink_freeCount (x : Link) : (s.setLink x).freeCount = s.freeCount := rfl
@[simp] theorem setLink_station (x : Link) : (s.setLink x).station = s.station := rfl
@[simp] theorem setLink_settings (x : Link) : (s.setLink x).settings = s.settings := rfl
@[simp] theorem setLink_loader (x : Link) : (s.setLink x).loader = s.loader := rfl
@[simp] theorem setLink_link (x : Link) : (s.setLink x).link = x := rfl
@[simp] theorem setLink_roll (x : Link) : (s.setLink x).roll = s.roll := rfl
@[simp] theorem setLink_board (x : Link) : (s.setLink x).board = s.board := rfl
@[simp] theorem setLink_jobs (x : Link) : (s.setLink x).jobs = s.jobs := rfl
@[simp] theorem setLink_receiver (x : Link) : (s.setLink x).receiver = s.receiver := rfl
@[simp] theorem setLink_unpacker (x : Link) : (s.setLink x).unpacker = s.unpacker := rfl
@[simp] theorem setLink_ring (x : Link) : (s.setLink x).ring = s.ring := rfl
@[simp] theorem setLink_screener (x : Link) : (s.setLink x).screener = s.screener := rfl
@[simp] theorem setLink_damage (x : Link) : (s.setLink x).damage = s.damage := rfl
@[simp] theorem setLink_imager (x : Link) : (s.setLink x).imager = s.imager := rfl
@[simp] theorem setLink_port (x : Link) : (s.setLink x).port = s.port := rfl
@[simp] theorem setLink_frame (x : Link) : (s.setLink x).frame = s.frame := rfl

/-! ### setRoll -/

@[simp] theorem setRoll_pending (x : RollUnit) : (s.setRoll x).pending = s.pending := rfl
@[simp] theorem setRoll_clock (x : RollUnit) : (s.setRoll x).clock = s.clock := rfl
@[simp] theorem setRoll_freeCount (x : RollUnit) : (s.setRoll x).freeCount = s.freeCount := rfl
@[simp] theorem setRoll_station (x : RollUnit) : (s.setRoll x).station = s.station := rfl
@[simp] theorem setRoll_settings (x : RollUnit) : (s.setRoll x).settings = s.settings := rfl
@[simp] theorem setRoll_loader (x : RollUnit) : (s.setRoll x).loader = s.loader := rfl
@[simp] theorem setRoll_link (x : RollUnit) : (s.setRoll x).link = s.link := rfl
@[simp] theorem setRoll_roll (x : RollUnit) : (s.setRoll x).roll = x := rfl
@[simp] theorem setRoll_board (x : RollUnit) : (s.setRoll x).board = s.board := rfl
@[simp] theorem setRoll_jobs (x : RollUnit) : (s.setRoll x).jobs = s.jobs := rfl
@[simp] theorem setRoll_receiver (x : RollUnit) : (s.setRoll x).receiver = s.receiver := rfl
@[simp] theorem setRoll_unpacker (x : RollUnit) : (s.setRoll x).unpacker = s.unpacker := rfl
@[simp] theorem setRoll_ring (x : RollUnit) : (s.setRoll x).ring = s.ring := rfl
@[simp] theorem setRoll_screener (x : RollUnit) : (s.setRoll x).screener = s.screener := rfl
@[simp] theorem setRoll_damage (x : RollUnit) : (s.setRoll x).damage = s.damage := rfl
@[simp] theorem setRoll_imager (x : RollUnit) : (s.setRoll x).imager = s.imager := rfl
@[simp] theorem setRoll_port (x : RollUnit) : (s.setRoll x).port = s.port := rfl
@[simp] theorem setRoll_frame (x : RollUnit) : (s.setRoll x).frame = s.frame := rfl

/-! ### setBoard -/

@[simp] theorem setBoard_pending (x : Board) : (s.setBoard x).pending = s.pending := rfl
@[simp] theorem setBoard_clock (x : Board) : (s.setBoard x).clock = s.clock := rfl
@[simp] theorem setBoard_freeCount (x : Board) : (s.setBoard x).freeCount = s.freeCount := rfl
@[simp] theorem setBoard_station (x : Board) : (s.setBoard x).station = s.station := rfl
@[simp] theorem setBoard_settings (x : Board) : (s.setBoard x).settings = s.settings := rfl
@[simp] theorem setBoard_loader (x : Board) : (s.setBoard x).loader = s.loader := rfl
@[simp] theorem setBoard_link (x : Board) : (s.setBoard x).link = s.link := rfl
@[simp] theorem setBoard_roll (x : Board) : (s.setBoard x).roll = s.roll := rfl
@[simp] theorem setBoard_board (x : Board) : (s.setBoard x).board = x := rfl
@[simp] theorem setBoard_jobs (x : Board) : (s.setBoard x).jobs = s.jobs := rfl
@[simp] theorem setBoard_receiver (x : Board) : (s.setBoard x).receiver = s.receiver := rfl
@[simp] theorem setBoard_unpacker (x : Board) : (s.setBoard x).unpacker = s.unpacker := rfl
@[simp] theorem setBoard_ring (x : Board) : (s.setBoard x).ring = s.ring := rfl
@[simp] theorem setBoard_screener (x : Board) : (s.setBoard x).screener = s.screener := rfl
@[simp] theorem setBoard_damage (x : Board) : (s.setBoard x).damage = s.damage := rfl
@[simp] theorem setBoard_imager (x : Board) : (s.setBoard x).imager = s.imager := rfl
@[simp] theorem setBoard_port (x : Board) : (s.setBoard x).port = s.port := rfl
@[simp] theorem setBoard_frame (x : Board) : (s.setBoard x).frame = s.frame := rfl

/-! ### setJobs -/

@[simp] theorem setJobs_pending (x : JobTable) : (s.setJobs x).pending = s.pending := rfl
@[simp] theorem setJobs_clock (x : JobTable) : (s.setJobs x).clock = s.clock := rfl
@[simp] theorem setJobs_freeCount (x : JobTable) : (s.setJobs x).freeCount = s.freeCount := rfl
@[simp] theorem setJobs_station (x : JobTable) : (s.setJobs x).station = s.station := rfl
@[simp] theorem setJobs_settings (x : JobTable) : (s.setJobs x).settings = s.settings := rfl
@[simp] theorem setJobs_loader (x : JobTable) : (s.setJobs x).loader = s.loader := rfl
@[simp] theorem setJobs_link (x : JobTable) : (s.setJobs x).link = s.link := rfl
@[simp] theorem setJobs_roll (x : JobTable) : (s.setJobs x).roll = s.roll := rfl
@[simp] theorem setJobs_board (x : JobTable) : (s.setJobs x).board = s.board := rfl
@[simp] theorem setJobs_jobs (x : JobTable) : (s.setJobs x).jobs = x := rfl
@[simp] theorem setJobs_receiver (x : JobTable) : (s.setJobs x).receiver = s.receiver := rfl
@[simp] theorem setJobs_unpacker (x : JobTable) : (s.setJobs x).unpacker = s.unpacker := rfl
@[simp] theorem setJobs_ring (x : JobTable) : (s.setJobs x).ring = s.ring := rfl
@[simp] theorem setJobs_screener (x : JobTable) : (s.setJobs x).screener = s.screener := rfl
@[simp] theorem setJobs_damage (x : JobTable) : (s.setJobs x).damage = s.damage := rfl
@[simp] theorem setJobs_imager (x : JobTable) : (s.setJobs x).imager = s.imager := rfl
@[simp] theorem setJobs_port (x : JobTable) : (s.setJobs x).port = s.port := rfl
@[simp] theorem setJobs_frame (x : JobTable) : (s.setJobs x).frame = s.frame := rfl

/-! ### setReceiver -/

@[simp] theorem setReceiver_pending (x : Receiver) : (s.setReceiver x).pending = s.pending := rfl
@[simp] theorem setReceiver_clock (x : Receiver) : (s.setReceiver x).clock = s.clock := rfl
@[simp] theorem setReceiver_freeCount (x : Receiver) : (s.setReceiver x).freeCount = s.freeCount := rfl
@[simp] theorem setReceiver_station (x : Receiver) : (s.setReceiver x).station = s.station := rfl
@[simp] theorem setReceiver_settings (x : Receiver) : (s.setReceiver x).settings = s.settings := rfl
@[simp] theorem setReceiver_loader (x : Receiver) : (s.setReceiver x).loader = s.loader := rfl
@[simp] theorem setReceiver_link (x : Receiver) : (s.setReceiver x).link = s.link := rfl
@[simp] theorem setReceiver_roll (x : Receiver) : (s.setReceiver x).roll = s.roll := rfl
@[simp] theorem setReceiver_board (x : Receiver) : (s.setReceiver x).board = s.board := rfl
@[simp] theorem setReceiver_jobs (x : Receiver) : (s.setReceiver x).jobs = s.jobs := rfl
@[simp] theorem setReceiver_receiver (x : Receiver) : (s.setReceiver x).receiver = x := rfl
@[simp] theorem setReceiver_unpacker (x : Receiver) : (s.setReceiver x).unpacker = s.unpacker := rfl
@[simp] theorem setReceiver_ring (x : Receiver) : (s.setReceiver x).ring = s.ring := rfl
@[simp] theorem setReceiver_screener (x : Receiver) : (s.setReceiver x).screener = s.screener := rfl
@[simp] theorem setReceiver_damage (x : Receiver) : (s.setReceiver x).damage = s.damage := rfl
@[simp] theorem setReceiver_imager (x : Receiver) : (s.setReceiver x).imager = s.imager := rfl
@[simp] theorem setReceiver_port (x : Receiver) : (s.setReceiver x).port = s.port := rfl
@[simp] theorem setReceiver_frame (x : Receiver) : (s.setReceiver x).frame = s.frame := rfl

/-! ### setUnpacker -/

@[simp] theorem setUnpacker_pending (x : Unpacker) : (s.setUnpacker x).pending = s.pending := rfl
@[simp] theorem setUnpacker_clock (x : Unpacker) : (s.setUnpacker x).clock = s.clock := rfl
@[simp] theorem setUnpacker_freeCount (x : Unpacker) : (s.setUnpacker x).freeCount = s.freeCount := rfl
@[simp] theorem setUnpacker_station (x : Unpacker) : (s.setUnpacker x).station = s.station := rfl
@[simp] theorem setUnpacker_settings (x : Unpacker) : (s.setUnpacker x).settings = s.settings := rfl
@[simp] theorem setUnpacker_loader (x : Unpacker) : (s.setUnpacker x).loader = s.loader := rfl
@[simp] theorem setUnpacker_link (x : Unpacker) : (s.setUnpacker x).link = s.link := rfl
@[simp] theorem setUnpacker_roll (x : Unpacker) : (s.setUnpacker x).roll = s.roll := rfl
@[simp] theorem setUnpacker_board (x : Unpacker) : (s.setUnpacker x).board = s.board := rfl
@[simp] theorem setUnpacker_jobs (x : Unpacker) : (s.setUnpacker x).jobs = s.jobs := rfl
@[simp] theorem setUnpacker_receiver (x : Unpacker) : (s.setUnpacker x).receiver = s.receiver := rfl
@[simp] theorem setUnpacker_unpacker (x : Unpacker) : (s.setUnpacker x).unpacker = x := rfl
@[simp] theorem setUnpacker_ring (x : Unpacker) : (s.setUnpacker x).ring = s.ring := rfl
@[simp] theorem setUnpacker_screener (x : Unpacker) : (s.setUnpacker x).screener = s.screener := rfl
@[simp] theorem setUnpacker_damage (x : Unpacker) : (s.setUnpacker x).damage = s.damage := rfl
@[simp] theorem setUnpacker_imager (x : Unpacker) : (s.setUnpacker x).imager = s.imager := rfl
@[simp] theorem setUnpacker_port (x : Unpacker) : (s.setUnpacker x).port = s.port := rfl
@[simp] theorem setUnpacker_frame (x : Unpacker) : (s.setUnpacker x).frame = s.frame := rfl

/-! ### setRing -/

@[simp] theorem setRing_pending (x : Ring) : (s.setRing x).pending = s.pending := rfl
@[simp] theorem setRing_clock (x : Ring) : (s.setRing x).clock = s.clock := rfl
@[simp] theorem setRing_freeCount (x : Ring) : (s.setRing x).freeCount = s.freeCount := rfl
@[simp] theorem setRing_station (x : Ring) : (s.setRing x).station = s.station := rfl
@[simp] theorem setRing_settings (x : Ring) : (s.setRing x).settings = s.settings := rfl
@[simp] theorem setRing_loader (x : Ring) : (s.setRing x).loader = s.loader := rfl
@[simp] theorem setRing_link (x : Ring) : (s.setRing x).link = s.link := rfl
@[simp] theorem setRing_roll (x : Ring) : (s.setRing x).roll = s.roll := rfl
@[simp] theorem setRing_board (x : Ring) : (s.setRing x).board = s.board := rfl
@[simp] theorem setRing_jobs (x : Ring) : (s.setRing x).jobs = s.jobs := rfl
@[simp] theorem setRing_receiver (x : Ring) : (s.setRing x).receiver = s.receiver := rfl
@[simp] theorem setRing_unpacker (x : Ring) : (s.setRing x).unpacker = s.unpacker := rfl
@[simp] theorem setRing_ring (x : Ring) : (s.setRing x).ring = x := rfl
@[simp] theorem setRing_screener (x : Ring) : (s.setRing x).screener = s.screener := rfl
@[simp] theorem setRing_damage (x : Ring) : (s.setRing x).damage = s.damage := rfl
@[simp] theorem setRing_imager (x : Ring) : (s.setRing x).imager = s.imager := rfl
@[simp] theorem setRing_port (x : Ring) : (s.setRing x).port = s.port := rfl
@[simp] theorem setRing_frame (x : Ring) : (s.setRing x).frame = s.frame := rfl

/-! ### setScreener -/

@[simp] theorem setScreener_pending (x : Screener) : (s.setScreener x).pending = s.pending := rfl
@[simp] theorem setScreener_clock (x : Screener) : (s.setScreener x).clock = s.clock := rfl
@[simp] theorem setScreener_freeCount (x : Screener) : (s.setScreener x).freeCount = s.freeCount := rfl
@[simp] theorem setScreener_station (x : Screener) : (s.setScreener x).station = s.station := rfl
@[simp] theorem setScreener_settings (x : Screener) : (s.setScreener x).settings = s.settings := rfl
@[simp] theorem setScreener_loader (x : Screener) : (s.setScreener x).loader = s.loader := rfl
@[simp] theorem setScreener_link (x : Screener) : (s.setScreener x).link = s.link := rfl
@[simp] theorem setScreener_roll (x : Screener) : (s.setScreener x).roll = s.roll := rfl
@[simp] theorem setScreener_board (x : Screener) : (s.setScreener x).board = s.board := rfl
@[simp] theorem setScreener_jobs (x : Screener) : (s.setScreener x).jobs = s.jobs := rfl
@[simp] theorem setScreener_receiver (x : Screener) : (s.setScreener x).receiver = s.receiver := rfl
@[simp] theorem setScreener_unpacker (x : Screener) : (s.setScreener x).unpacker = s.unpacker := rfl
@[simp] theorem setScreener_ring (x : Screener) : (s.setScreener x).ring = s.ring := rfl
@[simp] theorem setScreener_screener (x : Screener) : (s.setScreener x).screener = x := rfl
@[simp] theorem setScreener_damage (x : Screener) : (s.setScreener x).damage = s.damage := rfl
@[simp] theorem setScreener_imager (x : Screener) : (s.setScreener x).imager = s.imager := rfl
@[simp] theorem setScreener_port (x : Screener) : (s.setScreener x).port = s.port := rfl
@[simp] theorem setScreener_frame (x : Screener) : (s.setScreener x).frame = s.frame := rfl

/-! ### setDamage -/

@[simp] theorem setDamage_pending (x : DamageUnit) : (s.setDamage x).pending = s.pending := rfl
@[simp] theorem setDamage_clock (x : DamageUnit) : (s.setDamage x).clock = s.clock := rfl
@[simp] theorem setDamage_freeCount (x : DamageUnit) : (s.setDamage x).freeCount = s.freeCount := rfl
@[simp] theorem setDamage_station (x : DamageUnit) : (s.setDamage x).station = s.station := rfl
@[simp] theorem setDamage_settings (x : DamageUnit) : (s.setDamage x).settings = s.settings := rfl
@[simp] theorem setDamage_loader (x : DamageUnit) : (s.setDamage x).loader = s.loader := rfl
@[simp] theorem setDamage_link (x : DamageUnit) : (s.setDamage x).link = s.link := rfl
@[simp] theorem setDamage_roll (x : DamageUnit) : (s.setDamage x).roll = s.roll := rfl
@[simp] theorem setDamage_board (x : DamageUnit) : (s.setDamage x).board = s.board := rfl
@[simp] theorem setDamage_jobs (x : DamageUnit) : (s.setDamage x).jobs = s.jobs := rfl
@[simp] theorem setDamage_receiver (x : DamageUnit) : (s.setDamage x).receiver = s.receiver := rfl
@[simp] theorem setDamage_unpacker (x : DamageUnit) : (s.setDamage x).unpacker = s.unpacker := rfl
@[simp] theorem setDamage_ring (x : DamageUnit) : (s.setDamage x).ring = s.ring := rfl
@[simp] theorem setDamage_screener (x : DamageUnit) : (s.setDamage x).screener = s.screener := rfl
@[simp] theorem setDamage_damage (x : DamageUnit) : (s.setDamage x).damage = x := rfl
@[simp] theorem setDamage_imager (x : DamageUnit) : (s.setDamage x).imager = s.imager := rfl
@[simp] theorem setDamage_port (x : DamageUnit) : (s.setDamage x).port = s.port := rfl
@[simp] theorem setDamage_frame (x : DamageUnit) : (s.setDamage x).frame = s.frame := rfl

/-! ### setImager -/

@[simp] theorem setImager_pending (x : Imager) : (s.setImager x).pending = s.pending := rfl
@[simp] theorem setImager_clock (x : Imager) : (s.setImager x).clock = s.clock := rfl
@[simp] theorem setImager_freeCount (x : Imager) : (s.setImager x).freeCount = s.freeCount := rfl
@[simp] theorem setImager_station (x : Imager) : (s.setImager x).station = s.station := rfl
@[simp] theorem setImager_settings (x : Imager) : (s.setImager x).settings = s.settings := rfl
@[simp] theorem setImager_loader (x : Imager) : (s.setImager x).loader = s.loader := rfl
@[simp] theorem setImager_link (x : Imager) : (s.setImager x).link = s.link := rfl
@[simp] theorem setImager_roll (x : Imager) : (s.setImager x).roll = s.roll := rfl
@[simp] theorem setImager_board (x : Imager) : (s.setImager x).board = s.board := rfl
@[simp] theorem setImager_jobs (x : Imager) : (s.setImager x).jobs = s.jobs := rfl
@[simp] theorem setImager_receiver (x : Imager) : (s.setImager x).receiver = s.receiver := rfl
@[simp] theorem setImager_unpacker (x : Imager) : (s.setImager x).unpacker = s.unpacker := rfl
@[simp] theorem setImager_ring (x : Imager) : (s.setImager x).ring = s.ring := rfl
@[simp] theorem setImager_screener (x : Imager) : (s.setImager x).screener = s.screener := rfl
@[simp] theorem setImager_damage (x : Imager) : (s.setImager x).damage = s.damage := rfl
@[simp] theorem setImager_imager (x : Imager) : (s.setImager x).imager = x := rfl
@[simp] theorem setImager_port (x : Imager) : (s.setImager x).port = s.port := rfl
@[simp] theorem setImager_frame (x : Imager) : (s.setImager x).frame = s.frame := rfl

/-! ### setPort -/

@[simp] theorem setPort_pending (x : Port) : (s.setPort x).pending = s.pending := rfl
@[simp] theorem setPort_clock (x : Port) : (s.setPort x).clock = s.clock := rfl
@[simp] theorem setPort_freeCount (x : Port) : (s.setPort x).freeCount = s.freeCount := rfl
@[simp] theorem setPort_station (x : Port) : (s.setPort x).station = s.station := rfl
@[simp] theorem setPort_settings (x : Port) : (s.setPort x).settings = s.settings := rfl
@[simp] theorem setPort_loader (x : Port) : (s.setPort x).loader = s.loader := rfl
@[simp] theorem setPort_link (x : Port) : (s.setPort x).link = s.link := rfl
@[simp] theorem setPort_roll (x : Port) : (s.setPort x).roll = s.roll := rfl
@[simp] theorem setPort_board (x : Port) : (s.setPort x).board = s.board := rfl
@[simp] theorem setPort_jobs (x : Port) : (s.setPort x).jobs = s.jobs := rfl
@[simp] theorem setPort_receiver (x : Port) : (s.setPort x).receiver = s.receiver := rfl
@[simp] theorem setPort_unpacker (x : Port) : (s.setPort x).unpacker = s.unpacker := rfl
@[simp] theorem setPort_ring (x : Port) : (s.setPort x).ring = s.ring := rfl
@[simp] theorem setPort_screener (x : Port) : (s.setPort x).screener = s.screener := rfl
@[simp] theorem setPort_damage (x : Port) : (s.setPort x).damage = s.damage := rfl
@[simp] theorem setPort_imager (x : Port) : (s.setPort x).imager = s.imager := rfl
@[simp] theorem setPort_port (x : Port) : (s.setPort x).port = x := rfl
@[simp] theorem setPort_frame (x : Port) : (s.setPort x).frame = s.frame := rfl

/-! ### setFrame -/

@[simp] theorem setFrame_pending (x : FrameMemory) : (s.setFrame x).pending = s.pending := rfl
@[simp] theorem setFrame_clock (x : FrameMemory) : (s.setFrame x).clock = s.clock := rfl
@[simp] theorem setFrame_freeCount (x : FrameMemory) : (s.setFrame x).freeCount = s.freeCount := rfl
@[simp] theorem setFrame_station (x : FrameMemory) : (s.setFrame x).station = s.station := rfl
@[simp] theorem setFrame_settings (x : FrameMemory) : (s.setFrame x).settings = s.settings := rfl
@[simp] theorem setFrame_loader (x : FrameMemory) : (s.setFrame x).loader = s.loader := rfl
@[simp] theorem setFrame_link (x : FrameMemory) : (s.setFrame x).link = s.link := rfl
@[simp] theorem setFrame_roll (x : FrameMemory) : (s.setFrame x).roll = s.roll := rfl
@[simp] theorem setFrame_board (x : FrameMemory) : (s.setFrame x).board = s.board := rfl
@[simp] theorem setFrame_jobs (x : FrameMemory) : (s.setFrame x).jobs = s.jobs := rfl
@[simp] theorem setFrame_receiver (x : FrameMemory) : (s.setFrame x).receiver = s.receiver := rfl
@[simp] theorem setFrame_unpacker (x : FrameMemory) : (s.setFrame x).unpacker = s.unpacker := rfl
@[simp] theorem setFrame_ring (x : FrameMemory) : (s.setFrame x).ring = s.ring := rfl
@[simp] theorem setFrame_screener (x : FrameMemory) : (s.setFrame x).screener = s.screener := rfl
@[simp] theorem setFrame_damage (x : FrameMemory) : (s.setFrame x).damage = s.damage := rfl
@[simp] theorem setFrame_imager (x : FrameMemory) : (s.setFrame x).imager = s.imager := rfl
@[simp] theorem setFrame_port (x : FrameMemory) : (s.setFrame x).port = s.port := rfl
@[simp] theorem setFrame_frame (x : FrameMemory) : (s.setFrame x).frame = x := rfl

end Sys2Proof.Machine.State
end

