-- ==== Sys2Proof/Laws/Derived.lean ====
section
/-! SUPPORT. What the derived readings of the state depend on: two states that agree on a reading's fields agree on
the reading. -/

namespace Sys2Proof.Machine

theorem State.job_congr {s t : State} (h : t.jobs = s.jobs) (n : Slot) : t.job n = s.job n := by
  simp [State.job, h]

theorem State.jobFor_congr {s t : State} (h : t.jobs = s.jobs) (key : PlateKey) (version : Nat) :
    t.jobFor key version = s.jobFor key version := by
  simp [State.jobFor, State.job, h]

theorem State.slotFree_congr {s t : State} (h : t.jobs = s.jobs) (k : t.link.slots = s.link.slots) :
    t.slotFree = s.slotFree := by
  funext n
  simp [State.slotFree, State.job, h, k]

theorem State.freeSlots_congr {s t : State} (h : t.jobs = s.jobs) (k : t.link.slots = s.link.slots) :
    t.freeSlots = s.freeSlots := by
  rw [State.freeSlots, State.freeSlots, State.slotFree_congr h k]

theorem State.reserved_congr {s t : State} (h : t.jobs = s.jobs) : t.reserved = s.reserved := by
  simp [State.reserved, State.job, h]

theorem State.unreserved_congr {s t : State} (h : t.jobs = s.jobs) : t.unreserved = s.unreserved := by
  rw [State.unreserved, State.unreserved, State.reserved_congr h]

theorem State.bid_congr {s t : State} (h : t.jobs = s.jobs) (k : t.link.slots = s.link.slots) : t.bid = s.bid := by
  rw [State.bid, State.bid, State.freeSlots_congr h k, State.unreserved_congr h]

theorem State.now_congr {s t : State} (h : t.clock = s.clock) : t.now = s.now := by
  rw [State.now, State.now, h]

theorem State.running_congr {s t : State} (h : t.station = s.station) : t.running = s.running := by
  rw [State.running, State.running, h]

theorem State.anyJob_congr {s t : State} (h : t.jobs = s.jobs) : t.anyJob = s.anyJob := by
  simp [State.anyJob, State.job, h]

theorem State.peer_congr {s t : State} (h : t.roll = s.roll) (n : Station) : t.peer n = s.peer n := by
  simp [State.peer, h]

/-- The job of the slot written. -/
@[simp] theorem State.job_setJob_same (s : State) (n : Slot) (j : Option Job) : (s.setJob n j).job n = j := by
  simp [State.setJob, State.job]

/-- The job of another slot. -/
theorem State.job_setJob_other (s : State) (n m : Slot) (j : Option Job) (h : m ≠ n) :
    (s.setJob n j).job m = s.job m := by
  have : (n : Nat) ≠ (m : Nat) := fun e => h (Fin.ext e.symm)
  simp [State.setJob, State.job, this]

/-- The job of the slot changed. -/
@[simp] theorem State.job_modifyJob_same (s : State) (n : Slot) (f : Job → Job) :
    (s.modifyJob n f).job n = (s.job n).map f := by
  simp [State.modifyJob]

/-- The job of another slot. -/
theorem State.job_modifyJob_other (s : State) (n m : Slot) (f : Job → Job) (h : m ≠ n) :
    (s.modifyJob n f).job m = s.job m := by
  rw [State.modifyJob, State.job_setJob_other _ _ _ _ h]

/-- A board with stamps left gives one out as it stands. -/
theorem Board.withStamp_of_lt (b : Board) (h : b.stamp < 4294967295) : b.withStamp = b := if_pos h

/-- A queue with ages left gives one out as it stands. -/
theorem Link.withAge_of_lt (l : Link) (h : l.ageCounter < 4294967295) : l.withAge = l := if_pos h

/-- A job table with ready orders left gives one out as it stands. -/
theorem JobTable.withOrder_of_lt (t : JobTable) (h : t.readyCounter < 4294967295) : t.withOrder = t := if_pos h

/-- A board entry written while stamps are left. -/
theorem Board.write_of_lt (b : Board) (i : Nat) (e : BoardEntry) (h : b.stamp < 4294967295) :
    b.write i e = { b with entries := b.entries.set i { e with stamp := b.stamp }, stamp := b.stamp + 1 } := by
  simp only [Board.write, Board.withStamp_of_lt b h]

/-- A message put in a place while ages are left. -/
theorem Link.put_of_lt (l : Link) (p : Place) (m : Msg) (h : l.ageCounter < 4294967295) :
    l.put p m = { l.setPlace p (some { msg := m, age := l.ageCounter, inProgress := false, withdrawal := false,
                                       replacement := none }) with ageCounter := l.ageCounter + 1 } := by
  simp only [Link.put, Link.withAge_of_lt l h]

/-- A byte that holds its number. -/
theorem byteOf_toNat (n : Nat) (h : n < 256) : (byteOf n).toNat = n := by
  simp [byteOf, Nat.mod_eq_of_lt h]

/-- A record followed by its nibble check passes the nibble check. -/
@[simp] theorem checked_append (bs : List Byte) : checked (bs ++ [nibbleCheck bs]) = true := by
  simp [checked]

/-- Where a judged header passes, its fields are its judgement. -/
theorem headerFields_of_judgeHeader {bs : List Byte} {h : Header} (k : judgeHeader bs = some h) :
    headerFields bs = some h := by
  unfold judgeHeader at k
  split at k
  · exact k
  · contradiction

/-- The members of a list with a number put into it. -/
@[simp] theorem mem_insertSorted {l : List Nat} {n m : Nat} : m ∈ insertSorted l n ↔ m = n ∨ m ∈ l := by
  induction l with
  | nil => simp [insertSorted]
  | cons a l ih =>
    unfold insertSorted
    split
    · simp
    · split
      · rename_i e; subst e; simp
      · simp only [List.mem_cons, ih]
        exact or_left_comm

end Sys2Proof.Machine
end

