-- ==== Sys2Proof/Laws/Keeps.lean ====
section
/-! SUPPORT. What nearly every operation leaves alone: the queue of waiting commands, the settings, the loader and
frame memory. One lemma for each operation. -/

namespace Sys2Proof.Machine

/-- `t` has the waiting commands, the settings, the loader and the frame memory of `s`. -/
abbrev Keeps (s t : State) : Prop :=
  t.pending = s.pending ∧ t.settings = s.settings ∧ t.loader = s.loader ∧ t.frame = s.frame

theorem Keeps.refl (s : State) : Keeps s s := ⟨rfl, rfl, rfl, rfl⟩

theorem Keeps.trans {s t u : State} (h : Keeps s t) (k : Keeps t u) : Keeps s u :=
  ⟨k.1.trans h.1, k.2.1.trans h.2.1, k.2.2.1.trans h.2.2.1, k.2.2.2.trans h.2.2.2⟩

/-- A fold of steps that each keep them keeps them. -/
theorem Keeps.foldl {α : Type} {f : State → α → State} (hf : ∀ s x, Keeps s (f s x)) (s : State) (xs : List α) :
    Keeps s (xs.foldl f s) := by
  induction xs generalizing s with
  | nil => exact Keeps.refl s
  | cons x xs ih => exact (hf s x).trans (ih (f s x))

@[simp] theorem State.elapse_keeps (s : State) (n : Nat) : Keeps s (s.elapse n) := by simp [Keeps, State.elapse]

@[simp] theorem State.advanceTo_keeps (s : State) (deadline : Nat) : Keeps s (s.advanceTo deadline) := by
  unfold State.advanceTo
  split
  · exact s.elapse_keeps _
  · exact Keeps.refl s

/-- A deadline that the timebase has reached moves nothing. -/
theorem State.advanceTo_reached (s : State) (deadline : Nat) (h : deadline ≤ s.now) : s.advanceTo deadline = s := by
  unfold State.advanceTo
  rw [if_neg]
  have := (Nat.le_div_iff_mul_le (by decide : 0 < Config.clocksPerMs)).mp h
  omega

/-- After an expiry the timebase stands at the deadline, or where it stood if it was past it. -/
theorem State.advanceTo_now (s : State) (deadline : Nat) : (s.advanceTo deadline).now = max s.now deadline := by
  by_cases h : deadline ≤ s.now
  · rw [State.advanceTo_reached s deadline h]; omega
  · have hk : 0 < Config.clocksPerMs := by decide
    have h2 : s.clock < deadline * Config.clocksPerMs := by
      have h3 : ¬ deadline ≤ s.clock / Config.clocksPerMs := h
      rw [Nat.le_div_iff_mul_le hk] at h3
      omega
    have h4 : s.clock + (deadline * Config.clocksPerMs - s.clock) = deadline * Config.clocksPerMs := by omega
    rw [State.advanceTo, if_pos h2]
    show (s.clock + (deadline * Config.clocksPerMs - s.clock)) / Config.clocksPerMs = _
    rw [h4, Nat.mul_div_cancel _ hk]
    omega

@[simp] theorem State.enter_keeps (s : State) (x : StationState) : Keeps s (s.enter x) := 
  by simp [Keeps, State.enter]

@[simp] theorem State.latch_keeps (s : State) (c : Cause) : Keeps s (s.latch c) := by simp [Keeps, State.latch]

@[simp] theorem State.raiseBy_keeps (s : State) (c : Count) (k : Nat) : Keeps s (s.raiseBy c k) := 
  by simp [Keeps, State.raiseBy]

@[simp] theorem State.raise_keeps (s : State) (c : Count) : Keeps s (s.raise c) := by simp [Keeps, State.raise]

@[simp] theorem State.setJob_keeps (s : State) (n : Slot) (j : Option Job) : Keeps s (s.setJob n j) := 
  by simp [Keeps, State.setJob]

@[simp] theorem State.modifyJob_keeps (s : State) (n : Slot) (f : Job → Job) : Keeps s (s.modifyJob n f) := 
  by simp [Keeps, State.modifyJob]

@[simp] theorem State.returnBuffer_keeps (s : State) (b : Option Nat) : Keeps s (s.returnBuffer b) := 
  by simp [Keeps, State.returnBuffer]

@[simp] theorem State.returnScreened_keeps (s : State) (b : Nat) : Keeps s (s.returnScreened b) := 
  by simp [Keeps, State.returnScreened]

@[simp] theorem State.markDamage_keeps (s : State) (n : Slot) (band : Nat) (kind : DamageKind) (part : Option Nat) (capture : Option (List Byte)) :
    Keeps s (s.markDamage n band kind part capture) := by
  simp [Keeps, State.markDamage]

@[simp] theorem State.reportUnattributed_keeps (s : State) (raw : List Byte) :
    Keeps s (s.reportUnattributed raw) := by simp [Keeps, State.reportUnattributed]

@[simp] theorem State.reportLate_keeps (s : State) : Keeps s (s.reportLate) := by simp [Keeps, State.reportLate]

@[simp] theorem State.reportStale_keeps (s : State) : Keeps s (s.reportStale) := by simp [Keeps, State.reportStale]

@[simp] theorem State.reportDuplicate_keeps (s : State) : Keeps s (s.reportDuplicate) := 
  by simp [Keeps, State.reportDuplicate]

@[simp] theorem State.addDamageTotal_keeps (s : State) (n : Nat) : Keeps s (s.addDamageTotal n) := 
  by simp [Keeps, State.addDamageTotal]

@[simp] theorem State.issueEject_keeps (s : State) (d : Disposition) : Keeps s (s.issueEject d) := 
  by simp [Keeps, State.issueEject]

@[simp] theorem State.recordFault_keeps (s : State) (f : ImagerFault) : Keeps s (s.recordFault f) := 
  by simp [Keeps, State.recordFault]

@[simp] theorem State.scrapForFault_keeps (s : State) (f : ImagerFault) : Keeps s (s.scrapForFault f) := 
  by simp [Keeps, State.scrapForFault]

@[simp] theorem State.imagerCancel_keeps (s : State) (r : CancelReason) : Keeps s (s.imagerCancel r) := by
  unfold State.imagerCancel
  dsimp only
  (repeat' split) <;> simp [Keeps]

@[simp] theorem State.takePlate_keeps (s : State) (n : Slot) (j : Job) : Keeps s (s.takePlate n j) := 
  by simp [Keeps, State.takePlate]

@[simp] theorem State.arbitrate_keeps (s : State) : Keeps s (s.arbitrate) := by
  unfold State.arbitrate
  (repeat' split) <;> simp [Keeps]

@[simp] theorem State.finishHead_keeps (s : State) : Keeps s (s.finishHead) := by simp [Keeps, State.finishHead]

@[simp] theorem State.dropStale_keeps (s : State) : Keeps s (s.dropStale) := by simp [Keeps, State.dropStale]

@[simp] theorem State.stopUnpacking_keeps (s : State) (n : Slot) : Keeps s (s.stopUnpacking n) := by
  unfold State.stopUnpacking
  (repeat' split) <;> simp [Keeps]

@[simp] theorem State.removeEndMarker_keeps (s : State) (n : Slot) : Keeps s (s.removeEndMarker n) := 
  by simp [Keeps, State.removeEndMarker]

@[simp] theorem State.abandonWork_keeps (s : State) (n : Slot) : Keeps s (s.abandonWork n) := 
  by simp [Keeps, State.abandonWork]

@[simp] theorem State.queueLeave_keeps (s : State) : Keeps s (s.queueLeave) := by simp [Keeps, State.queueLeave]

@[simp] theorem State.tableEmptied_keeps (s : State) : Keeps s (s.tableEmptied) := by
  unfold State.tableEmptied
  (repeat' split) <;> simp [Keeps]

@[simp] theorem State.freeJob_keeps (s : State) (n : Slot) : Keeps s (s.freeJob n) := by
  unfold State.freeJob
  split
  · exact Keeps.refl s
  · rename_i j _
    have h := Keeps.foldl (f := State.returnScreened) (by simp [Keeps]) (s.abandonWork n) j.screenedBuffers
    exact (s.abandonWork_keeps n).trans (h.trans ((State.setJob_keeps _ n none).trans (State.tableEmptied_keeps _)))

@[simp] theorem State.endJob_keeps (s : State) (n : Slot) (outcome : DoneOutcome) :
    Keeps s (s.endJob n outcome) := by
  unfold State.endJob
  (repeat' split) <;> simp [Keeps]

@[simp] theorem State.enterReady_keeps (s : State) (n : Slot) : Keeps s (s.enterReady n) := 
  by simp [Keeps, State.enterReady]

@[simp] theorem State.assessJob_keeps (s : State) (n : Slot) : Keeps s (s.assessJob n) := by
  unfold State.assessJob
  dsimp only
  (repeat' split) <;> simp [Keeps]

@[simp] theorem State.assessIfComplete_keeps (s : State) (n : Slot) : Keeps s (s.assessIfComplete n) := by
  unfold State.assessIfComplete
  (repeat' split) <;> simp [Keeps]

@[simp] theorem State.enterCancelling_keeps (s : State) (n : Slot) (r : CancelReason) :
    Keeps s (s.enterCancelling n r) := by
  unfold State.enterCancelling
  dsimp only
  (repeat' split) <;> simp [Keeps]

@[simp] theorem State.cancelOwned_keeps (s : State) (n : Slot) (r : CancelReason) : Keeps s (s.cancelOwned n r) := by
  unfold State.cancelOwned
  (repeat' split) <;> simp [Keeps]

@[simp] theorem State.withdrawClaim_keeps (s : State) (n : Slot) : Keeps s (s.withdrawClaim n) := 
  by simp [Keeps, State.withdrawClaim]

@[simp] theorem State.loseClaim_keeps (s : State) (n : Slot) : Keeps s (s.loseClaim n) := 
  by simp [Keeps, State.loseClaim]

@[simp] theorem State.supersedeJob_keeps (s : State) (n : Slot) : Keeps s (s.supersedeJob n) := by
  unfold State.supersedeJob
  (repeat' split) <;> simp [Keeps]

@[simp] theorem State.dropJob_keeps (s : State) (n : Slot) : Keeps s (s.dropJob n) := by
  unfold State.dropJob
  (repeat' split) <;> simp [Keeps]

@[simp] theorem State.createJob_keeps (s : State) (n : Slot) (key : PlateKey) (version sizeClass screeningClass rank : Nat) :
    Keeps s (s.createJob n key version sizeClass screeningClass rank) := by simp [Keeps, State.createJob]

@[simp] theorem State.noticeSuperseded_keeps (s : State) (key : PlateKey) (version : Nat) :
    Keeps s (s.noticeSuperseded key version) := by
  refine Keeps.foldl (fun s n => ?_) s allSlots
  split <;> simp [Keeps]

@[simp] theorem State.noticeContested_keeps (s : State) (key : PlateKey) (version sizeClass screeningClass rank : Nat) :
    Keeps s (s.noticeContested key version sizeClass screeningClass rank) := by
  unfold State.noticeContested
  (repeat' split) <;> simp [Keeps]

@[simp] theorem State.loseContending_keeps (s : State) (key : PlateKey) (version : Nat) :
    Keeps s (s.loseContending key version) := by
  unfold State.loseContending
  (repeat' split) <;> simp [Keeps]

@[simp] theorem State.noticeOwned_keeps (s : State) (key : PlateKey) (version : Nat) (owner : Station) :
    Keeps s (s.noticeOwned key version owner) := by
  unfold State.noticeOwned
  (repeat' split) <;> simp [Keeps]

@[simp] theorem State.noticeDone_keeps (s : State) (key : PlateKey) (version : Nat) :
    Keeps s (s.noticeDone key version) := by simp [Keeps, State.noticeDone]

@[simp] theorem State.noticeUntaken_keeps (s : State) (key : PlateKey) (version : Nat) :
    Keeps s (s.noticeUntaken key version) := by
  unfold State.noticeUntaken
  (repeat' split) <;> simp [Keeps]

@[simp] theorem State.claimStarted_keeps (s : State) (n : Slot) : Keeps s (s.claimStarted n) := 
  by simp [Keeps, State.claimStarted]

@[simp] theorem State.claimReturned_keeps (s : State) (n : Slot) : Keeps s (s.claimReturned n) := 
  by simp [Keeps, State.claimReturned]

@[simp] theorem State.claimWithdrawn_keeps (s : State) (n : Slot) : Keeps s (s.claimWithdrawn n) := by
  unfold State.claimWithdrawn
  dsimp only
  (repeat' split) <;> simp [Keeps]

@[simp] theorem State.claimResult_keeps (s : State) (n : Slot) (key : PlateKey) (version : Nat) (r : ClaimResult) :
    Keeps s (s.claimResult n key version r) := by
  unfold State.claimResult
  dsimp only
  (repeat' split) <;> simp [Keeps]

@[simp] theorem State.imagerEnding_keeps (s : State) (n : Slot) (e : Ending) : Keeps s (s.imagerEnding n e) := by
  unfold State.imagerEnding
  (repeat' split) <;> simp [Keeps]

@[simp] theorem State.boardHasNoRoom_keeps (s : State) : Keeps s (s.boardHasNoRoom) := 
  by simp [Keeps, State.boardHasNoRoom]

@[simp] theorem State.boardAnomaly_keeps (s : State) : Keeps s (s.boardAnomaly) := 
  by simp [Keeps, State.boardAnomaly]

@[simp] theorem State.takeHeader_keeps (s : State) (key : PlateKey) (version sizeClass screeningClass rank : Nat) :
    Keeps s (s.takeHeader key version sizeClass screeningClass rank) := by
  unfold State.takeHeader
  dsimp only
  (repeat' split) <;> simp [Keeps]

@[simp] theorem State.windowExpires_keeps (s : State) (i : Nat) : Keeps s (s.windowExpires i) := by
  unfold State.windowExpires
  dsimp only
  (repeat' split) <;> simp [Keeps]

@[simp] theorem State.reportClaim_keeps (s : State) (own : Option Slot) (key : PlateKey) (version : Nat) (r : ClaimResult) :
    Keeps s (s.reportClaim own key version r) := by
  unfold State.reportClaim
  (repeat' split) <;> simp [Keeps]

@[simp] theorem State.takeClaim_keeps (s : State) (sender : Station) (key : PlateKey) (version : Nat) (own : Option Slot) :
    Keeps s (s.takeClaim sender key version own) := by
  unfold State.takeClaim
  dsimp only
  (repeat' split) <;> simp [Keeps]

@[simp] theorem State.boardDone_keeps (s : State) (b : Board) (key : PlateKey) (version : Nat) :
    Keeps s (s.boardDone b key version) := by simp [Keeps, State.boardDone]

@[simp] theorem State.takeDone_keeps (s : State) (sender : Station) (key : PlateKey) (version : Nat) (outcome : DoneOutcome) (damaged : Nat) (first : Option DamageKind) :
    Keeps s (s.takeDone sender key version outcome damaged first) := by
  unfold State.takeDone
  dsimp only
  (repeat' split) <;> simp [Keeps]

@[simp] theorem State.orphan_keeps (s : State) (peer : Station) : Keeps s (s.orphan peer) := by
  unfold State.orphan
  dsimp only
  (repeat' split) <;> simp [Keeps]

@[simp] theorem State.disposeOfPlate_keeps (s : State) (c : Clearing) : Keeps s (s.disposeOfPlate c) := by
  unfold State.disposeOfPlate
  dsimp only
  (repeat' split) <;> simp [Keeps]

@[simp] theorem State.clearBlocks_keeps (s : State) (c : Clearing) : Keeps s (s.clearBlocks c) := 
  by simp [Keeps, State.clearBlocks]

@[simp] theorem State.stopBlocks_keeps (s : State) : Keeps s (s.stopBlocks) := by simp [Keeps, State.stopBlocks]

@[simp] theorem State.clearForHalt_keeps (s : State) : Keeps s (s.clearForHalt) := 
  by simp [Keeps, State.clearForHalt]

@[simp] theorem State.restartIsolation_keeps (s : State) : Keeps s (s.restartIsolation) := 
  by simp [Keeps, State.restartIsolation]

@[simp] theorem State.enterJoining_keeps (s : State) : Keeps s (s.enterJoining) := 
  by simp [Keeps, State.enterJoining]

@[simp] theorem State.startJoining_keeps (s : State) : Keeps s (s.startJoining) := by
  unfold State.startJoining
  dsimp only
  (repeat' split) <;> simp [Keeps]

@[simp] theorem State.rejoin_keeps (s : State) : Keeps s (s.rejoin) := by
  unfold State.rejoin
  (repeat' split) <;> simp [Keeps]

@[simp] theorem State.halt_keeps (s : State) : Keeps s (s.halt) := by simp [Keeps, State.halt]

@[simp] theorem State.bar_keeps (s : State) (r : BarredReason) : Keeps s (s.bar r) := by simp [Keeps, State.bar]

@[simp] theorem State.detach_keeps (s : State) : Keeps s (s.detach) := by simp [Keeps, State.detach]

@[simp] theorem State.judgeMediaOut_keeps (s : State) : Keeps s (s.judgeMediaOut) := by
  unfold State.judgeMediaOut
  (repeat' split) <;> simp [Keeps]

@[simp] theorem State.countCorrected_keeps (s : State) (n : Nat) : Keeps s (s.countCorrected n) := 
  by simp [Keeps, State.countCorrected]

@[simp] theorem State.uncorrectable_keeps (s : State) (r : Region) : Keeps s (s.uncorrectable r) := by
  unfold State.uncorrectable
  dsimp only
  (repeat' split) <;> simp [Keeps]

@[simp] theorem State.drain_keeps (s : State) : Keeps s (s.drain) := by simp [Keeps, State.drain]

@[simp] theorem State.resumeDraining_keeps (s : State) : Keeps s (s.resumeDraining) := by
  unfold State.resumeDraining
  (repeat' split) <;> simp [Keeps]

@[simp] theorem State.queueRoll_keeps (s : State) : Keeps s (s.queueRoll) := by simp [Keeps, State.queueRoll]

@[simp] theorem State.startJoinPeriod_keeps (s : State) : Keeps s (s.startJoinPeriod) := 
  by simp [Keeps, State.startJoinPeriod]

@[simp] theorem State.ownSent_keeps (s : State) (m : Msg) : Keeps s (s.ownSent m) := by
  unfold State.ownSent
  dsimp only
  (repeat' split) <;> simp [Keeps]

@[simp] theorem State.setPeer_keeps (s : State) (n : Station) (p : Peer) : Keeps s (s.setPeer n p) := 
  by simp [Keeps, State.setPeer]

@[simp] theorem State.heardFrom_keeps (s : State) (n : Station) : Keeps s (s.heardFrom n) := by
  unfold State.heardFrom
  (repeat' split) <;> simp [Keeps]

@[simp] theorem State.judgeDigest_keeps (s : State) (n : Station) (d : Half) : Keeps s (s.judgeDigest n d) := by
  unfold State.judgeDigest
  dsimp only
  (repeat' split) <;> simp [Keeps]

@[simp] theorem State.takeJoin_keeps (s : State) (n : Station) (digest : Half) : Keeps s (s.takeJoin n digest) := by
  unfold State.takeJoin
  dsimp only
  (repeat' split) <;> simp [Keeps]

@[simp] theorem State.takeLeave_keeps (s : State) (n : Station) : Keeps s (s.takeLeave n) := 
  by simp [Keeps, State.takeLeave]

@[simp] theorem State.takeItem_keeps (s : State) (n : Station) (slot : Nat) (item : Half) :
    Keeps s (s.takeItem n slot item) := by
  unfold State.takeItem
  dsimp only
  (repeat' split) <;> simp [Keeps]

@[simp] theorem State.takeRoll_keeps (s : State) (n : Station) (counter slot : Nat) (item : Half) :
    Keeps s (s.takeRoll n counter slot item) := by simp [Keeps, State.takeRoll]

@[simp] theorem State.takePeerMessage_keeps (s : State) (n : Station) (m : Msg) :
    Keeps s (s.takePeerMessage n m) := by
  unfold State.takePeerMessage
  (repeat' split) <;> simp [Keeps]

@[simp] theorem State.loseContact_keeps (s : State) (n : Station) : Keeps s (s.loseContact n) := 
  by simp [Keeps, State.loseContact]

@[simp] theorem State.setPhase_keeps (s : State) (ph : LinkPhase) : Keeps s (s.setPhase ph) := 
  by simp [Keeps, State.setPhase]

@[simp] theorem State.leaveWithdrawn_keeps (s : State) : Keeps s (s.leaveWithdrawn) := by
  unfold State.leaveWithdrawn
  (repeat' split) <;> simp [Keeps]

@[simp] theorem State.claimUnsent_keeps (s : State) (n : Slot) (r : Unsent) : Keeps s (s.claimUnsent n r) := by
  unfold State.claimUnsent
  (repeat' split) <;> simp [Keeps]

@[simp] theorem State.reportUnsent_keeps (s : State) (p : Place) : Keeps s (s.reportUnsent p) := by
  unfold State.reportUnsent
  dsimp only
  (repeat' split) <;> simp [Keeps]

@[simp] theorem State.reportContender_keeps (s : State) (c : Option Place) : Keeps s (s.reportContender c) := by
  unfold State.reportContender
  (repeat' split) <;> simp [Keeps]

@[simp] theorem State.startCandidate_keeps (s : State) (p : Place) : Keeps s (s.startCandidate p) := by
  unfold State.startCandidate
  dsimp only
  (repeat' split) <;> simp [Keeps]

@[simp] theorem State.startOpening_keeps (s : State) : Keeps s (s.startOpening) := by
  unfold State.startOpening
  (repeat' split) <;> simp [Keeps]

@[simp] theorem State.breakOpening_keeps (s : State) (c : Option Place) : Keeps s (s.breakOpening c) := 
  by simp [Keeps, State.breakOpening]

@[simp] theorem State.endRound_keeps (s : State) (c : Option Place) (won : List Nat) (low : Nat) :
    Keeps s (s.endRound c won low) := by
  unfold State.endRound
  (repeat' split) <;> simp [Keeps]

@[simp] theorem State.endBody_keeps (s : State) (role : LinkRole) (key : WinningKey) (framed : Bool) (bytes : List Byte) :
    Keeps s (s.endBody role key framed bytes) := by
  unfold State.endBody
  dsimp only
  (repeat' split) <;> simp [Keeps]

@[simp] theorem State.countSpoiled_keeps (s : State) (held : Bool) : Keeps s (s.countSpoiled held) := by
  unfold State.countSpoiled
  dsimp only
  (repeat' split) <;> simp [Keeps]

@[simp] theorem State.endSpoiled_keeps (s : State) (role : LinkRole) (held : Bool) :
    Keeps s (s.endSpoiled role held) := by
  unfold State.endSpoiled
  dsimp only
  (repeat' split) <;> simp [Keeps]

@[simp] theorem State.handOverOwn_keeps (s : State) (p : Place) (m : Msg) : Keeps s (s.handOverOwn p m) := by
  unfold State.handOverOwn
  dsimp only
  (repeat' split) <;> simp [Keeps]

@[simp] theorem State.acceptOwn_keeps (s : State) (p : Place) : Keeps s (s.acceptOwn p) := by
  unfold State.acceptOwn
  dsimp only
  (repeat' split) <;> simp [Keeps]

@[simp] theorem State.acceptOther_keeps (s : State) (heard : Option (Station × Msg)) :
    Keeps s (s.acceptOther heard) := by
  unfold State.acceptOther
  dsimp only
  (repeat' split) <;> simp [Keeps]

@[simp] theorem State.endWindow_keeps (s : State) (role : LinkRole) (hold : Bool) (heard : Option (Station × Msg)) (low : Bool) :
    Keeps s (s.endWindow role hold heard low) := by
  unfold State.endWindow
  (repeat' split) <;> simp [Keeps]

@[simp] theorem State.setFraming_keeps (s : State) (f : Framing) : Keeps s (s.setFraming f) := 
  by simp [Keeps, State.setFraming]

@[simp] theorem State.append_keeps (s : State) (r : HoldingRecord) : Keeps s (s.append r) := 
  by simp [Keeps, State.append]

@[simp] theorem State.headerFails_keeps (s : State) (got : List Byte) : Keeps s (s.headerFails got) := 
  by simp [Keeps, State.headerFails]

@[simp] theorem State.dropMarked_keeps (s : State) (n : Slot) (a : Arrived) (kind : DamageKind) :
    Keeps s (s.dropMarked n a kind) := by simp [Keeps, State.dropMarked]

@[simp] theorem State.noteOverflow_keeps (s : State) : Keeps s (s.noteOverflow) := 
  by simp [Keeps, State.noteOverflow]

@[simp] theorem State.restartQuiet_keeps (s : State) (n : Slot) : Keeps s (s.restartQuiet n) := 
  by simp [Keeps, State.restartQuiet]

@[simp] theorem State.admitFragment_keeps (s : State) (n : Slot) (j : Job) (a : Arrived) : Keeps s (s.admitFragment n j a) := 
  by simp [Keeps, State.admitFragment]

@[simp] theorem State.moveCursor_keeps (s : State) (n : Slot) (a : Arrived) : Keeps s (s.moveCursor n a) := 
  by simp [Keeps, State.moveCursor]

@[simp] theorem State.checkFragment_keeps (s : State) (n : Slot) (j : Job) (a : Arrived) :
    Keeps s (s.checkFragment n j a) := by
  unfold State.checkFragment
  dsimp only
  (repeat' split) <;> simp [Keeps]

@[simp] theorem State.judgeArrived_keeps (s : State) (n : Slot) (j : Job) (a : Arrived) :
    Keeps s (s.judgeArrived n j a) := by
  unfold State.judgeArrived
  (repeat' split) <;> simp [Keeps]

@[simp] theorem State.takeArrived_keeps (s : State) (key : PlateKey) (version : Nat) (a : Arrived) :
    Keeps s (s.takeArrived key version a) := by
  unfold State.takeArrived
  (repeat' split) <;> simp [Keeps]

@[simp] theorem State.completeFragment_keeps (s : State) (header got : List Byte) (cut : Bool) :
    Keeps s (s.completeFragment header got cut) := by
  unfold State.completeFragment
  dsimp only
  (repeat' split) <;> simp [Keeps]

@[simp] theorem State.admitEnd_keeps (s : State) (n : Slot) (j : Job) (origin : EndOrigin) :
    Keeps s (s.admitEnd n j origin) := by simp [Keeps, State.admitEnd]

@[simp] theorem State.takePlateEnd_keeps (s : State) (key : PlateKey) (version : Nat) :
    Keeps s (s.takePlateEnd key version) := by
  unfold State.takePlateEnd
  (repeat' split) <;> simp [Keeps]

@[simp] theorem State.wholeHeader_keeps (s : State) (got : List Byte) : Keeps s (s.wholeHeader got) := by
  unfold State.wholeHeader
  (repeat' split) <;> simp [Keeps]

@[simp] theorem State.takeHeaderBytes_keeps (s : State) (got : List Byte) : Keeps s (s.takeHeaderBytes got) := by
  unfold State.takeHeaderBytes
  (repeat' split) <;> simp [Keeps]

@[simp] theorem State.takePayloadBytes_keeps (s : State) (header got : List Byte) :
    Keeps s (s.takePayloadBytes header got) := by
  unfold State.takePayloadBytes
  (repeat' split) <;> simp [Keeps]

@[simp] theorem State.feedByte_keeps (s : State) (b : Byte) : Keeps s (s.feedByte b) := by
  unfold State.feedByte
  (repeat' split) <;> simp [Keeps]

@[simp] theorem State.feed_keeps (s : State) (bytes : List Byte) : Keeps s (s.feed bytes) := by
  unfold State.feed
  split
  · exact Keeps.foldl State.feedByte_keeps s bytes
  · exact Keeps.refl s

@[simp] theorem State.cutShort_keeps (s : State) : Keeps s (s.cutShort) := by
  unfold State.cutShort
  (repeat' split) <;> simp [Keeps]

@[simp] theorem State.setWork_keeps (s : State) (w : UnpackWork) : Keeps s (s.setWork w) := 
  by simp [Keeps, State.setWork]

@[simp] theorem State.placeDescriptor_keeps (s : State) (d : Descriptor) : Keeps s (s.placeDescriptor d) := 
  by simp [Keeps, State.placeDescriptor]

@[simp] theorem State.offerDescriptor_keeps (s : State) (d : Descriptor) (a : AfterRing) :
    Keeps s (s.offerDescriptor d a) := by
  unfold State.offerDescriptor
  (repeat' split) <;> simp [Keeps]

@[simp] theorem State.endBand_keeps (s : State) (n : Slot) (b : Nat) (a : AfterRing) :
    Keeps s (s.endBand n b a) := by
  unfold State.endBand
  dsimp only
  (repeat' split) <;> simp [Keeps]

@[simp] theorem State.reportGap_keeps (s : State) (n : Slot) (b : Nat) : Keeps s (s.reportGap n b) := by
  unfold State.reportGap
  (repeat' split) <;> simp [Keeps]

@[simp] theorem State.endAsGap_keeps (s : State) (n : Slot) (b : Nat) (k : Option DamageKind) : Keeps s (s.endAsGap n b k) := 
  by simp [Keeps, State.endAsGap]

@[simp] theorem State.endCurrentBelow_keeps (s : State) (n : Slot) (b : Nat) (k : Option DamageKind) : Keeps s (s.endCurrentBelow n b k) := by
  unfold State.endCurrentBelow
  (repeat' split) <;> simp [Keeps]

@[simp] theorem State.endIfAwaited_keeps (n : Slot) (k : Option DamageKind) (s : State) (a : Nat) :
    Keeps s (State.endIfAwaited n k s a) := by
  unfold State.endIfAwaited
  (repeat' split) <;> simp [Keeps]

@[simp] theorem State.orderBands_keeps (s : State) (n : Slot) (b : Nat) (k : Option DamageKind) : Keeps s (s.orderBands n b k) := 
  (s.endCurrentBelow_keeps n b k).trans (Keeps.foldl (fun s a => State.endIfAwaited_keeps n k s a) _ _)

@[simp] theorem State.discardHead_keeps (s : State) : Keeps s (s.discardHead) := by simp [Keeps, State.discardHead]

@[simp] theorem State.endAndDiscard_keeps (s : State) (n : Slot) (b : Nat) (k : Option DamageKind) : Keeps s (s.endAndDiscard n b k) := by
  unfold State.endAndDiscard
  dsimp only
  (repeat' split) <;> simp [Keeps]

@[simp] theorem State.beginBand_keeps (s : State) (n : Slot) (b : Nat) : Keeps s (s.beginBand n b) := by
  unfold State.beginBand
  (repeat' split) <;> simp [Keeps]

@[simp] theorem State.judgeBand_keeps (s : State) (n : Slot) (b part : Nat) (k : Option DamageKind) : Keeps s (s.judgeBand n b part k) := by
  unfold State.judgeBand
  (repeat' split) <;> simp [Keeps]

@[simp] theorem State.judgeFragment_keeps (s : State) (n : Slot) (b part : Nat) (k : Option DamageKind) :
    Keeps s (s.judgeFragment n b part k) := by
  unfold State.judgeFragment
  dsimp only
  (repeat' split) <;> simp [Keeps]

@[simp] theorem State.processEnd_keeps (s : State) (n : Slot) : Keeps s (s.processEnd n) := 
  by simp [Keeps, State.processEnd]

@[simp] theorem State.judgeEnd_keeps (s : State) (n : Slot) : Keeps s (s.judgeEnd n) := by
  unfold State.judgeEnd
  dsimp only
  (repeat' split) <;> simp [Keeps]

@[simp] theorem State.actOn_keeps (s : State) (r : HoldingRecord) (k : Option DamageKind) : Keeps s (s.actOn r k) := by
  unfold State.actOn
  (repeat' split) <;> simp [Keeps]

@[simp] theorem State.takeHead_keeps (s : State) : Keeps s (s.takeHead) := by
  unfold State.takeHead
  (repeat' split) <;> simp [Keeps]

@[simp] theorem State.endDecoding_keeps (s : State) (n : Slot) (b : Nat) : Keeps s (s.endDecoding n b) := by
  unfold State.endDecoding
  dsimp only
  (repeat' split) <;> simp [Keeps]

@[simp] theorem State.endPart_keeps (s : State) (n : Slot) (b part : Nat) (capture : List Byte) (e : PartEnd) :
    Keeps s (s.endPart n b part capture e) := by
  unfold State.endPart
  (repeat' split) <;> simp [Keeps]

@[simp] theorem State.resumeAfterRing_keeps (s : State) (d : Descriptor) (a : AfterRing) :
    Keeps s (s.resumeAfterRing d a) := by
  unfold State.resumeAfterRing
  dsimp only
  (repeat' split) <;> simp [Keeps]

@[simp] theorem State.takeEntry_keeps (s : State) (d : Descriptor) : Keeps s (s.takeEntry d) := by
  unfold State.takeEntry
  (repeat' split) <;> simp [Keeps]

@[simp] theorem State.recordScreened_keeps (s : State) (c : CurrentBand) : Keeps s (s.recordScreened c) := 
  by simp [Keeps, State.recordScreened]

@[simp] theorem State.finishBand_keeps (s : State) (c : CurrentBand) : Keeps s (s.finishBand c) := by
  unfold State.finishBand
  dsimp only
  (repeat' split) <;> simp [Keeps]

@[simp] theorem State.reportEnding_keeps (s : State) : Keeps s (s.reportEnding) := by
  unfold State.reportEnding
  (repeat' split) <;> simp [Keeps]

@[simp] theorem State.countEject_keeps (s : State) : Keeps s (s.countEject) := by
  unfold State.countEject
  (repeat' split) <;> simp [Keeps]

@[simp] theorem State.enterFault_keeps (s : State) : Keeps s (s.enterFault) := by simp [Keeps, State.enterFault]

@[simp] theorem State.enterIdle_keeps (s : State) : Keeps s (s.enterIdle) := by simp [Keeps, State.enterIdle]

@[simp] theorem State.endHold_keeps (s : State) (timeout : Bool) : Keeps s (s.endHold timeout) := by
  unfold State.endHold
  dsimp only
  (repeat' split) <;> simp [Keeps]

@[simp] theorem State.enterImaging_keeps (s : State) : Keeps s (s.enterImaging) := by
  unfold State.enterImaging
  dsimp only
  (repeat' split) <;> simp [Keeps]

@[simp] theorem State.plateLoaded_keeps (s : State) : Keeps s (s.plateLoaded) := by
  unfold State.plateLoaded
  (repeat' split) <;> simp [Keeps]

@[simp] theorem State.ignoreLine_keeps (s : State) : Keeps s (s.ignoreLine) := by
  unfold State.ignoreLine
  (repeat' split) <;> simp [Keeps]

@[simp] theorem State.outputSwath_keeps (s : State) : Keeps s (s.outputSwath) := by simp [Keeps, State.outputSwath]

@[simp] theorem State.judgeIndex_keeps (s : State) : Keeps s (s.judgeIndex) := by
  unfold State.judgeIndex
  (repeat' split) <;> simp [Keeps]

@[simp] theorem State.drumExpires_keeps (s : State) : Keeps s (s.drumExpires) := by simp [Keeps, State.drumExpires]

@[simp] theorem State.takeIndex_keeps (s : State) (ticks : Nat) : Keeps s (s.takeIndex ticks) := by
  unfold State.takeIndex
  dsimp only
  (repeat' split) <;> simp [Keeps]

@[simp] theorem State.completeSwath_keeps (s : State) : Keeps s (s.completeSwath) := by
  unfold State.completeSwath
  dsimp only
  (repeat' split) <;> simp [Keeps]

@[simp] theorem State.headLost_keeps (s : State) : Keeps s (s.headLost) := by
  unfold State.headLost
  (repeat' split) <;> simp [Keeps]

@[simp] theorem State.headBack_keeps (s : State) : Keeps s (s.headBack) := by
  unfold State.headBack
  (repeat' split) <;> simp [Keeps]

@[simp] theorem State.headChanges_keeps (s : State) (asserted : Bool) : Keeps s (s.headChanges asserted) := by
  unfold State.headChanges
  dsimp only
  (repeat' split) <;> simp [Keeps]

@[simp] theorem State.mediaChanges_keeps (s : State) (asserted : Bool) : Keeps s (s.mediaChanges asserted) := by
  unfold State.mediaChanges
  dsimp only
  (repeat' split) <;> simp [Keeps]

@[simp] theorem State.answer_keeps (s : State) (response : List Byte) : Keeps s (s.answer response) := 
  by simp [Keeps, State.answer]

@[simp] theorem State.refuse_keeps (s : State) : Keeps s (s.refuse) := by simp [Keeps, State.refuse]

theorem State.act_keeps {s effect : State} (taken : Bool) (h : Keeps s effect) : Keeps s (s.act taken effect) := by
  unfold State.act
  split
  · exact h.trans (State.answer_keeps effect [])
  · exact s.refuse_keeps

theorem State.onSlot_keeps (s : State) (b : Byte) (f : Slot → State) (h : ∀ n, Keeps s (f n)) :
    Keeps s (s.onSlot b f) := by
  unfold State.onSlot
  split
  · exact h _
  · exact s.refuse_keeps

@[simp] theorem State.runReadStatus_keeps (s : State) : Keeps s (s.runReadStatus) := 
  by simp [Keeps, State.runReadStatus]

@[simp] theorem State.runReadAttention_keeps (s : State) : Keeps s (s.runReadAttention) := 
  by simp [Keeps, State.runReadAttention]

@[simp] theorem State.runClearAttention_keeps (s : State) (data : List Byte) :
    Keeps s (s.runClearAttention data) := by simp [Keeps, State.runClearAttention]

@[simp] theorem State.runSetMask_keeps (s : State) (data : List Byte) : Keeps s (s.runSetMask data) := 
  by simp [Keeps, State.runSetMask]

@[simp] theorem State.runReadJob_keeps (s : State) (data : List Byte) : Keeps s (s.runReadJob data) :=
  s.onSlot_keeps _ _ fun _ => s.answer_keeps _

@[simp] theorem State.runReadBandMap_keeps (s : State) (data : List Byte) : Keeps s (s.runReadBandMap data) := by
  refine s.onSlot_keeps _ _ fun n => ?_
  split <;> simp [Keeps]

@[simp] theorem State.runReadDamage_keeps (s : State) (data : List Byte) : Keeps s (s.runReadDamage data) := by
  refine s.onSlot_keeps _ _ fun n => ?_
  split <;> simp [Keeps]

@[simp] theorem State.runReadBoard_keeps (s : State) (data : List Byte) : Keeps s (s.runReadBoard data) := by
  unfold State.runReadBoard
  dsimp only
  (repeat' split) <;> simp [Keeps]

@[simp] theorem State.runFindBoard_keeps (s : State) (data : List Byte) : Keeps s (s.runFindBoard data) := by
  unfold State.runFindBoard
  dsimp only
  (repeat' split) <;> simp [Keeps]

@[simp] theorem State.runReadPeer_keeps (s : State) (data : List Byte) : Keeps s (s.runReadPeer data) := by
  unfold State.runReadPeer
  (repeat' split) <;> simp [Keeps]

@[simp] theorem State.runReadCounters_keeps (s : State) (data : List Byte) : Keeps s (s.runReadCounters data) := by
  unfold State.runReadCounters
  (repeat' split) <;> simp [Keeps]

@[simp] theorem State.runClearCounters_keeps (s : State) : Keeps s (s.runClearCounters) := 
  by simp [Keeps, State.runClearCounters]

@[simp] theorem State.runReadLog_keeps (s : State) : Keeps s (s.runReadLog) := by simp [Keeps, State.runReadLog]

@[simp] theorem State.runClearLog_keeps (s : State) : Keeps s (s.runClearLog) := by simp [Keeps, State.runClearLog]

@[simp] theorem State.runReadSetting_keeps (s : State) (data : List Byte) : Keeps s (s.runReadSetting data) := 
  by simp [Keeps, State.runReadSetting]

@[simp] theorem State.runRelease_keeps (s : State) (data : List Byte) : Keeps s (s.runRelease data) := 
  s.onSlot_keeps _ _ fun n => State.act_keeps _ (by simp [Keeps])

@[simp] theorem State.runDrop_keeps (s : State) (data : List Byte) : Keeps s (s.runDrop data) := 
  s.onSlot_keeps _ _ fun n => State.act_keeps _ (by simp [Keeps])

@[simp] theorem State.runDrain_keeps (s : State) : Keeps s (s.runDrain) := State.act_keeps _ (s.drain_keeps)

@[simp] theorem State.runResume_keeps (s : State) : Keeps s (s.runResume) := by
  unfold State.runResume
  split <;> first | exact State.act_keeps _ (by simp [Keeps]) | simp [Keeps]

@[simp] theorem State.beginCommand_keeps (s : State) : Keeps s (s.beginCommand) := 
  by simp [Keeps, State.beginCommand]

@[simp] theorem State.clearInput_keeps (s : State) : Keeps s (s.clearInput) := by simp [Keeps, State.clearInput]

@[simp] theorem State.writeInput_keeps (s : State) (address : PortAddress) (byte : Byte) :
    Keeps s (s.writeInput address byte) := by
  unfold State.writeInput
  (repeat' split) <;> simp [Keeps]

@[simp] theorem State.readData_keeps (s : State) : Keeps s (s.readData) := by simp [Keeps, State.readData]

/-! ## The operations that do change one of the four -/

/-- RESET keeps the waiting commands and frame memory. -/
@[simp] theorem State.resetPart_keeps (s : State) :
    s.resetPart.pending = s.pending ∧ s.resetPart.frame = s.frame ∧ s.resetPart.loader = Loader.afterReset
      ∧ s.resetPart.settings = Settings.unset := ⟨rfl, rfl, rfl, rfl⟩

/-- The end of loading changes no more of the loader than its phase. -/
@[simp] theorem State.leaveLoading_keeps (s : State) (r : Option BarredReason) :
    (s.leaveLoading r).pending = s.pending ∧ (s.leaveLoading r).settings = s.settings
      ∧ (s.leaveLoading r).frame = s.frame ∧ (s.leaveLoading r).loader.image = s.loader.image := by
  unfold State.leaveLoading
  dsimp only
  (repeat' split) <;> simp

/-- The result of the checks leaves the blocks' copies and frame memory alone. -/
@[simp] theorem State.takeChecks_keeps (s : State) (image : Mem) (f : Option (BarredReason × Option Nat)) :
    (s.takeChecks image f).pending = s.pending ∧ (s.takeChecks image f).settings = s.settings
      ∧ (s.takeChecks image f).frame = s.frame ∧ (s.takeChecks image f).loader.image = image := by
  unfold State.takeChecks
  split <;> simp

/-- Loading the blocks writes the settings and the tile store only. -/
@[simp] theorem State.loadBlocks_keeps (s : State) :
    s.loadBlocks.pending = s.pending ∧ s.loadBlocks.loader = s.loader ∧ s.loadBlocks.frame.bands = s.frame.bands
      ∧ s.loadBlocks.frame.screened = s.frame.screened := by
  simp [State.loadBlocks]

/-- Decoding writes the band buffers only. -/
@[simp] theorem State.partDecoded_keeps (s : State) :
    s.partDecoded.pending = s.pending ∧ s.partDecoded.settings = s.settings ∧ s.partDecoded.loader = s.loader
      ∧ s.partDecoded.frame.screened = s.frame.screened ∧ s.partDecoded.frame.tiles = s.frame.tiles := by
  unfold State.partDecoded State.decodePart
  (repeat' split) <;> simp

/-- A finished band writes the screened store only. -/
@[simp] theorem State.bandFinished_keeps (s : State) (c : CurrentBand) :
    (s.bandFinished c).pending = s.pending ∧ (s.bandFinished c).settings = s.settings
      ∧ (s.bandFinished c).loader = s.loader ∧ (s.bandFinished c).frame.bands = s.frame.bands
      ∧ (s.bandFinished c).frame.tiles = s.frame.tiles := by
  simp [State.bandFinished, State.writeScreened]

/-- A maintenance command executed keeps the waiting commands and frame memory; RESET STATION alone reaches the
loader and the settings. -/
@[simp] theorem State.execute_keeps (s : State) (code : Byte) (data : List Byte) :
    (s.execute code data).pending = s.pending ∧ (s.execute code data).frame = s.frame := by
  unfold State.execute State.runResetStation
  split <;> simp

@[simp] theorem State.takeCommandByte_keeps (s : State) (code : Byte) :
    (s.takeCommandByte code).pending = s.pending ∧ (s.takeCommandByte code).frame = s.frame := by
  unfold State.takeCommandByte
  dsimp only
  (repeat' split) <;> simp

@[simp] theorem State.takeDataByte_keeps (s : State) (b : Byte) :
    (s.takeDataByte b).pending = s.pending ∧ (s.takeDataByte b).frame = s.frame := by
  unfold State.takeDataByte
  dsimp only
  (repeat' split) <;> simp

/-- A whole maintenance command keeps the waiting commands and frame memory. -/
@[simp] theorem State.portCommand_keeps (s : State) (code : Byte) (data : List Byte) :
    (s.portCommand code data).pending = s.pending ∧ (s.portCommand code data).frame = s.frame := by
  unfold State.portCommand
  split
  · have h : ∀ (data : List Byte) (t : State),
        (data.foldl State.takeDataByte t).pending = t.pending ∧ (data.foldl State.takeDataByte t).frame = t.frame := by
      intro data
      induction data with
      | nil => intro t; exact ⟨rfl, rfl⟩
      | cons b bs ih => intro t; simp [ih]
    simp [h]
  · simp

end Sys2Proof.Machine
end

