-- ==== Sys2Proof/Laws/Queue.lean ====
section
/-! SUPPORT. Laws of the outgoing queue: what each operation leaves in each place (R11 to R14), and that every
operation keeps the kinds of message that the places hold. -/

namespace Sys2Proof.Machine

/-! ## Reading a written place -/

@[simp] theorem Link.at_setPlace_same (l : Link) (p : Place) (q : Option Queued) : (l.setPlace p q).at p = q := by
  cases p <;> simp [Link.setPlace, Link.at]

theorem Link.at_setPlace_other (l : Link) {p r : Place} (q : Option Queued) (h : r ≠ p) :
    (l.setPlace p q).at r = l.at r := by
  cases p <;> cases r <;> simp_all [Link.setPlace, Link.at]
  case slot.slot m n =>
    have : m.val ≠ n.val := fun e => h (Fin.ext e.symm)
    simp [Vector.getElem_set_ne, this]

@[simp] theorem Link.setPlace_keeps (l : Link) (p : Place) (q : Option Queued) :
    (l.setPlace p q).ageCounter = l.ageCounter ∧ (l.setPlace p q).phase = l.phase := by
  cases p <;> simp [Link.setPlace]

/-! ## Queue ages -/

@[simp] theorem Link.withAge_phase (l : Link) : l.withAge.phase = l.phase := by
  unfold Link.withAge; split <;> rfl

/-- Renumbering changes a queued message's age only. -/
theorem Link.at_withAge (l : Link) (p : Place) : ∃ f : Queued → Queued, (∀ q, (f q).msg = q.msg ∧
    (f q).inProgress = q.inProgress ∧ (f q).withdrawal = q.withdrawal ∧ (f q).replacement = q.replacement) ∧
    l.withAge.at p = (l.at p).map f := by
  unfold Link.withAge
  split
  · exact ⟨id, by simp, by simp⟩
  · exact ⟨l.renumbered, by simp [Link.renumbered], by cases p <;> simp [Link.at]⟩

/-- After a renumbering the counter has room for one more age. -/
theorem Link.withAge_lt (l : Link) : l.withAge.ageCounter < Config.max32 := by
  unfold Link.withAge
  split
  · assumption
  · have h : l.queued.length ≤ allPlaces.length := List.length_filterMap_le _ _
    have h2 : allPlaces.length = 10 := by decide
    simp only [Config.max32]
    omega

/-! ## put -/

@[simp] theorem Link.put_phase (l : Link) (p : Place) (m : Msg) : (l.put p m).phase = l.phase := by
  simp [Link.put]

/-- A message put in a place stands there, not in progress and with no withdrawal or replacement. -/
theorem Link.at_put_same (l : Link) (p : Place) (m : Msg) :
    (l.put p m).at p = some { msg := m, age := l.withAge.ageCounter, inProgress := false, withdrawal := false,
                              replacement := none } := by
  have h := Link.at_setPlace_same l.withAge p (some
    { msg := m, age := l.withAge.ageCounter, inProgress := false, withdrawal := false, replacement := none })
  cases p <;> exact h

/-- What a place other than the written one holds after a put. -/
theorem Link.at_put_other (l : Link) {p r : Place} (m : Msg) (h : r ≠ p) : (l.put p m).at r = l.withAge.at r := by
  have e := Link.at_setPlace_other l.withAge (some
    { msg := m, age := l.withAge.ageCounter, inProgress := false, withdrawal := false, replacement := none }) h
  cases r <;> exact e

/-! ## The kinds that places hold (R11) -/

theorem Link.placesHold.setPlace {l : Link} (h : l.placesHold) (p : Place) (q : Option Queued)
    (hq : ∀ x, q = some x → x.suits p) : (l.setPlace p q).placesHold := by
  intro r x hx
  by_cases hr : r = p
  · subst hr
    exact hq x (by simpa using hx)
  · rw [Link.at_setPlace_other l q hr] at hx
    exact h r x hx

theorem Link.placesHold.withAge {l : Link} (h : l.placesHold) : l.withAge.placesHold := by
  intro p q hq
  obtain ⟨f, hf, e⟩ := l.at_withAge p
  rw [e, Option.map_eq_some_iff] at hq
  obtain ⟨x, hx, rfl⟩ := hq
  have := h p x hx
  simp only [Queued.suits, (hf x).1, (hf x).2.2.2]
  exact this

theorem Link.placesHold.put {l : Link} (h : l.placesHold) {p : Place} {m : Msg} (hm : p.admits m = true) :
    (l.put p m).placesHold := by
  intro r x hx
  by_cases hr : r = p
  · subst hr
    rw [Link.at_put_same] at hx
    cases hx
    exact ⟨hm, by simp⟩
  · rw [Link.at_put_other l m hr] at hx
    exact h.withAge r x hx

theorem Link.placesHold.request {l : Link} (h : l.placesHold) {p : Place} {m : Msg} (hm : p.admits m = true) :
    (l.request p m).placesHold := by
  unfold Link.request
  split
  · exact h.put hm
  · rename_i q hq
    split
    · exact h.setPlace p _ (by
        intro x hx
        cases hx
        exact ⟨(h p q hq).1, by simp [hm]⟩)
    · exact h.put hm

theorem Link.placesHold.withdraw {l : Link} (h : l.placesHold) (p : Place) : (l.withdraw p).placesHold := by
  unfold Link.withdraw
  split
  · exact h
  · rename_i q hq
    split
    · exact h.setPlace p _ (by
        intro x hx
        cases hx
        exact h p q hq)
    · exact h.setPlace p _ (by simp)

theorem Link.placesHold.unsent {l : Link} (h : l.placesHold) (p : Place) : (l.unsent p).placesHold := by
  unfold Link.unsent
  split
  · exact h
  · rename_i q hq
    split
    · rename_i m hm
      exact (h.setPlace p none (by simp)).put ((h p q hq).2 m hm)
    · split
      · exact h.setPlace p none (by simp)
      · exact h.setPlace p _ (by
          intro x hx
          cases hx
          exact h p q hq)

theorem Link.placesHold.sent {l : Link} (h : l.placesHold) (p : Place) : (l.sent p).placesHold := by
  unfold Link.sent
  split
  · rename_i m hm
    rw [Option.bind_eq_some_iff] at hm
    obtain ⟨q, hq, hr⟩ := hm
    exact (h.setPlace p none (by simp)).put ((h p q hq).2 m hr)
  · exact h.setPlace p none (by simp)

theorem Place.admits_withBid (p : Place) (m : Msg) (bid : Nat) : p.admits (m.withBid bid) = p.admits m := by
  cases m <;> cases p <;> rfl

theorem Link.placesHold.start {l : Link} (h : l.placesHold) (p : Place) (bid : Nat) :
    (l.start p bid).placesHold := by
  unfold Link.start
  refine h.setPlace p _ fun x hx => ?_
  rw [Option.map_eq_some_iff] at hx
  obtain ⟨q, hq, rfl⟩ := hx
  exact ⟨by rw [Place.admits_withBid]; exact (h p q hq).1, (h p q hq).2⟩

theorem Link.placesHold.emptied (l : Link) : l.emptied.placesHold := by
  intro p q hq
  cases p <;> simp [Link.emptied, Link.at] at hq

/-- The receive state has no part in what the places hold. -/
theorem Link.placesHold.withPhase {l : Link} (h : l.placesHold) (ph : LinkPhase) :
    ({ l with phase := ph } : Link).placesHold := by
  intro p q hq
  exact h p q (by cases p <;> exact hq)

end Sys2Proof.Machine
end

