-- ==== Sys2Proof/Laws/Lawful.lean ====
section
/-! SUPPORT. The three laws that every operation keeps: the kinds of message that the places of the outgoing queue hold
(R11), the board (R43, R44) and the reservation of the screened store (R66). One lemma for each operation, from any
state `r` on that the operation's own state keeps the laws of. -/

namespace Sys2Proof.Machine

/-- `t` keeps each of the three laws that `s` has. -/
def Holds (s t : State) : Prop :=
  (s.link.placesHold → t.link.placesHold) ∧ (s.board.lawful → t.board.lawful) ∧
    (s.reservationFits → t.reservationFits)

@[simp] theorem Holds.refl (s : State) : Holds s s := ⟨id, id, id⟩

theorem Holds.trans {r s t : State} (h : Holds r s) (k : Holds s t) : Holds r t :=
  ⟨fun x => k.1 (h.1 x), fun x => k.2.1 (h.2.1 x), fun x => k.2.2 (h.2.2 x)⟩

/-- A fold of steps that each keep the laws keeps them. -/
theorem Holds.foldl {α : Type} {f : State → α → State} (hf : ∀ s x, Holds s (f s x)) {r s : State} (h : Holds r s)
    (xs : List α) : Holds r (xs.foldl f s) := by
  induction xs generalizing s with
  | nil => exact h
  | cons x xs ih => exact ih (h.trans (hf s x))

/-! ## The queue -/

/-- The places of `m` hold what they may when those of `l` do. -/
def Link.Follows (l m : Link) : Prop := l.placesHold → m.placesHold

@[simp] theorem Link.Follows.refl (l : Link) : l.Follows l := id

/-- A place takes a message's kind. -/
def Place.Takes (p : Place) (m : Msg) : Prop := p.admits m = true

@[simp] theorem Place.takes_roll (c k : Nat) (x : Half) : Place.roll.Takes (.roll c k x) := rfl

@[simp] theorem Place.takes_join (d : Half) : Place.presence.Takes (.join d) := rfl

@[simp] theorem Place.takes_leave : Place.presence.Takes .leave := rfl

@[simp] theorem Place.takes_claim (n : Slot) (key : PlateKey) (version : Nat) (bid : Option Nat) :
    (Place.slot n).Takes (.claim key version bid) := rfl

@[simp] theorem Place.takes_done (n : Slot) (j : Job) (outcome : DoneOutcome) :
    (Place.slot n).Takes (j.doneMessage outcome) := rfl

@[simp] theorem Link.Follows.put {l m : Link} (h : l.Follows m) {p : Place} {x : Msg} (hm : p.Takes x) :
    l.Follows (m.put p x) := fun k => (h k).put hm

@[simp] theorem Link.Follows.request {l m : Link} (h : l.Follows m) {p : Place} {x : Msg} (hm : p.Takes x) :
    l.Follows (m.request p x) := fun k => (h k).request hm

@[simp] theorem Link.Follows.withdraw {l m : Link} (h : l.Follows m) (p : Place) : l.Follows (m.withdraw p) :=
  fun k => (h k).withdraw p

@[simp] theorem Link.Follows.unsent {l m : Link} (h : l.Follows m) (p : Place) : l.Follows (m.unsent p) :=
  fun k => (h k).unsent p

@[simp] theorem Link.Follows.sent {l m : Link} (h : l.Follows m) (p : Place) : l.Follows (m.sent p) :=
  fun k => (h k).sent p

@[simp] theorem Link.Follows.start {l m : Link} (h : l.Follows m) (p : Place) (bid : Nat) : l.Follows (m.start p bid) :=
  fun k => (h k).start p bid

@[simp] theorem Link.Follows.emptied (l m : Link) : l.Follows m.emptied := fun _ => Link.placesHold.emptied m

@[simp] theorem Link.Follows.withPhase {l m : Link} (h : l.Follows m) (ph : LinkPhase) :
    l.Follows { roll := m.roll, presence := m.presence, slots := m.slots, ageCounter := m.ageCounter, phase := ph } :=
  fun k => (h k).withPhase ph

@[simp] theorem State.setLink_holds {r s : State} (h : Holds r s) {l : Link} (hl : s.link.Follows l) :
    Holds r (s.setLink l) := h.trans ⟨hl, id, id⟩

/-! ## The board -/

/-- The board `c` is lawful when `b` is. -/
def Board.Follows (b c : Board) : Prop := b.lawful → c.lawful

@[simp] theorem Board.Follows.cleared (b : Board) : b.Follows Board.cleared := fun _ => by
  simp [Board.lawful, Board.cleared]

@[simp] theorem Board.Follows.withFull {b c : Board} (h : b.Follows c) (full : Bool) :
    b.Follows { entries := c.entries, full := full, stamp := c.stamp } := h

@[simp] theorem State.setBoard_holds {r s : State} (h : Holds r s) {b : Board} (hb : s.board.Follows b) :
    Holds r (s.setBoard b) := h.trans ⟨id, hb, id⟩

/-- Renumbering stamps changes no key. -/
theorem Board.withStamp_keys (b : Board) : b.withStamp.entries.map (·.key) = b.entries.map (·.key) := by
  unfold Board.withStamp
  split
  · rfl
  · simp [List.map_map, Function.comp_def]

theorem Board.withStamp_length (b : Board) : b.withStamp.entries.length = b.entries.length := by
  have h := congrArg List.length b.withStamp_keys
  simpa using h

/-- An entry written over one of its key, or over any while its key is new. -/
theorem Board.Follows.write (b : Board) (i : Nat) (e : BoardEntry)
    (h : (∃ d, b.entries[i]? = some d ∧ d.key = e.key) ∨ e.key ∉ b.entries.map (·.key)) :
    b.Follows (b.write i e) := by
  intro hb
  have hlen : (b.write i e).entries.length = b.entries.length := by
    simp [Board.write, Board.withStamp_length]
  have hkeys : (b.write i e).entries.map (·.key) = (b.entries.map (·.key)).set i e.key := by
    simp [Board.write, List.map_set, Board.withStamp_keys]
  refine ⟨by rw [hlen]; exact hb.1, ?_⟩
  rw [hkeys]
  rcases h with ⟨d, hd, hk⟩ | h
  · have : (b.entries.map (·.key))[i]? = some e.key := by simp [hd, hk]
    rw [show (b.entries.map (·.key)).set i e.key = b.entries.map (·.key) from ?_]
    · exact hb.2
    · apply List.ext_getElem?
      intro k
      rw [List.getElem?_set]
      split
      · rename_i hk
        subst hk
        split
        · exact this.symm
        · rename_i hlt
          exact absurd (List.getElem?_eq_some_iff.mp this).1 hlt
      · rfl
  · exact hb.2.set h

/-- A new entry put in an empty place. -/
theorem Board.Follows.append (b : Board) (e : BoardEntry) (hl : b.entries.length < Config.boardPlaces)
    (h : e.key ∉ b.entries.map (·.key)) : b.Follows (b.append e) := by
  intro hb
  have hkeys : (b.append e).entries.map (·.key) = b.entries.map (·.key) ++ [e.key] := by
    simp [Board.append, Board.withStamp_keys]
  refine ⟨?_, ?_⟩
  · simp [Board.append, Board.withStamp_length]; omega
  · rw [hkeys]
    exact List.Nodup.append hb.2 (by simp) (by simpa using h)

/-- No entry has a key that has no place. -/
theorem Board.placeOf_none {b : Board} {key : PlateKey} (h : b.placeOf key = none) : key ∉ b.entries.map (·.key) := by
  simp [Board.placeOf, List.findIdx?_eq_none_iff] at h
  simpa using h

/-- The entry in a key's place has the key. -/
theorem Board.placeOf_some {b : Board} {key : PlateKey} {i : Nat} {e : BoardEntry} (h : b.placeOf key = some i)
    (he : b.entries[i]? = some e) : e.key = key := by
  rw [Board.placeOf, List.findIdx?_eq_some_iff_getElem] at h
  obtain ⟨hi, hk, _⟩ := h
  rw [List.getElem?_eq_getElem hi] at he
  simp at he hk
  rw [← he]; exact hk

/-- A new entry recorded, in an empty place or in that of the eviction candidate. -/
theorem Board.Follows.record {b c : Board} {e : BoardEntry} (h : b.record e = some c) (hk : b.placeOf e.key = none) :
    b.Follows c := by
  unfold Board.record at h
  split at h
  · rename_i hl
    cases h
    exact Board.Follows.append b e hl (Board.placeOf_none hk)
  · rw [Option.map_eq_some_iff] at h
    obtain ⟨i, _, rfl⟩ := h
    exact Board.Follows.write b i e (Or.inr (Board.placeOf_none hk))

/-! ## The reservation -/

/-- What a slot's job reserves. -/
def JobTable.reserves (t : JobTable) (n : Slot) : Nat := (t.slots[n].map Job.bandCount).getD 0

/-- What the live jobs of a table reserve together. -/
def JobTable.total (t : JobTable) : Nat := (allSlots.map t.reserves).sum

theorem State.reserved_eq (s : State) : s.reserved = s.jobs.total := rfl

/-- The table `u` reserves no more than `t`. -/
def JobTable.Follows (t u : JobTable) : Prop := ∀ n, u.reserves n ≤ t.reserves n

theorem JobTable.Follows.total_le {t u : JobTable} (h : t.Follows u) : u.total ≤ t.total := by
  unfold JobTable.total
  exact List.sum_le_sum fun n _ => h n

@[simp] theorem State.setJobs_holds {r s : State} (h : Holds r s) {t : JobTable} (ht : s.jobs.Follows t) :
    Holds r (s.setJobs t) :=
  h.trans ⟨id, id, fun k => Nat.le_trans (by rw [State.reserved_eq]; exact ht.total_le) k⟩

theorem JobTable.reserves_set (t : JobTable) (n m : Slot) (j : Option Job) (g : Vector Nat 8) (c : Nat) :
    ({ slots := t.slots.set n j, generations := g, readyCounter := c } : JobTable).reserves m =
      if m = n then (j.map Job.bandCount).getD 0 else t.reserves m := by
  unfold JobTable.reserves
  by_cases h : m = n
  · subst h; simp
  · have : (n : Nat) ≠ (m : Nat) := fun e => h (Fin.ext e.symm)
    simp [h, this]

@[simp] theorem State.setJob_none_holds {r s : State} (h : Holds r s) (n : Slot) : Holds r (s.setJob n none) := by
  refine State.setJobs_holds h fun m => ?_
  rw [JobTable.reserves_set]
  split <;> simp

@[simp] theorem State.modifyJob_holds {r s : State} (h : Holds r s) (n : Slot) {f : Job → Job}
    (hf : ∀ j, (f j).bands.length = j.bands.length) : Holds r (s.modifyJob n f) := by
  refine State.setJobs_holds h fun m => ?_
  rw [JobTable.reserves_set]
  split
  · rename_i e
    subst e
    cases hj : s.jobs.slots[m] with
    | none => simp [State.job, hj]
    | some j => simp [State.job, hj, JobTable.reserves, Job.bandCount, hf]
  · exact Nat.le_refl _

@[simp] theorem Job.modifyBand_length (j : Job) (b : Nat) (f : Band → Band) :
    (j.modifyBand b f).bands.length = j.bands.length := by simp [Job.modifyBand]

@[simp] theorem Job.mark_length (j : Job) (b : Nat) (k : DamageKind) (p : Option Nat) (c : Option (List Byte)) :
    (j.mark b k p c).bands.length = j.bands.length := by simp [Job.mark]

@[simp] theorem Job.withoutCursors_length (j : Job) : j.withoutCursors.bands.length = j.bands.length := rfl

@[simp] theorem Job.placed_length (j : Job) (d : Descriptor) : (j.placed d).bands.length = j.bands.length := by
  simp [Job.placed]

/-- A job put in a slot that holds none, within the unreserved count. -/
theorem State.reservationFits_create {s : State} {n : Slot} {j : Job} {g : Vector Nat 8} (hn : s.job n = none)
    (hj : j.bandCount ≤ s.unreserved) (h : s.reservationFits) :
    (s.setJobs { s.jobs with generations := g, slots := s.jobs.slots.set n (some j) }).reservationFits := by
  unfold State.reservationFits State.unreserved at *
  rw [State.reserved_eq] at *
  have e : ({ s.jobs with generations := g, slots := s.jobs.slots.set n (some j) } : JobTable).total =
      s.jobs.total + j.bandCount := by
    have hz : s.jobs.reserves n = 0 := by
      have : s.jobs.slots[n] = none := hn
      simp [JobTable.reserves, this]
    have hr : ∀ m, ({ s.jobs with generations := g, slots := s.jobs.slots.set n (some j) } : JobTable).reserves m =
        s.jobs.reserves m + if m = n then j.bandCount else 0 := by
      intro m
      rw [JobTable.reserves_set]
      by_cases hm : m = n
      · subst hm; simp [hz]
      · simp [hm]
    have hs : ∀ f g : Slot → Nat, (allSlots.map fun m => f m + g m).sum = (allSlots.map f).sum + (allSlots.map g).sum :=
      fun f g => List.sum_map_add
    have hone : (allSlots.map fun m => if m = n then j.bandCount else 0).sum = j.bandCount := by
      revert n
      intro n
      fin_cases n <;> simp [allSlots, List.finRange_succ]
    unfold JobTable.total
    rw [show ({ s.jobs with generations := g, slots := s.jobs.slots.set n (some j) } : JobTable).reserves =
      fun m => s.jobs.reserves m + if m = n then j.bandCount else 0 from funext hr, hs, hone]
  show ({ s.jobs with generations := g, slots := s.jobs.slots.set n (some j) } : JobTable).total ≤ _
  rw [e]
  omega

/-! ## Updates of the other blocks -/

@[simp] theorem State.setPending_holds {o s : State} (h : Holds o s) (x : List Instr) : Holds o (s.setPending x) :=
  h.trans ⟨id, id, id⟩

@[simp] theorem State.setClock_holds {o s : State} (h : Holds o s) (x : Nat) : Holds o (s.setClock x) :=
  h.trans ⟨id, id, id⟩

@[simp] theorem State.setFreeCount_holds {o s : State} (h : Holds o s) (x : Nat) : Holds o (s.setFreeCount x) :=
  h.trans ⟨id, id, id⟩

@[simp] theorem State.setStation_holds {o s : State} (h : Holds o s) (x : StationControl) : Holds o (s.setStation x) :=
  h.trans ⟨id, id, id⟩

@[simp] theorem State.setSettings_holds {o s : State} (h : Holds o s) (x : Settings) : Holds o (s.setSettings x) :=
  h.trans ⟨id, id, id⟩

@[simp] theorem State.setLoader_holds {o s : State} (h : Holds o s) (x : Loader) : Holds o (s.setLoader x) :=
  h.trans ⟨id, id, id⟩

@[simp] theorem State.setRoll_holds {o s : State} (h : Holds o s) (x : RollUnit) : Holds o (s.setRoll x) :=
  h.trans ⟨id, id, id⟩

@[simp] theorem State.setReceiver_holds {o s : State} (h : Holds o s) (x : Receiver) : Holds o (s.setReceiver x) :=
  h.trans ⟨id, id, id⟩

@[simp] theorem State.setUnpacker_holds {o s : State} (h : Holds o s) (x : Unpacker) : Holds o (s.setUnpacker x) :=
  h.trans ⟨id, id, id⟩

@[simp] theorem State.setRing_holds {o s : State} (h : Holds o s) (x : Ring) : Holds o (s.setRing x) :=
  h.trans ⟨id, id, id⟩

@[simp] theorem State.setScreener_holds {o s : State} (h : Holds o s) (x : Screener) : Holds o (s.setScreener x) :=
  h.trans ⟨id, id, id⟩

@[simp] theorem State.setDamage_holds {o s : State} (h : Holds o s) (x : DamageUnit) : Holds o (s.setDamage x) :=
  h.trans ⟨id, id, id⟩

@[simp] theorem State.setImager_holds {o s : State} (h : Holds o s) (x : Imager) : Holds o (s.setImager x) :=
  h.trans ⟨id, id, id⟩

@[simp] theorem State.setPort_holds {o s : State} (h : Holds o s) (x : Port) : Holds o (s.setPort x) :=
  h.trans ⟨id, id, id⟩

@[simp] theorem State.setFrame_holds {o s : State} (h : Holds o s) (x : FrameMemory) : Holds o (s.setFrame x) :=
  h.trans ⟨id, id, id⟩

/-! ## Job Control leaves the board and Station Control alone -/

/-- `t` has the board, the station state and the peer records of `s`. -/
abbrev KeepsBoard (s t : State) : Prop := t.board = s.board ∧ t.station = s.station ∧ t.roll = s.roll

theorem KeepsBoard.refl (s : State) : KeepsBoard s s := ⟨rfl, rfl, rfl⟩

theorem KeepsBoard.trans {s t u : State} (h : KeepsBoard s t) (k : KeepsBoard t u) : KeepsBoard s u :=
  ⟨k.1.trans h.1, k.2.1.trans h.2.1, k.2.2.trans h.2.2⟩

@[simp] theorem State.enter_board (s : State) (x : StationState) :
    (s.enter x).board = s.board := by
  simp [State.enter]

@[simp] theorem State.latch_board (s : State) (c : Cause) :
    KeepsBoard s (s.latch c) := by
  simp [KeepsBoard, State.latch]

@[simp] theorem State.raiseBy_board (s : State) (c : Count) (k : Nat) :
    KeepsBoard s (s.raiseBy c k) := by
  simp [KeepsBoard, State.raiseBy]

@[simp] theorem State.raise_board (s : State) (c : Count) :
    KeepsBoard s (s.raise c) := by
  simp [KeepsBoard, State.raise]

@[simp] theorem State.setJob_board (s : State) (n : Slot) (j : Option Job) :
    KeepsBoard s (s.setJob n j) := by
  simp [KeepsBoard, State.setJob]

@[simp] theorem State.modifyJob_board (s : State) (n : Slot) (f : Job → Job) :
    KeepsBoard s (s.modifyJob n f) := by
  simp [KeepsBoard, State.modifyJob]

@[simp] theorem State.returnBuffer_board (s : State) (b : Option Nat) :
    KeepsBoard s (s.returnBuffer b) := by
  simp [KeepsBoard, State.returnBuffer]

@[simp] theorem State.returnScreened_board (s : State) (b : Nat) :
    KeepsBoard s (s.returnScreened b) := by
  simp [KeepsBoard, State.returnScreened]

@[simp] theorem State.markDamage_board (s : State) (n : Slot) (band : Nat) (kind : DamageKind) (part : Option Nat) (capture : Option (List Byte)) :
    KeepsBoard s (s.markDamage n band kind part capture) := by
  simp [KeepsBoard, State.markDamage]

@[simp] theorem State.reportUnattributed_board (s : State) (raw : List Byte) :
    KeepsBoard s (s.reportUnattributed raw) := by
  simp [KeepsBoard, State.reportUnattributed]

@[simp] theorem State.reportLate_board (s : State) :
    KeepsBoard s (s.reportLate) := by
  simp [KeepsBoard, State.reportLate]

@[simp] theorem State.reportStale_board (s : State) :
    KeepsBoard s (s.reportStale) := by
  simp [KeepsBoard, State.reportStale]

@[simp] theorem State.reportDuplicate_board (s : State) :
    KeepsBoard s (s.reportDuplicate) := by
  simp [KeepsBoard, State.reportDuplicate]

@[simp] theorem State.addDamageTotal_board (s : State) (n : Nat) :
    KeepsBoard s (s.addDamageTotal n) := by
  simp [KeepsBoard, State.addDamageTotal]

@[simp] theorem State.issueEject_board (s : State) (d : Disposition) :
    KeepsBoard s (s.issueEject d) := by
  simp [KeepsBoard, State.issueEject]

@[simp] theorem State.recordFault_board (s : State) (f : ImagerFault) :
    KeepsBoard s (s.recordFault f) := by
  simp [KeepsBoard, State.recordFault]

@[simp] theorem State.scrapForFault_board (s : State) (f : ImagerFault) :
    KeepsBoard s (s.scrapForFault f) := by
  simp [KeepsBoard, State.scrapForFault]

@[simp] theorem State.imagerCancel_board (s : State) (r : CancelReason) :
    KeepsBoard s (s.imagerCancel r) := by
  unfold State.imagerCancel
  dsimp only
  (repeat' split) <;> simp [KeepsBoard]

@[simp] theorem State.takePlate_board (s : State) (n : Slot) (j : Job) :
    KeepsBoard s (s.takePlate n j) := by
  simp [KeepsBoard, State.takePlate]

@[simp] theorem State.arbitrate_board (s : State) :
    KeepsBoard s (s.arbitrate) := by
  unfold State.arbitrate
  (repeat' split) <;> simp [KeepsBoard]

@[simp] theorem State.finishHead_board (s : State) :
    KeepsBoard s (s.finishHead) := by
  simp [KeepsBoard, State.finishHead]

@[simp] theorem State.dropStale_board (s : State) :
    KeepsBoard s (s.dropStale) := by
  simp [KeepsBoard, State.dropStale]

@[simp] theorem State.stopUnpacking_board (s : State) (n : Slot) :
    KeepsBoard s (s.stopUnpacking n) := by
  unfold State.stopUnpacking
  (repeat' split) <;> simp [KeepsBoard]

@[simp] theorem State.removeEndMarker_board (s : State) (n : Slot) :
    KeepsBoard s (s.removeEndMarker n) := by
  simp [KeepsBoard, State.removeEndMarker]

@[simp] theorem State.abandonWork_board (s : State) (n : Slot) :
    KeepsBoard s (s.abandonWork n) := by
  simp [KeepsBoard, State.abandonWork]

@[simp] theorem State.queueLeave_board (s : State) :
    KeepsBoard s (s.queueLeave) := by
  simp [KeepsBoard, State.queueLeave]

@[simp] theorem State.tableEmptied_board (s : State) :
    KeepsBoard s (s.tableEmptied) := by
  unfold State.tableEmptied
  (repeat' split) <;> simp [KeepsBoard]

@[simp] theorem State.freeJob_board (s : State) (n : Slot) :
    KeepsBoard s (s.freeJob n) := by
  unfold State.freeJob
  split
  · exact KeepsBoard.refl s
  · rename_i j _
    have k : ∀ (l : List Nat) (t : State), KeepsBoard t (l.foldl State.returnScreened t) := by
      intro l
      induction l with
      | nil => exact KeepsBoard.refl
      | cons x l ih => exact fun t => (State.returnScreened_board t x).trans (ih _)
    simp [KeepsBoard, (k _ _).1, (k _ _).2]

@[simp] theorem State.endJob_board (s : State) (n : Slot) (outcome : DoneOutcome) :
    KeepsBoard s (s.endJob n outcome) := by
  unfold State.endJob
  (repeat' split) <;> simp [KeepsBoard]

@[simp] theorem State.enterReady_board (s : State) (n : Slot) :
    KeepsBoard s (s.enterReady n) := by
  simp [KeepsBoard, State.enterReady]

@[simp] theorem State.assessJob_board (s : State) (n : Slot) :
    KeepsBoard s (s.assessJob n) := by
  unfold State.assessJob
  dsimp only
  (repeat' split) <;> simp [KeepsBoard]

@[simp] theorem State.enterCancelling_board (s : State) (n : Slot) (r : CancelReason) :
    KeepsBoard s (s.enterCancelling n r) := by
  unfold State.enterCancelling
  dsimp only
  (repeat' split) <;> simp [KeepsBoard]

@[simp] theorem State.cancelOwned_board (s : State) (n : Slot) (r : CancelReason) :
    KeepsBoard s (s.cancelOwned n r) := by
  unfold State.cancelOwned
  (repeat' split) <;> simp [KeepsBoard]

@[simp] theorem State.withdrawClaim_board (s : State) (n : Slot) :
    KeepsBoard s (s.withdrawClaim n) := by
  simp [KeepsBoard, State.withdrawClaim]

@[simp] theorem State.loseClaim_board (s : State) (n : Slot) :
    KeepsBoard s (s.loseClaim n) := by
  simp [KeepsBoard, State.loseClaim]

@[simp] theorem State.supersedeJob_board (s : State) (n : Slot) :
    KeepsBoard s (s.supersedeJob n) := by
  unfold State.supersedeJob
  (repeat' split) <;> simp [KeepsBoard]

@[simp] theorem State.dropJob_board (s : State) (n : Slot) :
    KeepsBoard s (s.dropJob n) := by
  unfold State.dropJob
  (repeat' split) <;> simp [KeepsBoard]

@[simp] theorem State.noticeSuperseded_board (s : State) (key : PlateKey) (version : Nat) :
    KeepsBoard s (s.noticeSuperseded key version) := by
  unfold State.noticeSuperseded
  generalize allSlots = l
  induction l generalizing s with
  | nil => exact KeepsBoard.refl s
  | cons n l ih =>
    rw [List.foldl_cons]
    refine KeepsBoard.trans ?_ (ih _)
    split <;> simp [KeepsBoard]

@[simp] theorem State.loseContending_board (s : State) (key : PlateKey) (version : Nat) :
    KeepsBoard s (s.loseContending key version) := by
  unfold State.loseContending
  (repeat' split) <;> simp [KeepsBoard]

@[simp] theorem State.noticeOwned_board (s : State) (key : PlateKey) (version : Nat) (owner : Station) :
    KeepsBoard s (s.noticeOwned key version owner) := by
  unfold State.noticeOwned
  (repeat' split) <;> simp [KeepsBoard]

@[simp] theorem State.noticeDone_board (s : State) (key : PlateKey) (version : Nat) :
    KeepsBoard s (s.noticeDone key version) := by
  simp [KeepsBoard, State.noticeDone]

@[simp] theorem State.noticeUntaken_board (s : State) (key : PlateKey) (version : Nat) :
    KeepsBoard s (s.noticeUntaken key version) := by
  unfold State.noticeUntaken
  (repeat' split) <;> simp [KeepsBoard]

@[simp] theorem State.claimStarted_board (s : State) (n : Slot) :
    KeepsBoard s (s.claimStarted n) := by
  simp [KeepsBoard, State.claimStarted]

@[simp] theorem State.claimReturned_board (s : State) (n : Slot) :
    KeepsBoard s (s.claimReturned n) := by
  simp [KeepsBoard, State.claimReturned]

@[simp] theorem State.claimWithdrawn_board (s : State) (n : Slot) :
    KeepsBoard s (s.claimWithdrawn n) := by
  unfold State.claimWithdrawn
  dsimp only
  (repeat' split) <;> simp [KeepsBoard]

@[simp] theorem State.imagerEnding_board (s : State) (n : Slot) (e : Ending) :
    KeepsBoard s (s.imagerEnding n e) := by
  unfold State.imagerEnding
  (repeat' split) <;> simp [KeepsBoard]

/-! ## The operations -/

@[simp] theorem State.elapse_holds {o s : State} (h : Holds o s) (n : Nat) :
    Holds o (s.elapse n) := by
  simp (maxDischargeDepth := 40) [State.elapse, h]

@[simp] theorem State.advanceTo_holds {o s : State} (h : Holds o s) (deadline : Nat) :
    Holds o (s.advanceTo deadline) := by
  unfold State.advanceTo
  (repeat' split) <;> simp (maxDischargeDepth := 40) [h]

@[simp] theorem State.enter_holds {o s : State} (h : Holds o s) (x : StationState) :
    Holds o (s.enter x) := by
  simp (maxDischargeDepth := 40) [State.enter, h]

@[simp] theorem State.latch_holds {o s : State} (h : Holds o s) (c : Cause) :
    Holds o (s.latch c) := by
  simp (maxDischargeDepth := 40) [State.latch, h]

@[simp] theorem State.raiseBy_holds {o s : State} (h : Holds o s) (c : Count) (k : Nat) :
    Holds o (s.raiseBy c k) := by
  simp (maxDischargeDepth := 40) [State.raiseBy, h]

@[simp] theorem State.raise_holds {o s : State} (h : Holds o s) (c : Count) :
    Holds o (s.raise c) := by
  simp (maxDischargeDepth := 40) [State.raise, h]

@[simp] theorem State.returnBuffer_holds {o s : State} (h : Holds o s) (b : Option Nat) :
    Holds o (s.returnBuffer b) := by
  simp (maxDischargeDepth := 40) [State.returnBuffer, h]

@[simp] theorem State.returnScreened_holds {o s : State} (h : Holds o s) (b : Nat) :
    Holds o (s.returnScreened b) := by
  simp (maxDischargeDepth := 40) [State.returnScreened, h]

@[simp] theorem State.markDamage_holds {o s : State} (h : Holds o s) (n : Slot) (band : Nat) (kind : DamageKind) (part : Option Nat) (capture : Option (List Byte)) :
    Holds o (s.markDamage n band kind part capture) := by
  refine State.modifyJob_holds h n fun j => ?_
  split <;> simp

@[simp] theorem State.reportUnattributed_holds {o s : State} (h : Holds o s) (raw : List Byte) :
    Holds o (s.reportUnattributed raw) := by
  simp (maxDischargeDepth := 40) [State.reportUnattributed, h]

@[simp] theorem State.reportLate_holds {o s : State} (h : Holds o s)  :
    Holds o (s.reportLate) := by
  simp (maxDischargeDepth := 40) [State.reportLate, h]

@[simp] theorem State.reportStale_holds {o s : State} (h : Holds o s)  :
    Holds o (s.reportStale) := by
  simp (maxDischargeDepth := 40) [State.reportStale, h]

@[simp] theorem State.reportDuplicate_holds {o s : State} (h : Holds o s)  :
    Holds o (s.reportDuplicate) := by
  simp (maxDischargeDepth := 40) [State.reportDuplicate, h]

@[simp] theorem State.addDamageTotal_holds {o s : State} (h : Holds o s) (n : Nat) :
    Holds o (s.addDamageTotal n) := by
  simp (maxDischargeDepth := 40) [State.addDamageTotal, h]

@[simp] theorem State.issueEject_holds {o s : State} (h : Holds o s) (d : Disposition) :
    Holds o (s.issueEject d) := by
  simp (maxDischargeDepth := 40) [State.issueEject, h]

@[simp] theorem State.recordFault_holds {o s : State} (h : Holds o s) (f : ImagerFault) :
    Holds o (s.recordFault f) := by
  simp (maxDischargeDepth := 40) [State.recordFault, h]

@[simp] theorem State.scrapForFault_holds {o s : State} (h : Holds o s) (f : ImagerFault) :
    Holds o (s.scrapForFault f) := by
  simp (maxDischargeDepth := 40) [State.scrapForFault, h]

@[simp] theorem State.imagerCancel_holds {o s : State} (h : Holds o s) (r : CancelReason) :
    Holds o (s.imagerCancel r) := by
  unfold State.imagerCancel
  dsimp only
  (repeat' split) <;> simp (maxDischargeDepth := 40) [h]

@[simp] theorem State.takePlate_holds {o s : State} (h : Holds o s) (n : Slot) (j : Job) :
    Holds o (s.takePlate n j) := by
  simp (maxDischargeDepth := 40) [State.takePlate, h]

@[simp] theorem State.arbitrate_holds {o s : State} (h : Holds o s)  :
    Holds o (s.arbitrate) := by
  unfold State.arbitrate
  (repeat' split) <;> simp (maxDischargeDepth := 40) [h]

@[simp] theorem State.finishHead_holds {o s : State} (h : Holds o s)  :
    Holds o (s.finishHead) := by
  simp (maxDischargeDepth := 40) [State.finishHead, h]

@[simp] theorem State.dropStale_holds {o s : State} (h : Holds o s)  :
    Holds o (s.dropStale) := by
  simp (maxDischargeDepth := 40) [State.dropStale, h]

@[simp] theorem State.stopUnpacking_holds {o s : State} (h : Holds o s) (n : Slot) :
    Holds o (s.stopUnpacking n) := by
  unfold State.stopUnpacking
  (repeat' split) <;> simp (maxDischargeDepth := 40) [h]

@[simp] theorem State.removeEndMarker_holds {o s : State} (h : Holds o s) (n : Slot) :
    Holds o (s.removeEndMarker n) := by
  simp (maxDischargeDepth := 40) [State.removeEndMarker, h]

@[simp] theorem State.abandonWork_holds {o s : State} (h : Holds o s) (n : Slot) :
    Holds o (s.abandonWork n) := by
  unfold State.abandonWork
  exact State.modifyJob_holds (by simp (maxDischargeDepth := 40) [h]) n fun _ => rfl

@[simp] theorem State.queueLeave_holds {o s : State} (h : Holds o s)  :
    Holds o (s.queueLeave) := by
  simp (maxDischargeDepth := 40) [State.queueLeave, h]

@[simp] theorem State.tableEmptied_holds {o s : State} (h : Holds o s)  :
    Holds o (s.tableEmptied) := by
  unfold State.tableEmptied
  (repeat' split) <;> simp (maxDischargeDepth := 40) [h]

@[simp] theorem State.freeJob_holds {o s : State} (h : Holds o s) (n : Slot) :
    Holds o (s.freeJob n) := by
  unfold State.freeJob
  split
  · exact h
  · rename_i j _
    have k := Holds.foldl (f := State.returnScreened) (fun s b => State.returnScreened_holds (Holds.refl s) b)
      (State.abandonWork_holds h n) j.screenedBuffers
    exact State.tableEmptied_holds (State.setJob_none_holds k n)

@[simp] theorem State.endJob_holds {o s : State} (h : Holds o s) (n : Slot) (outcome : DoneOutcome) :
    Holds o (s.endJob n outcome) := by
  unfold State.endJob
  (repeat' split) <;> simp (maxDischargeDepth := 40) [h]

@[simp] theorem State.enterReady_holds {o s : State} (h : Holds o s) (n : Slot) :
    Holds o (s.enterReady n) := by
  have k : s.jobs.Follows { s.jobs.withOrder with readyCounter := s.jobs.withOrder.readyCounter + 1 } := by
    intro m
    unfold JobTable.reserves JobTable.withOrder
    split
    · exact Nat.le_refl _
    · cases hj : s.jobs.slots[m] with
      | none => simp at hj; simp [hj]
      | some j => simp at hj; simp [hj, Job.bandCount]
  exact State.arbitrate_holds (State.modifyJob_holds (State.setJobs_holds h k) n fun _ => rfl)

@[simp] theorem State.assessJob_holds {o s : State} (h : Holds o s) (n : Slot) :
    Holds o (s.assessJob n) := by
  unfold State.assessJob
  dsimp only
  (repeat' split) <;> simp (maxDischargeDepth := 40) [h]

@[simp] theorem State.assessIfComplete_holds {o s : State} (h : Holds o s) (n : Slot) :
    Holds o (s.assessIfComplete n) := by
  unfold State.assessIfComplete
  (repeat' split) <;> simp (maxDischargeDepth := 40) [h]

@[simp] theorem State.enterCancelling_holds {o s : State} (h : Holds o s) (n : Slot) (r : CancelReason) :
    Holds o (s.enterCancelling n r) := by
  unfold State.enterCancelling
  dsimp only
  (repeat' split) <;> simp (maxDischargeDepth := 40) [h]

@[simp] theorem State.cancelOwned_holds {o s : State} (h : Holds o s) (n : Slot) (r : CancelReason) :
    Holds o (s.cancelOwned n r) := by
  unfold State.cancelOwned
  (repeat' split) <;> simp (maxDischargeDepth := 40) [h]

@[simp] theorem State.withdrawClaim_holds {o s : State} (h : Holds o s) (n : Slot) :
    Holds o (s.withdrawClaim n) := by
  simp (maxDischargeDepth := 40) [State.withdrawClaim, h]

@[simp] theorem State.loseClaim_holds {o s : State} (h : Holds o s) (n : Slot) :
    Holds o (s.loseClaim n) := by
  simp (maxDischargeDepth := 40) [State.loseClaim, h]

@[simp] theorem State.supersedeJob_holds {o s : State} (h : Holds o s) (n : Slot) :
    Holds o (s.supersedeJob n) := by
  unfold State.supersedeJob
  (repeat' split) <;> simp (maxDischargeDepth := 40) [h]

@[simp] theorem State.dropJob_holds {o s : State} (h : Holds o s) (n : Slot) :
    Holds o (s.dropJob n) := by
  unfold State.dropJob
  (repeat' split) <;> simp (maxDischargeDepth := 40) [h]

@[simp] theorem State.noticeSuperseded_holds {o s : State} (h : Holds o s) (key : PlateKey) (version : Nat) :
    Holds o (s.noticeSuperseded key version) := by
  refine Holds.foldl (fun s n => ?_) h allSlots
  split <;> simp

@[simp] theorem State.noticeContested_holds {o s : State} (h : Holds o s) (key : PlateKey) (version sizeClass screeningClass rank : Nat) :
    Holds o (s.noticeContested key version sizeClass screeningClass rank) := by
  unfold State.noticeContested
  split
  · rename_i hc
    split
    · rename_i n rest hn
      have hfree : s.job n = none := by
        have : n ∈ s.freeSlots := by simp [hn]
        simp [State.freeSlots, State.slotFree] at this
        exact this.2.1
      have hfit : bandsOfHeight (s.settings.sizeClass sizeClass).height ≤ s.unreserved := by
        simp [State.contends] at hc
        exact hc.1.1.2
      unfold State.createJob
      dsimp only
      generalize hg : nextGeneration s.jobs.generations[n] = g
      refine State.setLink_holds ?_ (Link.Follows.put (Link.Follows.refl _) (Place.takes_claim _ _ _ _))
      refine h.trans ⟨id, id, fun k => ?_⟩
      exact State.reservationFits_create hfree (by simp [State.newJob, Job.bandCount, hfit]) k
    · exact h
  · exact h

@[simp] theorem State.loseContending_holds {o s : State} (h : Holds o s) (key : PlateKey) (version : Nat) :
    Holds o (s.loseContending key version) := by
  unfold State.loseContending
  (repeat' split) <;> simp (maxDischargeDepth := 40) [h]

@[simp] theorem State.noticeOwned_holds {o s : State} (h : Holds o s) (key : PlateKey) (version : Nat) (owner : Station) :
    Holds o (s.noticeOwned key version owner) := by
  unfold State.noticeOwned
  (repeat' split) <;> simp (maxDischargeDepth := 40) [h]

@[simp] theorem State.noticeDone_holds {o s : State} (h : Holds o s) (key : PlateKey) (version : Nat) :
    Holds o (s.noticeDone key version) := by
  simp (maxDischargeDepth := 40) [State.noticeDone, h]

@[simp] theorem State.noticeUntaken_holds {o s : State} (h : Holds o s) (key : PlateKey) (version : Nat) :
    Holds o (s.noticeUntaken key version) := by
  unfold State.noticeUntaken
  (repeat' split) <;> simp (maxDischargeDepth := 40) [h]

@[simp] theorem State.claimStarted_holds {o s : State} (h : Holds o s) (n : Slot) :
    Holds o (s.claimStarted n) := by
  simp (maxDischargeDepth := 40) [State.claimStarted, h]

@[simp] theorem State.claimReturned_holds {o s : State} (h : Holds o s) (n : Slot) :
    Holds o (s.claimReturned n) := by
  simp (maxDischargeDepth := 40) [State.claimReturned, h]

@[simp] theorem State.claimWithdrawn_holds {o s : State} (h : Holds o s) (n : Slot) :
    Holds o (s.claimWithdrawn n) := by
  unfold State.claimWithdrawn
  dsimp only
  (repeat' split) <;> simp (maxDischargeDepth := 40) [h]

@[simp] theorem State.claimResult_holds {o s : State} (h : Holds o s) (n : Slot) (key : PlateKey) (version : Nat) (r : ClaimResult) :
    Holds o (s.claimResult n key version r) := by
  unfold State.claimResult
  dsimp only
  (repeat' split) <;> simp (maxDischargeDepth := 40) [h]

@[simp] theorem State.imagerEnding_holds {o s : State} (h : Holds o s) (n : Slot) (e : Ending) :
    Holds o (s.imagerEnding n e) := by
  unfold State.imagerEnding
  (repeat' split) <;> simp (maxDischargeDepth := 40) [h]

@[simp] theorem State.boardHasNoRoom_holds {o s : State} (h : Holds o s)  :
    Holds o (s.boardHasNoRoom) := h.trans ⟨id, id, id⟩

@[simp] theorem State.boardAnomaly_holds {o s : State} (h : Holds o s)  :
    Holds o (s.boardAnomaly) := by
  simp (maxDischargeDepth := 40) [State.boardAnomaly, h]

@[simp] theorem State.takeHeader_holds {o s : State} (h : Holds o s) (key : PlateKey) (version sizeClass screeningClass rank : Nat) :
    Holds o (s.takeHeader key version sizeClass screeningClass rank) := by
  unfold State.takeHeader
  dsimp only
  split
  · rename_i hp
    split
    · rename_i b hb
      exact State.noticeContested_holds (State.setBoard_holds h (Board.Follows.record hb hp)) _ _ _ _ _
    · exact State.boardHasNoRoom_holds h
  · rename_i i hp
    split
    · exact h
    · rename_i old ho
      have hw : s.board.Follows (s.board.write i (s.contestedEntry key version sizeClass rank)) :=
        Board.Follows.write _ _ _ (Or.inl ⟨old, ho, Board.placeOf_some hp ho⟩)
      split
      · refine State.noticeContested_holds
          (State.setBoard_holds (State.noticeSuperseded_holds h key version) ?_) _ _ _ _ _
        rw [(State.noticeSuperseded_board _ _ _).1]
        exact hw
      · split
        · exact State.raise_holds h _
        · split
          · exact State.noticeContested_holds (State.setBoard_holds h hw) _ _ _ _ _
          · exact State.noticeContested_holds (State.setBoard_holds h hw) _ _ _ _ _
          all_goals exact State.raise_holds h _

@[simp] theorem State.windowExpires_holds {o s : State} (h : Holds o s) (i : Nat) :
    Holds o (s.windowExpires i) := by
  unfold State.windowExpires
  split
  · exact h
  · rename_i e he
    split
    · rename_i deadline hd
      dsimp only
      refine State.noticeUntaken_holds
        (State.latch_holds (State.setBoard_holds (State.advanceTo_holds h deadline) ?_) _) _ _
      have hb : (s.advanceTo deadline).board = s.board := by unfold State.advanceTo; split <;> simp [State.elapse]
      rw [hb]
      exact Board.Follows.write s.board i { e with state := .untaken } (Or.inl ⟨e, he, rfl⟩)
    all_goals exact h

@[simp] theorem State.reportClaim_holds {o s : State} (h : Holds o s) (own : Option Slot) (key : PlateKey) (version : Nat) (r : ClaimResult) :
    Holds o (s.reportClaim own key version r) := by
  unfold State.reportClaim
  (repeat' split) <;> simp (maxDischargeDepth := 40) [h]

set_option maxHeartbeats 1000000 in
@[simp] theorem State.takeClaim_holds {o s : State} (h : Holds o s) (sender : Station) (key : PlateKey) (version : Nat) (own : Option Slot) :
    Holds o (s.takeClaim sender key version own) := by
  unfold State.takeClaim
  dsimp only
  split
  · rename_i hp
    split
    · rename_i b hb
      exact State.reportClaim_holds (State.noticeOwned_holds
        (State.setBoard_holds h (Board.Follows.record hb hp)) _ _ _) _ _ _ _
    · exact State.reportClaim_holds (State.boardHasNoRoom_holds h) _ _ _ _
  · rename_i i hp
    split
    · exact h
    · rename_i old ho
      have hk := Board.placeOf_some hp ho
      split
      · refine State.reportClaim_holds (State.noticeOwned_holds
          (State.setBoard_holds (State.noticeSuperseded_holds h key version) ?_) _ _ _) _ _ _ _
        rw [(State.noticeSuperseded_board _ _ _).1]
        exact Board.Follows.write _ _ _ (Or.inl ⟨old, ho, hk⟩)
      · have hw : s.board.Follows (s.board.write i { old with state := .owned sender }) :=
          Board.Follows.write _ _ _ (Or.inl ⟨old, ho, rfl⟩)
        (repeat' split) <;> first
          | exact State.reportClaim_holds h _ _ _ _
          | exact State.reportClaim_holds (State.noticeOwned_holds (State.setBoard_holds h hw) _ _ _) _ _ _ _
          | exact State.reportClaim_holds (State.boardAnomaly_holds h) _ _ _ _

@[simp] theorem State.boardDone_holds {o s : State} (h : Holds o s) (b : Board) (hb : s.board.Follows b) (key : PlateKey) (version : Nat) :
    Holds o (s.boardDone b key version) := by
  unfold State.boardDone
  exact State.noticeDone_holds (State.setBoard_holds h (b := { b with full := false }) hb) key version

@[simp] theorem State.takeDone_holds {o s : State} (h : Holds o s) (sender : Station) (key : PlateKey) (version : Nat) (outcome : DoneOutcome) (damaged : Nat) (first : Option DamageKind) :
    Holds o (s.takeDone sender key version outcome damaged first) := by
  unfold State.takeDone
  dsimp only
  split
  · rename_i hp
    split
    · rename_i b hb
      exact State.boardDone_holds h b (Board.Follows.record hb hp) _ _
    · exact State.boardHasNoRoom_holds h
  · rename_i i hp
    split
    · exact h
    · rename_i old ho
      have hk := Board.placeOf_some hp ho
      split
      · refine State.boardDone_holds (State.noticeSuperseded_holds h key version) _ ?_ _ _
        rw [(State.noticeSuperseded_board _ _ _).1]
        exact Board.Follows.write _ _ _ (Or.inl ⟨old, ho, hk⟩)
      · have hw : s.board.Follows
            (s.board.write i { old with state := .done sender outcome damaged first }) :=
          Board.Follows.write _ _ _ (Or.inl ⟨old, ho, rfl⟩)
        (repeat' split) <;> first
          | exact h
          | exact State.boardDone_holds h _ hw _ _
          | exact State.boardAnomaly_holds h
          | exact State.boardDone_holds (State.boardAnomaly_holds h) _ hw _ _

@[simp] theorem State.orphan_holds {o s : State} (h : Holds o s) (peer : Station) :
    Holds o (s.orphan peer) := by
  unfold State.orphan
  split
  · exact h
  · refine State.latch_holds (State.setBoard_holds h ?_) _
    have k : ∀ (l : List Nat) (b c : Board), b.Follows c → b.Follows (l.foldl (Board.orphanAt peer) c) := by
      intro l
      induction l with
      | nil => intro b c hc; exact hc
      | cons i l ih =>
        intro b c hc
        refine ih b _ ?_
        unfold Board.orphanAt
        split
        · exact hc
        · rename_i e he
          split
          · exact fun x => Board.Follows.write c i { e with state := .orphaned peer } (Or.inl ⟨e, he, rfl⟩) (hc x)
          · exact hc
    exact k _ _ _ (fun x => x)

@[simp] theorem State.disposeOfPlate_holds {o s : State} (h : Holds o s) (c : Clearing) :
    Holds o (s.disposeOfPlate c) := by
  unfold State.disposeOfPlate
  dsimp only
  (repeat' split) <;> simp (maxDischargeDepth := 40) [h]

@[simp] theorem State.clearBlocks_holds {o s : State} (h : Holds o s) (c : Clearing) :
    Holds o (s.clearBlocks c) := by
  unfold State.clearBlocks
  dsimp only
  refine State.disposeOfPlate_holds ?_ c
  have hj : s.jobs.Follows
      { slots := Vector.replicate 8 none, generations := s.jobs.generations, readyCounter := 0 } := by
    intro m
    simp [JobTable.reserves]
  refine State.setScreener_holds (State.setRing_holds (State.setUnpacker_holds (State.setReceiver_holds
    (State.setJobs_holds (State.setBoard_holds (State.setRoll_holds (State.setLink_holds
      (State.setStation_holds h _) (Link.Follows.emptied _ _)) _) (Board.Follows.cleared _)) ?_) _) _) _) _
  simp only [State.setBoard_jobs, State.setRoll_jobs, State.setLink_jobs, State.setStation_jobs]
  exact hj

@[simp] theorem State.stopBlocks_holds {o s : State} (h : Holds o s)  :
    Holds o (s.stopBlocks) := by
  simp (maxDischargeDepth := 40) [State.stopBlocks, h]

@[simp] theorem State.clearForHalt_holds {o s : State} (h : Holds o s)  :
    Holds o (s.clearForHalt) := by
  simp (maxDischargeDepth := 40) [State.clearForHalt, h]

@[simp] theorem State.restartIsolation_holds {o s : State} (h : Holds o s)  :
    Holds o (s.restartIsolation) := by
  simp (maxDischargeDepth := 40) [State.restartIsolation, h]

@[simp] theorem State.enterJoining_holds {o s : State} (h : Holds o s)  :
    Holds o (s.enterJoining) := by
  simp (maxDischargeDepth := 40) [State.enterJoining, h]

@[simp] theorem State.startJoining_holds {o s : State} (h : Holds o s)  :
    Holds o (s.startJoining) := by
  unfold State.startJoining
  dsimp only
  (repeat' split) <;> simp (maxDischargeDepth := 40) [h]

@[simp] theorem State.rejoin_holds {o s : State} (h : Holds o s)  :
    Holds o (s.rejoin) := by
  unfold State.rejoin
  (repeat' split) <;> simp (maxDischargeDepth := 40) [h]

@[simp] theorem State.halt_holds {o s : State} (h : Holds o s)  :
    Holds o (s.halt) := by
  simp (maxDischargeDepth := 40) [State.halt, h]

@[simp] theorem State.bar_holds {o s : State} (h : Holds o s) (r : BarredReason) :
    Holds o (s.bar r) := by
  simp (maxDischargeDepth := 40) [State.bar, h]

@[simp] theorem State.detach_holds {o s : State} (h : Holds o s)  :
    Holds o (s.detach) := by
  unfold State.detach
  dsimp only
  refine State.latch_holds ?_ _
  have k : ∀ l m : Link, l.Follows
      { roll := m.emptied.roll, presence := m.emptied.presence, slots := m.emptied.slots,
        ageCounter := m.emptied.ageCounter, phase := .passive } := fun _ m =>
    fun _ => (Link.placesHold.emptied m).withPhase _
  exact State.setScreener_holds (State.setRing_holds (State.setUnpacker_holds (State.setReceiver_holds
    (State.setBoard_holds (State.setRoll_holds (State.setLink_holds
      (State.setStation_holds h _) (k _ _)) _) (Board.Follows.cleared _)) _) _) _) _

@[simp] theorem State.judgeMediaOut_holds {o s : State} (h : Holds o s)  :
    Holds o (s.judgeMediaOut) := by
  unfold State.judgeMediaOut
  (repeat' split) <;> simp (maxDischargeDepth := 40) [h]

@[simp] theorem State.leaveLoading_holds {o s : State} (h : Holds o s) (result : Option BarredReason) :
    Holds o (s.leaveLoading result) := by
  unfold State.leaveLoading
  dsimp only
  (repeat' split) <;> simp (maxDischargeDepth := 40) [h]

@[simp] theorem State.resetPart_holds {o s : State} (h : Holds o s)  :
    Holds o (s.resetPart) := by
  refine h.trans ⟨fun _ => ?_, fun _ => ?_, fun _ => ?_⟩
  · intro p q hq
    cases p <;> simp [State.resetPart, State.reset, Link.afterReset, Link.at] at hq
  · simp [State.resetPart, State.reset, Board.cleared, Board.lawful]
  · have : s.resetPart.reserved = 0 := by
      simp [State.reserved, State.resetPart, State.reset, State.job, JobTable.afterReset]
    simp [State.reservationFits, this]

@[simp] theorem State.countCorrected_holds {o s : State} (h : Holds o s) (n : Nat) :
    Holds o (s.countCorrected n) := by
  simp (maxDischargeDepth := 40) [State.countCorrected, h]

@[simp] theorem State.uncorrectable_holds {o s : State} (h : Holds o s) (r : Region) :
    Holds o (s.uncorrectable r) := by
  unfold State.uncorrectable
  dsimp only
  (repeat' split) <;> simp (maxDischargeDepth := 40) [h]

@[simp] theorem State.drain_holds {o s : State} (h : Holds o s)  :
    Holds o (s.drain) := by
  simp (maxDischargeDepth := 40) [State.drain, h]

@[simp] theorem State.resumeDraining_holds {o s : State} (h : Holds o s)  :
    Holds o (s.resumeDraining) := by
  unfold State.resumeDraining
  (repeat' split) <;> simp (maxDischargeDepth := 40) [h]

@[simp] theorem State.queueRoll_holds {o s : State} (h : Holds o s)  :
    Holds o (s.queueRoll) := by
  simp (maxDischargeDepth := 40) [State.queueRoll, h]

@[simp] theorem State.startJoinPeriod_holds {o s : State} (h : Holds o s)  :
    Holds o (s.startJoinPeriod) := by
  simp (maxDischargeDepth := 40) [State.startJoinPeriod, h]

@[simp] theorem State.ownSent_holds {o s : State} (h : Holds o s) (m : Msg) :
    Holds o (s.ownSent m) := by
  unfold State.ownSent
  dsimp only
  (repeat' split) <;> simp (maxDischargeDepth := 40) [h]

@[simp] theorem State.setPeer_holds {o s : State} (h : Holds o s) (n : Station) (p : Peer) :
    Holds o (s.setPeer n p) := by
  simp (maxDischargeDepth := 40) [State.setPeer, h]

@[simp] theorem State.heardFrom_holds {o s : State} (h : Holds o s) (n : Station) :
    Holds o (s.heardFrom n) := by
  unfold State.heardFrom
  (repeat' split) <;> simp (maxDischargeDepth := 40) [h]

@[simp] theorem State.judgeDigest_holds {o s : State} (h : Holds o s) (n : Station) (d : Half) :
    Holds o (s.judgeDigest n d) := by
  unfold State.judgeDigest
  dsimp only
  (repeat' split) <;> simp (maxDischargeDepth := 40) [h]

@[simp] theorem State.takeJoin_holds {o s : State} (h : Holds o s) (n : Station) (digest : Half) :
    Holds o (s.takeJoin n digest) := by
  unfold State.takeJoin
  dsimp only
  (repeat' split) <;> simp (maxDischargeDepth := 40) [h]

@[simp] theorem State.takeLeave_holds {o s : State} (h : Holds o s) (n : Station) :
    Holds o (s.takeLeave n) := by
  simp (maxDischargeDepth := 40) [State.takeLeave, h]

@[simp] theorem State.takeItem_holds {o s : State} (h : Holds o s) (n : Station) (slot : Nat) (item : Half) :
    Holds o (s.takeItem n slot item) := by
  unfold State.takeItem
  dsimp only
  (repeat' split) <;> simp (maxDischargeDepth := 40) [h]

@[simp] theorem State.takeRoll_holds {o s : State} (h : Holds o s) (n : Station) (counter slot : Nat) (item : Half) :
    Holds o (s.takeRoll n counter slot item) := by
  simp (maxDischargeDepth := 40) [State.takeRoll, h]

@[simp] theorem State.takePeerMessage_holds {o s : State} (h : Holds o s) (n : Station) (m : Msg) :
    Holds o (s.takePeerMessage n m) := by
  unfold State.takePeerMessage
  (repeat' split) <;> simp (maxDischargeDepth := 40) [h]

@[simp] theorem State.loseContact_holds {o s : State} (h : Holds o s) (n : Station) :
    Holds o (s.loseContact n) := by
  simp (maxDischargeDepth := 40) [State.loseContact, h]

@[simp] theorem State.setPhase_holds {o s : State} (h : Holds o s) (ph : LinkPhase) :
    Holds o (s.setPhase ph) := by
  simp (maxDischargeDepth := 40) [State.setPhase, h]

@[simp] theorem State.leaveWithdrawn_holds {o s : State} (h : Holds o s)  :
    Holds o (s.leaveWithdrawn) := by
  unfold State.leaveWithdrawn
  (repeat' split) <;> simp (maxDischargeDepth := 40) [h]

@[simp] theorem State.claimUnsent_holds {o s : State} (h : Holds o s) (n : Slot) (r : Unsent) :
    Holds o (s.claimUnsent n r) := by
  unfold State.claimUnsent
  (repeat' split) <;> simp (maxDischargeDepth := 40) [h]

@[simp] theorem State.reportUnsent_holds {o s : State} (h : Holds o s) (p : Place) :
    Holds o (s.reportUnsent p) := by
  unfold State.reportUnsent
  dsimp only
  (repeat' split) <;> simp (maxDischargeDepth := 40) [h]

@[simp] theorem State.reportContender_holds {o s : State} (h : Holds o s) (c : Option Place) :
    Holds o (s.reportContender c) := by
  unfold State.reportContender
  (repeat' split) <;> simp (maxDischargeDepth := 40) [h]

@[simp] theorem State.startCandidate_holds {o s : State} (h : Holds o s) (p : Place) :
    Holds o (s.startCandidate p) := by
  unfold State.startCandidate
  dsimp only
  (repeat' split) <;> simp (maxDischargeDepth := 40) [h]

@[simp] theorem State.startOpening_holds {o s : State} (h : Holds o s)  :
    Holds o (s.startOpening) := by
  unfold State.startOpening
  (repeat' split) <;> simp (maxDischargeDepth := 40) [h]

@[simp] theorem State.breakOpening_holds {o s : State} (h : Holds o s) (c : Option Place) :
    Holds o (s.breakOpening c) := by
  simp (maxDischargeDepth := 40) [State.breakOpening, h]

@[simp] theorem State.endRound_holds {o s : State} (h : Holds o s) (c : Option Place) (won : List Nat) (low : Nat) :
    Holds o (s.endRound c won low) := by
  unfold State.endRound
  (repeat' split) <;> simp (maxDischargeDepth := 40) [h]

@[simp] theorem State.endBody_holds {o s : State} (h : Holds o s) (role : LinkRole) (key : WinningKey) (framed : Bool) (bytes : List Byte) :
    Holds o (s.endBody role key framed bytes) := by
  unfold State.endBody
  dsimp only
  (repeat' split) <;> simp (maxDischargeDepth := 40) [h]

@[simp] theorem State.countSpoiled_holds {o s : State} (h : Holds o s) (held : Bool) :
    Holds o (s.countSpoiled held) := by
  unfold State.countSpoiled
  dsimp only
  (repeat' split) <;> simp (maxDischargeDepth := 40) [h]

@[simp] theorem State.endSpoiled_holds {o s : State} (h : Holds o s) (role : LinkRole) (held : Bool) :
    Holds o (s.endSpoiled role held) := by
  unfold State.endSpoiled
  dsimp only
  (repeat' split) <;> simp (maxDischargeDepth := 40) [h]

@[simp] theorem State.handOverOwn_holds {o s : State} (h : Holds o s) (p : Place) (m : Msg) :
    Holds o (s.handOverOwn p m) := by
  unfold State.handOverOwn
  dsimp only
  (repeat' split) <;> simp (maxDischargeDepth := 40) [h]

@[simp] theorem State.acceptOwn_holds {o s : State} (h : Holds o s) (p : Place) :
    Holds o (s.acceptOwn p) := by
  unfold State.acceptOwn
  dsimp only
  (repeat' split) <;> simp (maxDischargeDepth := 40) [h]

@[simp] theorem State.acceptOther_holds {o s : State} (h : Holds o s) (heard : Option (Station × Msg)) :
    Holds o (s.acceptOther heard) := by
  unfold State.acceptOther
  dsimp only
  (repeat' split) <;> simp (maxDischargeDepth := 40) [h]

@[simp] theorem State.endWindow_holds {o s : State} (h : Holds o s) (role : LinkRole) (hold : Bool) (heard : Option (Station × Msg)) (low : Bool) :
    Holds o (s.endWindow role hold heard low) := by
  unfold State.endWindow
  (repeat' split) <;> simp (maxDischargeDepth := 40) [h]

@[simp] theorem State.setFraming_holds {o s : State} (h : Holds o s) (f : Framing) :
    Holds o (s.setFraming f) := by
  simp (maxDischargeDepth := 40) [State.setFraming, h]

@[simp] theorem State.append_holds {o s : State} (h : Holds o s) (r : HoldingRecord) :
    Holds o (s.append r) := by
  simp (maxDischargeDepth := 40) [State.append, h]

@[simp] theorem State.headerFails_holds {o s : State} (h : Holds o s) (got : List Byte) :
    Holds o (s.headerFails got) := by
  simp (maxDischargeDepth := 40) [State.headerFails, h]

@[simp] theorem State.dropMarked_holds {o s : State} (h : Holds o s) (n : Slot) (a : Arrived) (kind : DamageKind) :
    Holds o (s.dropMarked n a kind) := by
  simp (maxDischargeDepth := 40) [State.dropMarked, h]

@[simp] theorem State.noteOverflow_holds {o s : State} (h : Holds o s)  :
    Holds o (s.noteOverflow) := by
  simp (maxDischargeDepth := 40) [State.noteOverflow, h]

@[simp] theorem State.restartQuiet_holds {o s : State} (h : Holds o s) (n : Slot) :
    Holds o (s.restartQuiet n) := by
  simp (maxDischargeDepth := 40) [State.restartQuiet, h]

@[simp] theorem State.admitFragment_holds {o s : State} (h : Holds o s) (n : Slot) (j : Job) (a : Arrived) :
    Holds o (s.admitFragment n j a) := by
  simp (maxDischargeDepth := 40) [State.admitFragment, h]

@[simp] theorem State.moveCursor_holds {o s : State} (h : Holds o s) (n : Slot) (a : Arrived) :
    Holds o (s.moveCursor n a) := by
  simp (maxDischargeDepth := 40) [State.moveCursor, h]

@[simp] theorem State.checkFragment_holds {o s : State} (h : Holds o s) (n : Slot) (j : Job) (a : Arrived) :
    Holds o (s.checkFragment n j a) := by
  unfold State.checkFragment
  dsimp only
  (repeat' split) <;> simp (maxDischargeDepth := 40) [h]

@[simp] theorem State.judgeArrived_holds {o s : State} (h : Holds o s) (n : Slot) (j : Job) (a : Arrived) :
    Holds o (s.judgeArrived n j a) := by
  unfold State.judgeArrived
  (repeat' split) <;> simp (maxDischargeDepth := 40) [h]

@[simp] theorem State.takeArrived_holds {o s : State} (h : Holds o s) (key : PlateKey) (version : Nat) (a : Arrived) :
    Holds o (s.takeArrived key version a) := by
  unfold State.takeArrived
  (repeat' split) <;> simp (maxDischargeDepth := 40) [h]

@[simp] theorem State.completeFragment_holds {o s : State} (h : Holds o s) (header got : List Byte) (cut : Bool) :
    Holds o (s.completeFragment header got cut) := by
  unfold State.completeFragment
  dsimp only
  (repeat' split) <;> simp (maxDischargeDepth := 40) [h]

@[simp] theorem State.admitEnd_holds {o s : State} (h : Holds o s) (n : Slot) (j : Job) (origin : EndOrigin) :
    Holds o (s.admitEnd n j origin) := by
  simp (maxDischargeDepth := 40) [State.admitEnd, h]

@[simp] theorem State.takePlateEnd_holds {o s : State} (h : Holds o s) (key : PlateKey) (version : Nat) :
    Holds o (s.takePlateEnd key version) := by
  unfold State.takePlateEnd
  (repeat' split) <;> simp (maxDischargeDepth := 40) [h]

@[simp] theorem State.wholeHeader_holds {o s : State} (h : Holds o s) (got : List Byte) :
    Holds o (s.wholeHeader got) := by
  unfold State.wholeHeader
  (repeat' split) <;> simp (maxDischargeDepth := 40) [h]

@[simp] theorem State.takeHeaderBytes_holds {o s : State} (h : Holds o s) (got : List Byte) :
    Holds o (s.takeHeaderBytes got) := by
  unfold State.takeHeaderBytes
  (repeat' split) <;> simp (maxDischargeDepth := 40) [h]

@[simp] theorem State.takePayloadBytes_holds {o s : State} (h : Holds o s) (header got : List Byte) :
    Holds o (s.takePayloadBytes header got) := by
  unfold State.takePayloadBytes
  (repeat' split) <;> simp (maxDischargeDepth := 40) [h]

@[simp] theorem State.feedByte_holds {o s : State} (h : Holds o s) (b : Byte) :
    Holds o (s.feedByte b) := by
  unfold State.feedByte
  (repeat' split) <;> simp (maxDischargeDepth := 40) [h]

@[simp] theorem State.feed_holds {o s : State} (h : Holds o s) (bytes : List Byte) :
    Holds o (s.feed bytes) := by
  unfold State.feed
  split
  · exact Holds.foldl (fun s b => State.feedByte_holds (Holds.refl s) b) h bytes
  · exact h

@[simp] theorem State.cutShort_holds {o s : State} (h : Holds o s)  :
    Holds o (s.cutShort) := by
  unfold State.cutShort
  (repeat' split) <;> simp (maxDischargeDepth := 40) [h]

@[simp] theorem State.setWork_holds {o s : State} (h : Holds o s) (w : UnpackWork) :
    Holds o (s.setWork w) := by
  simp (maxDischargeDepth := 40) [State.setWork, h]

@[simp] theorem State.placeDescriptor_holds {o s : State} (h : Holds o s) (d : Descriptor) :
    Holds o (s.placeDescriptor d) := by
  simp (maxDischargeDepth := 40) [State.placeDescriptor, h]

@[simp] theorem State.offerDescriptor_holds {o s : State} (h : Holds o s) (d : Descriptor) (a : AfterRing) :
    Holds o (s.offerDescriptor d a) := by
  unfold State.offerDescriptor
  (repeat' split) <;> simp (maxDischargeDepth := 40) [h]

@[simp] theorem State.endBand_holds {o s : State} (h : Holds o s) (n : Slot) (b : Nat) (a : AfterRing) :
    Holds o (s.endBand n b a) := by
  unfold State.endBand
  dsimp only
  (repeat' split) <;> simp (maxDischargeDepth := 40) [h]

@[simp] theorem State.reportGap_holds {o s : State} (h : Holds o s) (n : Slot) (b : Nat) :
    Holds o (s.reportGap n b) := by
  unfold State.reportGap
  (repeat' split) <;> simp (maxDischargeDepth := 40) [h]

@[simp] theorem State.endAsGap_holds {o s : State} (h : Holds o s) (n : Slot) (b : Nat) (k : Option DamageKind) :
    Holds o (s.endAsGap n b k) := by
  simp (maxDischargeDepth := 40) [State.endAsGap, h]

@[simp] theorem State.endCurrentBelow_holds {o s : State} (h : Holds o s) (n : Slot) (b : Nat) (k : Option DamageKind) :
    Holds o (s.endCurrentBelow n b k) := by
  unfold State.endCurrentBelow
  (repeat' split) <;> simp (maxDischargeDepth := 40) [h]

@[simp] theorem State.endIfAwaited_holds {o s : State} (h : Holds o s) (n : Slot) (k : Option DamageKind)
    (a : Nat) : Holds o (State.endIfAwaited n k s a) := by
  unfold State.endIfAwaited
  (repeat' split) <;> simp (maxDischargeDepth := 40) [h]

@[simp] theorem State.orderBands_holds {o s : State} (h : Holds o s) (n : Slot) (b : Nat) (k : Option DamageKind) :
    Holds o (s.orderBands n b k) := 
  Holds.foldl (fun s a => State.endIfAwaited_holds (Holds.refl s) n k a) (State.endCurrentBelow_holds h n b k) _

@[simp] theorem State.discardHead_holds {o s : State} (h : Holds o s)  :
    Holds o (s.discardHead) := by
  simp (maxDischargeDepth := 40) [State.discardHead, h]

@[simp] theorem State.endAndDiscard_holds {o s : State} (h : Holds o s) (n : Slot) (b : Nat) (k : Option DamageKind) :
    Holds o (s.endAndDiscard n b k) := by
  unfold State.endAndDiscard
  dsimp only
  (repeat' split) <;> simp (maxDischargeDepth := 40) [h]

@[simp] theorem State.beginBand_holds {o s : State} (h : Holds o s) (n : Slot) (b : Nat) :
    Holds o (s.beginBand n b) := by
  unfold State.beginBand
  (repeat' split) <;> simp (maxDischargeDepth := 40) [h]

@[simp] theorem State.judgeBand_holds {o s : State} (h : Holds o s) (n : Slot) (b part : Nat) (k : Option DamageKind) :
    Holds o (s.judgeBand n b part k) := by
  unfold State.judgeBand
  (repeat' split) <;> simp (maxDischargeDepth := 40) [h]

@[simp] theorem State.judgeFragment_holds {o s : State} (h : Holds o s) (n : Slot) (b part : Nat) (k : Option DamageKind) :
    Holds o (s.judgeFragment n b part k) := by
  unfold State.judgeFragment
  dsimp only
  (repeat' split) <;> simp (maxDischargeDepth := 40) [h]

@[simp] theorem State.processEnd_holds {o s : State} (h : Holds o s) (n : Slot) :
    Holds o (s.processEnd n) := by
  simp (maxDischargeDepth := 40) [State.processEnd, h]

@[simp] theorem State.judgeEnd_holds {o s : State} (h : Holds o s) (n : Slot) :
    Holds o (s.judgeEnd n) := by
  unfold State.judgeEnd
  dsimp only
  (repeat' split) <;> simp (maxDischargeDepth := 40) [h]

@[simp] theorem State.actOn_holds {o s : State} (h : Holds o s) (r : HoldingRecord) (k : Option DamageKind) :
    Holds o (s.actOn r k) := by
  unfold State.actOn
  (repeat' split) <;> simp (maxDischargeDepth := 40) [h]

@[simp] theorem State.takeHead_holds {o s : State} (h : Holds o s)  :
    Holds o (s.takeHead) := by
  unfold State.takeHead
  (repeat' split) <;> simp (maxDischargeDepth := 40) [h]

@[simp] theorem State.endDecoding_holds {o s : State} (h : Holds o s) (n : Slot) (b : Nat) :
    Holds o (s.endDecoding n b) := by
  unfold State.endDecoding
  dsimp only
  (repeat' split) <;> simp (maxDischargeDepth := 40) [h]

@[simp] theorem State.endPart_holds {o s : State} (h : Holds o s) (n : Slot) (b part : Nat) (capture : List Byte) (e : PartEnd) :
    Holds o (s.endPart n b part capture e) := by
  unfold State.endPart
  (repeat' split) <;> simp (maxDischargeDepth := 40) [h]

@[simp] theorem State.decodePart_holds {o s : State} (h : Holds o s) (n : Slot) (j : Job) (b buffer part : Nat) (last : Bool) (payload capture : List Byte) :
    Holds o (s.decodePart n j b buffer part last payload capture) := by
  simp (maxDischargeDepth := 40) [State.decodePart, h]

@[simp] theorem State.partDecoded_holds {o s : State} (h : Holds o s)  :
    Holds o (s.partDecoded) := by
  unfold State.partDecoded
  (repeat' split) <;> simp (maxDischargeDepth := 40) [h]

@[simp] theorem State.resumeAfterRing_holds {o s : State} (h : Holds o s) (d : Descriptor) (a : AfterRing) :
    Holds o (s.resumeAfterRing d a) := by
  unfold State.resumeAfterRing
  dsimp only
  (repeat' split) <;> simp (maxDischargeDepth := 40) [h]

@[simp] theorem State.writeScreened_holds {o s : State} (h : Holds o s) (c : CurrentBand) :
    Holds o (s.writeScreened c) := by
  simp (maxDischargeDepth := 40) [State.writeScreened, h]

@[simp] theorem State.takeEntry_holds {o s : State} (h : Holds o s) (d : Descriptor) :
    Holds o (s.takeEntry d) := by
  unfold State.takeEntry
  (repeat' split) <;> simp (maxDischargeDepth := 40) [h]

@[simp] theorem State.recordScreened_holds {o s : State} (h : Holds o s) (c : CurrentBand) :
    Holds o (s.recordScreened c) := by
  simp (maxDischargeDepth := 40) [State.recordScreened, h]

@[simp] theorem State.finishBand_holds {o s : State} (h : Holds o s) (c : CurrentBand) :
    Holds o (s.finishBand c) := by
  unfold State.finishBand
  dsimp only
  (repeat' split) <;> simp (maxDischargeDepth := 40) [h]

@[simp] theorem State.bandFinished_holds {o s : State} (h : Holds o s) (c : CurrentBand) :
    Holds o (s.bandFinished c) := by
  simp (maxDischargeDepth := 40) [State.bandFinished, h]

@[simp] theorem State.reportEnding_holds {o s : State} (h : Holds o s)  :
    Holds o (s.reportEnding) := by
  unfold State.reportEnding
  (repeat' split) <;> simp (maxDischargeDepth := 40) [h]

@[simp] theorem State.countEject_holds {o s : State} (h : Holds o s)  :
    Holds o (s.countEject) := by
  unfold State.countEject
  (repeat' split) <;> simp (maxDischargeDepth := 40) [h]

@[simp] theorem State.enterFault_holds {o s : State} (h : Holds o s)  :
    Holds o (s.enterFault) := by
  simp (maxDischargeDepth := 40) [State.enterFault, h]

@[simp] theorem State.enterIdle_holds {o s : State} (h : Holds o s)  :
    Holds o (s.enterIdle) := by
  simp (maxDischargeDepth := 40) [State.enterIdle, h]

@[simp] theorem State.endHold_holds {o s : State} (h : Holds o s) (timeout : Bool) :
    Holds o (s.endHold timeout) := by
  unfold State.endHold
  dsimp only
  (repeat' split) <;> simp (maxDischargeDepth := 40) [h]

@[simp] theorem State.enterImaging_holds {o s : State} (h : Holds o s)  :
    Holds o (s.enterImaging) := by
  unfold State.enterImaging
  dsimp only
  (repeat' split) <;> simp (maxDischargeDepth := 40) [h]

@[simp] theorem State.plateLoaded_holds {o s : State} (h : Holds o s)  :
    Holds o (s.plateLoaded) := by
  unfold State.plateLoaded
  (repeat' split) <;> simp (maxDischargeDepth := 40) [h]

@[simp] theorem State.ignoreLine_holds {o s : State} (h : Holds o s)  :
    Holds o (s.ignoreLine) := by
  unfold State.ignoreLine
  (repeat' split) <;> simp (maxDischargeDepth := 40) [h]

@[simp] theorem State.outputSwath_holds {o s : State} (h : Holds o s)  :
    Holds o (s.outputSwath) := by
  simp (maxDischargeDepth := 40) [State.outputSwath, h]

@[simp] theorem State.judgeIndex_holds {o s : State} (h : Holds o s)  :
    Holds o (s.judgeIndex) := by
  unfold State.judgeIndex
  (repeat' split) <;> simp (maxDischargeDepth := 40) [h]

@[simp] theorem State.drumExpires_holds {o s : State} (h : Holds o s)  :
    Holds o (s.drumExpires) := by
  simp (maxDischargeDepth := 40) [State.drumExpires, h]

@[simp] theorem State.takeIndex_holds {o s : State} (h : Holds o s) (ticks : Nat) :
    Holds o (s.takeIndex ticks) := by
  unfold State.takeIndex
  dsimp only
  (repeat' split) <;> simp (maxDischargeDepth := 40) [h]

@[simp] theorem State.completeSwath_holds {o s : State} (h : Holds o s)  :
    Holds o (s.completeSwath) := by
  unfold State.completeSwath
  dsimp only
  (repeat' split) <;> simp (maxDischargeDepth := 40) [h]

@[simp] theorem State.headLost_holds {o s : State} (h : Holds o s)  :
    Holds o (s.headLost) := by
  unfold State.headLost
  (repeat' split) <;> simp (maxDischargeDepth := 40) [h]

@[simp] theorem State.headBack_holds {o s : State} (h : Holds o s)  :
    Holds o (s.headBack) := by
  unfold State.headBack
  (repeat' split) <;> simp (maxDischargeDepth := 40) [h]

@[simp] theorem State.headChanges_holds {o s : State} (h : Holds o s) (asserted : Bool) :
    Holds o (s.headChanges asserted) := by
  unfold State.headChanges
  dsimp only
  (repeat' split) <;> simp (maxDischargeDepth := 40) [h]

@[simp] theorem State.mediaChanges_holds {o s : State} (h : Holds o s) (asserted : Bool) :
    Holds o (s.mediaChanges asserted) := by
  unfold State.mediaChanges
  dsimp only
  (repeat' split) <;> simp (maxDischargeDepth := 40) [h]

@[simp] theorem State.loadBlocks_holds {o s : State} (h : Holds o s)  :
    Holds o (s.loadBlocks) := by
  simp (maxDischargeDepth := 40) [State.loadBlocks, h]

@[simp] theorem State.takeChecks_holds {o s : State} (h : Holds o s) (image : Mem) (failure : Option (BarredReason × Option Nat)) :
    Holds o (s.takeChecks image failure) := by
  unfold State.takeChecks
  (repeat' split) <;> simp (maxDischargeDepth := 40) [h]

@[simp] theorem State.answer_holds {o s : State} (h : Holds o s) (response : List Byte) :
    Holds o (s.answer response) := by
  simp (maxDischargeDepth := 40) [State.answer, h]

@[simp] theorem State.refuse_holds {o s : State} (h : Holds o s)  :
    Holds o (s.refuse) := by
  simp (maxDischargeDepth := 40) [State.refuse, h]

theorem State.act_holds {o s effect : State} (h : Holds o s) (taken : Bool) (k : Holds o effect) :
    Holds o (s.act taken effect) := by
  unfold State.act
  split
  · exact State.answer_holds k []
  · exact State.refuse_holds h

theorem State.onSlot_holds {o s : State} (h : Holds o s) (b : Byte) {f : Slot → State} (k : ∀ n, Holds o (f n)) :
    Holds o (s.onSlot b f) := by
  unfold State.onSlot
  split
  · exact k _
  · exact State.refuse_holds h


@[simp] theorem State.runReadStatus_holds {o s : State} (h : Holds o s)  :
    Holds o (s.runReadStatus) := by
  simp (maxDischargeDepth := 40) [State.runReadStatus, h]

@[simp] theorem State.runReadAttention_holds {o s : State} (h : Holds o s)  :
    Holds o (s.runReadAttention) := by
  simp (maxDischargeDepth := 40) [State.runReadAttention, h]

@[simp] theorem State.runClearAttention_holds {o s : State} (h : Holds o s) (data : List Byte) :
    Holds o (s.runClearAttention data) := by
  simp (maxDischargeDepth := 40) [State.runClearAttention, h]

@[simp] theorem State.runSetMask_holds {o s : State} (h : Holds o s) (data : List Byte) :
    Holds o (s.runSetMask data) := by
  simp (maxDischargeDepth := 40) [State.runSetMask, h]

@[simp] theorem State.runReadJob_holds {o s : State} (h : Holds o s) (data : List Byte) :
    Holds o (s.runReadJob data) := by
  refine State.onSlot_holds h _ fun n => ?_
  try split
  all_goals simp (maxDischargeDepth := 40) [h]

@[simp] theorem State.runReadBandMap_holds {o s : State} (h : Holds o s) (data : List Byte) :
    Holds o (s.runReadBandMap data) := by
  refine State.onSlot_holds h _ fun n => ?_
  try split
  all_goals simp (maxDischargeDepth := 40) [h]

@[simp] theorem State.runReadDamage_holds {o s : State} (h : Holds o s) (data : List Byte) :
    Holds o (s.runReadDamage data) := by
  refine State.onSlot_holds h _ fun n => ?_
  try split
  all_goals simp (maxDischargeDepth := 40) [h]

@[simp] theorem State.runReadBoard_holds {o s : State} (h : Holds o s) (data : List Byte) :
    Holds o (s.runReadBoard data) := by
  unfold State.runReadBoard
  dsimp only
  (repeat' split) <;> simp (maxDischargeDepth := 40) [h]

@[simp] theorem State.runFindBoard_holds {o s : State} (h : Holds o s) (data : List Byte) :
    Holds o (s.runFindBoard data) := by
  unfold State.runFindBoard
  dsimp only
  (repeat' split) <;> simp (maxDischargeDepth := 40) [h]

@[simp] theorem State.runReadPeer_holds {o s : State} (h : Holds o s) (data : List Byte) :
    Holds o (s.runReadPeer data) := by
  unfold State.runReadPeer
  (repeat' split) <;> simp (maxDischargeDepth := 40) [h]

@[simp] theorem State.runReadCounters_holds {o s : State} (h : Holds o s) (data : List Byte) :
    Holds o (s.runReadCounters data) := by
  unfold State.runReadCounters
  (repeat' split) <;> simp (maxDischargeDepth := 40) [h]

@[simp] theorem State.runClearCounters_holds {o s : State} (h : Holds o s)  :
    Holds o (s.runClearCounters) := by
  simp (maxDischargeDepth := 40) [State.runClearCounters, h]

@[simp] theorem State.runReadLog_holds {o s : State} (h : Holds o s)  :
    Holds o (s.runReadLog) := by
  simp (maxDischargeDepth := 40) [State.runReadLog, h]

@[simp] theorem State.runClearLog_holds {o s : State} (h : Holds o s)  :
    Holds o (s.runClearLog) := by
  simp (maxDischargeDepth := 40) [State.runClearLog, h]

@[simp] theorem State.runReadSetting_holds {o s : State} (h : Holds o s) (data : List Byte) :
    Holds o (s.runReadSetting data) := by
  simp (maxDischargeDepth := 40) [State.runReadSetting, h]

@[simp] theorem State.runRelease_holds {o s : State} (h : Holds o s) (data : List Byte) :
    Holds o (s.runRelease data) := 
  State.onSlot_holds h _ fun n => State.act_holds h _ (by simp (maxDischargeDepth := 40) [h])

@[simp] theorem State.runDrop_holds {o s : State} (h : Holds o s) (data : List Byte) :
    Holds o (s.runDrop data) := 
  State.onSlot_holds h _ fun n => State.act_holds h _ (by simp (maxDischargeDepth := 40) [h])

@[simp] theorem State.runDrain_holds {o s : State} (h : Holds o s)  :
    Holds o (s.runDrain) := State.act_holds h _ (State.drain_holds h)

@[simp] theorem State.runResume_holds {o s : State} (h : Holds o s)  :
    Holds o (s.runResume) := by
  unfold State.runResume
  split <;> first
    | exact State.act_holds h _ (State.resumeDraining_holds h)
    | exact State.act_holds h _ (State.startJoining_holds h)
    | exact State.refuse_holds h

@[simp] theorem State.runResetStation_holds {o s : State} (h : Holds o s)  :
    Holds o (s.runResetStation) := by
  simp (maxDischargeDepth := 40) [State.runResetStation, h]

@[simp] theorem State.execute_holds {o s : State} (h : Holds o s) (code : Byte) (data : List Byte) :
    Holds o (s.execute code data) := by
  unfold State.execute
  (repeat' split) <;> simp (maxDischargeDepth := 40) [h]

@[simp] theorem State.beginCommand_holds {o s : State} (h : Holds o s)  :
    Holds o (s.beginCommand) := by
  simp (maxDischargeDepth := 40) [State.beginCommand, h]

@[simp] theorem State.takeCommandByte_holds {o s : State} (h : Holds o s) (code : Byte) :
    Holds o (s.takeCommandByte code) := by
  unfold State.takeCommandByte
  dsimp only
  (repeat' split) <;> simp (maxDischargeDepth := 40) [h]

@[simp] theorem State.takeDataByte_holds {o s : State} (h : Holds o s) (b : Byte) :
    Holds o (s.takeDataByte b) := by
  unfold State.takeDataByte
  dsimp only
  (repeat' split) <;> simp (maxDischargeDepth := 40) [h]

@[simp] theorem State.clearInput_holds {o s : State} (h : Holds o s)  :
    Holds o (s.clearInput) := by
  simp (maxDischargeDepth := 40) [State.clearInput, h]

@[simp] theorem State.portCommand_holds {o s : State} (h : Holds o s) (code : Byte) (data : List Byte) :
    Holds o (s.portCommand code data) := by
  unfold State.portCommand
  split
  · exact Holds.foldl (fun s b => State.takeDataByte_holds (Holds.refl s) b)
      (State.takeCommandByte_holds (State.clearInput_holds h) code) data
  · exact State.raiseBy_holds h _ _

@[simp] theorem State.writeInput_holds {o s : State} (h : Holds o s) (address : PortAddress) (byte : Byte) :
    Holds o (s.writeInput address byte) := by
  unfold State.writeInput
  (repeat' split) <;> simp (maxDischargeDepth := 40) [h]

@[simp] theorem State.readData_holds {o s : State} (h : Holds o s)  :
    Holds o (s.readData) := by
  simp (maxDischargeDepth := 40) [State.readData, h]

end Sys2Proof.Machine
end

