-- ==== Sys2Proof/Laws/Ring.lean ====
section
/-! SUPPORT. The band ring (R124 to R128): what placing, advancing and voiding leave of the Screener's entries, and of
the band buffers that their descriptors have. -/

namespace Sys2Proof.Machine

/-! ## Counting over a list -/

/-- Two counts over a list without repetition that differ at one member only. -/
theorem countP_change {α : Type} [DecidableEq α] (l : List α) (hl : l.Nodup) (n : α) (hn : n ∈ l) (p q : α → Bool)
    (h : ∀ m, m ≠ n → p m = q m) : l.countP p + (q n).toNat = l.countP q + (p n).toNat := by
  induction l with
  | nil => simp at hn
  | cons a l ih =>
    rw [List.nodup_cons] at hl
    rw [List.countP_cons, List.countP_cons]
    by_cases e : a = n
    · subst e
      have : l.countP p = l.countP q := List.countP_congr fun m hm => by
        have : m ≠ a := fun e => hl.1 (e ▸ hm)
        rw [h m this]
      cases hp : p a <;> cases hq : q a <;> simp_all
    · have hm : n ∈ l := by
        rcases List.mem_cons.mp hn with h | h
        · exact absurd h.symm e
        · exact h
      have := ih hl.2 hm
      rw [h a e]
      omega

/-! ## The Screener's entries -/

/-- An entry is the Screener's as the ring's law gives it. -/
theorem Ring.lawful.owns {r : Ring} (h : r.lawful) (i : Fin 32) :
    r.owns i = if r.producerPass = r.consumerPass then decide (r.consumer ≤ i ∧ i < r.producer)
      else decide (r.consumer ≤ i ∨ i < r.producer) := by
  split
  · rename_i e; exact (h.1 e).2 i
  · rename_i e; exact (h.2 e).2 i

theorem Ring.lawful.cleared : Ring.cleared.lawful := by
  refine ⟨fun _ => ⟨by decide, fun i => ?_⟩, fun h => absurd rfl h⟩
  revert i
  decide

/-- The index after 31 is 0, and every other is followed by the next number. -/
theorem ringNext (p : Fin 32) : (p = 31 ∧ (p + 1).val = 0) ∨ (p ≠ 31 ∧ (p + 1).val = p.val + 1) := by
  revert p; decide

/-- A placed descriptor makes its entry the Screener's, and no other. -/
theorem Ring.place_owns {r : Ring} (h : r.lawful) (hf : r.isFull = false) (d : Descriptor) (i : Fin 32) :
    (r.place d).owns i = if i = r.producer then true else r.owns i := by
  by_cases e : i = r.producer
  · subst e
    rw [if_pos rfl]
    have hp := h.owns r.producer
    rw [show r.owns r.producer = false from hf] at hp
    simp only [Ring.owns, Ring.place, Fin.getElem_fin, Vector.getElem_set_self]
    by_cases k : r.producerPass = r.consumerPass
    · simp [k, (h.1 k).1]
    · have hlt : ¬ r.consumer ≤ r.producer := by
        simp [k] at hp
        exact Fin.not_le.mpr hp
      have : r.producerPass = !r.consumerPass := by
        revert k; cases r.producerPass <;> cases r.consumerPass <;> simp
      simp [hlt, this]
  · rw [if_neg e]
    have : (r.producer : Nat) ≠ (i : Nat) := fun x => e (Fin.ext x.symm)
    simp only [Ring.owns, Ring.place, Fin.getElem_fin]
    rw [Vector.getElem_set_ne _ _ this]
    rfl

theorem Ring.lawful.place {r : Ring} (h : r.lawful) (hf : r.isFull = false) (d : Descriptor) : (r.place d).lawful := by
  have ho := fun i => Ring.place_owns h hf d i
  have hp := h.owns r.producer
  rw [show r.owns r.producer = false from hf] at hp
  have hpr : (r.place d).producer = r.producer + 1 := rfl
  have hco : (r.place d).consumer = r.consumer := rfl
  have hcp : (r.place d).consumerPass = r.consumerPass := rfl
  have hpp : (r.place d).producerPass = if r.producer = 31 then !r.producerPass else r.producerPass := rfl
  have h31 : (31 : Fin 32).val = 31 := rfl
  have hc := r.consumer.isLt
  unfold Ring.lawful
  rw [hpp, hcp, hpr, hco]
  clear hpp hcp hpr hco
  by_cases k : r.producerPass = r.consumerPass
  · have h1 := (h.1 k).1
    rcases ringNext r.producer with ⟨e, ep⟩ | ⟨e, ep⟩
    · have hx : (!r.producerPass) ≠ r.consumerPass := by rw [k]; cases r.consumerPass <;> decide
      rw [if_pos e]
      refine ⟨fun y => absurd y hx, fun _ => ⟨by rw [Fin.le_def]; omega, fun i => ?_⟩⟩
      have hi := i.isLt
      rw [ho, h.owns i, Bool.eq_iff_iff]
      have e' : r.producer.val = 31 := by rw [e]; rfl
      split <;> simp only [k, if_true, true_iff, decide_eq_true_eq, Fin.le_def, Fin.lt_def, Fin.ext_iff] at * <;> omega
    · rw [if_neg e]
      refine ⟨fun _ => ⟨by rw [Fin.le_def] at *; omega, fun i => ?_⟩, fun y => absurd k y⟩
      rw [ho, h.owns i, Bool.eq_iff_iff]
      split <;> simp only [k, if_true, true_iff, decide_eq_true_eq, Fin.le_def, Fin.lt_def, Fin.ext_iff] at * <;> omega
  · have h1 := (h.2 k).1
    rw [if_neg k] at hp
    have hp2 : ¬ (r.consumer ≤ r.producer ∨ r.producer < r.producer) := of_decide_eq_false hp.symm
    rcases ringNext r.producer with ⟨e, ep⟩ | ⟨e, ep⟩
    · exfalso
      have e' : r.producer.val = 31 := by rw [e]; rfl
      simp only [Fin.le_def, Fin.lt_def] at *
      omega
    · rw [if_neg e]
      refine ⟨fun y => absurd y k, fun _ => ⟨by simp only [Fin.le_def, Fin.lt_def] at *; omega, fun i => ?_⟩⟩
      rw [ho, h.owns i, Bool.eq_iff_iff, if_neg k]
      split <;> simp only [true_iff, decide_eq_true_eq, Fin.le_def, Fin.lt_def, Fin.ext_iff] at * <;> omega

/-- After an advance the entry at the old consumer index is no longer the Screener's; every other is as it was. -/
theorem Ring.advance_owns {r : Ring} (he : r.isEmpty = false) (i : Fin 32) :
    r.advance.owns i = if i = r.consumer then false else r.owns i := by
  have hm : r.entries[r.consumer].mark = r.consumerPass := by simpa [Ring.isEmpty] using he
  have hi := i.isLt
  have h31 : (31 : Fin 32).val = 31 := rfl
  unfold Ring.owns Ring.advance
  dsimp only
  rcases ringNext r.consumer with ⟨e, ep⟩ | ⟨e, ep⟩
  · rw [if_pos e]
    have h0 : r.consumer + 1 ≤ i := by rw [Fin.le_def]; omega
    rw [if_pos h0]
    by_cases k : i = r.consumer
    · rw [if_pos k, k, hm]; cases r.consumerPass <;> rfl
    · have : ¬ r.consumer ≤ i := by
        have e' : r.consumer.val = 31 := by rw [e]; rfl
        simp only [Fin.le_def, Fin.ext_iff] at *; omega
      rw [if_neg k, if_neg this]
  · rw [if_neg e]
    by_cases k : i = r.consumer
    · have : ¬ r.consumer + 1 ≤ i := by rw [k, Fin.le_def]; omega
      rw [if_pos k, if_neg this, k, hm]; cases r.consumerPass <;> rfl
    · rw [if_neg k]
      by_cases hle : r.consumer ≤ i
      · have : r.consumer + 1 ≤ i := by simp only [Fin.le_def, Fin.ext_iff] at *; omega
        rw [if_pos hle, if_pos this]
      · have : ¬ r.consumer + 1 ≤ i := by simp only [Fin.le_def, Fin.ext_iff] at *; omega
        rw [if_neg hle, if_neg this]

/-- A ring that is not empty has the entry at its consumer index. -/
theorem Ring.owns_consumer {r : Ring} (he : r.isEmpty = false) : r.owns r.consumer = true := by
  have hm : r.entries[r.consumer].mark = r.consumerPass := by simpa [Ring.isEmpty] using he
  unfold Ring.owns
  rw [hm]
  simp

theorem Ring.lawful.advance {r : Ring} (h : r.lawful) (he : r.isEmpty = false) : r.advance.lawful := by
  have ho := fun i => Ring.advance_owns he i
  have hc := Ring.owns_consumer he
  rw [h.owns] at hc
  have hpr : r.advance.producer = r.producer := rfl
  have hco : r.advance.consumer = r.consumer + 1 := rfl
  have hpp : r.advance.producerPass = r.producerPass := rfl
  have hcp : r.advance.consumerPass = if r.consumer = 31 then !r.consumerPass else r.consumerPass := rfl
  have h31 : (31 : Fin 32).val = 31 := rfl
  have hp := r.producer.isLt
  unfold Ring.lawful
  rw [hpp, hcp, hpr, hco]
  clear hpp hcp hpr hco
  by_cases k : r.producerPass = r.consumerPass
  · have h1 := (h.1 k).1
    rw [if_pos k] at hc
    have hc2 := of_decide_eq_true hc
    rcases ringNext r.consumer with ⟨e, ep⟩ | ⟨e, ep⟩
    · exfalso
      have e' : r.consumer.val = 31 := by rw [e]; rfl
      simp only [Fin.le_def, Fin.lt_def] at *
      omega
    · rw [if_neg e]
      refine ⟨fun _ => ⟨by simp only [Fin.le_def, Fin.lt_def] at *; omega, fun i => ?_⟩, fun y => absurd k y⟩
      rw [ho, h.owns i, Bool.eq_iff_iff, if_pos k]
      split <;> simp only [Bool.false_eq_true, false_iff, decide_eq_true_eq, Fin.le_def, Fin.lt_def, Fin.ext_iff] at * <;> omega
  · have h1 := (h.2 k).1
    rcases ringNext r.consumer with ⟨e, ep⟩ | ⟨e, ep⟩
    · have hx : r.producerPass = !r.consumerPass := by
        revert k; cases r.producerPass <;> cases r.consumerPass <;> simp
      rw [if_pos e]
      refine ⟨fun _ => ⟨by rw [Fin.le_def]; omega, fun i => ?_⟩, fun y => absurd hx y⟩
      have e' : r.consumer.val = 31 := by rw [e]; rfl
      have hi := i.isLt
      rw [ho, h.owns i, Bool.eq_iff_iff, if_neg k]
      split <;> simp only [Bool.false_eq_true, false_iff, decide_eq_true_eq, Fin.le_def, Fin.lt_def, Fin.ext_iff] at * <;> omega
    · rw [if_neg e]
      refine ⟨fun y => absurd y k, fun _ => ⟨by rw [Fin.le_def] at *; omega, fun i => ?_⟩⟩
      rw [ho, h.owns i, Bool.eq_iff_iff, if_neg k]
      split <;> simp only [Bool.false_eq_true, false_iff, decide_eq_true_eq, Fin.le_def, Fin.lt_def, Fin.ext_iff] at * <;> omega

/-! ## Voiding changes no entry's owner and no buffer -/

/-- Two rings with the same indices and passes, and with the same marks and buffers in their entries. -/
def Ring.Same (r q : Ring) : Prop :=
  q.producer = r.producer ∧ q.consumer = r.consumer ∧ q.producerPass = r.producerPass ∧
  q.consumerPass = r.consumerPass ∧ ∀ i : Fin 32, q.entries[i].mark = r.entries[i].mark ∧
    q.entries[i].descriptor.bind (fun d => d.buffer) = r.entries[i].descriptor.bind (fun d => d.buffer)

theorem Ring.Same.trans {r q p : Ring} (h : r.Same q) (k : q.Same p) : r.Same p :=
  ⟨k.1.trans h.1, k.2.1.trans h.2.1, k.2.2.1.trans h.2.2.1, k.2.2.2.1.trans h.2.2.2.1,
    fun i => ⟨(k.2.2.2.2 i).1.trans (h.2.2.2.2 i).1, (k.2.2.2.2 i).2.trans (h.2.2.2.2 i).2⟩⟩

theorem Ring.void_same (r : Ring) (n : Slot) : r.Same (r.void n) := by
  unfold Ring.void
  have : ∀ (l : List (Fin 32)) (q : Ring), r.Same q → r.Same (l.foldl (fun q i => q.voidAt n i) q) := by
    intro l
    induction l with
    | nil => exact fun q h => h
    | cons a l ih =>
      intro q h
      refine ih _ (h.trans ⟨rfl, rfl, rfl, rfl, fun i => ?_⟩)
      show (q.voidAt n a).entries[i].mark = _ ∧ (q.voidAt n a).entries[i].descriptor.bind (fun d => d.buffer) = _
      unfold Ring.voidAt
      dsimp only
      split
      · by_cases e : i = a
        · subst e
          simp only [Fin.getElem_fin, Vector.getElem_set_self, RingEntry.voidFor]
          refine ⟨trivial, ?_⟩
          cases q.entries[(i : Nat)].descriptor <;> rfl
        · have : (a : Nat) ≠ (i : Nat) := fun x => e (Fin.ext x.symm)
          simp [Vector.getElem_set_ne, this]
      · exact ⟨rfl, rfl⟩
  exact this _ r ⟨rfl, rfl, rfl, rfl, fun _ => ⟨rfl, rfl⟩⟩

theorem Ring.Same.owns {r q : Ring} (h : r.Same q) (i : Fin 32) : q.owns i = r.owns i := by
  simp only [Ring.owns, h.2.1, h.2.2.2.1, (h.2.2.2.2 i).1]

theorem Ring.Same.has {r q : Ring} (h : r.Same q) (b : Nat) : q.has b = r.has b := by
  funext i
  simp only [Ring.has, h.owns i, (h.2.2.2.2 i).2]

theorem Ring.lawful.same {r q : Ring} (hr : r.lawful) (h : r.Same q) : q.lawful := by
  refine ⟨fun k => ?_, fun k => ?_⟩ <;>
    rw [h.2.2.1, h.2.2.2.1] at k
  · refine ⟨by rw [h.1, h.2.1]; exact (hr.1 k).1, fun i => ?_⟩
    rw [h.owns, h.1, h.2.1]; exact (hr.1 k).2 i
  · refine ⟨by rw [h.1, h.2.1]; exact (hr.2 k).1, fun i => ?_⟩
    rw [h.owns, h.1, h.2.1]; exact (hr.2 k).2 i

/-! ## The buffers of the ring's descriptors -/

/-- A placed descriptor brings its buffer into the ring. -/
theorem Ring.place_has {r : Ring} (h : r.lawful) (hf : r.isFull = false) (d : Descriptor) (b : Nat) :
    (List.finRange 32).countP ((r.place d).has b) =
      (List.finRange 32).countP (r.has b) + if d.buffer = some b then 1 else 0 := by
  have hc := countP_change (List.finRange 32) (List.nodup_finRange 32) r.producer (List.mem_finRange _)
    ((r.place d).has b) (r.has b) (fun m hm => by
      have : (r.producer : Nat) ≠ (m : Nat) := fun x => hm (Fin.ext x.symm)
      simp only [Ring.has, Ring.place_owns h hf, if_neg hm]
      have e : (r.place d).entries[m] = r.entries[m] := Vector.getElem_set_ne r.producer.isLt m.isLt this
      simp only [e])
  have h1 : r.has b r.producer = false := by
    have : r.owns r.producer = false := hf
    simp [Ring.has, this]
  have h2 : (r.place d).has b r.producer = decide (d.buffer = some b) := by
    simp only [Ring.has, Ring.place_owns h hf]
    simp [Ring.place]
  rw [h1, h2] at hc
  by_cases e : d.buffer = some b <;> simp [e] at hc ⊢ <;> omega

/-- An entry that the Screener passes takes its buffer out of the ring. -/
theorem Ring.advance_has {r : Ring} (he : r.isEmpty = false) {d : Descriptor}
    (hd : r.entries[r.consumer].descriptor = some d) (b : Nat) :
    (List.finRange 32).countP (r.has b) =
      (List.finRange 32).countP (r.advance.has b) + if d.buffer = some b then 1 else 0 := by
  have hc := countP_change (List.finRange 32) (List.nodup_finRange 32) r.consumer (List.mem_finRange _)
    (r.has b) (r.advance.has b) (fun m hm => by
      simp only [Ring.has, Ring.advance_owns he, if_neg hm]
      rfl)
  have h1 : r.advance.has b r.consumer = false := by
    simp [Ring.has, Ring.advance_owns he]
  have h2 : r.has b r.consumer = decide (d.buffer = some b) := by
    unfold Ring.has
    rw [Ring.owns_consumer he, hd]
    rfl
  rw [h1, h2] at hc
  by_cases e : d.buffer = some b <;> simp [e] at hc ⊢ <;> omega

/-- A cleared ring has no buffer. -/
theorem Ring.cleared_has (b : Nat) : (List.finRange 32).countP (Ring.cleared.has b) = 0 := by
  rw [List.countP_eq_zero]
  intro i _
  have : Ring.cleared.owns i = false := by revert i; decide
  simp [Ring.has, this]

end Sys2Proof.Machine
end

