-- ==== Sys2Proof/Laws/Store.lean ====
section
/-! SUPPORT. The screened store and what its law rests on (R126, R129): the rising lists of free buffers, the states of
the bands, and what each change of the band path leaves of the law. -/

namespace Sys2Proof.Machine

variable {s t : State}

/-! ## Rising lists -/

/-- A number put into a list once more, where it is not in it. -/
theorem count_insertSorted {l : List Nat} {n : Nat} (h : n ∉ l) (b : Nat) :
    (insertSorted l n).count b = l.count b + if n = b then 1 else 0 := by
  induction l with
  | nil => simp [insertSorted, List.count_cons]
  | cons a l ih =>
    have hn : n ∉ l := fun k => h (by simp [k])
    have ha : ¬ n = a := fun k => h (by simp [k])
    unfold insertSorted
    rw [if_neg ha]
    split
    · simp [List.count_cons]
    · rw [List.count_cons, List.count_cons, ih hn]
      omega

/-- A buffer that some place other than the pool has is not in the pool. -/
theorem not_mem_of_count {l : List Nat} {n : Nat} (h : l.count n = 0) : n ∉ l := List.count_eq_zero.mp h

/-- A number put into a rising list leaves it rising. -/
theorem insertSorted_rises {l : List Nat} (h : l.Pairwise (· < ·)) (n : Nat) :
    (insertSorted l n).Pairwise (· < ·) := by
  induction l with
  | nil => simp [insertSorted]
  | cons a l ih =>
    obtain ⟨h1, h2⟩ := List.pairwise_cons.mp h
    unfold insertSorted
    split
    · rename_i e
      exact List.pairwise_cons.mpr ⟨fun m hm => by
        rcases List.mem_cons.mp hm with k | k
        · omega
        · have := h1 m k
          omega, h⟩
    · split
      · exact h
      · refine List.pairwise_cons.mpr ⟨fun m hm => ?_, ih h2⟩
        rcases mem_insertSorted.mp hm with k | k
        · omega
        · exact h1 m k

theorem range_rises (k : Nat) : (List.range k).Pairwise (· < ·) := List.pairwise_lt_range

/-- Numbers put one after another into a rising list leave it rising. -/
theorem foldl_insertSorted_rises {l : List Nat} (h : l.Pairwise (· < ·)) (k : List Nat) :
    (k.foldl insertSorted l).Pairwise (· < ·) := by
  induction k generalizing l with
  | nil => exact h
  | cons a k ih => exact ih (insertSorted_rises h a)

/-- Numbers put one after another into a list that has none of them, where none comes twice. -/
theorem count_foldl_insertSorted {l k : List Nat} (h : ∀ b, l.count b + k.count b ≤ 1) (b : Nat) :
    (k.foldl insertSorted l).count b = l.count b + k.count b := by
  induction k generalizing l with
  | nil => simp
  | cons a k ih =>
    have ha : a ∉ l := not_mem_of_count (by have := h a; simp at this; omega)
    have hc := count_insertSorted ha
    show (k.foldl insertSorted (insertSorted l a)).count b = _
    rw [ih fun y => ?_, hc, List.count_cons]
    · by_cases e : a = b <;> simp [e]; omega
    · have := h y
      rw [List.count_cons] at this
      rw [hc]
      by_cases e : a = y <;> simp [e] at this ⊢ <;> omega

/-- Two sums over a list without repetition whose terms differ at one member only. -/
theorem sum_change {α : Type} [DecidableEq α] (l : List α) (hl : l.Nodup) (n : α) (hn : n ∈ l) (f g : α → Nat)
    (h : ∀ m, m ≠ n → f m = g m) : (l.map f).sum + g n = (l.map g).sum + f n := by
  induction l with
  | nil => simp at hn
  | cons a l ih =>
    rw [List.nodup_cons] at hl
    simp only [List.map_cons, List.sum_cons]
    by_cases e : a = n
    · subst e
      have : l.map f = l.map g := List.map_congr_left fun m hm => h m fun k => hl.1 (k ▸ hm)
      rw [this]; omega
    · have hm : n ∈ l := (List.mem_cons.mp hn).resolve_left fun k => e k.symm
      have := ih hl.2 hm
      rw [h a e]; omega

/-! ## The states of the bands -/

theorem State.bandStates_of {n : Slot} {j : Job} (h : s.job n = some j) :
    s.bandStates n = j.bands.map fun b => b.state := by simp [State.bandStates, h]

theorem State.bandStates_none {n : Slot} (h : s.job n = none) : s.bandStates n = [] := by simp [State.bandStates, h]

theorem State.bandStates_congr {n m : Slot} (h : t.job n = s.job m) : t.bandStates n = s.bandStates m := by
  simp [State.bandStates, h]

/-- A job changed in other things than the states of its bands. -/
theorem State.bandStates_modifyJob {n : Slot} {f : Job → Job}
    (h : ∀ j, s.job n = some j → ((f j).bands.map fun e => e.state) = j.bands.map fun e => e.state) (m : Slot) :
    (s.modifyJob n f).bandStates m = s.bandStates m := by
  by_cases e : m = n
  · subst e
    unfold State.bandStates
    rw [State.job_modifyJob_same]
    cases hj : s.job m with
    | none => rfl
    | some j => exact h j hj
  · exact State.bandStates_congr (State.job_modifyJob_other _ _ _ _ e)

/-- A band that is not QUEUED is a band of the plate. -/
theorem Job.band_at {j : Job} {b : Nat} {st : BandState} (h : (j.band b).state = st) (hq : st ≠ .queued) :
    (j.bands.map fun e => e.state)[b]? = some st := by
  unfold Job.band at h
  rw [List.getD_eq_getElem?_getD] at h
  rw [List.getElem?_map]
  cases e : j.bands[b]? with
  | none => rw [e] at h; exact absurd h.symm hq
  | some c => rw [e] at h; exact congrArg some h

/-- A band of the plate in a state. -/
theorem Job.band_of {j : Job} {b : Nat} {st : BandState} (h : (j.bands.map fun e => e.state)[b]? = some st) :
    (j.band b).state = st := by
  rw [List.getElem?_map, Option.map_eq_some_iff] at h
  obtain ⟨c, hc, rfl⟩ := h
  unfold Job.band
  rw [List.getD_eq_getElem?_getD, hc]
  rfl

/-- One band put in a state. -/
theorem Job.modifyBand_states (j : Job) (b : Nat) {f : Band → Band} {st : BandState} (hf : ∀ e, (f e).state = st) :
    ((j.modifyBand b f).bands.map fun e => e.state) = (j.bands.map fun e => e.state).set b st := by
  refine List.ext_getElem? fun i => ?_
  simp only [Job.modifyBand, List.getElem?_map, List.getElem?_modify, List.getElem?_set, List.length_map]
  by_cases e : b = i
  · subst e
    by_cases k : b < j.bands.length
    · simp [k, hf]
    · simp [k]
  · simp [e]

/-- Bands that change in other things than their states. -/
theorem Job.modifyBand_sameStates (j : Job) (b : Nat) {f : Band → Band} (hf : ∀ e, (f e).state = e.state) :
    ((j.modifyBand b f).bands.map fun e => e.state) = j.bands.map fun e => e.state := by
  refine List.ext_getElem? fun i => ?_
  simp only [Job.modifyBand, List.getElem?_map, List.getElem?_modify]
  cases j.bands[i]? with
  | none => rfl
  | some c => by_cases e : b = i <;> simp [e, hf]

/-- A job's screened buffers are those that its SCREENED bands have. -/
theorem Job.screenedBuffers_count (j : Job) (b : Nat) :
    j.screenedBuffers.count b = (j.bands.map fun e => e.state).count (.screened b) := by
  unfold Job.screenedBuffers
  generalize j.bands = l
  induction l with
  | nil => rfl
  | cons a l ih =>
    rw [List.map_cons, List.count_cons, List.filterMap_cons]
    cases e : a.state with
    | screened y =>
      dsimp only
      rw [List.count_cons, ih]
      by_cases k : y = b <;> simp [k]
    | _ => dsimp only; rw [ih]; simp

/-- One band of one slot is in another state. -/
def State.BandSet (s t : State) (n : Slot) (b : Nat) (new : BandState) : Prop :=
  ∀ m, t.bandStates m = if m = n then (s.bandStates n).set b new else s.bandStates m

theorem State.BandSet.of {n : Slot} {b : Nat} {new : BandState} {j k : Job} (hj : s.job n = some j)
    (hk : t.job n = some k) (ho : ∀ m, m ≠ n → t.job m = s.job m)
    (h : (k.bands.map fun e => e.state) = (j.bands.map fun e => e.state).set b new) : s.BandSet t n b new := by
  intro m
  by_cases e : m = n
  · subst e; rw [if_pos rfl, State.bandStates_of hj, State.bandStates_of hk, h]
  · rw [if_neg e, State.bandStates_congr (ho m e)]

theorem State.BandSet.other {n : Slot} {b : Nat} {new : BandState} (h : s.BandSet t n b new) {m : Slot} {a : Nat}
    (hm : ¬ (m = n ∧ a = b)) : (t.bandStates m)[a]? = (s.bandStates m)[a]? := by
  rw [h m]
  split
  · rename_i e
    subst e
    exact List.getElem?_set_ne fun k => hm ⟨rfl, k.symm⟩
  · rfl

theorem State.BandSet.same {n : Slot} {b : Nat} {new old : BandState} (h : s.BandSet t n b new)
    (ho : (s.bandStates n)[b]? = some old) : (t.bandStates n)[b]? = some new := by
  rw [h n, if_pos rfl]
  have : b < (s.bandStates n).length := by
    rcases Nat.lt_or_ge b (s.bandStates n).length with k | k
    · exact k
    · rw [List.getElem?_eq_none k] at ho; cases ho
  simp [this]

/-- The number of SCREENED bands with a buffer, where one band changes. -/
theorem State.BandSet.sum {n : Slot} {b : Nat} {new old : BandState} (h : s.BandSet t n b new)
    (ho : (s.bandStates n)[b]? = some old) (y : Nat) :
    (allSlots.map fun m => (t.bandStates m).count (.screened y)).sum + (if old = .screened y then 1 else 0) =
      (allSlots.map fun m => (s.bandStates m).count (.screened y)).sum + (if new = .screened y then 1 else 0) := by
  have hc := sum_change allSlots (List.nodup_finRange 8) n (List.mem_finRange _)
    (fun m => (t.bandStates m).count (.screened y)) (fun m => (s.bandStates m).count (.screened y))
    (fun m hm => by rw [h m, if_neg hm])
  have hl : b < (s.bandStates n).length := by
    rcases Nat.lt_or_ge b (s.bandStates n).length with k | k
    · exact k
    · rw [List.getElem?_eq_none k] at ho; cases ho
  have he : (s.bandStates n)[b] = old := by
    rw [List.getElem?_eq_getElem hl] at ho; exact Option.some.inj ho
  have hn : (t.bandStates n).count (.screened y) = (s.bandStates n).count (.screened y)
      - (if old = .screened y then 1 else 0) + (if new = .screened y then 1 else 0) := by
    rw [h n, if_pos rfl, List.count_set hl, he]
    simp
  have hp : (if old = BandState.screened y then 1 else 0) ≤ (s.bandStates n).count (.screened y) := by
    split
    · rename_i e
      rw [← e, ← he]
      exact List.count_pos_iff.mpr (List.getElem_mem hl)
    · exact Nat.zero_le _
  omega

/-! ## What the Screener will take -/

theorem Ring.takes_place {r : Ring} (hl : r.lawful) (hf : r.isFull = false) {d e : Descriptor} {i : Fin 32}
    (h : (r.place d).takes i e) : (i = r.producer ∧ e.slot = d.slot ∧ e.band = d.band) ∨ (i ≠ r.producer ∧ r.takes i e) := by
  obtain ⟨h1, h2, h3⟩ := h
  by_cases k : i = r.producer
  · left
    subst k
    simp [Ring.place] at h2
    subst h2
    exact ⟨rfl, rfl, rfl⟩
  · right
    have hk : (r.producer : Nat) ≠ (i : Nat) := fun x => k (Fin.ext x.symm)
    rw [Ring.place_owns hl hf, if_neg k] at h1
    refine ⟨k, h1, ?_, h3⟩
    rw [← h2]
    exact congrArg RingEntry.descriptor (Vector.getElem_set_ne r.producer.isLt i.isLt hk).symm

theorem Ring.takes_advance {r : Ring} (he : r.isEmpty = false) {d : Descriptor} {i : Fin 32}
    (h : r.advance.takes i d) : i ≠ r.consumer ∧ r.takes i d := by
  obtain ⟨h1, h2, h3⟩ := h
  rw [Ring.advance_owns he] at h1
  by_cases k : i = r.consumer
  · rw [if_pos k] at h1; cases h1
  · rw [if_neg k] at h1
    exact ⟨k, h1, h2, h3⟩

/-- Voiding changes the Screener's entries and no other. -/
theorem Ring.void_entry (r : Ring) (n : Slot) (i : Fin 32) :
    (r.void n).entries[i] = if r.owns i = true then r.entries[i].voidFor n else r.entries[i] := by
  have key : ∀ (l : List (Fin 32)) (q : Ring), r.Same q →
      (∀ k : Fin 32, q.entries[k] = r.entries[k] ∨ q.entries[k] = r.entries[k].voidFor n) →
      let p := l.foldl (fun q i => q.voidAt n i) q
      (∀ k : Fin 32, p.entries[k] = r.entries[k] ∨ p.entries[k] = r.entries[k].voidFor n) ∧
        (∀ k : Fin 32, r.owns k = true → (k ∈ l ∨ q.entries[k] = r.entries[k].voidFor n) →
          p.entries[k] = r.entries[k].voidFor n) ∧
        ∀ k : Fin 32, ¬ r.owns k = true → p.entries[k] = q.entries[k] := by
    intro l
    induction l with
    | nil => exact fun q _ hq => ⟨hq, fun k _ hk => hk.resolve_left (by simp), fun _ _ => rfl⟩
    | cons a l ih =>
      intro q hsame hq
      have twice : (r.entries[a].voidFor n).voidFor n = r.entries[a].voidFor n := by
        simp only [RingEntry.voidFor, Descriptor.voidFor, Option.map_map]
        congr 2
        funext d
        simp
      have step : ∀ k : Fin 32, (q.voidAt n a).entries[k] = if k = a ∧ r.owns a = true then r.entries[a].voidFor n
          else q.entries[k] := by
        intro k
        unfold Ring.voidAt
        dsimp only
        rw [hsame.owns a]
        by_cases ho : r.owns a = true
        · rw [if_pos ho]
          by_cases e : k = a
          · subst e
            rw [if_pos ⟨rfl, ho⟩]
            simp only [Fin.getElem_fin, Vector.getElem_set_self]
            rcases hq k with z | z
            · simp only [Fin.getElem_fin] at z; rw [z]
            · simp only [Fin.getElem_fin] at z twice; rw [z, twice]
          · rw [if_neg fun z => e z.1]
            exact Vector.getElem_set_ne a.isLt k.isLt fun z => e (Fin.ext z.symm)
        · rw [if_neg ho, if_neg fun z => ho z.2]
      have hsame' : r.Same (q.voidAt n a) := by
        refine ⟨hsame.1, hsame.2.1, hsame.2.2.1, hsame.2.2.2.1, fun k => ?_⟩
        rw [step k]
        split
        · rename_i e
          rw [e.1]
          refine ⟨rfl, ?_⟩
          show (r.entries[a].descriptor.map fun d => d.voidFor n).bind (fun d => d.buffer) = _
          cases r.entries[a].descriptor <;> rfl
        · exact hsame.2.2.2.2 k
      have hq' : ∀ k : Fin 32, (q.voidAt n a).entries[k] = r.entries[k] ∨ (q.voidAt n a).entries[k] = r.entries[k].voidFor n := by
        intro k
        rw [step k]
        split
        · rename_i e; rw [e.1]; exact Or.inr rfl
        · exact hq k
      obtain ⟨i1, i2, i3⟩ := ih (q.voidAt n a) hsame' hq'
      refine ⟨i1, fun k ho hk => i2 k ho ?_, fun k ho => (i3 k ho).trans ?_⟩
      rotate_left
      · rw [step k, if_neg fun z : k = a ∧ r.owns a = true => ho (z.1 ▸ z.2)]
      rw [step k]
      rcases hk with hk | hk
      · rcases List.mem_cons.mp hk with e | e
        · right; subst e; rw [if_pos ⟨rfl, ho⟩]
        · exact Or.inl e
      · right
        split
        · rename_i e; rw [e.1]
        · exact hk
  obtain ⟨_, k2, k3⟩ := key (List.finRange 32) r ⟨rfl, rfl, rfl, rfl, fun _ => ⟨rfl, rfl⟩⟩ fun _ => Or.inl rfl
  split
  · rename_i h; exact k2 i h (Or.inl (List.mem_finRange _))
  · rename_i h; exact k3 i h

/-- Voiding leaves of a slot nothing to take, and of the others what there was. -/
theorem Ring.takes_void {r : Ring} {n : Slot} {d : Descriptor} {i : Fin 32} (h : (r.void n).takes i d) :
    r.takes i d ∧ d.slot ≠ n := by
  obtain ⟨h1, h2, h3⟩ := h
  rw [(Ring.void_same r n).owns] at h1
  rw [Ring.void_entry, if_pos h1] at h2
  simp only [RingEntry.voidFor, Option.map_eq_some_iff] at h2
  obtain ⟨e, he, rfl⟩ := h2
  simp only [Descriptor.voidFor, Bool.or_eq_false_iff, decide_eq_false_iff_not] at h3
  refine ⟨⟨h1, ?_, ?_⟩, h3.2⟩
  · rw [he, Descriptor.voidFor, h3.1, decide_eq_false h3.2]
    cases e
    simp only at h3
    rw [h3.1]
    rfl
  · simp [Descriptor.voidFor, h3.1, h3.2]

/-! ## The law over the changes of the band path -/

/-- Nothing the law reads has changed, but that entries have left the Screener, that a wait has ended and that the pool
is another rising list. -/
theorem State.storeLawful.of (h : s.storeLawful) (hb : ∀ n, t.bandStates n = s.bandStates n)
    (hr : ∀ i d, t.ring.takes i d → s.ring.takes i d)
    (hw : ∀ d a, t.unpacker.work = .waitRing d a → s.unpacker.work = .waitRing d a)
    (hp : t.unpacker.pool.Pairwise (· < ·)) (hs : t.screener.store = s.screener.store)
    (hc : t.screener.current.map (fun c => c.screened) = s.screener.current.map fun c => c.screened) :
    t.storeLawful := by
  obtain ⟨⟨h1, h2, h3⟩, h4, h5⟩ := h
  refine ⟨⟨fun i d e => ?_, fun i k d e a b => h2 i k d e (hr i d a) (hr k e b), fun d a e => ?_⟩, fun b => ?_,
    hp, by rw [hs]; exact h5.2⟩
  · rw [hb]; exact h1 i d (hr i d e)
  · rw [hb]; exact h3 d a (hw d a e)
  · have := h4 b
    unfold State.screenedHeld at this ⊢
    rw [hs, hc]
    simp only [hb]
    exact this

/-- The descriptor of a band that was AWAITED or DECODING enters the ring, and no descriptor waits. -/
theorem State.storeLawful.placed (h : s.storeLawful) (hl : s.ring.lawful) (hf : s.ring.isFull = false) {d : Descriptor}
    (hd : (s.bandStates d.slot)[d.band]? = some .awaited ∨ (s.bandStates d.slot)[d.band]? = some .decoding)
    (hb : s.BandSet t d.slot d.band .queued) (hr : t.ring = s.ring.place d)
    (hw : ∀ d a, t.unpacker.work ≠ .waitRing d a) (hp : t.unpacker.pool = s.unpacker.pool)
    (hs : t.screener = s.screener) : t.storeLawful := by
  obtain ⟨⟨h1, h2, h3⟩, h4, h5⟩ := h
  have hold : ∃ old, (s.bandStates d.slot)[d.band]? = some old ∧ old ≠ .queued ∧ ∀ y, old ≠ .screened y := by
    rcases hd with e | e
    · exact ⟨_, e, by simp, by simp⟩
    · exact ⟨_, e, by simp, by simp⟩
  obtain ⟨old, ho, hq, hy⟩ := hold
  have apart : ∀ i e, s.ring.takes i e → ¬ (e.slot = d.slot ∧ e.band = d.band) := by
    intro i e k z
    have := h1 i e k
    rw [z.1, z.2, ho] at this
    exact hq (Option.some.inj this)
  refine ⟨⟨fun i e k => ?_, fun i k a b p q e1 e2 => ?_, fun d a e => absurd e (hw d a)⟩, fun y => ?_, ?_⟩
  · rw [hr] at k
    rcases Ring.takes_place hl hf k with ⟨_, e1, e2⟩ | ⟨_, k'⟩
    · rw [e1, e2]; exact hb.same ho
    · rw [hb.other (apart i e k')]; exact h1 i e k'
  · rw [hr] at p q
    rcases Ring.takes_place hl hf p with ⟨p0, p1, p2⟩ | ⟨_, p'⟩ <;>
      rcases Ring.takes_place hl hf q with ⟨q0, q1, q2⟩ | ⟨_, q'⟩
    · rw [p0, q0]
    · exact absurd ⟨e1.symm.trans p1, e2.symm.trans p2⟩ (apart k b q')
    · exact absurd ⟨e1.trans q1, e2.trans q2⟩ (apart i a p')
    · exact h2 i k a b p' q' e1 e2
  · have hz := h4 y
    have hsum := hb.sum ho y
    unfold State.screenedHeld at hz ⊢
    rw [hs]
    rw [if_neg (hy y), if_neg (by simp)] at hsum
    omega
  · unfold State.listsRise; rw [hp, hs]; exact h5

/-- The descriptor of a band that is AWAITED or DECODING waits for ring room. -/
theorem State.storeLawful.waits (h : s.storeLawful) {d : Descriptor} {a : AfterRing}
    (hd : (s.bandStates d.slot)[d.band]? = some .awaited ∨ (s.bandStates d.slot)[d.band]? = some .decoding)
    (hb : ∀ n, t.bandStates n = s.bandStates n) (hr : t.ring = s.ring) (hw : t.unpacker.work = .waitRing d a)
    (hp : t.unpacker.pool.Pairwise (· < ·)) (hs : t.screener = s.screener) : t.storeLawful := by
  obtain ⟨⟨h1, h2, _⟩, h4, h5⟩ := h
  refine ⟨⟨fun i e k => ?_, by rw [hr]; exact h2, fun e c k => ?_⟩, fun y => ?_, hp, by rw [hs]; exact h5.2⟩
  · rw [hb]; exact h1 i e (hr ▸ k)
  · rw [hw] at k; cases k
    rw [hb]; exact hd
  · have := h4 y
    unfold State.screenedHeld at this ⊢
    rw [hs]
    simp only [hb]
    exact this

/-- An AWAITED band is begun with the first buffer of the pool. -/
theorem State.storeLawful.begun (h : s.storeLawful) {n : Slot} {b x : Nat} {rest : List Nat}
    (hd : (s.bandStates n)[b]? = some .awaited) (hb : s.BandSet t n b .decoding) (hr : t.ring = s.ring)
    (hw : ∀ d a, t.unpacker.work ≠ .waitRing d a) (hx : s.unpacker.pool = x :: rest) (hp : t.unpacker.pool = rest)
    (hs : t.screener = s.screener) : t.storeLawful := by
  obtain ⟨⟨h1, h2, h3⟩, h4, h5⟩ := h
  refine ⟨⟨fun i e k => ?_, by rw [hr]; exact h2, fun d a e => absurd e (hw d a)⟩, fun y => ?_, ?_⟩
  · rw [hr] at k
    have := h1 i e k
    rw [hb.other fun z => ?_]
    · exact this
    · rw [z.1, z.2, hd] at this; cases this
  · have hz := h4 y
    have hsum := hb.sum hd y
    unfold State.screenedHeld at hz ⊢
    rw [hs]
    simp only [reduceCtorEq, if_false] at hsum
    omega
  · unfold State.listsRise
    rw [hp, hs]
    rw [State.listsRise, hx] at h5
    exact ⟨(List.pairwise_cons.mp h5.1).2, h5.2⟩

/-- The Screener takes the descriptor at its index, with the first buffer of the store. -/
theorem State.storeLawful.taken (h : s.storeLawful) (he : s.ring.isEmpty = false) {d : Descriptor}
    (hd : s.ring.takes s.ring.consumer d) (hb : s.BandSet t d.slot d.band .screening) (hr : t.ring = s.ring.advance)
    (hu : t.unpacker = s.unpacker) (hc : s.screener.current = none) {x : Nat} {rest : List Nat}
    (hx : s.screener.store = x :: rest) (hs : t.screener.store = rest)
    (hn : t.screener.current.map (fun c => c.screened) = some x) : t.storeLawful := by
  obtain ⟨⟨h1, h2, h3⟩, h4, h5⟩ := h
  have ho := h1 _ d hd
  refine ⟨⟨fun i e k => ?_, fun i k a b p q => ?_, fun e a w => ?_⟩, fun y => ?_, ?_⟩
  · rw [hr] at k
    obtain ⟨k1, k2⟩ := Ring.takes_advance he k
    rw [hb.other fun z => k1 (h2 _ _ _ _ k2 hd z.1 z.2)]
    exact h1 i e k2
  · rw [hr] at p q
    exact h2 i k a b (Ring.takes_advance he p).2 (Ring.takes_advance he q).2
  · rw [hu] at w
    have := h3 e a w
    rw [hb.other fun z => ?_]
    · exact this
    · rw [z.1, z.2, ho] at this
      rcases this with w | w <;> cases w
  · have hz := h4 y
    have hsum := hb.sum ho y
    unfold State.screenedHeld at hz ⊢
    rw [hc, hx, List.count_cons] at hz
    rw [hs, hn]
    simp only [reduceCtorEq, if_false, Option.map_none, Option.some.injEq, beq_iff_eq] at hsum hz ⊢
    omega
  · unfold State.listsRise
    rw [hu, hs]
    rw [State.listsRise, hx] at h5
    exact ⟨h5.1, (List.pairwise_cons.mp h5.2).2⟩

/-- The number of places that a screened buffer is in is at most one. -/
theorem State.storeLawful.held_le (h : s.storeLawful) (b : Nat) : s.screenedHeld b ≤ 1 := by
  rw [h.2.1 b]; split <;> omega

/-- The current band, whose state is SCREENING, is recorded with its buffer. -/
theorem State.storeLawful.recorded (h : s.storeLawful) {c : CurrentBand} (hc : s.screener.current = some c)
    {n : Slot} {b : Nat} (hd : (s.bandStates n)[b]? = some .screening)
    (hb : s.BandSet t n b (.screened c.screened)) (hr : t.ring = s.ring)
    (hw : t.unpacker.work = s.unpacker.work) (hp : t.unpacker.pool.Pairwise (· < ·))
    (hs : t.screener = { s.screener with current := none }) : t.storeLawful := by
  obtain ⟨⟨h1, h2, h3⟩, h4, h5⟩ := h
  refine ⟨⟨fun i e k => ?_, by rw [hr]; exact h2, fun e a w => ?_⟩, fun y => ?_, hp, by rw [hs]; exact h5.2⟩
  · rw [hr] at k
    have := h1 i e k
    rw [hb.other fun z => ?_]
    · exact this
    · rw [z.1, z.2, hd] at this; cases this
  · rw [hw] at w
    have := h3 e a w
    rw [hb.other fun z => ?_]
    · exact this
    · rw [z.1, z.2, hd] at this
      rcases this with w | w <;> cases w
  · have hz := h4 y
    have hsum := hb.sum hd y
    unfold State.screenedHeld at hz ⊢
    rw [hc] at hz
    rw [hs]
    simp only [reduceCtorEq, if_false, Option.map_none, Option.map_some, Option.some.injEq, BandState.screened.injEq]
      at hsum hz ⊢
    omega

/-- The current band ends without being recorded: its buffer returns to the store. -/
theorem State.storeLawful.returned (h : s.storeLawful) {c : CurrentBand} (hc : s.screener.current = some c)
    (hb : ∀ n, t.bandStates n = s.bandStates n) (hr : t.ring = s.ring) (hw : t.unpacker.work = s.unpacker.work)
    (hp : t.unpacker.pool.Pairwise (· < ·))
    (hs : t.screener = { current := none, store := insertSorted s.screener.store c.screened }) : t.storeLawful := by
  have hle := h.held_le
  obtain ⟨⟨h1, h2, h3⟩, h4, h5⟩ := h
  refine ⟨⟨fun i e k => ?_, by rw [hr]; exact h2, fun e a w => ?_⟩, fun y => ?_, hp, by
    rw [hs]; exact insertSorted_rises h5.2 _⟩
  · rw [hb]; exact h1 i e (hr ▸ k)
  · rw [hb]; exact h3 e a (hw ▸ w)
  · have hz := h4 y
    unfold State.screenedHeld at hz hle ⊢
    rw [hc] at hz hle
    rw [hs]
    simp only [hb]
    rw [count_insertSorted (not_mem_of_count (by have := hle c.screened; simp at this; omega))]
    simp only [Option.map_none, Option.map_some, Option.some.injEq, reduceCtorEq, if_false] at hz ⊢
    omega

/-- A slot that the band path no longer names is emptied: the buffers of its SCREENED bands return to the store. -/
theorem State.storeLawful.freed (h : s.storeLawful) {n : Slot} {l : List Nat}
    (hl : ∀ b, l.count b = (s.bandStates n).count (.screened b))
    (hb : ∀ m, t.bandStates m = if m = n then [] else s.bandStates m)
    (hn : ∀ i d, s.ring.takes i d → d.slot ≠ n) (hwn : ∀ d a, s.unpacker.work = .waitRing d a → d.slot ≠ n)
    (hr : t.ring = s.ring) (hu : t.unpacker = s.unpacker)
    (hs : t.screener = { s.screener with store := l.foldl insertSorted s.screener.store }) : t.storeLawful := by
  have hle := h.held_le
  obtain ⟨⟨h1, h2, h3⟩, h4, h5⟩ := h
  refine ⟨⟨fun i e k => ?_, by rw [hr]; exact h2, fun e a w => ?_⟩, fun y => ?_, by rw [hu]; exact h5.1, by
    rw [hs]; exact foldl_insertSorted_rises h5.2 l⟩
  · rw [hr] at k
    rw [hb, if_neg (hn i e k)]; exact h1 i e k
  · rw [hu] at w
    rw [hb, if_neg (hwn e a w)]; exact h3 e a w
  · have hsum : ∀ y, (allSlots.map fun m => (t.bandStates m).count (.screened y)).sum + l.count y =
        (allSlots.map fun m => (s.bandStates m).count (.screened y)).sum := by
      intro y
      have := sum_change allSlots (List.nodup_finRange 8) n (List.mem_finRange _)
        (fun m => (t.bandStates m).count (.screened y)) (fun m => (s.bandStates m).count (.screened y))
        (fun m hm => by rw [hb, if_neg hm])
      rw [hb n, if_pos rfl, ← hl y] at this
      simp only [List.count_nil] at this
      omega
    have hz := h4 y
    have hy := hsum y
    unfold State.screenedHeld at hz hle ⊢
    rw [hs]
    dsimp only
    rw [count_foldl_insertSorted fun b => ?_]
    · omega
    · have := hsum b
      have := hle b
      omega

/-- A free slot takes a job all of whose bands are AWAITED. -/
theorem State.storeLawful.created (h : s.storeLawful) {n : Slot} (hn : s.bandStates n = []) {k : Nat}
    (hb : ∀ m, t.bandStates m = if m = n then List.replicate k .awaited else s.bandStates m)
    (hr : t.ring = s.ring) (hu : t.unpacker = s.unpacker) (hs : t.screener = s.screener) : t.storeLawful := by
  obtain ⟨⟨h1, h2, h3⟩, h4, h5⟩ := h
  refine ⟨⟨fun i e z => ?_, by rw [hr]; exact h2, fun e a w => ?_⟩, fun y => ?_, by unfold State.listsRise; rw [hu, hs]; exact h5⟩
  · rw [hr] at z
    have := h1 i e z
    rw [hb, if_neg fun q => ?_]
    · exact this
    · rw [q, hn] at this; cases this
  · rw [hu] at w
    have := h3 e a w
    rw [hb, if_neg fun q => ?_]
    · exact this
    · rw [q, hn] at this; rcases this with w | w <;> cases w
  · have hz := h4 y
    have := sum_change allSlots (List.nodup_finRange 8) n (List.mem_finRange _)
      (fun m => (t.bandStates m).count (.screened y)) (fun m => (s.bandStates m).count (.screened y))
      (fun m hm => by rw [hb, if_neg hm])
    rw [hb n, if_pos rfl, hn] at this
    have h0 : (List.replicate k BandState.awaited).count (.screened y) = 0 := by
      rw [List.count_eq_zero]
      intro q
      have := List.eq_of_mem_replicate q
      cases this
    rw [h0] at this
    simp only [List.count_nil] at this
    unfold State.screenedHeld at hz ⊢
    rw [hs]
    omega

theorem Screener.cleared_rises : Screener.cleared.store.Pairwise (· < ·) := by
  unfold Screener.cleared
  simp only [range_rises]

/-- The band path as it stands after a clearing. -/
theorem State.storeLawful.ofCleared (hj : ∀ n, t.job n = none) (hr : t.ring = Ring.cleared)
    (hu : t.unpacker = Unpacker.cleared) (hs : t.screener = Screener.cleared) : t.storeLawful := by
  have hno : ∀ i, Ring.cleared.owns i = false := by decide
  have hb : ∀ n, t.bandStates n = [] := fun n => State.bandStates_none (hj n)
  refine ⟨⟨fun i d k => ?_, fun i k d e p _ => ?_, fun d a e => ?_⟩, fun b => ?_, ?_⟩
  · rw [hr] at k; have := k.1; rw [hno] at this; cases this
  · rw [hr] at p; have := p.1; rw [hno] at this; cases this
  · rw [hu] at e; cases e
  · unfold State.screenedHeld
    rw [hs]
    simp only [hb, List.count_nil]
    have : (List.range Config.screenedBuffers).count b = if b < Config.screenedBuffers then 1 else 0 := by
      rw [List.nodup_range.count]
      simp
    simpa only [Screener.cleared, List.map_const', Option.map_none, reduceCtorEq, if_false, Nat.add_zero,
      List.sum_replicate, smul_zero, Nat.mul_zero] using this
  · unfold State.listsRise
    rw [hu, hs]
    exact ⟨range_rises _, Screener.cleared_rises⟩

end Sys2Proof.Machine
end

