-- ==== Sys2Proof/Laws/Path.lean ====
section
/-! SUPPORT. The laws of owners, of the holding queue, of the Imager's job and of the band buffers (R55, R99, R106,
R152), with the laws that they rest on: what an update of each block must keep. -/

namespace Sys2Proof.Machine

/-! ## The laws with one slot set apart -/

/-- The law of the Imager's job, but for one slot: an ending is reported before the Imager's hold is cleared. -/
def State.imagerLawfulBut (x : Option Slot) (s : State) : Prop :=
  (∀ n j, x ≠ some n → s.job n = some j →
    (j.stage = .imaging ↔ s.imager.held = some { slot := n, generation := j.generation })) ∧
  ∀ h, s.imager.held = some h → s.imager.state.busy = true ∧
    (x ≠ some h.slot → ∃ j, s.job h.slot = some j ∧ j.generation = h.generation)

/-- The laws together but for that of the screened store, with one slot set apart in that of the Imager's job. -/
def State.pathLawfulBut (x : Option Slot) (s : State) : Prop :=
  s.ownersLawful ∧ s.holdingLawful ∧ s.link.placesHold ∧ s.presenceLawful ∧ s.jobsLawful ∧ s.imagerLawfulBut x ∧
    s.waitLawful ∧ s.ring.lawful ∧ s.buffersLawful

/-- The laws together, but for one slot in that of the Imager's job. -/
def State.lawfulBut (x : Option Slot) (s : State) : Prop :=
  s.ownersLawful ∧ s.holdingLawful ∧ s.link.placesHold ∧ s.presenceLawful ∧ s.jobsLawful ∧ s.imagerLawfulBut x ∧
    s.waitLawful ∧ s.ring.lawful ∧ s.buffersLawful ∧ s.storeLawful

theorem State.lawfulBut_iff (x : Option Slot) (s : State) : s.lawfulBut x ↔ s.pathLawfulBut x ∧ s.storeLawful := by
  simp only [State.lawfulBut, State.pathLawfulBut, and_assoc]

theorem State.lawfulBut.path {x : Option Slot} {s : State} (h : s.lawfulBut x) : s.pathLawfulBut x :=
  ((State.lawfulBut_iff x s).mp h).1

theorem State.lawfulBut.store {x : Option Slot} {s : State} (h : s.lawfulBut x) : s.storeLawful :=
  ((State.lawfulBut_iff x s).mp h).2

theorem State.pathLawfulBut.with {x : Option Slot} {s : State} (h : s.pathLawfulBut x) (k : s.storeLawful) :
    s.lawfulBut x := (State.lawfulBut_iff x s).mpr ⟨h, k⟩

theorem State.lawfulBut_none (s : State) : s.lawfulBut none ↔ s.lawful := by
  have : s.imagerLawfulBut none ↔ s.imagerLawful := by simp [State.imagerLawfulBut, State.imagerLawful]
  simp only [State.lawfulBut, State.lawful, this, and_assoc]

theorem State.lawful.but {s : State} (h : s.lawful) (x : Option Slot) : s.lawfulBut x := by
  obtain ⟨⟨h1, h2, h3, h4, h5, h6, h7⟩, h0⟩ := h
  exact State.pathLawfulBut.with
    ⟨h1, h2, h3, h4, h5, ⟨fun n j _ => h6.1 n j, fun y hy => ⟨(h6.2 y hy).1, fun _ => (h6.2 y hy).2⟩⟩, h7⟩ h0

/-! ## Blocks that the laws do not read -/

variable {x : Option Slot} {s : State}

@[simp] theorem State.setPending_lawful (h : s.lawfulBut x) (y : List Instr) : (s.setPending y).lawfulBut x := h

@[simp] theorem State.setClock_lawful (h : s.lawfulBut x) (y : Nat) : (s.setClock y).lawfulBut x := h

@[simp] theorem State.setFreeCount_lawful (h : s.lawfulBut x) (y : Nat) : (s.setFreeCount y).lawfulBut x := h

@[simp] theorem State.setLoader_lawful (h : s.lawfulBut x) (y : Loader) : (s.setLoader y).lawfulBut x := h

@[simp] theorem State.setDamage_lawful (h : s.lawfulBut x) (y : DamageUnit) : (s.setDamage y).lawfulBut x := h

@[simp] theorem State.setPort_lawful (h : s.lawfulBut x) (y : Port) : (s.setPort y).lawfulBut x := h

@[simp] theorem State.setFrame_lawful (h : s.lawfulBut x) (y : FrameMemory) : (s.setFrame y).lawfulBut x := h

/-! ## Blocks of which the laws read a part -/

@[simp] theorem State.setStation_lawful (h : s.lawfulBut x) {y : StationControl} (hy : y.state = s.station.state) :
    (s.setStation y).lawfulBut x := by
  obtain ⟨h1, h2, h3, h4, h5⟩ := h
  refine ⟨⟨fun k => h1.1 (hy ▸ k), h1.2⟩, h2, h3, fun q hq => ?_, h5⟩
  have := h4 q hq
  simp only [State.setStation, hy]
  exact this

@[simp] theorem State.setRoll_lawful (h : s.lawfulBut x) {y : RollUnit} (hp : y.peers = s.roll.peers)
    (hj : y.joinPeriod = s.roll.joinPeriod ∨ y.joinPeriod = none) : (s.setRoll y).lawfulBut x := by
  obtain ⟨h1, h2, h3, h4, h5⟩ := h
  refine ⟨⟨h1.1, fun e he n k => ?_⟩, h2, h3, fun q hq => ?_, h5⟩
  · have := h1.2 e he n k
    simp only [State.peer, State.setRoll_roll, hp]
    exact this
  · obtain ⟨a, b, c⟩ := h4 q hq
    refine ⟨a, b, fun d hd => ⟨(c d hd).1, ?_⟩⟩
    show y.joinPeriod = none
    rcases hj with k | k
    · rw [k]; exact (c d hd).2
    · exact k

@[simp] theorem State.setReceiver_lawful (h : s.lawfulBut x) {y : Receiver} (hy : y.holding = s.receiver.holding) :
    (s.setReceiver y).lawfulBut x := by
  have e : y = { s.receiver with framing := y.framing } := by
    cases y; simp at hy; simp [hy]
  rw [e]; exact h

theorem State.setScreener_path (h : s.pathLawfulBut x) {y : Screener} (hy : y.current = s.screener.current) :
    (s.setScreener y).pathLawfulBut x := by
  have e : y = { s.screener with store := y.store } := by
    cases y; simp at hy; simp [hy]
  rw [e]; exact h

@[simp] theorem State.setImager_lawful (h : s.lawfulBut x) {y : Imager} (hh : y.held = s.imager.held)
    (hb : y.state.busy = s.imager.state.busy ∨ y.state.busy = true) : (s.setImager y).lawfulBut x := by
  obtain ⟨h1, h2, h3, h4, h5, h6, h7⟩ := h
  refine ⟨h1, h2, h3, h4, h5, ⟨fun n j a b => ?_, fun k hk => ?_⟩, h7⟩
  · have := h6.1 n j a b
    simp only [State.setImager_imager, hh]
    exact this
  · have hk' : y.held = some k := hk
    rw [hh] at hk'
    refine ⟨?_, (h6.2 k hk').2⟩
    show y.state.busy = true
    rcases hb with e | e
    · rw [e]; exact (h6.2 k hk').1
    · exact e

@[simp] theorem ImagerState.busy_loading : ImagerState.loading.busy = true := rfl

@[simp] theorem ImagerState.busy_imaging : ImagerState.imaging.busy = true := rfl

@[simp] theorem ImagerState.busy_ejecting : ImagerState.ejecting.busy = true := rfl

/-- The board written: every entry that becomes OWNED names this station or a PRESENT peer, and a station in LOADING
gets no entry. -/
theorem State.setBoard_lawful (h : s.lawfulBut x) {y : Board}
    (he : s.station.state = .loading → s.board.entries = [] → y.entries = [])
    (ho : ∀ e ∈ y.entries, ∀ n, e.state = .owned n →
      (∃ d ∈ s.board.entries, d.state = .owned n) ∨ n = s.settings.station ∨ (s.peer n).state = .present) :
    (s.setBoard y).lawfulBut x := by
  obtain ⟨h1, h2⟩ := h
  refine ⟨⟨fun k => he k (h1.1 k), fun e hm n hn => ?_⟩, h2⟩
  rcases ho e hm n hn with ⟨d, hd, hs⟩ | k
  · exact h1.2 d hd n hs
  · exact k

/-! ## The queue -/

/-- The places of `m` hold what they may when those of `l` do, and its presence place holds a JOIN or LEAVE only where
that of `l` holds it, with the same replacement. -/
def Link.Tame (l m : Link) : Prop :=
  (l.placesHold → m.placesHold) ∧
  ((∀ q, l.presence = some q → q.replacement = none) → ∀ q, m.presence = some q →
    ∃ p, l.presence = some p ∧ q.replacement = p.replacement ∧ (q.msg = .leave → p.msg = .leave) ∧
      ∀ d, q.msg = .join d → p.msg = .join d)

@[simp] theorem Link.Tame.refl (l : Link) : l.Tame l := ⟨id, fun _ q hq => ⟨q, hq, rfl, id, fun _ => id⟩⟩

theorem Link.Tame.trans {l m k : Link} (h : l.Tame m) (g : m.Tame k) : l.Tame k := by
  refine ⟨fun a => g.1 (h.1 a), fun a q hq => ?_⟩
  have hm : ∀ q, m.presence = some q → q.replacement = none := fun q hq => by
    obtain ⟨p, hp, hr, _⟩ := h.2 a q hq
    rw [hr]; exact a p hp
  obtain ⟨p, hp, r1, l1, j1⟩ := g.2 hm q hq
  obtain ⟨o, ho, r2, l2, j2⟩ := h.2 a p hp
  exact ⟨o, ho, r1.trans r2, fun e => l2 (l1 e), fun d e => j2 d (j1 d e)⟩

@[simp] theorem State.setLink_lawful (h : s.lawfulBut x) {l : Link} (hl : s.link.Tame l) :
    (s.setLink l).lawfulBut x := by
  obtain ⟨h1, h2, h3, h4, h5⟩ := h
  refine ⟨h1, h2, hl.1 h3, fun q hq => ?_, h5⟩
  obtain ⟨p, hp, hr, a, b⟩ := hl.2 (fun q hq => (h4 q hq).1) q hq
  obtain ⟨c, d, e⟩ := h4 p hp
  exact ⟨hr.trans c, fun k => d (a k), fun y k => e y (b y k)⟩

/-- A link with its presence place as it was. -/
theorem Link.Tame.ofPresence {l m : Link} (hp : l.placesHold → m.placesHold) (h : m.presence = l.presence) : l.Tame m :=
  ⟨hp, fun _ q hq => ⟨q, h ▸ hq, rfl, id, fun _ => id⟩⟩

/-- A link with an empty presence place. -/
theorem Link.Tame.ofNone {l m : Link} (hp : l.placesHold → m.placesHold) (h : m.presence = none) : l.Tame m :=
  ⟨hp, fun _ q hq => by rw [h] at hq; cases hq⟩

theorem Link.withAge_presence (l : Link) (q : Queued) (hq : l.withAge.presence = some q) :
    ∃ p, l.presence = some p ∧ q.msg = p.msg ∧ q.replacement = p.replacement := by
  obtain ⟨f, hf, e⟩ := l.at_withAge .presence
  have hq' : (l.at .presence).map f = some q := by rw [← e]; exact hq
  rw [Option.map_eq_some_iff] at hq'
  obtain ⟨p, hp, rfl⟩ := hq'
  exact ⟨p, hp, (hf p).1, (hf p).2.2.2⟩

theorem Link.Tame.withAge (l : Link) : l.Tame l.withAge := by
  refine ⟨fun a => a.withAge, fun _ q hq => ?_⟩
  obtain ⟨p, hp, hm, hr⟩ := l.withAge_presence q hq
  exact ⟨p, hp, hr, fun e => hm ▸ e, fun d e => hm ▸ e⟩

/-- A message put in another place than the presence place. -/
theorem Link.Tame.put (l : Link) {p : Place} {m : Msg} (hp : p ≠ .presence) (hm : p.Takes m) : l.Tame (l.put p m) := by
  refine ⟨fun a => a.put hm, fun a q hq => ?_⟩
  have e : (l.put p m).presence = l.withAge.presence := Link.at_put_other l m (r := .presence) (Ne.symm hp)
  rw [e] at hq
  exact (Link.Tame.withAge l).2 a q hq

theorem Link.Tame.requestRoll (l : Link) {m : Msg} (hm : Place.roll.Takes m) : l.Tame (l.request .roll m) := by
  unfold Link.request
  split
  · exact Link.Tame.put l (by simp) hm
  · rename_i q hq
    split
    · refine Link.Tame.ofPresence (fun a => a.setPlace .roll _ ?_) rfl
      intro y hy
      cases hy
      refine ⟨(a .roll q hq).1, fun z hz => ?_⟩
      cases hz
      exact hm
    · exact Link.Tame.put l (by simp) hm

theorem Link.Tame.withdraw (l : Link) (p : Place) : l.Tame (l.withdraw p) := by
  refine ⟨fun a => a.withdraw p, fun _ q hq => ?_⟩
  unfold Link.withdraw at hq
  split at hq
  · exact ⟨q, hq, rfl, id, fun _ => id⟩
  · rename_i y hy
    cases p with
    | presence =>
      split at hq
      · cases hq
        exact ⟨y, hy, rfl, id, fun _ => id⟩
      · cases hq
    | roll => split at hq <;> exact ⟨q, hq, rfl, id, fun _ => id⟩
    | slot n => split at hq <;> exact ⟨q, hq, rfl, id, fun _ => id⟩

theorem Link.Tame.setPlaceNone (l : Link) (p : Place) : l.Tame (l.setPlace p none) := by
  refine ⟨fun a => a.setPlace p none (by simp), fun _ q hq => ?_⟩
  cases p with
  | presence => cases hq
  | roll => exact ⟨q, hq, rfl, id, fun _ => id⟩
  | slot n => exact ⟨q, hq, rfl, id, fun _ => id⟩

theorem Link.Tame.unsent (l : Link) (p : Place) : l.Tame (l.unsent p) := by
  refine ⟨fun a => a.unsent p, fun a q hq => ?_⟩
  unfold Link.unsent at hq
  split at hq
  · exact ⟨q, hq, rfl, id, fun _ => id⟩
  · rename_i y hy
    cases p with
    | presence =>
      have : y.replacement = none := a y hy
      rw [this] at hq
      dsimp only at hq
      split at hq
      · cases hq
      · cases hq
        exact ⟨y, hy, this.symm, id, fun _ => id⟩
    | roll =>
      split at hq
      · rename_i m _
        have e : ((l.setPlace .roll none).put .roll m).presence = (l.setPlace .roll none).withAge.presence :=
          Link.at_put_other _ m (r := .presence) (by simp)
        rw [e] at hq
        exact (Link.Tame.withAge (l.setPlace .roll none)).2 a q hq
      · split at hq <;> exact ⟨q, hq, rfl, id, fun _ => id⟩
    | slot n =>
      split at hq
      · rename_i m _
        have e : ((l.setPlace (.slot n) none).put (.slot n) m).presence =
            (l.setPlace (.slot n) none).withAge.presence := Link.at_put_other _ m (r := .presence) (by simp)
        rw [e] at hq
        exact (Link.Tame.withAge (l.setPlace (.slot n) none)).2 a q hq
      · split at hq <;> exact ⟨q, hq, rfl, id, fun _ => id⟩

theorem Link.Tame.sent (l : Link) (p : Place) : l.Tame (l.sent p) := by
  refine ⟨fun a => a.sent p, fun a q hq => ?_⟩
  unfold Link.sent at hq
  split at hq
  · rename_i m hm
    cases p with
    | presence =>
      rw [Option.bind_eq_some_iff] at hm
      obtain ⟨y, hy, hr⟩ := hm
      have : y.replacement = none := a y hy
      rw [this] at hr
      cases hr
    | roll =>
      have e : ((l.setPlace .roll none).put .roll m).presence = (l.setPlace .roll none).withAge.presence :=
        Link.at_put_other _ m (r := .presence) (by simp)
      rw [e] at hq
      exact (Link.Tame.withAge (l.setPlace .roll none)).2 a q hq
    | slot n =>
      have e : ((l.setPlace (.slot n) none).put (.slot n) m).presence =
          (l.setPlace (.slot n) none).withAge.presence := Link.at_put_other _ m (r := .presence) (by simp)
      rw [e] at hq
      exact (Link.Tame.withAge (l.setPlace (.slot n) none)).2 a q hq
  · exact (Link.Tame.setPlaceNone l p).2 a q hq

theorem Link.Tame.start (l : Link) (p : Place) (bid : Nat) : l.Tame (l.start p bid) := by
  refine ⟨fun a => a.start p bid, fun _ q hq => ?_⟩
  unfold Link.start at hq
  cases p with
  | presence =>
    have hq' : (l.presence.map fun q => { q with msg := q.msg.withBid bid, inProgress := true }) = some q := hq
    rw [Option.map_eq_some_iff] at hq'
    obtain ⟨y, hy, rfl⟩ := hq'
    refine ⟨y, hy, rfl, ?_, fun d => ?_⟩ <;> cases y.msg <;> simp [Msg.withBid]
  | roll => exact ⟨q, hq, rfl, id, fun _ => id⟩
  | slot n => exact ⟨q, hq, rfl, id, fun _ => id⟩

theorem Link.Tame.emptied (l m : Link) : l.Tame m.emptied :=
  Link.Tame.ofNone (fun _ => Link.placesHold.emptied m) rfl

theorem Link.Tame.withPhase {l m : Link} (h : l.Tame m) (ph : LinkPhase) : l.Tame { m with phase := ph } :=
  ⟨fun a => (h.1 a).withPhase ph, h.2⟩

/-! ## Jobs -/

/-- A job changed in what the laws do not read, or within them: its stage stays RECEIVING, IMAGING or neither, and it
does not become CONTENDING. -/
def Job.Tame (j k : Job) : Prop :=
  (j.standingLawful → k.standingLawful) ∧ (j.cursorLawful → k.cursorLawful) ∧
  (k.stage = .receiving ↔ j.stage = .receiving) ∧ (k.stage = .imaging ↔ j.stage = .imaging) ∧
  k.generation = j.generation ∧ k.cursor.current = j.cursor.current ∧ k.cursor.buffer = j.cursor.buffer ∧
  (j.endAdmitted = true ∧ j.quiet = none → k.endAdmitted = true ∧ k.quiet = none) ∧
  (k.standing = .contending → j.standing = .contending)

@[simp] theorem Job.Tame.refl (j : Job) : j.Tame j := ⟨id, id, Iff.rfl, Iff.rfl, rfl, rfl, rfl, id, id⟩

/-- What two jobs' places in a slot must have in common. -/
def Slot.Tame (a b : Option Job) : Prop :=
  (a = none ↔ b = none) ∧ ∀ j k, a = some j → b = some k → j.Tame k

theorem Slot.Tame.map (a : Option Job) {f : Job → Job} (h : ∀ j, a = some j → j.Tame (f j)) :
    Slot.Tame a (a.map f) := by
  refine ⟨by simp, fun j k hj hk => ?_⟩
  subst hj
  cases hk
  exact h j rfl

/-- The job table with every slot changed in what the laws do not read, or within them. -/
theorem State.setJobs_path (h : s.pathLawfulBut x) {u : JobTable} (hu : ∀ n : Slot, Slot.Tame (s.job n) u.slots[n]) :
    (s.setJobs u).pathLawfulBut x := by
  have back : ∀ n k, (s.setJobs u).job n = some k → ∃ j, s.job n = some j ∧ j.Tame k := by
    intro n k hk
    have hk' : u.slots[n] = some k := hk
    cases hj : s.job n with
    | none => rw [((hu n).1.mp hj)] at hk'; cases hk'
    | some j => exact ⟨j, rfl, (hu n).2 j k hj hk'⟩
  have forth : ∀ n j, s.job n = some j → ∃ k, (s.setJobs u).job n = some k ∧ j.Tame k := by
    intro n j hj
    cases hk : u.slots[n] with
    | none => rw [((hu n).1.mpr hk)] at hj; cases hj
    | some k => exact ⟨k, hk, (hu n).2 j k hj hk⟩
  obtain ⟨h1, h2, h3, h4, h5, h6, h7, h8, h9⟩ := h
  refine ⟨h1, ⟨h2.1, fun n => ⟨(h2.2 n).1, fun hr => ?_⟩⟩, h3, fun q hq => ?_, fun n k hk => ?_,
    ⟨fun n k hx hk => ?_, fun y hy => ⟨(h6.2 y hy).1, fun hx => ?_⟩⟩, ⟨fun d a hw => ?_, fun n k hk hc hw => ?_⟩, h8,
    fun b => ?_⟩
  · obtain ⟨j, hj, he⟩ := (h2.2 n).2 hr
    obtain ⟨k, hk, t⟩ := forth n j hj
    exact ⟨k, hk, t.2.2.2.2.2.2.2.1 he⟩
  · obtain ⟨a, b, c⟩ := h4 q hq
    refine ⟨a, fun e => ⟨(b e).1, fun n => ?_⟩, c⟩
    cases hk : (s.setJobs u).job n with
    | none => rfl
    | some k =>
      obtain ⟨j, hj, _⟩ := back n k hk
      rw [(b e).2 n] at hj; cases hj
  · obtain ⟨j, hj, t⟩ := back n k hk
    exact ⟨t.1 (h5 n j hj).1, t.2.1 (h5 n j hj).2⟩
  · obtain ⟨j, hj, t⟩ := back n k hk
    rw [t.2.2.2.1, t.2.2.2.2.1]
    exact h6.1 n j hx hj
  · obtain ⟨j, hj, he⟩ := (h6.2 y hy).2 hx
    obtain ⟨k, hk, t⟩ := forth _ j hj
    exact ⟨k, hk, t.2.2.2.2.1.trans he⟩
  · obtain ⟨j, hj, hc, hb, hr⟩ := h7.1 d a hw
    obtain ⟨k, hk, t⟩ := forth _ j hj
    refine ⟨k, hk, t.2.2.2.2.2.1.trans hc, t.2.2.2.2.2.2.1.trans hb, fun y hy => ?_⟩
    obtain ⟨e1, r, rest, e2, e3, e4⟩ := hr y hy
    exact ⟨t.2.2.1.mpr e1, r, rest, e2, e3, e4.trans t.2.2.2.2.1.symm⟩
  · obtain ⟨j, hj, t⟩ := back n k hk
    rw [t.2.2.2.2.2.2.1]
    exact h7.2 n j hj (t.2.2.2.2.2.1 ▸ hc) hw
  · have e : (s.setJobs u).cursorHas b = s.cursorHas b := by
      funext n
      unfold State.cursorHas
      cases hj : s.job n with
      | none =>
        cases hk : (s.setJobs u).job n with
        | none => rfl
        | some k => obtain ⟨j, hj', _⟩ := back n k hk; rw [hj] at hj'; cases hj'
      | some j =>
        obtain ⟨k, hk, t⟩ := forth n j hj
        simp only [hk, Option.bind_some, t.2.2.2.2.2.2.1]
    have := h9 b
    unfold State.buffersHeld at this ⊢
    rw [e]
    exact this

/-- One slot's job changed so. -/
theorem State.modifyJob_path (h : s.pathLawfulBut x) (n : Slot) {f : Job → Job}
    (hf : ∀ j, s.job n = some j → j.Tame (f j)) : (s.modifyJob n f).pathLawfulBut x := by
  refine State.setJobs_path h fun m => ?_
  by_cases e : m = n
  · subst e
    simp only [Fin.getElem_fin, Vector.getElem_set_self]
    exact Slot.Tame.map _ hf
  · have : (n : Nat) ≠ (m : Nat) := fun y => e (Fin.ext y.symm)
    have k : (s.jobs.slots.set n ((s.job n).map f))[m] = s.job m := Vector.getElem_set_ne n.isLt m.isLt this
    simp only [k]
    exact ⟨Iff.rfl, fun j k a b => by rw [a] at b; cases b; exact Job.Tame.refl j⟩

/-- The job table changed so, the states of the bands as they were. -/
theorem State.setJobs_lawful (h : s.lawfulBut x) {u : JobTable} (hu : ∀ n : Slot, Slot.Tame (s.job n) u.slots[n])
    (hb : ∀ n, (s.setJobs u).bandStates n = s.bandStates n) : (s.setJobs u).lawfulBut x :=
  (State.setJobs_path h.path hu).with
    (h.store.of hb (fun _ _ => id) (fun _ _ => id) h.store.2.2.1 rfl rfl)

/-- One slot's job changed so, the states of its bands as they were. -/
theorem State.modifyJob_lawful (h : s.lawfulBut x) (n : Slot) {f : Job → Job}
    (hf : ∀ j, s.job n = some j → j.Tame (f j))
    (hb : ∀ j, s.job n = some j → ((f j).bands.map fun e => e.state) = j.bands.map fun e => e.state := by
      intros; rfl) : (s.modifyJob n f).lawfulBut x :=
  (State.modifyJob_path h.path n hf).with
    (h.store.of (State.bandStates_modifyJob hb) (fun _ _ => id) (fun _ _ => id) h.store.2.2.1 rfl rfl)

/-- A job's stage changed to one that is neither RECEIVING nor IMAGING. -/
theorem State.setStage_lawful (h : s.lawfulBut x) (n : Slot) {f : Job → Job}
    (hf : ∀ j, s.job n = some j → j.Tame { f j with stage := j.stage } ∧ (f j).stage ≠ .receiving ∧
      (f j).stage ≠ .imaging ∧ (x = some n ∨ j.stage ≠ .imaging) ∧
      ((f j).standing = .contending → (f j).stage = .closing))
    (hw : ∀ d a, s.unpacker.work = .waitRing d a → d.slot = n → ∀ j, s.job n = some j → j.stage ≠ .receiving)
    (hb : ∀ j, s.job n = some j → ((f j).bands.map fun e => e.state) = j.bands.map fun e => e.state := by
      intros; rfl) :
    (s.modifyJob n f).lawfulBut x := by
  refine State.pathLawfulBut.with ?_
    (h.store.of (State.bandStates_modifyJob hb) (fun _ _ => id) (fun _ _ => id) h.store.2.2.1 rfl rfl)
  have h' := State.modifyJob_path h.path n (f := fun j => { f j with stage := j.stage }) fun j hj => (hf j hj).1
  generalize ht : s.modifyJob n (fun j => { f j with stage := j.stage }) = t at h'
  have hj : ∀ m, (s.modifyJob n f).job m = if m = n then (s.job n).map f else t.job m := by
    intro m
    by_cases e : m = n
    · subst e; simp
    · rw [if_neg e, ← ht, State.job_modifyJob_other _ _ _ _ e, State.job_modifyJob_other _ _ _ _ e]
  have htn : t.job n = (s.job n).map fun j => { f j with stage := j.stage } := by rw [← ht]; simp
  have hrest : t.link = s.link ∧ t.receiver = s.receiver ∧ t.unpacker = s.unpacker ∧ t.imager = s.imager := by
    rw [← ht]; exact ⟨rfl, rfl, rfl, rfl⟩
  obtain ⟨hl, hrc, hu, him⟩ := hrest
  have hty : (s.modifyJob n f) = t.setJobs (s.modifyJob n f).jobs := by rw [← ht]; rfl
  generalize hg : s.modifyJob n f = g at hj hty
  have hgj : ∀ m j, g.job m = some j → (m ≠ n ∧ t.job m = some j) ∨
      (m = n ∧ ∃ i, s.job n = some i ∧ j = f i ∧ t.job n = some { f i with stage := i.stage }) := by
    intro m j hm
    rw [hj] at hm
    by_cases e : m = n
    · rw [if_pos e, Option.map_eq_some_iff] at hm
      obtain ⟨i, hi, rfl⟩ := hm
      exact Or.inr ⟨e, i, hi, rfl, by rw [htn, hi]; rfl⟩
    · rw [if_neg e] at hm; exact Or.inl ⟨e, hm⟩
  have hforth : ∀ m j, t.job m = some j → ∃ k, g.job m = some k ∧ k.generation = j.generation ∧
      k.endAdmitted = j.endAdmitted ∧ k.quiet = j.quiet ∧ k.cursor = j.cursor ∧ (m ≠ n → k = j) := by
    intro m j hm
    by_cases e : m = n
    · subst e
      rw [htn, Option.map_eq_some_iff] at hm
      obtain ⟨i, hi, rfl⟩ := hm
      exact ⟨f i, by rw [hj, if_pos rfl, hi]; rfl, rfl, rfl, rfl, rfl, fun k => absurd rfl k⟩
    · exact ⟨j, by rw [hj, if_neg e]; exact hm, rfl, rfl, rfl, rfl, fun _ => rfl⟩
  rw [hty]
  have hgs : ∀ m, (t.setJobs g.jobs).job m = g.job m := fun _ => rfl
  obtain ⟨h1, h2, h3, h4, h5, h6, h7, h8, h9⟩ := h'
  refine ⟨h1, ⟨h2.1, fun m => ⟨(h2.2 m).1, fun hr => ?_⟩⟩, h3, fun q hq => ?_, fun m k hk => ?_,
    ⟨fun m k hx hk => ?_, fun y hy => ⟨(h6.2 y hy).1, fun hx => ?_⟩⟩, ⟨fun d a hwt => ?_, fun m k hk hc hwt => ?_⟩, h8,
    fun b => ?_⟩
  · obtain ⟨j, hj1, he⟩ := (h2.2 m).2 hr
    obtain ⟨k, hk, _, e1, e2, _⟩ := hforth m j hj1
    exact ⟨k, hk, e1.trans he.1, e2.trans he.2⟩
  · obtain ⟨a, b, c⟩ := h4 q hq
    refine ⟨a, fun e => ⟨(b e).1, fun m => ?_⟩, c⟩
    rw [hgs]
    cases hk : g.job m with
    | none => rfl
    | some k =>
      rcases hgj m k hk with ⟨_, q1⟩ | ⟨rfl, i, _, _, q1⟩ <;> rw [(b e).2] at q1 <;> cases q1
  · rw [hgs] at hk
    rcases hgj m k hk with ⟨_, q1⟩ | ⟨rfl, i, hi, rfl, q1⟩
    · exact h5 m k q1
    · obtain ⟨_, _, _, _, hst⟩ := hf i hi
      have := h5 _ _ q1
      exact ⟨⟨fun e => Or.inr (hst e), this.1.2⟩, this.2⟩
  · rw [hgs] at hk
    rcases hgj m k hk with ⟨_, q1⟩ | ⟨rfl, i, hi, rfl, q1⟩
    · exact h6.1 m k hx q1
    · obtain ⟨_, _, hni, hxi, _⟩ := hf i hi
      have := h6.1 _ _ hx q1
      rcases hxi with e | e
      · exact absurd e hx
      · constructor
        · intro z; exact absurd z hni
        · intro z; exact absurd (this.mpr z) e
  · obtain ⟨j, hj1, he⟩ := (h6.2 y hy).2 hx
    obtain ⟨k, hk, e1, _⟩ := hforth _ j hj1
    exact ⟨k, hk, e1.trans he⟩
  · obtain ⟨j, hj1, hc, hb, hr⟩ := h7.1 d a hwt
    obtain ⟨k, hk, e1, _, _, e2, e3⟩ := hforth _ j hj1
    refine ⟨k, hk, by rw [e2]; exact hc, by rw [e2]; exact hb, fun y hy => ?_⟩
    obtain ⟨r1, r, rest, r2, r3, r4⟩ := hr y hy
    by_cases e : d.slot = n
    · exfalso
      rw [e, htn, Option.map_eq_some_iff] at hj1
      obtain ⟨i, hi, rfl⟩ := hj1
      exact hw d a (by rw [← hu]; exact hwt) e i hi r1
    · rw [e3 e]
      exact ⟨r1, r, rest, r2, r3, r4⟩
  · rw [hgs] at hk
    rcases hgj m k hk with ⟨_, q1⟩ | ⟨rfl, i, hi, rfl, q1⟩
    · exact h7.2 m k q1 hc hwt
    · exact h7.2 m { f i with stage := i.stage } q1 hc hwt
  · have e : (t.setJobs g.jobs).cursorHas b = t.cursorHas b := by
      funext m
      unfold State.cursorHas
      rw [hgs]
      cases hjm : t.job m with
      | none =>
        cases hk : g.job m with
        | none => rfl
        | some k => rcases hgj m k hk with ⟨_, q1⟩ | ⟨rfl, i, _, _, q1⟩ <;> rw [hjm] at q1 <;> cases q1
      | some j =>
        obtain ⟨k, hk, _, _, _, e2, _⟩ := hforth m j hjm
        simp only [hk, Option.bind_some, e2]
    have := h9 b
    unfold State.buffersHeld at this ⊢
    rw [e]
    exact this

end Sys2Proof.Machine
end

