-- ==== Sys2Proof/Laws/PathJobs.lean ====
section
/-! SUPPORT. The operations of Job Control, and of the Imager that it calls upon, keep the laws of owners, of the
holding queue, of the Imager's job and of the band buffers. -/

namespace Sys2Proof.Machine

variable {x : Option Slot} {s : State}

/-! ## The head record and the Unpacker's work -/

theorem Unpacker.waits_false {u : Unpacker} (h : u.waitsForRing = false) (d : Descriptor) (a : AfterRing) :
    u.work ≠ .waitRing d a := fun e => by simp [Unpacker.waitsForRing, e] at h

/-- The holding queue loses records, and the Unpacker, which does not wait for ring room, takes other work. -/
theorem State.setHead_lawful (h : s.lawfulBut x) (hw : s.unpacker.waitsForRing = false) {r : Receiver}
    (hr : r.holding.Sublist s.receiver.holding) {w : UnpackWork} (hn : ∀ d a, w ≠ .waitRing d a) :
    ((s.setReceiver r).setUnpacker { s.unpacker with work := w }).lawfulBut x := by
  obtain ⟨h1, h2, h3, h4, h5, h6, h7, h8, h9⟩ := h
  refine ⟨h1, ⟨?_, fun n => ⟨?_, fun k => ?_⟩⟩, h3, h4, h5, h6, ⟨fun d a e => absurd e (hn d a), fun n j hj hc _ => ?_⟩,
    h8, h9.1, h9.2.of (fun _ => rfl) (fun _ _ => id) (fun d a e => absurd e (hn d a)) h9.2.2.2.1 rfl rfl⟩
  · exact Nat.le_trans (hr.filter _).length_le h2.1
  · exact Nat.le_trans (hr.filter _).length_le (h2.2 n).1
  · obtain ⟨y, hy, e⟩ := k
    exact (h2.2 n).2 ⟨y, hr.subset hy, e⟩
  · exact h7.2 n j hj hc fun d a e => absurd e (Unpacker.waits_false hw d a)

theorem State.setWork_lawful (h : s.lawfulBut x) (hw : s.unpacker.waitsForRing = false) {w : UnpackWork}
    (hn : ∀ d a, w ≠ .waitRing d a) : (s.setWork w).lawfulBut x :=
  State.setHead_lawful h hw (List.Sublist.refl _) hn

theorem State.finishHead_lawful (h : s.lawfulBut x) (hw : s.unpacker.waitsForRing = false) :
    s.finishHead.lawfulBut x :=
  State.setHead_lawful h hw (List.tail_sublist _) (by simp)

/-! ## Leaving the data path -/

/-- What a slot's work leaves behind. -/
theorem State.abandonWork_spec (s : State) (n : Slot) :
    let t := s.abandonWork n
    (∀ m, t.job m = if m = n then (s.job n).map Job.withoutCursors else s.job m) ∧
    t.ring = s.ring.void n ∧
    t.unpacker.pool = (((s.job n).bind fun j => j.cursor.buffer).map (insertSorted s.unpacker.pool)).getD s.unpacker.pool ∧
    (∀ d a, t.unpacker.work = .waitRing d a ↔ s.unpacker.work = .waitRing d a ∧ d.slot ≠ n) ∧
    (t.receiver.holding = s.receiver.holding.filter (fun r => !r.isEndOf n) ∨
      (t.receiver.holding = s.receiver.holding.tail.filter (fun r => !r.isEndOf n) ∧ t.unpacker.work = .free)) ∧
    t.link = s.link ∧ t.station = s.station ∧ t.roll = s.roll ∧ t.board = s.board ∧ t.settings = s.settings ∧
    t.imager = s.imager ∧ t.screener = s.screener := by
  intro t
  have hjobs : ∀ m, t.job m = if m = n then (s.job n).map Job.withoutCursors else s.job m := by
    intro m
    have e : ∀ u : State, u.jobs = s.jobs → (u.modifyJob n Job.withoutCursors).job m =
        if m = n then (s.job n).map Job.withoutCursors else s.job m := by
      intro u hu
      by_cases k : m = n
      · subst k; simp [State.job_congr hu]
      · rw [if_neg k, State.job_modifyJob_other _ _ _ _ k, State.job_congr hu]
    refine e _ ?_
    simp only [State.removeEndMarker, State.setReceiver_jobs]
    unfold State.stopUnpacking
    (repeat' split) <;> simp [State.dropStale, State.finishHead, State.reportStale, State.returnBuffer]
  refine ⟨hjobs, ?_⟩
  have key : ∀ u : State, u.receiver = s.receiver → u.unpacker.work = s.unpacker.work →
      let v := (u.stopUnpacking n).removeEndMarker n
      v.ring = u.ring ∧ v.unpacker.pool = u.unpacker.pool ∧
      (∀ d a, v.unpacker.work = .waitRing d a ↔ s.unpacker.work = .waitRing d a ∧ d.slot ≠ n) ∧
      (v.receiver.holding = s.receiver.holding.filter (fun r => !r.isEndOf n) ∨
        (v.receiver.holding = s.receiver.holding.tail.filter (fun r => !r.isEndOf n) ∧ v.unpacker.work = .free)) ∧
      v.link = u.link ∧ v.station = u.station ∧ v.roll = u.roll ∧ v.board = u.board ∧ v.settings = u.settings ∧
      v.imager = u.imager ∧ v.screener = u.screener := by
    intro u hr hu
    unfold State.stopUnpacking
    cases hw : u.unpacker.work with
    | free =>
      refine ⟨rfl, rfl, fun d a => ?_, Or.inl (by simp [State.removeEndMarker, hr]), rfl, rfl, rfl, rfl, rfl, rfl, rfl⟩
      rw [← hu, hw]
      simp [State.removeEndMarker, hw]
    | waitBuffer =>
      refine ⟨rfl, rfl, fun d a => ?_, Or.inl (by simp [State.removeEndMarker, hr]), rfl, rfl, rfl, rfl, rfl, rfl, rfl⟩
      rw [← hu, hw]
      simp [State.removeEndMarker, hw]
    | decoding =>
      dsimp only
      split
      · refine ⟨rfl, rfl, fun d a => ?_, Or.inr ⟨by simp [State.removeEndMarker, State.dropStale, State.finishHead,
          State.reportStale, hr], rfl⟩, rfl, rfl, rfl, rfl, rfl, rfl, rfl⟩
        rw [← hu, hw]
        simp [State.removeEndMarker, State.dropStale, State.finishHead, State.reportStale]
      · refine ⟨rfl, rfl, fun d a => ?_, Or.inl (by simp [State.removeEndMarker, hr]), rfl, rfl, rfl, rfl, rfl, rfl, rfl⟩
        rw [← hu, hw]
        simp [State.removeEndMarker, hw]
    | waitRing d' a' =>
      dsimp only
      split
      · rename_i hd
        split
        · refine ⟨rfl, rfl, fun d a => ?_, Or.inr ⟨by simp [State.removeEndMarker, State.dropStale, State.finishHead,
            State.reportStale, hr], rfl⟩, rfl, rfl, rfl, rfl, rfl, rfl, rfl⟩
          rw [← hu, hw]
          simp [State.removeEndMarker, State.dropStale, State.finishHead, State.reportStale]
          intro e _; rw [← e]; exact hd
        · refine ⟨rfl, rfl, fun d a => ?_, Or.inl (by simp [State.removeEndMarker, hr]),
            rfl, rfl, rfl, rfl, rfl, rfl, rfl⟩
          rw [← hu, hw]
          simp [State.removeEndMarker]
          intro e _; rw [← e]; exact hd
      · rename_i hd
        refine ⟨rfl, rfl, fun d a => ?_, Or.inl (by simp [State.removeEndMarker, hr]), rfl, rfl, rfl, rfl, rfl, rfl, rfl⟩
        rw [← hu, hw]
        simp [State.removeEndMarker, hw]
        intro e _; rw [← e]; exact hd
  have k := key ((s.setRing (s.ring.void n)).returnBuffer (((s.setRing (s.ring.void n)).job n).bind fun j =>
    j.cursor.buffer)) (by simp [State.returnBuffer]) (by simp [State.returnBuffer])
  have e : s.abandonWork n = ((((s.setRing (s.ring.void n)).returnBuffer
    (((s.setRing (s.ring.void n)).job n).bind fun j => j.cursor.buffer)).stopUnpacking n).removeEndMarker n).modifyJob n
      Job.withoutCursors := rfl
  simp only [t, e]
  generalize ((((s.setRing (s.ring.void n)).returnBuffer
    (((s.setRing (s.ring.void n)).job n).bind fun j => j.cursor.buffer)).stopUnpacking n).removeEndMarker n) = v at k
  have hj : (s.setRing (s.ring.void n)).job n = s.job n := State.job_congr (State.setRing_jobs _ _) n
  rw [hj] at k
  simp only [State.returnBuffer, State.setUnpacker_ring, State.setUnpacker_unpacker, State.setUnpacker_link,
    State.setUnpacker_station, State.setUnpacker_roll, State.setUnpacker_board, State.setUnpacker_settings,
    State.setUnpacker_imager, State.setUnpacker_screener, State.setRing_ring, State.setRing_unpacker, State.setRing_link,
    State.setRing_station, State.setRing_roll, State.setRing_board, State.setRing_settings, State.setRing_imager,
    State.setRing_screener] at k
  simpa only [State.modifyJob, State.setJob, State.setJobs_ring, State.setJobs_unpacker, State.setJobs_receiver,
    State.setJobs_link, State.setJobs_station, State.setJobs_roll, State.setJobs_board, State.setJobs_settings,
    State.setJobs_imager, State.setJobs_screener] using k

/-- Leaving the data path keeps the laws. -/
theorem State.abandonWork_lawful (h : s.lawfulBut x) (n : Slot) : (s.abandonWork n).lawfulBut x := by
  obtain ⟨hj, hri, hpo, hwo, hho, hl, hst, hro, hbo, hse, him, hsc⟩ := State.abandonWork_spec s n
  generalize s.abandonWork n = t at *
  obtain ⟨h1, h2, h3, h4, h5, h6, h7, h8, h9, h0⟩ := h
  have forth : ∀ m j, s.job m = some j → ∃ k, t.job m = some k ∧ (m ≠ n → k = j) ∧ (m = n → k = j.withoutCursors) := by
    intro m j hm
    by_cases e : m = n
    · subst e; exact ⟨j.withoutCursors, by rw [hj, if_pos rfl, hm]; rfl, fun k => absurd rfl k, fun _ => rfl⟩
    · exact ⟨j, by rw [hj, if_neg e]; exact hm, fun _ => rfl, fun k => absurd k e⟩
  have back : ∀ m k, t.job m = some k → ∃ j, s.job m = some j ∧ (m ≠ n → k = j) ∧ (m = n → k = j.withoutCursors) := by
    intro m k hm
    rw [hj] at hm
    by_cases e : m = n
    · rw [if_pos e, Option.map_eq_some_iff] at hm
      obtain ⟨j, q, rfl⟩ := hm
      subst e
      exact ⟨j, q, fun z => absurd rfl z, fun _ => rfl⟩
    · rw [if_neg e] at hm
      exact ⟨k, hm, fun _ => rfl, fun z => absurd z e⟩
  have hsub : t.receiver.holding.Sublist s.receiver.holding := by
    rcases hho with e | ⟨e, _⟩ <;> rw [e]
    · exact List.filter_sublist
    · exact List.filter_sublist.trans (List.tail_sublist _)
  have hno : ∀ r ∈ t.receiver.holding, r.isEndOf n = false := by
    intro r hr
    rcases hho with e | ⟨e, _⟩ <;> rw [e, List.mem_filter] at hr <;> simpa using hr.2
  refine ⟨?_, ⟨Nat.le_trans (hsub.filter _).length_le h2.1, fun m => ⟨Nat.le_trans (hsub.filter _).length_le (h2.2 m).1,
    fun hr => ?_⟩⟩, hl ▸ h3, fun q hq => ?_, fun m k hk => ?_, ⟨fun m k hx hk => ?_, fun y hy => ?_⟩,
    ⟨fun d a e => ?_, fun m k hk hc hw => ?_⟩, ?_, fun b => ?_, h0.of (fun m => ?_) (fun i d e => ?_)
      (fun d a e => ((hwo d a).mp e).1) ?_ (by rw [hsc]) (by rw [hsc])⟩
  · unfold State.ownersLawful State.peer
    rw [hst, hbo, hse, hro]
    exact h1
  · obtain ⟨r, hr1, hr2⟩ := hr
    by_cases e : m = n
    · subst e; rw [hno r hr1] at hr2; cases hr2
    · obtain ⟨j, q1, q2⟩ := (h2.2 m).2 ⟨r, hsub.subset hr1, hr2⟩
      obtain ⟨k, q3, q4, _⟩ := forth m j q1
      rw [q4 e] at q3
      exact ⟨j, q3, q2⟩
  · rw [hl] at hq
    rw [hst, hro]
    obtain ⟨a, b, c⟩ := h4 q hq
    refine ⟨a, fun e => ⟨(b e).1, fun m => ?_⟩, c⟩
    cases hk : t.job m with
    | none => rfl
    | some k => obtain ⟨j, q, _⟩ := back m k hk; rw [(b e).2] at q; cases q
  · obtain ⟨j, q, e1, e2⟩ := back m k hk
    have := h5 m j q
    by_cases e : m = n
    · rw [e2 e]
      exact ⟨this.1, fun c hc => by cases hc⟩
    · rw [e1 e]; exact this
  · obtain ⟨j, q, e1, e2⟩ := back m k hk
    rw [him]
    have := h6.1 m j hx q
    by_cases e : m = n
    · rw [e2 e]; exact this
    · rw [e1 e]; exact this
  · rw [him] at hy ⊢
    refine ⟨(h6.2 y hy).1, fun hx => ?_⟩
    obtain ⟨j, q, e⟩ := (h6.2 y hy).2 hx
    obtain ⟨k, q2, e1, e2⟩ := forth _ j q
    refine ⟨k, q2, ?_⟩
    by_cases z : y.slot = n
    · rw [e2 z]; exact e
    · rw [e1 z]; exact e
  · obtain ⟨e1, e2⟩ := (hwo d a).mp e
    obtain ⟨j, q, c1, c2, c3⟩ := h7.1 d a e1
    obtain ⟨k, q2, e3, _⟩ := forth _ j q
    rw [e3 e2] at q2
    refine ⟨j, q2, c1, c2, fun y hy => ?_⟩
    obtain ⟨r1, r, rest, r2, r3, r4⟩ := c3 y hy
    refine ⟨r1, r, rest.filter (fun r => !r.isEndOf n), ?_, r3, r4⟩
    have hrn : r.isEndOf n = false := by
      unfold HoldingRecord.isEndOf
      split
      · simp [r3, e2]
      · rfl
    rcases hho with z | ⟨_, z⟩
    · rw [z, r2, List.filter_cons, hrn]; rfl
    · rw [z] at e; cases e
  · obtain ⟨j, q, e1, e2⟩ := back m k hk
    by_cases e : m = n
    · rw [e2 e]; rfl
    · rw [e1 e] at hc ⊢
      refine h7.2 m j q hc fun d a z => ?_
      by_cases y : d.slot = n
      · rw [y]; exact Ne.symm e
      · exact hw d a ((hwo d a).mpr ⟨z, y⟩)
  · rw [hri]; exact h8.same (Ring.void_same _ _)
  · have hb := h9 b
    unfold State.buffersHeld at hb ⊢
    rw [hri, (Ring.void_same s.ring n).has b, hsc, hpo]
    have hc := countP_change allSlots (List.nodup_finRange 8) n (List.mem_finRange _) (s.cursorHas b) (t.cursorHas b)
      (fun m hm => by simp [State.cursorHas, hj, hm])
    have ht : t.cursorHas b n = false := by
      simp only [State.cursorHas, hj, if_true]
      cases s.job n <;> simp [Job.withoutCursors, UnpackCursor.empty]
    rw [ht] at hc
    cases hbuf : (s.job n).bind (fun j => j.cursor.buffer) with
    | none =>
      have : s.cursorHas b n = false := by simp [State.cursorHas, hbuf]
      rw [this] at hc
      simp only [Option.map_none, Option.getD_none]
      simp at hc
      omega
    | some y =>
      have hy : s.unpacker.pool.count y = 0 := by
        have hz := h9 y
        unfold State.buffersHeld at hz
        have : 0 < allSlots.countP (s.cursorHas y) := by
          rw [List.countP_pos_iff]
          exact ⟨n, List.mem_finRange _, by simp [State.cursorHas, hbuf]⟩
        have : (if y < Config.bandBuffers then 1 else 0) ≤ 1 := by split <;> omega
        omega
      simp only [Option.map_some, Option.getD_some]
      rw [count_insertSorted (not_mem_of_count hy)]
      by_cases e : y = b
      · have : s.cursorHas b n = true := by simp [State.cursorHas, hbuf, e]
        rw [this] at hc
        simp [e] at hc ⊢
        omega
      · have : s.cursorHas b n = false := by simp [State.cursorHas, hbuf, e]
        rw [this] at hc
        simp [e] at hc ⊢
        omega
  · by_cases e : m = n
    · subst e
      unfold State.bandStates
      rw [hj, if_pos rfl]
      cases s.job m <;> rfl
    · exact State.bandStates_congr (by rw [hj, if_neg e])
  · rw [hri] at e; exact (Ring.takes_void e).1
  · rw [hpo]
    cases (s.job n).bind fun j => j.cursor.buffer with
    | none => exact h0.2.2.1
    | some y => exact insertSorted_rises h0.2.2.1 y

/-! ## Freeing -/

/-- A job that has left the data path leaves the table. -/
theorem State.setJobNone_path (h : s.pathLawfulBut x) (n : Slot)
    (hn : ∀ j, s.job n = some j → (x = some n ∨ j.stage ≠ .imaging) ∧ j.cursor.buffer = none)
    (hm : ∀ r ∈ s.receiver.holding, r.isEndOf n = false)
    (hw : ∀ d a, s.unpacker.work = .waitRing d a → d.slot ≠ n) : (s.setJob n none).pathLawfulBut x := by
  obtain ⟨h1, h2, h3, h4, h5, h6, h7, h8, h9⟩ := h
  have hj : ∀ m, (s.setJob n none).job m = if m = n then none else s.job m := by
    intro m
    by_cases e : m = n
    · subst e; simp
    · rw [if_neg e, State.job_setJob_other _ _ _ _ e]
  have back : ∀ m k, (s.setJob n none).job m = some k → m ≠ n ∧ s.job m = some k := by
    intro m k hk
    rw [hj] at hk
    by_cases e : m = n
    · rw [if_pos e] at hk; cases hk
    · rw [if_neg e] at hk; exact ⟨e, hk⟩
  have forth : ∀ m k, m ≠ n → s.job m = some k → (s.setJob n none).job m = some k := fun m k e hk => by
    rw [hj, if_neg e]; exact hk
  refine ⟨h1, ⟨h2.1, fun m => ⟨(h2.2 m).1, fun hr => ?_⟩⟩, h3, fun q hq => ?_, fun m k hk => h5 m k (back m k hk).2,
    ⟨fun m k hx hk => h6.1 m k hx (back m k hk).2, fun y hy => ⟨(h6.2 y hy).1, fun hx => ?_⟩⟩,
    ⟨fun d a e => ?_, fun m k hk hc hwt => h7.2 m k (back m k hk).2 hc hwt⟩, h8, fun b => ?_⟩
  · obtain ⟨j, q1, q2⟩ := (h2.2 m).2 hr
    obtain ⟨r, hr1, hr2⟩ := hr
    refine ⟨j, forth m j (fun e => ?_) q1, q2⟩
    rw [e, hm r hr1] at hr2; cases hr2
  · obtain ⟨a, b, c⟩ := h4 q hq
    refine ⟨a, fun e => ⟨(b e).1, fun m => ?_⟩, c⟩
    rw [hj]; split
    · rfl
    · exact (b e).2 m
  · obtain ⟨j, q, e⟩ := (h6.2 y hy).2 hx
    refine ⟨j, forth _ j (fun z => ?_) q, e⟩
    have hst := (h6.1 y.slot j hx q).mpr (by rw [e]; exact hy)
    rw [z] at q
    rcases (hn j q).1 with w | w
    · exact hx (z ▸ w)
    · exact w hst
  · obtain ⟨j, q, c⟩ := h7.1 d a e
    exact ⟨j, forth _ j (hw d a e) q, c⟩
  · have hb := h9 b
    unfold State.buffersHeld at hb ⊢
    have : (s.setJob n none).cursorHas b = s.cursorHas b := by
      funext m
      unfold State.cursorHas
      rw [hj]
      by_cases e : m = n
      · subst e
        rw [if_pos rfl]
        cases q : s.job m with
        | none => rfl
        | some j => simp [(hn j q).2]
      · rw [if_neg e]
    rw [this]
    exact hb

/-- A LEAVE queued by a draining station whose presence place is empty. -/
theorem State.tableEmptied_lawful (h : s.lawfulBut x) (hp : s.station.state = .draining → s.link.presence = none) :
    s.tableEmptied.lawfulBut x := by
  unfold State.tableEmptied
  split
  · rename_i k
    obtain ⟨ha, hd⟩ := k
    have hpn := hp hd
    have hno : ∀ n, s.job n = none := by
      intro n
      have := List.any_eq_false.mp ha n (List.mem_finRange _)
      simpa using this
    obtain ⟨h1, h2, h3, h4⟩ := h
    have hreq : s.link.request .presence .leave = s.link.put .presence .leave := by
      unfold Link.request
      have : s.link.at .presence = none := hpn
      rw [this]
    unfold State.queueLeave
    rw [hreq]
    refine ⟨h1, h2, h3.put rfl, fun q hq => ?_, h4.2⟩
    have e : (s.link.put .presence .leave).at .presence = some q := hq
    rw [Link.at_put_same] at e
    cases e
    exact ⟨rfl, fun _ => ⟨hd, hno⟩, fun d z => by cases z⟩
  · exact h

/-- With a live job, a draining station has nothing in its presence place. -/
theorem State.lawfulBut.presence_none (h : s.lawfulBut x) {n : Slot} {j : Job} (hj : s.job n = some j)
    (hd : s.station.state = .draining) : s.link.presence = none := by
  obtain ⟨_, _, h3, h4, _⟩ := h
  cases hq : s.link.presence with
  | none => rfl
  | some q =>
    exfalso
    obtain ⟨_, b, c⟩ := h4 q hq
    have ha := (h3 .presence q hq).1
    cases hm : q.msg with
    | join d => have := (c d hm).1; rw [hd] at this; cases this
    | leave => have := (b hm).2 n; rw [hj] at this; cases this
    | roll _ _ _ => rw [hm] at ha; cases ha
    | claim _ _ _ => rw [hm] at ha; cases ha
    | done _ _ _ _ _ => rw [hm] at ha; cases ha

/-- Screened buffers that return one after another leave everything but the store as it was. -/
theorem State.foldReturn_eq (s : State) (l : List Nat) :
    l.foldl State.returnScreened s =
      s.setScreener { s.screener with store := l.foldl insertSorted s.screener.store } := by
  induction l generalizing s with
  | nil => rfl
  | cons a l ih => rw [List.foldl_cons, ih]; rfl

/-- A job that the Imager does not hold is freed. -/
theorem State.freeJob_lawful (h : s.lawfulBut x) (n : Slot)
    (hn : ∀ j, s.job n = some j → x = some n ∨ j.stage ≠ .imaging) : (s.freeJob n).lawfulBut x := by
  unfold State.freeJob
  split
  · exact h
  · rename_i j hj
    have ha := State.abandonWork_lawful h n
    obtain ⟨qj, qr, _, qw, qh, ql, qs, _⟩ := State.abandonWork_spec s n
    have hk : (s.abandonWork n).job n = some j.withoutCursors := by rw [qj, if_pos rfl, hj]; rfl
    dsimp only
    rw [State.foldReturn_eq]
    generalize s.abandonWork n = t at *
    have hp : (t.setScreener { t.screener with
        store := j.screenedBuffers.foldl insertSorted t.screener.store }).pathLawfulBut x :=
      State.setScreener_path ha.path rfl
    refine State.tableEmptied_lawful ((State.setJobNone_path hp n ?_ ?_ ?_).with
      (ha.store.freed (n := n) (fun b => ?_) (fun m => ?_) (fun i d e => ?_) (fun d a e => ((qw d a).mp e).2) rfl rfl rfl)) ?_
    · intro k e
      have e' : t.job n = some k := e
      rw [hk] at e'
      cases e'
      exact ⟨hn j hj, rfl⟩
    · intro r hr
      have hr' : r ∈ t.receiver.holding := hr
      rcases qh with z | ⟨z, _⟩ <;> rw [z, List.mem_filter] at hr' <;> simpa using hr'.2
    · exact fun d a e => ((qw d a).mp e).2
    · rw [Job.screenedBuffers_count, State.bandStates_of hk]
      rfl
    · by_cases e : m = n
      · subst e; rw [if_pos rfl]; exact State.bandStates_none (State.job_setJob_same _ _ _)
      · rw [if_neg e]; exact State.bandStates_congr (State.job_setJob_other _ _ _ _ e)
    · rw [qr] at e; exact (Ring.takes_void e).2
    · intro hd
      show t.link.presence = none
      rw [ql]
      refine h.presence_none hj ?_
      rw [← qs]
      exact hd

/-- A freed slot holds no job, and the Imager is as it was. -/
theorem State.freeJob_rest (s : State) (n : Slot) : (s.freeJob n).job n = none ∧ (s.freeJob n).imager = s.imager := by
  have ht : ∀ u : State, u.tableEmptied.jobs = u.jobs ∧ u.tableEmptied.imager = u.imager := by
    intro u
    unfold State.tableEmptied
    split <;> simp [State.queueLeave]
  have hf : ∀ (l : List Nat) (u : State), (l.foldl State.returnScreened u).imager = u.imager := by
    intro l
    induction l with
    | nil => intro u; rfl
    | cons a l ih => intro u; exact ih _
  unfold State.freeJob
  split
  · rename_i h; exact ⟨h, rfl⟩
  · rename_i j _
    dsimp only
    have ha : (s.abandonWork n).imager = s.imager := (State.abandonWork_spec s n).2.2.2.2.2.2.2.2.2.2.1
    refine ⟨?_, ?_⟩
    · rw [State.job_congr (ht _).1]; simp
    · rw [(ht _).2]
      simp only [State.setJob, State.setJobs_imager]
      rw [hf, ha]

/-! ## Ending -/

theorem State.endJob_lawful (h : s.lawfulBut x) (n : Slot) (outcome : DoneOutcome)
    (hn : ∀ j, s.job n = some j → x = some n ∨ j.stage ≠ .imaging) : (s.endJob n outcome).lawfulBut x := by
  unfold State.endJob
  split
  · exact h
  · exact State.freeJob_lawful (State.setLink_lawful h (Link.Tame.put _ (by simp) (Place.takes_done _ _ _))) n hn

theorem State.endJob_rest (s : State) (n : Slot) (outcome : DoneOutcome) :
    (s.endJob n outcome).job n = none ∧ (s.endJob n outcome).imager = s.imager := by
  unfold State.endJob
  split
  · rename_i h; exact ⟨h, rfl⟩
  · exact ⟨(State.freeJob_rest _ n).1, (State.freeJob_rest _ n).2.trans rfl⟩

/-! ## The Imager's choice -/

/-- The arbiter chooses a READY job. -/
theorem State.chosenReady_ready {n : Slot} (h : s.chosenReady = some n) :
    ∃ j order, s.job n = some j ∧ j.stage = .ready order := by
  have hr : ∀ m, (s.readyJob m).isSome = true → ∃ j order, s.job m = some j ∧ j.stage = .ready order := by
    intro m hm
    unfold State.readyJob at hm
    cases hj : s.job m with
    | none => rw [hj] at hm; cases hm
    | some j =>
      rw [hj] at hm
      dsimp only [Option.bind_some] at hm
      split at hm
      · rename_i o ho; exact ⟨j, o, rfl, ho⟩
      · cases hm
  have hf : ∀ (l : List Slot) (b : Option Slot), (∀ m, b = some m → (s.readyJob m).isSome = true) →
      ∀ m, l.foldl (betterReady s) b = some m → (s.readyJob m).isSome = true := by
    intro l
    induction l with
    | nil => exact fun b hb m hm => hb m hm
    | cons a l ih =>
      intro b hb
      refine ih _ fun m hm => ?_
      unfold betterReady at hm
      split at hm
      · exact hb m hm
      · rename_i y hy
        have ha : (s.readyJob a).isSome = true := by rw [hy]; rfl
        split at hm
        · cases hm; exact ha
        · split at hm
          · cases hm; exact ha
          · exact hb m hm
  exact hr n (hf allSlots none (by simp) n h)

/-- The Imager, in IDLE, takes a READY job. -/
theorem State.takePlate_lawful (h : s.lawfulBut x) (hid : s.imager.state = .idle) {n : Slot} {j : Job} {order : Nat}
    (hj : s.job n = some j) (hs : j.stage = .ready order) : (s.takePlate n j).lawfulBut x := by
  have htj : ∀ m, (s.takePlate n j).job m = if m = n then some { j with stage := .imaging } else s.job m := by
    intro m
    show (s.modifyJob n fun j => { j with stage := .imaging }).job m = _
    by_cases e : m = n
    · subst e; simp [hj]
    · rw [if_neg e, State.job_modifyJob_other _ _ _ _ e]
  have hti : (s.takePlate n j).imager.held = some { slot := n, generation := j.generation } ∧
      (s.takePlate n j).imager.state = .loading := ⟨rfl, rfl⟩
  have hrest : (s.takePlate n j).link = s.link ∧ (s.takePlate n j).receiver = s.receiver ∧
      (s.takePlate n j).unpacker = s.unpacker := ⟨rfl, rfl, rfl⟩
  obtain ⟨h1, h2, h3, h4, h5, h6, h7, h8, h9, h0⟩ := h
  have hheld : s.imager.held = none := by
    cases hh : s.imager.held with
    | none => rfl
    | some y => have := (h6.2 y hh).1; rw [hid] at this; cases this
  have back : ∀ m k, (s.takePlate n j).job m = some k → ∃ i, s.job m = some i ∧
      (m = n → i = j ∧ k = { j with stage := .imaging }) ∧ (m ≠ n → k = i) := by
    intro m k hk
    rw [htj] at hk
    by_cases e : m = n
    · rw [if_pos e] at hk; cases hk; subst e
      exact ⟨j, hj, fun _ => ⟨rfl, rfl⟩, fun z => absurd rfl z⟩
    · rw [if_neg e] at hk; exact ⟨k, hk, fun z => absurd z e, fun _ => rfl⟩
  have forth : ∀ m i, s.job m = some i → ∃ k, (s.takePlate n j).job m = some k ∧ k.generation = i.generation ∧
      k.endAdmitted = i.endAdmitted ∧ k.quiet = i.quiet ∧ k.cursor = i.cursor ∧ (m ≠ n → k = i) := by
    intro m i hm
    by_cases e : m = n
    · subst e
      rw [hj] at hm; cases hm
      exact ⟨{ j with stage := .imaging }, by rw [htj, if_pos rfl], rfl, rfl, rfl, rfl, fun z => absurd rfl z⟩
    · exact ⟨i, by rw [htj, if_neg e]; exact hm, rfl, rfl, rfl, rfl, fun _ => rfl⟩
  refine ⟨h1, ⟨h2.1, fun m => ⟨(h2.2 m).1, fun hr => ?_⟩⟩, h3, fun q hq => ?_, fun m k hk => ?_,
    ⟨fun m k hx hk => ?_, fun y hy => ?_⟩, ⟨fun d a hw => ?_, fun m k hk hc hw => ?_⟩, h8, fun b => ?_,
      h0.of (fun m => State.bandStates_modifyJob (n := n) (f := fun j => { j with stage := .imaging }) (fun _ _ => rfl) m)
        (fun _ _ => id) (fun _ _ => id) h0.2.2.1 rfl rfl⟩
  · obtain ⟨i, q1, q2⟩ := (h2.2 m).2 hr
    obtain ⟨k, q3, _, e1, e2, _⟩ := forth m i q1
    exact ⟨k, q3, e1.trans q2.1, e2.trans q2.2⟩
  · obtain ⟨a, b, c⟩ := h4 q hq
    refine ⟨a, fun e => ?_, c⟩
    rw [(b e).2 n] at hj; cases hj
  · obtain ⟨i, q1, e1, e2⟩ := back m k hk
    have := h5 m i q1
    by_cases e : m = n
    · obtain ⟨rfl, rfl⟩ := e1 e
      refine ⟨⟨fun z => ?_, this.1.2⟩, this.2⟩
      have := this.1.1 z
      rw [hs] at this
      rcases this with w | w <;> cases w
    · rw [e2 e]; exact this
  · obtain ⟨i, q1, e1, e2⟩ := back m k hk
    rw [hti.1]
    by_cases e : m = n
    · obtain ⟨rfl, rfl⟩ := e1 e
      subst e
      exact ⟨fun _ => rfl, fun _ => rfl⟩
    · rw [e2 e]
      have := h6.1 m i hx q1
      rw [hheld] at this
      constructor
      · intro z; have := this.mp z; cases this
      · intro z; exact absurd (congrArg HeldJob.slot (Option.some.inj z)).symm e
  · rw [hti.1] at hy
    cases hy
    exact ⟨by rw [hti.2]; rfl, fun _ => ⟨{ j with stage := .imaging }, by rw [htj, if_pos rfl], rfl⟩⟩
  · obtain ⟨i, q1, c1, c2, c3⟩ := h7.1 d a hw
    obtain ⟨k, q2, g, _, _, e2, e3⟩ := forth _ i q1
    refine ⟨k, q2, by rw [e2]; exact c1, by rw [e2]; exact c2, fun y hy => ?_⟩
    obtain ⟨r1, r⟩ := c3 y hy
    by_cases e : d.slot = n
    · rw [e, hj] at q1; cases q1; rw [hs] at r1; cases r1
    · rw [e3 e]; exact ⟨r1, r⟩
  · obtain ⟨i, q1, e1, e2⟩ := back m k hk
    by_cases e : m = n
    · obtain ⟨rfl, rfl⟩ := e1 e
      exact h7.2 m i q1 hc hw
    · rw [e2 e] at hc ⊢; exact h7.2 m i q1 hc hw
  · have e : (s.takePlate n j).cursorHas b = s.cursorHas b := by
      funext m
      unfold State.cursorHas
      cases q : s.job m with
      | none =>
        cases hk : (s.takePlate n j).job m with
        | none => rfl
        | some k => obtain ⟨i, q1, _⟩ := back m k hk; rw [q] at q1; cases q1
      | some i =>
        obtain ⟨k, hk, _, _, _, e2, _⟩ := forth m i q
        simp only [hk, Option.bind_some, e2]
    have := h9 b
    unfold State.buffersHeld at this ⊢
    rw [e]
    exact this

@[simp] theorem State.arbitrate_lawful (h : s.lawfulBut x) : s.arbitrate.lawfulBut x := by
  unfold State.arbitrate
  split
  · rename_i hm
    split
    · rename_i n hn
      obtain ⟨j, order, hj, hs⟩ := State.chosenReady_ready hn
      rw [hj]
      refine State.takePlate_lawful h ?_ hj hs
      simp [State.mayChoose] at hm
      exact hm.1.1
    · exact h
  · exact h

/-- A busy Imager chooses nothing. -/
theorem State.arbitrate_busy (h : s.imager.state.busy = true) : s.arbitrate = s := by
  unfold State.arbitrate
  rw [if_neg]
  intro hm
  simp [State.mayChoose] at hm
  rw [hm.1.1] at h
  cases h

/-! ## The Imager's own updates -/

@[simp] theorem State.elapse_lawful (h : s.lawfulBut x) (n : Nat) : (s.elapse n).lawfulBut x :=
  State.setImager_lawful (State.setClock_lawful h _) rfl (Or.inl rfl)

@[simp] theorem State.advanceTo_lawful (h : s.lawfulBut x) (deadline : Nat) : (s.advanceTo deadline).lawfulBut x := by
  unfold State.advanceTo
  split
  · exact State.elapse_lawful h _
  · exact h

@[simp] theorem State.latch_lawful (h : s.lawfulBut x) (c : Cause) : (s.latch c).lawfulBut x := h

@[simp] theorem State.raiseBy_lawful (h : s.lawfulBut x) (c : Count) (k : Nat) : (s.raiseBy c k).lawfulBut x := h

@[simp] theorem State.raise_lawful (h : s.lawfulBut x) (c : Count) : (s.raise c).lawfulBut x := h

@[simp] theorem State.issueEject_lawful (h : s.lawfulBut x) (d : Disposition) : (s.issueEject d).lawfulBut x :=
  State.setImager_lawful h rfl (Or.inr rfl)

@[simp] theorem State.recordFault_lawful (h : s.lawfulBut x) (f : ImagerFault) : (s.recordFault f).lawfulBut x :=
  State.setImager_lawful h rfl (Or.inl rfl)

@[simp] theorem State.scrapForFault_lawful (h : s.lawfulBut x) (f : ImagerFault) : (s.scrapForFault f).lawfulBut x :=
  State.issueEject_lawful (State.recordFault_lawful h f) _

@[simp] theorem State.imagerCancel_lawful (h : s.lawfulBut x) (r : CancelReason) : (s.imagerCancel r).lawfulBut x := by
  unfold State.imagerCancel
  split
  · have k : (s.setImager { s.imager with pendingCancel := some r }).lawfulBut x :=
      State.setImager_lawful h rfl (Or.inl rfl)
    dsimp only
    split
    · exact State.issueEject_lawful k _
    · exact k
  · exact h

/-! ## READY, assessment and cancellation -/

theorem JobTable.withOrder_tame (t : JobTable) (n : Slot) : Slot.Tame t.slots[n] t.withOrder.slots[n] := by
  unfold JobTable.withOrder
  split
  · exact ⟨Iff.rfl, fun j k a b => by rw [a] at b; cases b; exact Job.Tame.refl j⟩
  · dsimp only
    simp only [Fin.getElem_fin, Vector.getElem_map]
    refine Slot.Tame.map _ fun j hj => ?_
    refine ⟨fun a => ⟨fun c => ?_, a.2⟩, id, ?_, ?_, rfl, rfl, rfl, id, id⟩
    · rcases a.1 c with e | e
      · left; show j.stage.renumbered _ = _; rw [e]; rfl
      · right; show j.stage.renumbered _ = _; rw [e]; rfl
    · show j.stage.renumbered _ = _ ↔ _
      cases j.stage <;> simp [Stage.renumbered]
    · show j.stage.renumbered _ = _ ↔ _
      cases j.stage <;> simp [Stage.renumbered]

/-- New ready orders change no band. -/
theorem State.bandStates_withOrder (s : State) (n : Slot) :
    (s.setJobs { s.jobs.withOrder with readyCounter := s.jobs.withOrder.readyCounter + 1 }).bandStates n =
      s.bandStates n := by
  have e : ∀ j, (s.jobs.withOrder.slots[n]).map (fun j => j.bands) = j → (s.job n).map (fun j => j.bands) = j := by
    intro j
    unfold JobTable.withOrder
    split
    · exact id
    · dsimp only
      simp only [Fin.getElem_fin, Vector.getElem_map, Option.map_map]
      exact id
  have e' := e _ rfl
  unfold State.bandStates
  show ((s.jobs.withOrder.slots[n]).map fun j => j.bands.map fun b => b.state).getD [] = _
  have f : ∀ o : Option Job, (o.map fun j => j.bands.map fun b => b.state) =
      (o.map fun j => j.bands).map fun l => l.map fun b => b.state := fun o => by cases o <;> rfl
  rw [f, f, e']

/-- An owned job that the Imager does not hold, or whose ending is being reported, enters READY. -/
theorem State.enterReady_lawful (h : s.lawfulBut x) (n : Slot)
    (hn : ∀ j, s.job n = some j → (x = some n ∨ j.stage ≠ .imaging) ∧ j.stage ≠ .receiving ∧ j.standing = .owned) :
    (s.enterReady n).lawfulBut x := by
  have ht := fun m => JobTable.withOrder_tame s.jobs m
  have hb := State.bandStates_withOrder s
  unfold State.enterReady
  generalize s.jobs.withOrder = u at ht hb
  dsimp only
  have h1 : (s.setJobs { u with readyCounter := u.readyCounter + 1 }).lawfulBut x :=
    State.setJobs_lawful h (fun m => ht m) hb
  have pre : ∀ k, (s.setJobs { u with readyCounter := u.readyCounter + 1 }).job n = some k →
      ∃ j, s.job n = some j ∧ j.Tame k := by
    intro k hk
    cases hj : s.job n with
    | none =>
      have : u.slots[n] = none := (ht n).1.mp hj
      have hk' : u.slots[n] = some k := hk
      rw [this] at hk'; cases hk'
    | some j => exact ⟨j, rfl, (ht n).2 j k hj hk⟩
  refine State.arbitrate_lawful (State.setStage_lawful h1 n ?_ ?_)
  · intro k hk
    obtain ⟨j, hj, t⟩ := pre k hk
    obtain ⟨a, b, c⟩ := hn j hj
    refine ⟨Job.Tame.refl k, by simp, by simp, ?_, fun z => ?_⟩
    · rcases a with e | e
      · exact Or.inl e
      · exact Or.inr fun z => e (t.2.2.2.1.mp z)
    · exfalso
      have := t.2.2.2.2.2.2.2.2 z
      rw [c] at this; cases this
  · intro d a _ _ k hk
    obtain ⟨j, hj, t⟩ := pre k hk
    exact fun z => (hn j hj).2.1 (t.2.2.1.mp z)

theorem State.assessJob_lawful (h : s.lawfulBut x) (n : Slot) (hn : ∀ j, s.job n = some j → j.assessable = true) :
    (s.assessJob n).lawfulBut x := by
  unfold State.assessJob
  split
  · exact h
  · rename_i j hj
    have ha := hn j hj
    simp only [Job.assessable, decide_eq_true_eq] at ha
    obtain ⟨hs, ho, _⟩ := ha
    dsimp only
    generalize j.assess s.settings = v
    have h1 : (s.modifyJob n fun j => { j with verdict := v }).lawfulBut x :=
      State.modifyJob_lawful h n fun k _ => ⟨id, id, Iff.rfl, Iff.rfl, rfl, rfl, rfl, id, id⟩
    have hj1 : ∀ k, (s.modifyJob n fun j => { j with verdict := v }).job n = some k →
        k.stage = .closing ∧ k.standing = .owned := by
      intro k hk
      rw [State.job_modifyJob_same, hj] at hk
      cases hk
      exact ⟨hs, ho⟩
    split
    · refine State.enterReady_lawful h1 n fun k hk => ?_
      obtain ⟨e1, e2⟩ := hj1 k hk
      exact ⟨Or.inr (by rw [e1]; simp), by rw [e1]; simp, e2⟩
    · refine State.latch_lawful (State.setStage_lawful h1 n (fun k hk => ?_) fun d a _ _ k hk => ?_) _
      · obtain ⟨e1, e2⟩ := hj1 k hk
        refine ⟨Job.Tame.refl k, by simp, by simp, Or.inr (by rw [e1]; simp), fun z => ?_⟩
        have z' : k.standing = .contending := z
        rw [e2] at z'; cases z'
      · rw [(hj1 k hk).1]; simp

@[simp] theorem State.assessIfComplete_lawful (h : s.lawfulBut x) (n : Slot) :
    (s.assessIfComplete n).lawfulBut x := by
  unfold State.assessIfComplete
  split
  · rename_i ha
    refine State.assessJob_lawful h n fun j hj => ?_
    rw [hj] at ha
    exact ha
  · exact h

/-- An owned job that the Imager does not hold, or whose ending is being reported, enters CANCELLING. -/
theorem State.enterCancelling_lawful (h : s.lawfulBut x) (n : Slot) (r : CancelReason)
    (hn : ∀ j, s.job n = some j → (x = some n ∨ j.stage ≠ .imaging) ∧ j.standing = .owned) :
    (s.enterCancelling n r).lawfulBut x := by
  have ha := State.abandonWork_lawful h n
  obtain ⟨qj, _, _, qw, _⟩ := State.abandonWork_spec s n
  have hk : ∀ k, (s.abandonWork n).job n = some k → (x = some n ∨ k.stage ≠ .imaging) ∧ k.standing = .owned := by
    intro k e
    rw [qj, if_pos rfl, Option.map_eq_some_iff] at e
    obtain ⟨j, q, rfl⟩ := e
    exact hn j q
  have h1 : ((s.abandonWork n).modifyJob n fun j => { j with stage := .cancelling r }).lawfulBut x := by
    refine State.setStage_lawful ha n (fun k e => ?_) fun d a e z => absurd z ((qw d a).mp e).2
    obtain ⟨e1, e2⟩ := hk k e
    refine ⟨Job.Tame.refl k, by simp, by simp, e1, fun z => ?_⟩
    have z' : k.standing = .contending := z
    rw [e2] at z'; cases z'
  unfold State.enterCancelling
  dsimp only
  split
  · exact h1
  · refine State.endJob_lawful h1 n _ fun j hj => Or.inr ?_
    rw [State.job_modifyJob_same, Option.map_eq_some_iff] at hj
    obtain ⟨k, _, rfl⟩ := hj
    simp

/-- A job whose cancellation has begun is not IMAGING, and the Imager is as it was. -/
theorem State.enterCancelling_rest (s : State) (n : Slot) (r : CancelReason) :
    (∀ j, (s.enterCancelling n r).job n = some j → j.stage ≠ .imaging) ∧ (s.enterCancelling n r).imager = s.imager := by
  have ha : (s.abandonWork n).imager = s.imager := (State.abandonWork_spec s n).2.2.2.2.2.2.2.2.2.2.1
  unfold State.enterCancelling
  dsimp only
  split
  · refine ⟨fun j hj => ?_, ha⟩
    rw [State.job_modifyJob_same, Option.map_eq_some_iff] at hj
    obtain ⟨k, _, rfl⟩ := hj
    simp
  · refine ⟨fun j hj => ?_, (State.endJob_rest _ n _).2.trans ha⟩
    rw [(State.endJob_rest _ n _).1] at hj; cases hj

theorem State.cancelOwned_lawful (h : s.lawfulBut x) (n : Slot) (r : CancelReason)
    (hn : ∀ j, s.job n = some j → j.standing = .owned) : (s.cancelOwned n r).lawfulBut x := by
  have key : ∀ st : Stage, (s.job n).map Job.stage = some st → st ≠ .imaging →
      (s.enterCancelling n r).lawfulBut x := by
    intro st e hne
    refine State.enterCancelling_lawful h n r fun j hj => ⟨Or.inr ?_, hn j hj⟩
    rw [hj] at e
    cases e
    exact hne
  unfold State.cancelOwned
  split
  · rename_i e; exact key _ e (by simp)
  · rename_i e; exact key _ e (by simp)
  · rename_i e; exact key _ e (by simp)
  · rename_i e; exact key _ e (by simp)
  · exact State.imagerCancel_lawful h r
  · exact h
  · exact h

/-! ## Claims and drops -/

@[simp] theorem State.withdrawClaim_lawful (h : s.lawfulBut x) (n : Slot) : (s.withdrawClaim n).lawfulBut x :=
  State.setLink_lawful h (Link.Tame.withdraw _ _)

theorem State.loseClaim_lawful (h : s.lawfulBut x) (n : Slot)
    (hn : ∀ j, s.job n = some j → x = some n ∨ j.stage ≠ .imaging) : (s.loseClaim n).lawfulBut x :=
  State.freeJob_lawful (State.withdrawClaim_lawful h n) n hn

/-- A CONTENDING job is not IMAGING. -/
theorem State.lawfulBut.contending (h : s.lawfulBut x) {n : Slot} {j : Job} (hj : s.job n = some j)
    (hc : j.standing = .contending) : j.stage ≠ .imaging := by
  rcases (h.2.2.2.2.1 n j hj).1.1 hc with e | e <;> rw [e] <;> simp

@[simp] theorem State.supersedeJob_lawful (h : s.lawfulBut x) (n : Slot) : (s.supersedeJob n).lawfulBut x := by
  unfold State.supersedeJob
  split
  · rename_i e
    refine State.loseClaim_lawful h n fun j hj => Or.inr (h.contending hj ?_)
    rw [hj] at e; exact Option.some.inj e
  · rename_i e
    refine State.cancelOwned_lawful h n _ fun j hj => ?_
    rw [hj] at e; exact Option.some.inj e
  · exact h

@[simp] theorem State.dropJob_lawful (h : s.lawfulBut x) (n : Slot) : (s.dropJob n).lawfulBut x := by
  unfold State.dropJob
  split
  · exact h
  · rename_i j hj
    split
    · rename_i e
      exact State.cancelOwned_lawful h n _ fun k hk => by rw [hj] at hk; cases hk; exact e
    · rename_i e
      split
      · refine State.modifyJob_lawful (State.withdrawClaim_lawful h n) n fun k hk => ?_
        have hk' : s.job n = some k := hk
        rw [hj] at hk'; cases hk'
        exact ⟨fun a => ⟨a.1, fun _ => e⟩, id, Iff.rfl, Iff.rfl, rfl, rfl, rfl, id, id⟩
      · exact State.loseClaim_lawful h n fun k hk => by
          rw [hj] at hk; cases hk; exact Or.inr (h.contending hj e)

/-! ## Contending -/

/-- A job put in a slot that holds none, while the station is not DRAINING. -/
theorem State.newJob_lawful (h : s.lawfulBut x) (n : Slot) (hn : s.job n = none) (hs : s.station.state ≠ .draining)
    {j : Job} (h1 : j.stage = .receiving) (h2 : j.withdrawal = none) (h3 : j.cursor = UnpackCursor.empty)
    {c : Nat} (h4 : j.bands = List.replicate c { state := .awaited, kind := none }) (g : Vector Nat 8) :
    (s.setJobs { s.jobs with generations := g, slots := s.jobs.slots.set n (some j) }).lawfulBut x := by
  generalize ht : s.setJobs { s.jobs with generations := g, slots := s.jobs.slots.set n (some j) } = t
  have hj : ∀ m, t.job m = if m = n then some j else s.job m := by
    intro m
    rw [← ht]
    show (s.jobs.slots.set n (some j))[m] = _
    by_cases e : m = n
    · subst e; simp
    · rw [if_neg e]
      exact Vector.getElem_set_ne n.isLt m.isLt fun y => e (Fin.ext y.symm)
  have forth : ∀ m k, s.job m = some k → m ≠ n ∧ t.job m = some k := by
    intro m k hk
    have e : m ≠ n := fun e => by rw [e, hn] at hk; cases hk
    exact ⟨e, by rw [hj, if_neg e]; exact hk⟩
  have back : ∀ m k, t.job m = some k → (m = n ∧ k = j) ∨ (m ≠ n ∧ s.job m = some k) := by
    intro m k hk
    rw [hj] at hk
    by_cases e : m = n
    · rw [if_pos e] at hk; cases hk; exact Or.inl ⟨e, rfl⟩
    · rw [if_neg e] at hk; exact Or.inr ⟨e, hk⟩
  have hr : t.link = s.link ∧ t.receiver = s.receiver ∧ t.unpacker = s.unpacker ∧ t.imager = s.imager ∧
      t.ring = s.ring ∧ t.screener = s.screener ∧ t.station = s.station ∧ t.roll = s.roll ∧ t.board = s.board ∧
      t.settings = s.settings := by
    rw [← ht]; exact ⟨rfl, rfl, rfl, rfl, rfl, rfl, rfl, rfl, rfl, rfl⟩
  clear ht
  obtain ⟨rl, rr, ru, ri, rg, rc, rs, ro, rb, re⟩ := hr
  obtain ⟨l1, l2, l3, l4, l5, l6, l7, l8, l9, l0⟩ := h
  refine ⟨?_, ⟨by rw [rr]; exact l2.1, fun m => ⟨by rw [rr]; exact (l2.2 m).1, fun e => ?_⟩⟩, rl ▸ l3, fun q hq => ?_,
    fun m k hk => ?_, ⟨fun m k hx hk => ?_, fun y hy => ?_⟩, ⟨fun d a hw => ?_, fun m k hk hc hw => ?_⟩, rg ▸ l8,
    fun b => ?_, l0.created (State.bandStates_none hn) (k := c) (fun m => ?_) rg ru rc⟩
  · unfold State.ownersLawful State.peer
    rw [rs, rb, re, ro]
    exact l1
  · rw [rr] at e
    obtain ⟨k, q1, q2⟩ := (l2.2 m).2 e
    exact ⟨k, (forth m k q1).2, q2⟩
  · rw [rl] at hq
    rw [rs, ro]
    obtain ⟨a, b, c⟩ := l4 q hq
    exact ⟨a, fun e => absurd (b e).1 hs, c⟩
  · rcases back m k hk with ⟨_, rfl⟩ | ⟨_, q⟩
    · exact ⟨⟨fun _ => Or.inl h1, fun z => absurd h2 z⟩, fun c hc => by rw [h3] at hc; cases hc⟩
    · exact l5 m k q
  · rw [ri]
    rcases back m k hk with ⟨rfl, rfl⟩ | ⟨_, q⟩
    · rw [h1]
      constructor
      · intro z; cases z
      · intro z
        obtain ⟨i, q, _⟩ := (l6.2 _ z).2 hx
        have q' : s.job m = some i := q
        rw [hn] at q'; cases q'
    · exact l6.1 m k hx q
  · rw [ri] at hy ⊢
    refine ⟨(l6.2 y hy).1, fun hx => ?_⟩
    obtain ⟨i, q, e⟩ := (l6.2 y hy).2 hx
    exact ⟨i, (forth _ i q).2, e⟩
  · rw [ru] at hw
    rw [rr]
    obtain ⟨i, q, c⟩ := l7.1 d a hw
    exact ⟨i, (forth _ i q).2, c⟩
  · rcases back m k hk with ⟨_, rfl⟩ | ⟨_, q⟩
    · rw [h3]; rfl
    · exact l7.2 m k q hc fun d a z => hw d a (by rw [ru]; exact z)
  · have hb := l9 b
    unfold State.buffersHeld at hb ⊢
    have : t.cursorHas b = s.cursorHas b := by
      funext m
      unfold State.cursorHas
      rw [hj]
      by_cases e : m = n
      · subst e; rw [if_pos rfl, hn]; simp [h3, UnpackCursor.empty]
      · rw [if_neg e]
    rw [this, ru, rg, rc]
    exact hb
  · by_cases e : m = n
    · subst e
      rw [if_pos rfl, State.bandStates_of (by rw [hj, if_pos rfl]), h4]
      simp
    · rw [if_neg e]; exact State.bandStates_congr (by rw [hj, if_neg e])

@[simp] theorem State.noticeContested_lawful (h : s.lawfulBut x) (key : PlateKey)
    (version sizeClass screeningClass rank : Nat) :
    (s.noticeContested key version sizeClass screeningClass rank).lawfulBut x := by
  unfold State.noticeContested
  split
  · rename_i hc
    split
    · rename_i n rest hn
      have hfree : s.job n = none := by
        have : n ∈ s.freeSlots := by simp [hn]
        simp [State.freeSlots, State.slotFree] at this
        exact this.2.1
      have hs : s.station.state ≠ .draining := by
        simp [State.contends] at hc
        rw [hc.1.1.1.1.1.1]; simp
      unfold State.createJob
      dsimp only
      exact State.setLink_lawful (State.newJob_lawful h n hfree hs rfl rfl rfl rfl _)
        (Link.Tame.put _ (by simp) (Place.takes_claim _ _ _ _))
    · exact h
  · exact h

@[simp] theorem State.noticeSuperseded_lawful (h : s.lawfulBut x) (key : PlateKey) (version : Nat) :
    (s.noticeSuperseded key version).lawfulBut x := by
  unfold State.noticeSuperseded
  generalize allSlots = l
  induction l generalizing s with
  | nil => exact h
  | cons n l ih =>
    refine ih ?_
    dsimp only
    split
    · exact State.supersedeJob_lawful h n
    · exact h

@[simp] theorem State.loseContending_lawful (h : s.lawfulBut x) (key : PlateKey) (version : Nat) :
    (s.loseContending key version).lawfulBut x := by
  unfold State.loseContending
  split
  · exact h
  · rename_i n _
    split
    · rename_i e
      refine State.loseClaim_lawful h n fun j hj => Or.inr (h.contending hj ?_)
      rw [hj] at e
      simpa using e
    · exact h

@[simp] theorem State.noticeOwned_lawful (h : s.lawfulBut x) (key : PlateKey) (version : Nat) (owner : Station) :
    (s.noticeOwned key version owner).lawfulBut x := by
  unfold State.noticeOwned
  split
  · exact h
  · exact State.loseContending_lawful h key version

@[simp] theorem State.noticeDone_lawful (h : s.lawfulBut x) (key : PlateKey) (version : Nat) :
    (s.noticeDone key version).lawfulBut x := State.loseContending_lawful h key version

@[simp] theorem State.noticeUntaken_lawful (h : s.lawfulBut x) (key : PlateKey) (version : Nat) :
    (s.noticeUntaken key version).lawfulBut x := by
  unfold State.noticeUntaken
  split
  · exact h
  · rename_i n _
    split
    · exact h
    · rename_i j hj
      split
      · rename_i e
        split
        · refine State.modifyJob_lawful (State.withdrawClaim_lawful h n) n fun k hk => ?_
          have hk' : s.job n = some k := hk
          rw [hj] at hk'; cases hk'
          exact ⟨fun a => ⟨a.1, fun _ => e⟩, id, Iff.rfl, Iff.rfl, rfl, rfl, rfl, id, id⟩
        · exact State.loseClaim_lawful h n fun k hk => by
            rw [hj] at hk; cases hk; exact Or.inr (h.contending hj e)
      · exact h

@[simp] theorem State.claimStarted_lawful (h : s.lawfulBut x) (n : Slot) : (s.claimStarted n).lawfulBut x :=
  State.modifyJob_lawful h n fun _ _ => ⟨id, id, Iff.rfl, Iff.rfl, rfl, rfl, rfl, id, id⟩

@[simp] theorem State.claimReturned_lawful (h : s.lawfulBut x) (n : Slot) : (s.claimReturned n).lawfulBut x :=
  State.modifyJob_lawful h n fun _ _ => ⟨id, id, Iff.rfl, Iff.rfl, rfl, rfl, rfl, id, id⟩

@[simp] theorem State.claimWithdrawn_lawful (h : s.lawfulBut x) (n : Slot) : (s.claimWithdrawn n).lawfulBut x := by
  unfold State.claimWithdrawn
  split
  · exact h
  · rename_i j hj
    have h1 : (s.modifyJob n fun j => { j with claimInProgress := false, withdrawal := none }).lawfulBut x :=
      State.modifyJob_lawful h n fun _ _ =>
        ⟨fun a => ⟨a.1, fun z => absurd rfl z⟩, id, Iff.rfl, Iff.rfl, rfl, rfl, rfl, id, id⟩
    have hfree : j.withdrawal ≠ none → ((s.modifyJob n fun j =>
        { j with claimInProgress := false, withdrawal := none }).freeJob n).lawfulBut x := by
      intro hw
      refine State.freeJob_lawful h1 n fun k hk => Or.inr ?_
      rw [State.job_modifyJob_same, hj] at hk
      cases hk
      have := h.contending hj ((h.2.2.2.2.1 n j hj).1.2 hw)
      exact this
    dsimp only
    split
    · exact h1
    · rename_i e; exact hfree (by rw [e]; simp)
    · rename_i e
      split
      · exact State.setLink_lawful h1 (Link.Tame.put _ (by simp) (Place.takes_claim _ _ _ _))
      · exact hfree (by rw [e]; simp)

@[simp] theorem State.claimResult_lawful (h : s.lawfulBut x) (n : Slot) (key : PlateKey) (version : Nat)
    (r : ClaimResult) : (s.claimResult n key version r).lawfulBut x := by
  unfold State.claimResult
  split
  · exact h
  · rename_i j hj
    split
    · rename_i e
      obtain ⟨_, _, hc⟩ := e
      have hfree : (s.freeJob n).lawfulBut x := State.freeJob_lawful h n fun k hk => by
        rw [hj] at hk; cases hk; exact Or.inr (h.contending hj hc)
      split
      · have h1 : (s.modifyJob n fun j =>
            { j with standing := .owned, claimInProgress := false, withdrawal := none }).lawfulBut x :=
          State.modifyJob_lawful h n fun _ _ =>
            ⟨fun _ => ⟨fun z => (by cases z), fun z => absurd rfl z⟩, id, Iff.rfl, Iff.rfl, rfl, rfl, rfl, id,
              fun z => (by cases z)⟩
        dsimp only
        split
        · refine State.cancelOwned_lawful h1 n _ fun k hk => ?_
          rw [State.job_modifyJob_same, hj] at hk
          cases hk
          rfl
        · exact State.assessIfComplete_lawful h1 n
      · exact hfree
      · exact hfree
      · exact hfree
    · exact h

/-! ## The Imager's endings -/

/-- An ending of the slot's IMAGING job, reported while the Imager is busy, leaves the slot without an IMAGING job and the
Imager as it was. -/
theorem State.imagerEnding_lawful {n : Slot} (h : s.lawfulBut (some n)) (hb : s.imager.state.busy = true)
    (hn : ∀ j, s.job n = some j → j.stage = .imaging) (e : Ending) :
    (s.imagerEnding n e).lawfulBut (some n) ∧ (∀ j, (s.imagerEnding n e).job n = some j → j.stage ≠ .imaging) ∧
    (s.imagerEnding n e).imager = s.imager := by
  have hown : ∀ j, s.job n = some j → j.standing = .owned := by
    intro j hj
    cases hc : j.standing with
    | owned => rfl
    | contending => exact absurd (hn j hj) (h.contending hj hc)
  have hend : ∀ o, (s.endJob n o).lawfulBut (some n) ∧ (∀ j, (s.endJob n o).job n = some j → j.stage ≠ .imaging) ∧
      (s.endJob n o).imager = s.imager := fun o =>
    ⟨State.endJob_lawful h n o fun _ _ => Or.inl rfl,
      (fun j hj => by rw [(State.endJob_rest s n o).1] at hj; cases hj), (State.endJob_rest s n o).2⟩
  unfold State.imagerEnding
  split
  · exact hend _
  · have h1 : (s.modifyJob n fun j => { j with retries := j.retries + 1 }).lawfulBut (some n) :=
      State.modifyJob_lawful h n fun _ _ => ⟨id, id, Iff.rfl, Iff.rfl, rfl, rfl, rfl, id, id⟩
    generalize ht : s.modifyJob n (fun j => { j with retries := j.retries + 1 }) = t at h1
    have hi : t.imager = s.imager := by rw [← ht]; rfl
    have htj : ∀ k, t.job n = some k → k.stage = .imaging ∧ k.standing = .owned := by
      intro k hk
      rw [← ht, State.job_modifyJob_same, Option.map_eq_some_iff] at hk
      obtain ⟨j, hj, rfl⟩ := hk
      exact ⟨hn j hj, hown j hj⟩
    have e1 : t.enterReady n =
        ((t.setJobs { t.jobs.withOrder with readyCounter := t.jobs.withOrder.readyCounter + 1 }).modifyJob n
          fun j => { j with stage := .ready t.jobs.withOrder.readyCounter }) :=
      State.arbitrate_busy (by show t.imager.state.busy = true; rw [hi]; exact hb)
    refine ⟨State.enterReady_lawful h1 n fun k hk => ⟨Or.inl rfl, by rw [(htj k hk).1]; simp, (htj k hk).2⟩,
      fun k hk => ?_, ?_⟩
    · rw [e1, State.job_modifyJob_same, Option.map_eq_some_iff] at hk
      obtain ⟨j, _, rfl⟩ := hk
      simp
    · rw [e1]; exact hi
  · exact ⟨State.latch_lawful (hend .wasted).1 _, fun j hj => (hend .wasted).2.1 j hj, (hend .wasted).2.2⟩
  · rename_i r
    exact ⟨State.enterCancelling_lawful h n r fun j hj => ⟨Or.inl rfl, hown j hj⟩,
      (State.enterCancelling_rest s n r).1, (State.enterCancelling_rest s n r).2⟩

end Sys2Proof.Machine
end

