-- ==== Sys2Proof/Laws/Freeing.lean ====
section
/-! SUPPORT. What freeing a job and its entry to CANCELLING do, in the words of the statements (R75, R82, R119, R126,
R129). -/

namespace Sys2Proof.Machine

variable {s t : State} {n : Slot}

/-! ## The words -/

theorem Ring.voidedIn_void (r : Ring) (n : Slot) : r.voidedIn (r.void n) n := by
  obtain ⟨h1, h2, h3, h4, _⟩ := Ring.void_same r n
  refine ⟨h1, h3, h2, h4, fun i => ?_⟩
  rw [Ring.void_entry]
  have e : (r.owns i = true) ↔
      r.entries[i].mark = (if r.consumer ≤ i then r.consumerPass else !r.consumerPass) := by simp [Ring.owns]
  by_cases h : r.owns i = true
  · rw [if_pos h, if_pos (e.mp h)]
    unfold RingEntry.voidFor
    congr 1
    congr 1
    funext d
    unfold Descriptor.voidFor
    by_cases k : d.slot = n <;> simp [k]
  · rw [if_neg h, if_neg fun k => h (e.mpr k)]

theorem HoldingRecord.stays_iff (r : HoldingRecord) (n : Slot) :
    (r.isFragment || decide (r.slot ≠ n)) = !r.isEndOf n := by
  unfold HoldingRecord.isFragment HoldingRecord.isEndOf
  cases r.body <;> simp

theorem State.headFragmentOf_iff (s : State) (n : Slot) : s.headFragmentOf n = true ↔ s.headIsFragmentOf n := by
  unfold State.headFragmentOf State.headIsFragmentOf HoldingRecord.isFragment
  cases s.receiver.holding with
  | nil => simp
  | cons r rest =>
    cases hb : r.body <;> simp [hb]

/-- The Unpacker stopped for a slot, whatever the ring and the pool are. -/
theorem State.unpackingStopped_of {u : State} (hr : u.receiver = s.receiver) (hw : u.unpacker.work = s.unpacker.work)
    (hd : u.damage = s.damage) : s.unpackingStopped ((u.stopUnpacking n).removeEndMarker n) n := by
  have hf : (fun r : HoldingRecord => !r.isEndOf n) = fun r => r.isFragment || decide (r.slot ≠ n) := by
    funext r; rw [HoldingRecord.stays_iff]
  have hh : u.headFragmentOf n = true ↔ s.headIsFragmentOf n := by
    rw [← State.headFragmentOf_iff]; unfold State.headFragmentOf; rw [hr]
  have apart : ∀ m, m ≠ n → s.headIsFragmentOf m → ¬ u.headFragmentOf n = true := by
    intro m hm ⟨r, rest, e1, _, e3⟩ k
    obtain ⟨r', rest', f1, _, f3⟩ := hh.mp k
    rw [e1] at f1; cases f1
    exact hm (e3.symm.trans f3)
  have stands : u.stopUnpacking n = u →
      ((u.stopUnpacking n).removeEndMarker n).unpacker.work = s.unpacker.work ∧
      ((u.stopUnpacking n).removeEndMarker n).receiver.holding =
        s.receiver.holding.filter (fun r => r.isFragment || decide (r.slot ≠ n)) ∧
      ((u.stopUnpacking n).removeEndMarker n).damage =
        { s.damage with log := { s.damage.log with stale := s.damage.log.stale } } := by
    intro e
    rw [e, ← hf]
    exact ⟨hw, by simp [State.removeEndMarker, hr], hd⟩
  have drops : u.stopUnpacking n = u.dropStale →
      ((u.stopUnpacking n).removeEndMarker n).unpacker.work = .free ∧
      ((u.stopUnpacking n).removeEndMarker n).receiver.holding =
        s.receiver.holding.tail.filter (fun r => r.isFragment || decide (r.slot ≠ n)) ∧
      ((u.stopUnpacking n).removeEndMarker n).damage =
        { s.damage with log := { s.damage.log with stale := min (s.damage.log.stale + 1) 65535 } } := by
    intro e
    rw [e, ← hf]
    refine ⟨rfl, ?_, ?_⟩
    · simp [State.removeEndMarker, State.dropStale, State.finishHead, State.reportStale, hr]
    · show { u.damage with log := { u.damage.log with stale := saturate Config.max16 u.damage.log.stale 1 } } = _
      rw [hd]; rfl
  refine ⟨fun h => stands ?_, fun h => ⟨fun k => drops ?_, fun m hm k => stands ?_⟩, fun d a h =>
    ⟨fun k => stands ?_, fun k => ⟨fun l => drops ?_, fun l => ?_⟩⟩⟩
  · unfold State.stopUnpacking; rw [hw]; rcases h with h | h <;> rw [h]
  · unfold State.stopUnpacking; rw [hw, h]; exact if_pos (hh.mpr k)
  · unfold State.stopUnpacking; rw [hw, h]; exact if_neg (apart m hm k)
  · unfold State.stopUnpacking; rw [hw, h]; exact if_neg k
  · unfold State.stopUnpacking; rw [hw, h]; dsimp only; rw [if_pos k, if_pos (hh.mpr l)]
  · have e : u.stopUnpacking n = u.setUnpacker { u.unpacker with work := .free } := by
      unfold State.stopUnpacking; rw [hw, h]; dsimp only; rw [if_pos k, if_neg fun z => l (hh.mp z)]
    rw [e, ← hf]
    exact ⟨rfl, by simp [State.removeEndMarker, hr], hd⟩

/-- The words read only the ring, the Unpacker, the holding queue, the damage log and the Screener. -/
theorem State.workCeased.congr {u : State} (h : s.workCeased t n) (h1 : u.ring = t.ring) (h2 : u.unpacker = t.unpacker)
    (h3 : u.receiver.holding = t.receiver.holding) (h4 : u.damage = t.damage)
    (h5 : u.screener.current = t.screener.current) : s.workCeased u n := by
  unfold State.workCeased State.unpackingStopped at *
  rw [h1, h2, h3, h4, h5]
  exact h

theorem State.freed.congr {u : State} (h : s.freed t n) (h0 : u.job n = t.job n) (h1 : u.ring = t.ring)
    (h2 : u.unpacker = t.unpacker) (h3 : u.receiver.holding = t.receiver.holding) (h4 : u.damage = t.damage)
    (h5 : u.screener = t.screener) : s.freed u n :=
  ⟨h0.trans h.1, h.2.1.congr h1 h2 h3 h4 (by rw [h5]), by rw [h5]; exact h.2.2⟩

/-- The words read only the same parts of the state before, and the slot's job. -/
theorem State.freed.ofSame {r : State} (h : s.freed t n) (h0 : r.job n = s.job n) (h1 : r.ring = s.ring)
    (h2 : r.unpacker = s.unpacker) (h3 : r.receiver.holding = s.receiver.holding) (h4 : r.damage = s.damage)
    (h5 : r.screener = s.screener) : r.freed t n := by
  unfold State.freed State.workCeased State.unpackingStopped State.headIsFragmentOf at *
  rw [h0, h1, h2, h3, h4, h5]
  exact h

/-! ## What the operations do -/

theorem State.abandonWork_ceased (s : State) (n : Slot) : s.workCeased (s.abandonWork n) n := by
  obtain ⟨_, h2, h3, _, _, _, _, _, _, _, _, h12⟩ := State.abandonWork_spec s n
  refine ⟨by rw [h2]; exact Ring.voidedIn_void _ _, fun x => ?_, ?_, by rw [h12]⟩
  · rw [h3]
    cases hj : s.job n with
    | none => simp
    | some j =>
      cases hb : j.cursor.buffer with
      | none => simp [hb]
      | some y =>
        have e : ((s.job n).bind fun j => j.cursor.buffer) = some y := by rw [hj]; exact hb
        rw [hj] at e
        rw [e, Option.map_some, Option.getD_some, mem_insertSorted]
        refine or_congr_left ⟨fun k => ⟨j, rfl, by rw [hb, k]⟩, fun ⟨i, k, l⟩ => ?_⟩
        cases k
        exact Option.some.inj (l.symm.trans hb)
  · have h := State.unpackingStopped_of (s := s) (n := n) (u := (s.setRing (s.ring.void n)).returnBuffer
      (((s.setRing (s.ring.void n)).job n).bind fun j => j.cursor.buffer)) (by simp [State.returnBuffer])
      (by simp [State.returnBuffer]) (by simp [State.returnBuffer])
    have e : s.abandonWork n = ((((s.setRing (s.ring.void n)).returnBuffer
      (((s.setRing (s.ring.void n)).job n).bind fun j => j.cursor.buffer)).stopUnpacking n).removeEndMarker n).modifyJob n
        Job.withoutCursors := rfl
    rw [e]
    generalize ((((s.setRing (s.ring.void n)).returnBuffer
      (((s.setRing (s.ring.void n)).job n).bind fun j => j.cursor.buffer)).stopUnpacking n).removeEndMarker n) = v at h
    exact h

/-- A live job freed, whatever else its freeing tells Station Control. -/
theorem State.freeJob_freed {j : Job} (hj : s.job n = some j) : s.freed (s.freeJob n) n := by
  have ha := State.abandonWork_ceased s n
  have hs : (s.abandonWork n).screener = s.screener := (State.abandonWork_spec s n).2.2.2.2.2.2.2.2.2.2.2
  have he : ∀ u : State, u.tableEmptied.jobs = u.jobs ∧ u.tableEmptied.ring = u.ring ∧
      u.tableEmptied.unpacker = u.unpacker ∧ u.tableEmptied.receiver = u.receiver ∧
      u.tableEmptied.damage = u.damage ∧ u.tableEmptied.screener = u.screener := by
    intro u
    unfold State.tableEmptied
    split <;> exact ⟨rfl, rfl, rfl, rfl, rfl, rfl⟩
  unfold State.freeJob
  rw [hj]
  dsimp only
  rw [State.foldReturn_eq]
  generalize s.abandonWork n = a at ha hs
  obtain ⟨e1, e2, e3, e4, e5, e6⟩ := he ((a.setScreener { a.screener with
    store := j.screenedBuffers.foldl insertSorted a.screener.store }).setJob n none)
  refine ⟨by rw [State.job_congr e1]; exact State.job_setJob_same _ _ _, ha.congr e2 e3 (by rw [e4]; rfl) e5
    (by rw [e6]; rfl), fun x => ?_⟩
  rw [e6]
  show x ∈ j.screenedBuffers.foldl insertSorted a.screener.store ↔ _
  rw [hs]
  have hfold : ∀ (l m : List Nat), x ∈ l.foldl insertSorted m ↔ x ∈ l ∨ x ∈ m := by
    intro l
    induction l with
    | nil => simp
    | cons y l ih =>
      intro m
      rw [List.foldl_cons, ih, mem_insertSorted, List.mem_cons]
      tauto
  rw [hfold, hj]
  have hb : x ∈ j.screenedBuffers ↔ ∃ b ∈ j.bands, b.state = .screened x := by
    unfold Job.screenedBuffers
    rw [List.mem_filterMap]
    refine exists_congr fun b => and_congr_right fun _ => ?_
    cases b.state <;> simp
  rw [hb]
  simp

theorem State.endJob_freed {j : Job} (hj : s.job n = some j) (outcome : DoneOutcome) :
    s.freed (s.endJob n outcome) n := by
  unfold State.endJob
  rw [hj]
  have h := State.freeJob_freed (s := s.setLink (s.link.put (.slot n) (j.doneMessage outcome))) (n := n) hj
  exact h.ofSame rfl rfl rfl rfl rfl rfl

theorem State.screenerHolds_congr (h1 : t.screener = s.screener)
    (h2 : (t.job n).map Job.generation = (s.job n).map Job.generation) : t.screenerHolds n = s.screenerHolds n := by
  have e : ∀ (u : State) (g : Nat), ((u.job n).any fun j => decide (j.generation = g)) =
      ((u.job n).map Job.generation).any fun x => decide (x = g) := by
    intro u g; cases u.job n <;> rfl
  unfold State.screenerHolds
  simp only [h1, e, h2]

/-- Work that has ceased ceases no further: the job of a slot is freed after its entry to CANCELLING. -/
theorem State.workCeased.freed {u : State} (h : s.workCeased t n) (ht : ∀ j, t.job n = some j → j.cursor.buffer = none)
    (hb : (t.job n).map (fun j => j.bands) = (s.job n).map fun j => j.bands)
    (hs : t.screener = s.screener) (hu : t.freed u n) : s.freed u n := by
  obtain ⟨h1, h2, h3, h4⟩ := h
  obtain ⟨u0, ⟨u1, u2, u3, u4⟩, u5⟩ := hu
  have ff : ∀ l : List HoldingRecord, (l.filter fun r => r.isFragment || decide (r.slot ≠ n)).filter
      (fun r => r.isFragment || decide (r.slot ≠ n)) = l.filter fun r => r.isFragment || decide (r.slot ≠ n) := by
    intro l; rw [List.filter_filter]; congr 1; funext r; simp
  refine ⟨u0, ⟨?_, fun x => ?_, ?_, u4.trans h4⟩, fun x => ?_⟩
  · obtain ⟨a1, a2, a3, a4, a5⟩ := h1
    obtain ⟨b1, b2, b3, b4, b5⟩ := u1
    refine ⟨b1.trans a1, b2.trans a2, b3.trans a3, b4.trans a4, fun i => ?_⟩
    rw [b5 i, a5 i, a3, a4]
    by_cases e : s.ring.entries[i].mark =
        (if s.ring.consumer ≤ i then s.ring.consumerPass else !s.ring.consumerPass)
    · simp only [if_pos e]
      congr 1
      rw [Option.map_map]
      congr 1
      funext d
      by_cases k : d.slot = n <;> simp [k]
    · simp only [if_neg e]
  · rw [u2 x, h2 x]
    refine or_iff_right fun ⟨j, k, l⟩ => ?_
    rw [ht j k] at l; cases l
  · have stands : ∀ w l st, t.unpacker.work = w ∧ t.receiver.holding = l ∧ t.damage = st →
        (w = .free ∨ w = .waitBuffer) → u.unpacker.work = w ∧
          u.receiver.holding = l.filter (fun r => r.isFragment || decide (r.slot ≠ n)) ∧ u.damage = st := by
      intro w l st ⟨e1, e2, e3⟩ hw
      obtain ⟨c1, c2, c3⟩ := u3.1 (e1 ▸ hw)
      exact ⟨c1.trans e1, by rw [c2, e2], c3.trans e3⟩
    refine ⟨fun k => ?_, fun k => ⟨fun l => ?_, fun m hm l => ?_⟩, fun d a k => ⟨fun l => ?_, fun l => ⟨fun f => ?_,
      fun f => ?_⟩⟩⟩
    · have := stands _ _ _ (h3.1 k) k
      rwa [ff] at this
    · have := stands _ _ _ ((h3.2.1 k).1 l) (Or.inl rfl)
      rwa [ff] at this
    · obtain ⟨e1, e2, e3⟩ := (h3.2.1 k).2 m hm l
      obtain ⟨r, rest, r1, r2, r3⟩ := l
      have hr : t.headIsFragmentOf m := by
        refine ⟨r, rest.filter (fun r => r.isFragment || decide (r.slot ≠ n)), ?_, r2, r3⟩
        rw [e2, r1, List.filter_cons, if_pos (by rw [r2]; rfl)]
      obtain ⟨c1, c2, c3⟩ := (u3.2.1 (e1.trans k)).2 m hm hr
      exact ⟨c1.trans e1, by rw [c2, e2, ff], c3.trans e3⟩
    · obtain ⟨e1, e2, e3⟩ := (h3.2.2 d a k).1 l
      obtain ⟨c1, c2, c3⟩ := (u3.2.2 d a (e1.trans k)).1 l
      exact ⟨c1.trans e1, by rw [c2, e2, ff], c3.trans e3⟩
    · have := stands _ _ _ (((h3.2.2 d a k).2 l).1 f) (Or.inl rfl)
      rwa [ff] at this
    · have := stands _ _ _ (((h3.2.2 d a k).2 l).2 f) (Or.inl rfl)
      rwa [ff] at this
  · rw [u5 x, hs]
    refine or_congr_left ?_
    cases hj : s.job n with
    | none => rw [hj] at hb; cases ht' : t.job n <;> rw [ht'] at hb; simp at hb ⊢
    | some j =>
      cases ht' : t.job n with
      | none => rw [hj, ht'] at hb; cases hb
      | some k =>
        rw [hj, ht'] at hb
        have : k.bands = j.bands := Option.some.inj hb
        simp [this]

/-- Entry to CANCELLING: the work ceases; with no band of the job in the Screener the job is freed in the same event. -/
theorem State.enterCancelling_ceased (s : State) (n : Slot) (r : CancelReason) :
    (s.screenerHolds n = true → s.workCeased (s.enterCancelling n r) n ∧ (s.enterCancelling n r).screener = s.screener) ∧
    (s.screenerHolds n = false → (s.job n).isSome = true → s.freed (s.enterCancelling n r) n) := by
  have ha := State.abandonWork_ceased s n
  obtain ⟨hj, _, _, _, _, _, _, _, _, _, _, hs⟩ := State.abandonWork_spec s n
  have hc : s.workCeased ((s.abandonWork n).modifyJob n fun j => { j with stage := .cancelling r }) n :=
    ha.congr rfl rfl rfl rfl rfl
  have hk : ((s.abandonWork n).modifyJob n fun j => { j with stage := .cancelling r }).job n =
      ((s.job n).map Job.withoutCursors).map fun j => { j with stage := .cancelling r } := by
    rw [State.job_modifyJob_same, hj, if_pos rfl]
  have hh : ((s.abandonWork n).modifyJob n fun j => { j with stage := .cancelling r }).screenerHolds n =
      s.screenerHolds n := by
    refine State.screenerHolds_congr hs ?_
    rw [hk]; cases s.job n <;> rfl
  have hsc : ((s.abandonWork n).modifyJob n fun j => { j with stage := .cancelling r }).screener = s.screener := hs
  unfold State.enterCancelling
  dsimp only
  generalize (s.abandonWork n).modifyJob n (fun j => { j with stage := .cancelling r }) = t at hc hk hh hsc
  rw [hh]
  refine ⟨fun e => ?_, fun e k => ?_⟩
  · rw [if_pos e]; exact ⟨hc, hsc⟩
  · rw [if_neg (by rw [e]; simp)]
    obtain ⟨j, hjs⟩ := Option.isSome_iff_exists.mp k
    rw [hjs] at hk
    refine hc.freed (fun i hi => ?_) ?_ hsc (State.endJob_freed hk _)
    · rw [hk] at hi; cases hi; rfl
    · rw [hk, hjs]; rfl

end Sys2Proof.Machine
end

