-- ==== Sys2Proof/Laws/Renumber.lean ====
section
/-! SUPPORT. What the queue ages, the board's stamps and the ready orders become when a new one is given out, in the
words of the statements (R12, R45, R78; log 20). -/

namespace Sys2Proof.Machine

/-- The count of the smaller ones renumbers a list. -/
theorem renumbers_smaller (old : List Nat) : renumbers old fun a => (old.filter fun o => decide (o < a)).length := by
  refine ⟨fun a ha => ?_, fun a _ b hb => ⟨fun h => ?_, fun h => ?_⟩⟩
  · refine Nat.lt_of_le_of_ne (List.length_filter_le _ _) fun e => ?_
    have := List.length_filter_eq_length_iff.mp e a ha
    simp at this
  · by_contra k
    refine absurd h (Nat.not_lt.mpr ?_)
    exact (List.monotone_filter_right old fun o ho => by
      simp only [decide_eq_true_eq] at ho ⊢; omega).length_le
  · have sub : (old.filter fun o => decide (o < a)).Sublist (old.filter fun o => decide (o < b)) :=
      List.monotone_filter_right old fun o ho => by simp only [decide_eq_true_eq] at ho ⊢; omega
    refine Nat.lt_of_le_of_ne sub.length_le fun e => ?_
    have eq := sub.eq_of_length e
    have : a ∈ old.filter fun o => decide (o < a) := by
      rw [eq]; simp_all
    simp at this

/-! ## Queue ages (R12) -/

theorem Link.readiedAs_withAge (l : Link) : l.readiedAs l.withAge := by
  refine ⟨fun h => if_pos h, fun h => ⟨_, renumbers_smaller _, ?_⟩⟩
  have e : l.withAge = { l with
      roll := l.roll.map l.renumbered, presence := l.presence.map l.renumbered
      slots := l.slots.map fun q => q.map l.renumbered, ageCounter := l.queued.length } :=
    if_neg (Nat.not_lt.mpr h)
  have f : l.renumbered = fun q : Queued =>
      { q with age := ((l.queued.map (·.age)).filter fun o => decide (o < q.age)).length } := by
    funext q
    simp [Link.renumbered, List.filter_map, Function.comp_def]
  rw [e, f]

/-- A message put in a place. -/
theorem Link.puts_put (l : Link) (p : Place) (m : Msg) : l.puts (l.put p m) p m :=
  ⟨l.withAge, l.readiedAs_withAge, rfl⟩

/-- A ROLL, JOIN or LEAVE requested (R13). -/
theorem Link.request_of_notInProgress (l : Link) (p : Place) (m : Msg)
    (h : ∀ q, l.at p = some q → q.inProgress = false) : l.request p m = l.put p m := by
  unfold Link.request
  split
  · rfl
  · rename_i q hq
    rw [h q hq]; rfl

/-- The receive state has no part in the ages. -/
theorem Link.put_withPhase (l : Link) (p : Place) (m : Msg) (ph : LinkPhase) :
    ({ l with phase := ph } : Link).put p m = { l.put p m with phase := ph } := by
  have q : ({ l with phase := ph } : Link).queued = l.queued := by
    unfold Link.queued
    congr 1
  have r : ({ l with phase := ph } : Link).renumbered = l.renumbered := by
    unfold Link.renumbered; rw [q]
  have w : ({ l with phase := ph } : Link).withAge = { l.withAge with phase := ph } := by
    unfold Link.withAge
    split
    · rfl
    · simp only [q, r]
  unfold Link.put
  rw [w]
  cases p <;> rfl

/-! ## Stamps (R45) -/

theorem Board.readiedAs_withStamp (b : Board) : b.readiedAs b.withStamp := by
  refine ⟨fun h => if_pos h, fun h => ⟨_, renumbers_smaller _, ?_⟩⟩
  have e : b.withStamp = { b with
      entries := b.entries.map fun e =>
        { e with stamp := (b.entries.filter fun d => decide (d.stamp < e.stamp)).length }
      stamp := b.entries.length } := if_neg (Nat.not_lt.mpr h)
  rw [e]
  simp [List.filter_map, Function.comp_def]

/-- An entry written, over the board as it gives out the stamp. -/
theorem Board.write_eq (b : Board) (i : Nat) (e : BoardEntry) :
    b.write i e = { b.withStamp with
      entries := b.withStamp.entries.set i { e with stamp := b.withStamp.stamp }, stamp := b.withStamp.stamp + 1 } :=
  rfl

/-! ## Ready orders (R78) -/

theorem JobTable.readiedAs_withOrder (t : JobTable) : t.readiedAs t.withOrder := by
  refine ⟨fun h => if_pos h, fun h => ⟨_, renumbers_smaller _, ?_⟩⟩
  have e : t.withOrder = { t with
      slots := t.slots.map fun j => j.map fun j => { j with stage := j.stage.renumbered t.orders }
      readyCounter := t.orders.length } := if_neg (Nat.not_lt.mpr h)
  rw [e]
  congr 1

/-- A slot whose job is not READY, before and after a change of it, gives no ready order. -/
theorem JobTable.orders_set {t : JobTable} {n : Slot} {j k : Job} (hj : t.slots[n] = some j)
    (hr : ∀ o, j.stage ≠ .ready o) (kr : ∀ o, k.stage ≠ .ready o) :
    ({ t with slots := t.slots.set n (some k) } : JobTable).orders = t.orders := by
  unfold JobTable.orders
  refine List.filterMap_congr fun m _ => ?_
  by_cases e : m = n
  · subst e
    have a : ((t.slots.set m (some k))[m] : Option Job) = some k := by simp
    show Option.bind ((t.slots.set m (some k))[m] : Option Job) _ = _
    rw [a, hj]
    simp only [Option.bind_some]
  · have a : ((t.slots.set n (some k))[m] : Option Job) = t.slots[m] := by
      simp only [Fin.getElem_fin]
      exact Vector.getElem_set_ne _ _ fun h => e (Fin.ext h.symm)
    show Option.bind ((t.slots.set n (some k))[m] : Option Job) _ = _
    rw [a]

/-- A change of a job that is not READY stands beside the renumbering of the others. -/
theorem JobTable.withOrder_set {t : JobTable} {n : Slot} {j k : Job} (hj : t.slots[n] = some j)
    (hr : ∀ o, j.stage ≠ .ready o) (kr : ∀ o, k.stage ≠ .ready o) :
    ({ t with slots := t.slots.set n (some k) } : JobTable).withOrder =
      { t.withOrder with slots := t.withOrder.slots.set n (some k) } := by
  have ks : ∀ os, k.stage.renumbered os = k.stage := by
    intro os
    cases hk : k.stage with
    | ready o => exact absurd hk (kr o)
    | _ => rfl
  unfold JobTable.withOrder
  rw [JobTable.orders_set hj hr kr]
  by_cases h : t.readyCounter < Config.max32
  · rw [if_pos h, if_pos h]
  · rw [if_neg h, if_neg h]
    simp [Vector.map_set, ks]

end Sys2Proof.Machine
end

