-- ==== Sys2Proof/Laws/Ending.lean ====
section
/-! SUPPORT. What the end of a job leaves in the outgoing queue, what a supersession makes of a job, what Job Control
makes of a CONTESTED notice, and what an assessment leaves, in the words of the statements (R23, R68, R69, R77, R80, R81,
R86, R146). -/

namespace Sys2Proof.Machine

variable {s t u : State} {n : Slot}

/-! ## What stands beside a job -/

theorem State.besides.trans (h : s.besides t n) (k : t.besides u n) : s.besides u n := by
  obtain ⟨h1, h2, h3, h4, h5, h6, h7, h8, h9, h10, h11, h12, h13, h14, h15⟩ := h
  obtain ⟨k1, k2, k3, k4, k5, k6, k7, k8, k9, k10, k11, k12, k13, k14, k15⟩ := k
  exact ⟨fun m e => (k1 m e).trans (h1 m e), k2.trans h2, k3.trans h3, k4.trans h4, k5.trans h5, k6.trans h6,
    k7.trans h7, k8.trans h8, k9.trans h9, k10.trans h10, k11.trans h11, k12.trans h12, k13.trans h13, k14.trans h14,
    k15.trans h15⟩

theorem State.besides.ofLink {l : Link} (h : l.phase = s.link.phase) : s.besides (s.setLink l) n :=
  ⟨fun _ _ => rfl, rfl, rfl, rfl, rfl, rfl, h, rfl, rfl, rfl, rfl, rfl, rfl, rfl, rfl⟩

theorem State.modifyJob_besides (s : State) (n : Slot) (f : Job → Job) : s.besides (s.modifyJob n f) n :=
  ⟨fun m e => State.job_modifyJob_other s n m f e, rfl, rfl, rfl, rfl, rfl, rfl, rfl, rfl, rfl, rfl, rfl, rfl, rfl, rfl⟩

theorem State.setJob_besides (s : State) (n : Slot) (j : Option Job) : s.besides (s.setJob n j) n :=
  ⟨fun m e => State.job_setJob_other s n m j e, rfl, rfl, rfl, rfl, rfl, rfl, rfl, rfl, rfl, rfl, rfl, rfl, rfl, rfl⟩

theorem State.stopUnpacking_besides (s : State) (n : Slot) :
    s.besides (s.stopUnpacking n) n ∧ (s.stopUnpacking n).link = s.link := by
  have d : s.besides s.dropStale n ∧ s.dropStale.link = s.link :=
    ⟨⟨fun _ _ => rfl, rfl, rfl, rfl, rfl, rfl, rfl, rfl, rfl, rfl, rfl, rfl, rfl, rfl, rfl⟩, rfl⟩
  have r : s.besides s n ∧ s.link = s.link :=
    ⟨⟨fun _ _ => rfl, rfl, rfl, rfl, rfl, rfl, rfl, rfl, rfl, rfl, rfl, rfl, rfl, rfl, rfl⟩, rfl⟩
  unfold State.stopUnpacking
  split
  · split
    · exact d
    · exact r
  · split
    · split
      · exact d
      · exact ⟨⟨fun _ _ => rfl, rfl, rfl, rfl, rfl, rfl, rfl, rfl, rfl, rfl, rfl, rfl, rfl, rfl, rfl⟩, rfl⟩
    · exact r
  · exact r
  · exact r

theorem State.abandonWork_besides (s : State) (n : Slot) :
    s.besides (s.abandonWork n) n ∧ (s.abandonWork n).link = s.link := by
  have rest : ∀ a v : State, s.besides a n ∧ a.link = s.link → v = a.stopUnpacking n →
      s.besides ((v.removeEndMarker n).modifyJob n Job.withoutCursors) n ∧
        ((v.removeEndMarker n).modifyJob n Job.withoutCursors).link = s.link := by
    intro a v ⟨h, l⟩ e
    obtain ⟨k, m⟩ := State.stopUnpacking_besides a n
    rw [← e] at k m
    exact ⟨(h.trans k).trans (State.besides.trans (t := v.removeEndMarker n)
      ⟨fun _ _ => rfl, rfl, rfl, rfl, rfl, rfl, rfl, rfl, rfl, rfl, rfl, rfl, rfl, rfl, rfl⟩
      (State.modifyJob_besides _ n _)), m.trans l⟩
  have start : ∀ (x : Ring) (b : Option Nat), s.besides ((s.setRing x).returnBuffer b) n ∧
      ((s.setRing x).returnBuffer b).link = s.link := fun _ _ =>
    ⟨⟨fun _ _ => rfl, rfl, rfl, rfl, rfl, rfl, rfl, rfl, rfl, rfl, rfl, rfl, rfl, rfl, rfl⟩, rfl⟩
  exact rest _ _ (start (s.ring.void n) _) rfl

/-! ## The LEAVE after the last job (R23) -/

theorem State.tableEmptied_besides (s : State) (n : Slot) : s.besides s.tableEmptied n := by
  unfold State.tableEmptied
  split
  · refine State.besides.ofLink ?_
    unfold Link.request
    split
    · simp
    · split <;> simp
  · exact ⟨fun _ _ => rfl, rfl, rfl, rfl, rfl, rfl, rfl, rfl, rfl, rfl, rfl, rfl, rfl, rfl, rfl⟩

theorem State.anyJob_false_iff (s : State) : s.anyJob = false ↔ ∀ m, s.job m = none := by
  unfold State.anyJob allSlots
  rw [List.any_eq_false]
  refine ⟨fun h m => ?_, fun h m _ => by simp [h m]⟩
  have := h m (List.mem_finRange m)
  simpa using this

/-- A live job freed: everything else but the data path stands, and a LEAVE follows the last job of a draining
station. -/
theorem State.freeJob_leave {j : Job} (hj : s.job n = some j) :
    s.besides (s.freeJob n) n ∧ s.leaveFollows (s.freeJob n) n s.link := by
  obtain ⟨ha, hl⟩ := State.abandonWork_besides s n
  unfold State.freeJob
  rw [hj]
  dsimp only
  rw [State.foldReturn_eq]
  generalize s.abandonWork n = a at ha hl
  generalize hv : (a.setScreener
    { a.screener with store := j.screenedBuffers.foldl insertSorted a.screener.store }).setJob n none = v
  have hb : s.besides v n := by
    rw [← hv]
    refine ha.trans (State.besides.trans (t := a.setScreener
      { a.screener with store := j.screenedBuffers.foldl insertSorted a.screener.store })
      ⟨fun _ _ => rfl, rfl, rfl, rfl, rfl, rfl, rfl, rfl, rfl, rfl, rfl, rfl, rfl, rfl, rfl⟩ (State.setJob_besides _ n none))
  have hvl : v.link = s.link := by rw [← hv]; exact hl
  have hvn : v.job n = none := by rw [← hv]; exact State.job_setJob_same _ _ _
  refine ⟨hb.trans (State.tableEmptied_besides v n), ?_⟩
  have iff : (v.anyJob = false ∧ v.station.state = .draining) ↔ s.drainedBy n := by
    rw [State.anyJob_false_iff, hb.2.2.2.1]
    refine ⟨fun ⟨h, d⟩ => ⟨d, fun m e => (hb.1 m e).symm.trans (h m)⟩, fun ⟨d, h⟩ => ⟨fun m => ?_, d⟩⟩
    by_cases e : m = n
    · rw [e, hvn]
    · rw [hb.1 m e, h m e]
  unfold State.tableEmptied
  refine ⟨?_, fun k => ?_, fun k => ?_⟩
  · split <;> exact hb.2.2.2.1
  · rw [if_neg fun z => k (iff.mp z)]; exact hvl
  · rw [if_pos (iff.mpr k)]
    show (_ → s.link.puts (v.link.request .presence .leave) .presence .leave) ∧
      ∀ q, s.link.presence = some q → q.inProgress = true → v.link.request .presence .leave = _
    rw [hvl]
    refine ⟨fun h => ?_, fun q hq hp => ?_⟩
    · rw [Link.request_of_notInProgress s.link .presence .leave h]
      exact s.link.puts_put _ _
    · have e : s.link.at .presence = some q := hq
      unfold Link.request
      rw [e]
      dsimp only
      rw [if_pos hp]
      rfl

/-- The words read only the slots' jobs, the station and the link. -/
theorem State.leaveFollows.congr {r : State} {l : Link} (h : s.leaveFollows t n l) (hj : ∀ m, m ≠ n → r.job m = s.job m)
    (hs : r.station = s.station) (ts : u.station = t.station) (tl : u.link = t.link) : r.leaveFollows u n l := by
  have e : r.drainedBy n ↔ s.drainedBy n := by
    unfold State.drainedBy
    rw [hs]
    exact and_congr_right fun _ => forall_congr' fun m => forall_congr' fun k => by rw [hj m k]
  unfold State.leaveFollows at *
  rw [ts, tl, hs, e]
  exact h

/-- A job ends with its DONE. -/
theorem State.endJob_endsWithDone {j : Job} (hj : s.job n = some j) (outcome : DoneOutcome) :
    s.endsWithDone (s.endJob n outcome) n j outcome ∧ s.besides (s.endJob n outcome) n := by
  have e : s.endJob n outcome = (s.setLink (s.link.put (.slot n) (j.doneMessage outcome))).freeJob n := by
    unfold State.endJob; rw [hj]
  have hf := State.freeJob_leave (s := s.setLink (s.link.put (.slot n) (j.doneMessage outcome))) (n := n) hj
  refine ⟨⟨State.endJob_freed hj outcome, _, s.link.puts_put _ _, ?_⟩, ?_⟩
  · rw [e]; exact hf.2.congr (fun _ _ => rfl) rfl rfl rfl
  · rw [e]
    exact (State.besides.ofLink (by simp)).trans hf.1

/-! ## Cancelling (R80, R82) -/

/-- A job enters CANCELLING, and ends at once where the Screener holds no band of it. -/
theorem State.enterCancelling_ends {j : Job} (hj : s.job n = some j) (r : CancelReason) :
    s.besides (s.enterCancelling n r) n ∧
    (s.screenerHolds n = true →
      (s.enterCancelling n r).job n = some (j.cancelledFor r) ∧ (s.enterCancelling n r).link = s.link) ∧
    (s.screenerHolds n = false → s.endsWithDone (s.enterCancelling n r) n j r.outcome) := by
  have hc := State.enterCancelling_ceased s n r
  obtain ⟨ha, hl⟩ := State.abandonWork_besides s n
  obtain ⟨qj, _, _, _, _, _, _, _, _, _, _, qs⟩ := State.abandonWork_spec s n
  have hb : s.besides ((s.abandonWork n).modifyJob n fun j => { j with stage := .cancelling r }) n :=
    ha.trans (State.modifyJob_besides _ n _)
  have hk : ((s.abandonWork n).modifyJob n fun j => { j with stage := .cancelling r }).job n =
      some (j.cancelledFor r) := by
    rw [State.job_modifyJob_same, qj, if_pos rfl, hj]; rfl
  have hh : ((s.abandonWork n).modifyJob n fun j => { j with stage := .cancelling r }).screenerHolds n =
      s.screenerHolds n := by
    refine State.screenerHolds_congr qs ?_
    rw [hk, hj]; rfl
  have hlk : ((s.abandonWork n).modifyJob n fun j => { j with stage := .cancelling r }).link = s.link := hl
  unfold State.enterCancelling at hc ⊢
  dsimp only at hc ⊢
  generalize (s.abandonWork n).modifyJob n (fun j => { j with stage := .cancelling r }) = v at hb hk hh hlk hc
  rw [hh] at hc ⊢
  refine ⟨?_, fun e => ?_, fun e => ?_⟩
  · split
    · exact hb
    · exact hb.trans (State.endJob_endsWithDone hk _).2
  · rw [if_pos e]; exact ⟨hk, hlk⟩
  · have hf := hc.2 e (by rw [hj]; rfl)
    rw [if_neg (by rw [e]; exact Bool.false_ne_true)] at hf ⊢
    obtain ⟨⟨_, l, h1, h2⟩, _⟩ := State.endJob_endsWithDone hk r.outcome
    rw [hlk] at h1
    exact ⟨hf, l, h1, h2.congr (fun m k => (hb.1 m k).symm) hb.2.2.2.1.symm rfl rfl⟩

/-- The Screener holds a band of the slot's job: its current band is of the slot and of the job's generation. -/
theorem State.screenerHolds_iff {j : Job} (hj : s.job n = some j) :
    s.screenerHolds n = true ↔ ∃ c, s.screener.current = some c ∧ c.slot = n ∧ c.generation = j.generation := by
  unfold State.screenerHolds
  rw [hj]
  cases s.screener.current with
  | none => simp
  | some c =>
    simp only [Option.any_some, Bool.and_eq_true, decide_eq_true_eq, Option.some.injEq, exists_eq_left']
    exact and_congr_right fun _ => eq_comm

theorem State.screenerHolds_false {j : Job} (hj : s.job n = some j)
    (h : ∀ c, s.screener.current = some c → c.slot = n → c.generation ≠ j.generation) : s.screenerHolds n = false := by
  rw [Bool.eq_false_iff]
  intro k
  obtain ⟨c, h1, h2, h3⟩ := (State.screenerHolds_iff hj).mp k
  exact h c h1 h2 h3

/-- An OWNED job that neither the Imager holds nor has begun cancelling is cancelled by its entry to CANCELLING. -/
theorem State.cancelOwned_enters {j : Job} (hj : s.job n = some j) (r : CancelReason)
    (h : j.stage = .receiving ∨ j.stage = .closing ∨ j.stage = .held ∨ ∃ order, j.stage = .ready order) :
    s.cancelOwned n r = s.enterCancelling n r := by
  unfold State.cancelOwned
  rw [hj, Option.map_some]
  rcases h with h | h | h | ⟨o, h⟩ <;> rw [h]

/-! ## Supersession (R80, R81) -/

/-- A CONTENDING job loses its claim (R73, R80). -/
theorem State.loseClaim_ends {j : Job} (hj : s.job n = some j) :
    s.freed (s.loseClaim n) n ∧ s.besides (s.loseClaim n) n ∧
    s.leaveFollows (s.loseClaim n) n (s.link.withdraw (.slot n)) := by
  have hf := State.freeJob_freed (s := s.withdrawClaim n) (n := n) (j := j) hj
  have hl := State.freeJob_leave (s := s.withdrawClaim n) (n := n) (j := j) hj
  refine ⟨hf.ofSame rfl rfl rfl rfl rfl rfl, ?_, hl.2.congr (fun _ _ => rfl) rfl rfl rfl⟩
  refine State.besides.trans (t := s.withdrawClaim n) (State.besides.ofLink ?_) hl.1
  unfold Link.withdraw
  split
  · rfl
  · split <;> simp

/-- A queued CLAIM withdrawn leaves its place empty. -/
theorem Link.withdraw_queued (l : Link) (n : Slot) (h : ∀ q, l.slots[n] = some q → q.inProgress = false) :
    l.withdraw (.slot n) = { l with slots := l.slots.set n none } := by
  unfold Link.withdraw
  split
  · rename_i e
    have e' : l.slots[n.val] = none := e
    have : l.slots.set n.val none = l.slots := by
      rw [← e', Vector.set_getElem_self]
    rw [this]
  · rename_i q e
    rw [h q e]; rfl

/-- The withdrawal of a CLAIM in progress is held pending. -/
theorem Link.withdraw_inProgress (l : Link) (n : Slot) {q : Queued} (h : l.slots[n] = some q)
    (hp : q.inProgress = true) :
    l.withdraw (.slot n) = { l with slots := l.slots.set n (some { q with withdrawal := true }) } := by
  have e : l.at (.slot n) = some q := h
  unfold Link.withdraw
  rw [e]
  dsimp only
  rw [if_pos hp]
  rfl

/-- A LEAVE that follows a job has no part in the slots' places, but that a renumbering may age them. -/
theorem State.leaveFollows.slots_none {l : Link} (h : s.leaveFollows t n l) {m : Slot} (k : l.slots[m] = none) :
    t.link.slots[m] = none := by
  obtain ⟨_, h1, h2⟩ := h
  by_cases d : s.drainedBy n
  · obtain ⟨h3, h4⟩ := h2 d
    by_cases p : ∀ q, l.presence = some q → q.inProgress = false
    · obtain ⟨r, ⟨r1, r2⟩, e⟩ := h3 p
      rw [e]
      show r.slots[m] = none
      by_cases c : l.ageCounter < 4294967295
      · rw [r1 c]; exact k
      · obtain ⟨new, _, e2⟩ := r2 (Nat.le_of_not_lt c)
        rw [e2]
        simpa using k
    · push Not at p
      obtain ⟨q, hq, hp⟩ := p
      rw [h4 q hq (by simpa using hp)]
      exact k
  · rw [h1 d]; exact k

theorem State.supersedeJob_superseded {j : Job} (hj : s.job n = some j) : s.superseded (s.supersedeJob n) n j := by
  unfold State.supersedeJob
  rw [hj, Option.map_some]
  refine ⟨fun hc => ?_, fun ho => ⟨fun hst => ⟨fun hsc => ?_, fun c h1 h2 h3 => ?_⟩, fun hi hp hb => ?_⟩⟩
  · rw [hc]
    obtain ⟨h1, h2, h3⟩ := State.loseClaim_ends hj
    refine ⟨h1, h2, fun hq => ?_, fun q hq hp => ?_⟩
    · rw [Link.withdraw_queued _ _ hq] at h3
      exact ⟨h3.slots_none (by simp), h3⟩
    · rw [Link.withdraw_inProgress _ _ hq hp] at h3
      exact h3
  · rw [ho]
    dsimp only
    rw [State.cancelOwned_enters hj _ hst]
    obtain ⟨h1, _, h2⟩ := State.enterCancelling_ends hj .superseded
    exact ⟨h2 (State.screenerHolds_false hj hsc), h1⟩
  · rw [ho]
    dsimp only
    rw [State.cancelOwned_enters hj _ hst]
    have hs := (State.screenerHolds_iff hj).mpr ⟨c, h1, h2, h3⟩
    obtain ⟨k1, k2, _⟩ := State.enterCancelling_ends hj .superseded
    obtain ⟨c1, c2⟩ := (State.enterCancelling_ceased s n .superseded).1 hs
    exact ⟨c1, k1, (k2 hs).1, (k2 hs).2, c2⟩
  · rw [ho]
    dsimp only
    unfold State.cancelOwned
    rw [hj, Option.map_some, hi]
    dsimp only
    unfold State.imagerCancel
    have hbz : s.imager.state.busy = true := by rcases hb with h | h | h <;> rw [h] <;> rfl
    rw [if_pos (by rw [hbz, hp]; rfl)]
    by_cases k : s.imager.state = .imaging ∧ s.imager.swathInOutput = false
    · rw [if_pos k]; exact if_pos k
    · rw [if_neg k]; exact if_neg k

/-- A supersession leaves a job that outlasts it. -/
theorem State.supersedeJob_outlasts {j : Job} (hj : s.job n = some j) {key : PlateKey} {version : Nat}
    (h : s.outlasts j key version) :
    (if (s.job n).any fun j => decide (j.key = key ∧ j.version < version) then s.supersedeJob n else s) = s := by
  rw [hj, Option.any_some]
  split
  · rename_i k
    obtain ⟨k1, k2⟩ := of_decide_eq_true k
    rcases h with h | h | ⟨ho, h⟩
    · exact absurd k1 h
    · omega
    · unfold State.supersedeJob
      rw [hj, Option.map_some, ho]
      dsimp only
      unfold State.cancelOwned
      rw [hj, Option.map_some]
      rcases h with ⟨r, h⟩ | ⟨h, hp⟩
      · rw [h]
      · rw [h]
        dsimp only
        unfold State.imagerCancel
        obtain ⟨x, hx⟩ := Option.ne_none_iff_exists'.mp hp
        rw [hx]
        simp
  · rfl

theorem State.foldl_outlasts {key : PlateKey} {version : Nat} (l : List Slot)
    (h : ∀ m ∈ l, ∀ j, s.job m = some j → s.outlasts j key version) :
    l.foldl (fun s n =>
      if (s.job n).any fun j => decide (j.key = key ∧ j.version < version) then s.supersedeJob n else s) s = s := by
  induction l with
  | nil => rfl
  | cons a l ih =>
    rw [List.foldl_cons]
    have e : (if (s.job a).any fun j => decide (j.key = key ∧ j.version < version) then s.supersedeJob a else s) = s := by
      cases hj : s.job a with
      | none => rfl
      | some j =>
        have := State.supersedeJob_outlasts hj (h a (by simp) j hj)
        rwa [hj] at this
    rw [e]
    exact ih fun m hm => h m (by simp [hm])

/-- A supersession that every job outlasts changes nothing. -/
theorem State.noticeSuperseded_of_outlasts {key : PlateKey} {version : Nat}
    (h : ∀ m j, s.job m = some j → s.outlasts j key version) : s.noticeSuperseded key version = s :=
  State.foldl_outlasts _ fun m _ => h m

/-- A superseded job's slot apart, its supersession leaves every job, and the Imager's cancel but where it is the
superseded job's own. -/
theorem State.supersedeJob_other (s : State) {m : Slot} (hm : m ≠ n) :
    (s.supersedeJob n).job m = s.job m ∧
    (s.imager.pendingCancel ≠ none → (s.supersedeJob n).imager.pendingCancel ≠ none) := by
  have hic : ∀ r, (s.imagerCancel r).job m = s.job m ∧
      (s.imager.pendingCancel ≠ none → (s.imagerCancel r).imager.pendingCancel ≠ none) := by
    intro r
    unfold State.imagerCancel
    split
    · dsimp only
      split <;> exact ⟨rfl, fun _ => Option.some_ne_none r⟩
    · exact ⟨rfl, id⟩
  unfold State.supersedeJob
  cases hj : s.job n with
  | none => exact ⟨rfl, id⟩
  | some j =>
    rw [Option.map_some]
    cases hst : j.standing with
    | contending =>
      dsimp only
      obtain ⟨_, h, _⟩ := State.loseClaim_ends hj
      exact ⟨h.1 m hm, fun k => by rw [h.2.2.2.2.2.2.2.2.2.2.1]; exact k⟩
    | owned =>
      dsimp only
      have he : (s.enterCancelling n .superseded).job m = s.job m ∧
          (s.imager.pendingCancel ≠ none → (s.enterCancelling n .superseded).imager.pendingCancel ≠ none) := by
        obtain ⟨h, _⟩ := State.enterCancelling_ends hj .superseded
        exact ⟨h.1 m hm, fun k => by rw [h.2.2.2.2.2.2.2.2.2.2.1]; exact k⟩
      unfold State.cancelOwned
      rw [hj, Option.map_some]
      cases j.stage with
      | receiving => exact he
      | closing => exact he
      | ready o => exact he
      | held => exact he
      | imaging => exact hic _
      | cancelling r => exact ⟨rfl, id⟩

/-- A supersession of one job, which every other outlasts. -/
theorem State.noticeSuperseded_one {key : PlateKey} {version : Nat} {j : Job} (hj : s.job n = some j) (hk : j.key = key)
    (hv : j.version < version) (h : ∀ m k, m ≠ n → s.job m = some k → s.outlasts k key version) :
    s.noticeSuperseded key version = s.supersedeJob n := by
  unfold State.noticeSuperseded
  obtain ⟨l, r, e, hl⟩ := List.append_of_mem (List.mem_finRange n)
    |> fun ⟨l, r, e⟩ => (⟨l, r, e, (List.nodup_finRange 8)⟩ : ∃ l r, List.finRange 8 = l ++ n :: r ∧ (List.finRange 8).Nodup)
  rw [e] at hl
  have hnd := List.nodup_append.mp hl
  unfold allSlots
  rw [e, List.foldl_append, State.foldl_outlasts l, List.foldl_cons]
  · have e1 : (if (s.job n).any fun j => decide (j.key = key ∧ j.version < version) then s.supersedeJob n else s) =
        s.supersedeJob n := by
      rw [hj, Option.any_some, if_pos (decide_eq_true ⟨hk, hv⟩)]
    rw [e1]
    refine State.foldl_outlasts r fun m hm k hk' => ?_
    have hmn : m ≠ n := fun z => (List.nodup_cons.mp hnd.2.1).1 (z ▸ hm)
    obtain ⟨o1, o2⟩ := State.supersedeJob_other s hmn
    rw [o1] at hk'
    rcases h m k hmn hk' with z | z | ⟨z1, z2 | ⟨z3, z4⟩⟩
    · exact Or.inl z
    · exact Or.inr (Or.inl z)
    · exact Or.inr (Or.inr ⟨z1, Or.inl z2⟩)
    · exact Or.inr (Or.inr ⟨z1, Or.inr ⟨z3, o2 z4⟩⟩)
  · intro m hm k hk'
    exact h m k (fun z => hnd.2.2 m hm n (by simp) z) hk'

/-- The words of a supersession read nothing of the board. -/
theorem State.superseded.setBoard {j : Job} (h : s.superseded u n j) (b : Board) :
    (s.setBoard b).superseded (u.setBoard b) n j := by
  have be : s.besides u n → (s.setBoard b).besides (u.setBoard b) n := by
    rintro ⟨h1, h2, h3, h4, h5, h6, h7, h8, _, h10, h11, h12, h13, h14, h15⟩
    exact ⟨h1, h2, h3, h4, h5, h6, h7, h8, rfl, h10, h11, h12, h13, h14, h15⟩
  have fr : s.freed u n → (s.setBoard b).freed (u.setBoard b) n := fun h => h
  have le : ∀ l, s.leaveFollows u n l → (s.setBoard b).leaveFollows (u.setBoard b) n l := fun l h => h
  obtain ⟨h1, h2⟩ := h
  refine ⟨fun hc => ?_, fun ho => ⟨fun hst => ⟨fun hsc => ?_, fun c e1 e2 e3 => ?_⟩, fun hi hp hb => ?_⟩⟩
  · obtain ⟨a1, a2, a3, a4⟩ := h1 hc
    exact ⟨fr a1, be a2, a3, a4⟩
  · obtain ⟨a1, a2⟩ := ((h2 ho).1 hst).1 hsc
    exact ⟨a1, be a2⟩
  · obtain ⟨a1, a2, a3⟩ := ((h2 ho).1 hst).2 c e1 e2 e3
    exact ⟨a1, be a2, a3⟩
  · rw [(h2 ho).2 hi hp hb]
    by_cases k : s.imager.state = .imaging ∧ s.imager.swathInOutput = false
    · rw [if_pos k]; exact (congrArg (fun i => { s with imager := i, board := b }) (if_pos k)).symm
    · rw [if_neg k]; exact (congrArg (fun i => { s with imager := i, board := b }) (if_neg k)).symm

/-! ## Contending (R68, R69) -/

theorem State.noticeContested_judges (s : State) (key : PlateKey) (version size screen rank : Nat) :
    s.judges (s.noticeContested key version size screen rank) key version size screen rank := by
  have hc : s.contends key version size = true ↔
      (s.station.state = .active ∧ s.jobFor key version = none ∧ (s.settings.sizeClass size).supported = true ∧
        bandsOfHeight (s.settings.sizeClass size).height ≤ s.unreserved ∧ s.imager.state ≠ .fault ∧
        s.imager.mediaOut = false) ∧ s.freeSlots ≠ [] := by
    unfold State.contends
    simp only [Bool.and_eq_true, decide_eq_true_eq, Option.isNone_iff_eq_none, Bool.not_eq_true', List.isEmpty_eq_false_iff]
    tauto
  unfold State.judges
  dsimp only
  refine ⟨fun h => ?_, fun m rest hm hf => ?_⟩
  · unfold State.noticeContested
    rw [if_neg fun z => ?_]
    rcases h with h | h
    · exact h (hc.mp z).1
    · exact (hc.mp z).2 h
  · refine ⟨_, s.link.puts_put _ _, ?_⟩
    unfold State.noticeContested
    rw [if_pos (hc.mpr ⟨hm, by rw [hf]; simp⟩), hf]
    rfl

/-! ## Assessment (R77, R78, R146) -/

/-- A job of a slot enters READY: its record as it then stands takes the next ready order, and the arbiter may choose. -/
theorem State.enterReady_readies {j k : Job} (hj : s.job n = some j) (hr : ∀ o, j.stage ≠ .ready o)
    (kr : ∀ o, k.stage ≠ .ready o) :
    ∃ jobs, s.jobs.readies jobs n k ∧ (s.setJob n (some k)).enterReady n = (s.setJobs jobs).arbitrate := by
  refine ⟨_, ⟨_, s.jobs.readiedAs_withOrder, rfl⟩, ?_⟩
  unfold State.enterReady State.setJob State.setJobs
  dsimp only
  rw [JobTable.withOrder_set hj hr kr]
  congr 1
  simp [State.modifyJob, State.setJob, State.setJobs, State.job]

/-- An assessment where the Imager takes no plate. -/
theorem State.assessJob_assessed {j : Job} {v : Verdict} (hj : s.job n = some j) (hr : ∀ o, j.stage ≠ .ready o)
    (hv : j.hasVerdict s.settings v)
    (h : v = .clean ∨ v = .withinTint → s.mayChoose = false) : s.assessed (s.assessJob n) n j v := by
  have ha : j.assess s.settings = v := by
    unfold Job.assess Job.heldForKind
    rcases hv with ⟨h0, rfl⟩ | ⟨h1, ⟨⟨b, hb, kind, hk, hh⟩, rfl⟩ | ⟨ht, ⟨h2, rfl⟩ | ⟨h2, rfl⟩⟩⟩
    · rw [if_pos h0]
    · rw [if_neg (by omega), if_pos]
      rw [List.any_eq_true]
      exact ⟨b, hb, by rw [hk]; simpa using hh⟩
    all_goals
      have hn : ¬ (j.bands.any fun b => b.kind.any fun k => decide (s.settings.action k = .hold)) = true := by
        rw [List.any_eq_true]
        rintro ⟨b, hb, hk⟩
        cases e : b.kind with
        | none => rw [e] at hk; cases hk
        | some kind => rw [e] at hk; simp [ht b hb kind e] at hk
      rw [if_neg (by omega), if_neg hn]
    · rw [if_pos h2]
    · rw [if_neg (by omega)]
  have hm : s.modifyJob n (fun j => { j with verdict := v }) = s.setJob n (some { j with verdict := v }) := by
    unfold State.modifyJob; rw [hj]; rfl
  unfold State.assessJob
  rw [hj]
  dsimp only
  rw [ha, hm]
  refine ⟨fun hp => ?_, fun hp => ?_⟩
  · rw [if_pos (by rcases hp with rfl | rfl <;> rfl)]
    obtain ⟨jobs, h1, h2⟩ := State.enterReady_readies (k := { j with verdict := v }) hj hr hr
    refine ⟨jobs, h1, ?_⟩
    rw [h2]
    unfold State.arbitrate
    rw [if_neg]
    · rfl
    · have : (s.setJobs jobs).mayChoose = s.mayChoose := rfl
      rw [this, h hp]; decide
  · rw [if_neg (by rcases hp with rfl | rfl <;> decide)]
    unfold State.modifyJob
    rw [State.job_setJob_same]
    simp [State.setJob, State.setJobs, State.latch, State.setPort, Port.latched]

end Sys2Proof.Machine
end

