-- ==== Sys2Proof/Laws/Exec.lean ====
section
/-! SUPPORT. The meaning that each command has, by definition: what a proof about `exec` starts from. -/

namespace Sys2Proof.Machine

@[simp] theorem exec_reset (s : State) : exec .reset s = execReset s := rfl

@[simp] theorem exec_configurationReadDone (record : List Byte) (s : State) :
    exec (.configurationReadDone record) s = execConfigurationReadDone record s := rfl

@[simp] theorem exec_loadingEnded (corrected : Nat) (s : State) :
    exec (.loadingEnded corrected) s = execLoadingEnded corrected s := rfl

@[simp] theorem exec_linkSynchronised (s : State) : exec .linkSynchronised s = execLinkSynchronised s := rfl

@[simp] theorem exec_openingStart (s : State) : exec .openingStart s = execOpeningStart s := rfl

@[simp] theorem exec_contentionRoundEnd (low : Nat) (s : State) :
    exec (.contentionRoundEnd low) s = execContentionRoundEnd low s := rfl

@[simp] theorem exec_bodyEnd (framed : Bool) (bytes : List Byte) (s : State) :
    exec (.bodyEnd framed bytes) s = execBodyEnd framed bytes s := rfl

@[simp] theorem exec_spoilWindowEnd (low : Bool) (s : State) :
    exec (.spoilWindowEnd low) s = execSpoilWindowEnd low s := rfl

@[simp] theorem exec_rollTimerExpiry (s : State) : exec .rollTimerExpiry s = execRollTimerExpiry s := rfl

@[simp] theorem exec_joinPeriodExpiry (s : State) : exec .joinPeriodExpiry s = execJoinPeriodExpiry s := rfl

@[simp] theorem exec_silenceTimerExpiry (peer : Station) (s : State) :
    exec (.silenceTimerExpiry peer) s = execSilenceTimerExpiry peer s := rfl

@[simp] theorem exec_isolationTimerExpiry (s : State) :
    exec .isolationTimerExpiry s = execIsolationTimerExpiry s := rfl

@[simp] theorem exec_uncorrectableError (region : Region) (s : State) :
    exec (.uncorrectableError region) s = execUncorrectableError region s := rfl

@[simp] theorem exec_plateHeader (bytes : List Byte) (s : State) :
    exec (.plateHeader bytes) s = execPlateHeader bytes s := rfl

@[simp] theorem exec_claimWindowExpiry (place : Nat) (s : State) :
    exec (.claimWindowExpiry place) s = execClaimWindowExpiry place s := rfl

@[simp] theorem exec_startMarker (bytes : List Byte) (s : State) :
    exec (.startMarker bytes) s = execStartMarker bytes s := rfl

@[simp] theorem exec_headerFailure (bytes : List Byte) (s : State) :
    exec (.headerFailure bytes) s = execHeaderFailure bytes s := rfl

@[simp] theorem exec_fragment (bytes : List Byte) (s : State) : exec (.fragment bytes) s = execFragment bytes s := rfl

@[simp] theorem exec_plateEnd (bytes : List Byte) (s : State) : exec (.plateEnd bytes) s = execPlateEnd bytes s := rfl

@[simp] theorem exec_quietTimerExpiry (slot : Slot) (s : State) :
    exec (.quietTimerExpiry slot) s = execQuietTimerExpiry slot s := rfl

@[simp] theorem exec_takeHeadRecord (corrected : Nat) (s : State) :
    exec (.takeHeadRecord corrected) s = execTakeHeadRecord corrected s := rfl

@[simp] theorem exec_takeHeadAnew (corrected : Nat) (s : State) :
    exec (.takeHeadAnew corrected) s = execTakeHeadAnew corrected s := rfl

@[simp] theorem exec_partDecoded (corrected : Nat) (s : State) :
    exec (.partDecoded corrected) s = execPartDecoded corrected s := rfl

@[simp] theorem exec_descriptorEntersRing (s : State) :
    exec .descriptorEntersRing s = execDescriptorEntersRing s := rfl

@[simp] theorem exec_screenerTake (s : State) : exec .screenerTake s = execScreenerTake s := rfl

@[simp] theorem exec_bandFinished (corrected : Nat) (s : State) :
    exec (.bandFinished corrected) s = execBandFinished corrected s := rfl

@[simp] theorem exec_loaded (s : State) : exec .loaded s = execLoaded s := rfl

@[simp] theorem exec_loadTimeout (s : State) : exec .loadTimeout s = execLoadTimeout s := rfl

@[simp] theorem exec_index (ticks : Nat) (corrected : Nat) (s : State) :
    exec (.index ticks corrected) s = execIndex ticks corrected s := rfl

@[simp] theorem exec_swathComplete (corrected : Nat) (s : State) :
    exec (.swathComplete corrected) s = execSwathComplete corrected s := rfl

@[simp] theorem exec_drumLate (s : State) : exec .drumLate s = execDrumLate s := rfl

@[simp] theorem exec_headReadyChange (asserted : Bool) (s : State) :
    exec (.headReadyChange asserted) s = execHeadReadyChange asserted s := rfl

@[simp] theorem exec_ejected (s : State) : exec .ejected s = execEjected s := rfl

@[simp] theorem exec_ejectTimeout (s : State) : exec .ejectTimeout s = execEjectTimeout s := rfl

@[simp] theorem exec_mediaOutChange (asserted : Bool) (s : State) :
    exec (.mediaOutChange asserted) s = execMediaOutChange asserted s := rfl

@[simp] theorem exec_inputByteWrite (address : PortAddress) (byte : Byte) (s : State) :
    exec (.inputByteWrite address byte) s = execInputByteWrite address byte s := rfl

@[simp] theorem exec_dataByteTaken (s : State) : exec .dataByteTaken s = execDataByteTaken s := rfl

@[simp] theorem exec_unknownCommand (code : Byte) (s : State) :
    exec (.unknownCommand code) s = execUnknownCommand code s := rfl

@[simp] theorem exec_dataRead (s : State) : exec .dataRead s = execDataRead s := rfl

@[simp] theorem exec_readStatus (s : State) : exec .readStatus s = execReadStatus s := rfl

@[simp] theorem exec_readAttention (s : State) : exec .readAttention s = execReadAttention s := rfl

@[simp] theorem exec_readJob (data : List Byte) (s : State) : exec (.readJob data) s = execReadJob data s := rfl

@[simp] theorem exec_readBandMap (data : List Byte) (s : State) :
    exec (.readBandMap data) s = execReadBandMap data s := rfl

@[simp] theorem exec_readDamage (data : List Byte) (s : State) :
    exec (.readDamage data) s = execReadDamage data s := rfl

@[simp] theorem exec_readBoard (data : List Byte) (s : State) : exec (.readBoard data) s = execReadBoard data s := rfl

@[simp] theorem exec_findBoard (data : List Byte) (s : State) : exec (.findBoard data) s = execFindBoard data s := rfl

@[simp] theorem exec_readPeer (data : List Byte) (s : State) : exec (.readPeer data) s = execReadPeer data s := rfl

@[simp] theorem exec_readLog (s : State) : exec .readLog s = execReadLog s := rfl

@[simp] theorem exec_readSetting (data : List Byte) (s : State) :
    exec (.readSetting data) s = execReadSetting data s := rfl

@[simp] theorem exec_readCounters (data : List Byte) (s : State) :
    exec (.readCounters data) s = execReadCounters data s := rfl

@[simp] theorem exec_clearCounters (s : State) : exec .clearCounters s = execClearCounters s := rfl

@[simp] theorem exec_clearLog (s : State) : exec .clearLog s = execClearLog s := rfl

@[simp] theorem exec_setMask (data : List Byte) (s : State) : exec (.setMask data) s = execSetMask data s := rfl

@[simp] theorem exec_clearAttention (data : List Byte) (s : State) :
    exec (.clearAttention data) s = execClearAttention data s := rfl

@[simp] theorem exec_release (data : List Byte) (s : State) : exec (.release data) s = execRelease data s := rfl

@[simp] theorem exec_drop (data : List Byte) (s : State) : exec (.drop data) s = execDrop data s := rfl

@[simp] theorem exec_drain (s : State) : exec .drain s = execDrain s := rfl

@[simp] theorem exec_resume (s : State) : exec .resume s = execResume s := rfl

@[simp] theorem exec_resetStation (s : State) : exec .resetStation s = execResetStation s := rfl

/-- A step with no command waiting (log 2). -/
theorem step_idle {s : State} (h : s.pending = []) : step s = .next (s.elapse 1) := by simp [step, h]

/-- A step with commands waiting. -/
theorem step_front {s : State} {c : Instr} {rest : List Instr} (h : s.pending = c :: rest) :
    step s = exec c (s.setPending rest) := by simp [step, h]

end Sys2Proof.Machine
end

