-- ==== Sys2Proof/Laws/Memory.lean ====
section
/-! SUPPORT. Laws of the byte memories: what a read sees after a write, and that every write keeps the canonical
form. -/

namespace Sys2Proof.Machine

theorem Mem.read_nil (a : Nat) : Mem.read [] a = 0#8 := rfl

/-- An address below every listed one reads 00h. -/
theorem Mem.read_of_lt {m : Mem} {a : Nat} (h : ∀ c ∈ m, a < c.1) : m.read a = 0#8 := by
  induction m with
  | nil => rfl
  | cons c m ih =>
    obtain ⟨x, y⟩ := c
    have hx : a < x := h (x, y) (by simp)
    simp [Mem.read, Nat.ne_of_lt hx]
    exact ih fun d hd => h d (by simp [hd])

/-- The head of a canonical memory lies below the rest. -/
theorem Mem.WF.head_lt {c : Host.Cell} {m : Mem} (h : Mem.WF (c :: m)) : ∀ d ∈ m, c.1 < d.1 :=
  (List.pairwise_cons.mp h.1).1

theorem Mem.WF.tail {c : Host.Cell} {m : Mem} (h : Mem.WF (c :: m)) : Mem.WF m :=
  ⟨(List.pairwise_cons.mp h.1).2, fun d hd => h.2 d (by simp [hd])⟩

theorem Mem.WF.cons {c : Host.Cell} {m : Mem} (h : Mem.WF m) (hl : ∀ d ∈ m, c.1 < d.1) (h0 : c.2 ≠ 0#8) :
    Mem.WF (c :: m) :=
  ⟨List.pairwise_cons.mpr ⟨hl, h.1⟩, fun d hd => by
    rcases List.mem_cons.mp hd with rfl | hd
    · exact h0
    · exact h.2 d hd⟩

theorem Mem.WF.nil : Mem.WF [] := ⟨List.Pairwise.nil, by simp⟩

/-- A cell of a written memory is the written one or was there before. -/
theorem Mem.mem_write {m : Mem} {a : Nat} {b : Byte} {c : Host.Cell} (h : c ∈ m.write a b) :
    c = (a, b) ∨ c ∈ m := by
  induction m with
  | nil =>
    simp only [Mem.write] at h
    split at h <;> simp_all
  | cons d m ih =>
    obtain ⟨x, y⟩ := d
    simp only [Mem.write] at h
    split at h
    · split at h <;> simp_all
    · split at h
      · split at h
        · exact Or.inr (by simp [h])
        · rcases List.mem_cons.mp h with h | h
          · exact Or.inl h
          · exact Or.inr (by simp [h])
      · rcases List.mem_cons.mp h with h | h
        · exact Or.inr (by simp [h])
        · rcases ih h with h | h
          · exact Or.inl h
          · exact Or.inr (by simp [h])

/-- A write keeps the canonical form. -/
theorem Mem.write_wf {m : Mem} (h : m.WF) (a : Nat) (b : Byte) : (m.write a b).WF := by
  induction m with
  | nil =>
    simp only [Mem.write]
    split
    · exact Mem.WF.nil
    · rename_i hb
      exact Mem.WF.cons Mem.WF.nil (by simp) hb
  | cons d m ih =>
    obtain ⟨x, y⟩ := d
    have ht := h.tail
    have hl := h.head_lt
    simp only [Mem.write]
    split
    · rename_i hax
      split
      · exact h
      · rename_i hb
        refine Mem.WF.cons h (fun c hc => ?_) hb
        rcases List.mem_cons.mp hc with rfl | hc
        · exact hax
        · exact Nat.lt_trans hax (hl c hc)
    · split
      · rename_i hax
        subst hax
        split
        · exact ht
        · rename_i hb
          exact Mem.WF.cons ht hl hb
      · refine Mem.WF.cons (ih ht) (fun c hc => ?_) (h.2 _ (by simp))
        rcases Mem.mem_write hc with rfl | hc
        · simp only
          omega
        · exact hl c hc

/-- A byte written is the byte read at its address. -/
theorem Mem.read_write_same {m : Mem} (h : m.WF) (a : Nat) (b : Byte) : (m.write a b).read a = b := by
  induction m with
  | nil =>
    simp only [Mem.write]
    split
    · simp_all [Mem.read]
    · simp [Mem.read]
  | cons d m ih =>
    obtain ⟨x, y⟩ := d
    have ht := h.tail
    have hl := h.head_lt
    simp only [Mem.write]
    split
    · rename_i hax
      split
      · rename_i hb
        rw [hb]
        refine Mem.read_of_lt fun c hc => ?_
        rcases List.mem_cons.mp hc with rfl | hc
        · exact hax
        · exact Nat.lt_trans hax (hl c hc)
      · simp [Mem.read]
    · split
      · rename_i hax
        subst hax
        split
        · rename_i hb
          rw [hb]
          exact Mem.read_of_lt hl
        · simp [Mem.read]
      · rename_i hne
        simp only [Mem.read, hne, if_false]
        exact ih ht

/-- A write leaves every other address as it was. -/
theorem Mem.read_write_other {m : Mem} (h : m.WF) {a x : Nat} (b : Byte) (hx : x ≠ a) :
    (m.write a b).read x = m.read x := by
  induction m with
  | nil =>
    simp only [Mem.write]
    split <;> simp [Mem.read, hx]
  | cons d m ih =>
    obtain ⟨y, z⟩ := d
    simp only [Mem.write]
    split
    · split
      · rfl
      · simp [Mem.read, hx]
    · split
      · rename_i hax
        subst hax
        split
        · simp [Mem.read, hx]
        · simp [Mem.read, hx]
      · simp only [Mem.read]
        split
        · rfl
        · exact ih h.tail

theorem Mem.writeList_wf {m : Mem} (h : m.WF) (a : Nat) (bs : List Byte) : (m.writeList a bs).WF := by
  induction bs generalizing m a with
  | nil => exact h
  | cons b bs ih => exact ih (Mem.write_wf h a b) (a + 1)

theorem Mem.writeDot_wf {m : Mem} (h : m.WF) (buffer l x : Nat) (v : Bool) : (m.writeDot buffer l x v).WF :=
  Mem.write_wf h _ _

/-- A fold of steps that each keep the canonical form keeps it. -/
theorem Mem.foldl_wf {α : Type} {f : Mem → α → Mem} (hf : ∀ m x, m.WF → (f m x).WF) {m : Mem} (h : m.WF)
    (xs : List α) : (xs.foldl f m).WF := by
  induction xs generalizing m with
  | nil => exact h
  | cons x xs ih => exact ih (hf m x h)

end Sys2Proof.Machine
end

