-- ==== Sys2Proof/Laws/Loader.lean ====
section
/-! SUPPORT. What the configuration image holds, and what loading writes into the tile store. -/

namespace Sys2Proof.Machine

/-- The image after the first `n` bytes of the record. -/
def imageUpTo (record : List Byte) (n : Nat) : Mem :=
  (List.range n).foldl (fun m a => if keptByte record a then m.write a (recordByte record a) else m) []

theorem imageOf_eq (record : List Byte) : imageOf record = imageUpTo record Config.recordSize := rfl

theorem imageUpTo_succ (record : List Byte) (n : Nat) :
    imageUpTo record (n + 1) =
      if keptByte record n then (imageUpTo record n).write n (recordByte record n) else imageUpTo record n := by
  simp [imageUpTo, List.range_succ]

theorem imageUpTo_wf (record : List Byte) (n : Nat) : (imageUpTo record n).WF := by
  induction n with
  | zero => exact Mem.WF.nil
  | succ n ih =>
    rw [imageUpTo_succ]
    split
    · exact Mem.write_wf ih _ _
    · exact ih

theorem imageUpTo_read (record : List Byte) (n a : Nat) :
    (imageUpTo record n).read a = if a < n ∧ keptByte record a = true then recordByte record a else 0#8 := by
  induction n with
  | zero => simp [imageUpTo, Mem.read]
  | succ n ih =>
    rw [imageUpTo_succ]
    by_cases ha : a = n
    · subst ha
      split
      · rename_i hk
        simp [hk, Mem.read_write_same (imageUpTo_wf record a)]
      · rename_i hk
        simp [ih, hk]
    · have h : (a < n + 1) = (a < n) := by simp only [eq_iff_iff]; omega
      split
      · simp only [Mem.read_write_other (imageUpTo_wf record n) _ ha, ih, h]
      · simp only [ih, h]

/-- The image is in canonical form. -/
theorem imageOf_wf (record : List Byte) : (imageOf record).WF := imageUpTo_wf record _

/-- The image holds the kept bytes of the record and reads 00h elsewhere (R169). -/
theorem imageOf_read (record : List Byte) (a : Nat) :
    (imageOf record).read a =
      if a < Config.recordSize ∧ keptByte record a = true then recordByte record a else 0#8 :=
  imageUpTo_read record _ a

/-- Every byte before the tiles is kept. -/
theorem imageOf_read_head (record : List Byte) {a : Nat} (h : a < Config.tileBase) :
    (imageOf record).read a = recordByte record a := by
  rw [imageOf_read]
  have h1 : a < Config.recordSize := Nat.lt_of_lt_of_le h (by decide)
  simp [h1, keptByte, h]

/-- A list of bytes written is read back. -/
theorem Mem.read_writeList {m : Mem} (h : m.WF) (a : Nat) (bs : List Byte) (x : Nat) :
    (m.writeList a bs).read x = if a ≤ x ∧ x < a + bs.length then bs.getD (x - a) 0#8 else m.read x := by
  induction bs generalizing m a with
  | nil =>
    simp [Mem.writeList]
  | cons b bs ih =>
    simp only [Mem.writeList, ih (Mem.write_wf h a b)]
    by_cases hx : x = a
    · subst hx
      simp [Mem.read_write_same h]
    · rw [Mem.read_write_other h b hx]
      by_cases hc : a + 1 ≤ x ∧ x < a + 1 + bs.length
      · have h2 : a ≤ x ∧ x < a + (b :: bs).length := by simp only [List.length_cons]; omega
        rw [if_pos hc, if_pos h2]
        have h3 : x - a = (x - (a + 1)) + 1 := by omega
        rw [h3, List.getD_cons_succ]
      · have h2 : ¬ (a ≤ x ∧ x < a + (b :: bs).length) := by simp only [List.length_cons]; omega
        rw [if_neg hc, if_neg h2]

/-- Bytes read from a memory. -/
theorem Mem.length_readList (m : Mem) (a n : Nat) : (m.readList a n).length = n := by simp [Mem.readList]

theorem Mem.getD_readList (m : Mem) (a n i : Nat) (h : i < n) : (m.readList a n).getD i 0#8 = m.read (a + i) := by
  simp [Mem.readList, List.getD, h]

/-- Loading a tile keeps the canonical form. -/
theorem loadTile_wf {image tiles : Mem} (h : tiles.WF) (t : Nat) : (loadTile image tiles t).WF :=
  Mem.writeList_wf h _ _

/-! ## What the checks look at -/

section
variable {m n : Mem} (h : ∀ a, a < 1048820 → m.read a = n.read a)
include h

theorem field8_congr {a : Nat} (ha : a < 1048820) : field8 m a = field8 n a := by rw [field8, field8, h a ha]

theorem read16_congr {a : Nat} (ha : a + 1 < 1048820) : m.read16 a = n.read16 a := by
  rw [Mem.read16, Mem.read16, h a (by omega), h (a + 1) ha]

theorem classItems_congr {k : Nat} (hk : k < 4) : classItems m k = classItems n k := by
  simp only [classItems, classOffset]
  rw [field8_congr h (by omega), read16_congr h (by omega), read16_congr h (by omega)]

theorem tilePasses_congr {t : Nat} (ht : t < 16) : tilePasses m t = tilePasses n t := by
  have ho : tileOffset t + 65541 ≤ 1048812 := by
    simp only [tileOffset, Config.tileBase, Config.tilePitch]
    omega
  simp only [tilePasses]
  rw [field8_congr h (by omega), read16_congr h (by omega), read16_congr h (by omega)]
  generalize n.read16 (tileOffset t) = w
  generalize n.read16 (tileOffset t + 2) = g
  by_cases hw : within 8 256 w = true
  · by_cases hg : within 8 256 g = true
    · have e : (List.range (w * g)).all (fun i => decide (field8 m (tileOffset t + 5 + i) ≤ 254)) =
          (List.range (w * g)).all (fun i => decide (field8 n (tileOffset t + 5 + i) ≤ 254)) := by
        simp only [within, Bool.and_eq_true, decide_eq_true_eq] at hw hg
        have hm : w * g ≤ 256 * 256 := Nat.mul_le_mul hw.2 hg.2
        rw [Bool.eq_iff_iff, List.all_eq_true, List.all_eq_true]
        constructor <;> intro k i hi <;> have := k i hi <;> rw [List.mem_range] at hi <;>
          [rw [← field8_congr h (by omega)]; rw [field8_congr h (by omega)]] <;> exact this
      rw [e]
    · simp [hg]
  · simp [hw]

theorem rangeItems_congr : rangeItems m = rangeItems n := by
  have e1 : (List.range 4).flatMap (classItems m) = (List.range 4).flatMap (classItems n) :=
    List.flatMap_congr fun k hk => classItems_congr h (List.mem_range.mp hk)
  have e2 : (List.range 8).map (fun k => (97 + k, within 1 254 (field8 m (97 + k)))) =
      (List.range 8).map (fun k => (97 + k, within 1 254 (field8 n (97 + k)))) :=
    List.map_congr_left fun k hk => by have := List.mem_range.mp hk; rw [field8_congr h (by omega)]
  have e3 : (List.range 5).map (fun k => (106 + k, within 0 1 (field8 m (106 + k)))) =
      (List.range 5).map (fun k => (106 + k, within 0 1 (field8 n (106 + k)))) :=
    List.map_congr_left fun k hk => by have := List.mem_range.mp hk; rw [field8_congr h (by omega)]
  have e4 : (List.range 4).map (fun k => (fillOffset k, within 0 1 (field8 m (fillOffset k)))) =
      (List.range 4).map (fun k => (fillOffset k, within 0 1 (field8 n (fillOffset k)))) :=
    List.map_congr_left fun k hk => by
      have := List.mem_range.mp hk
      rw [field8_congr h (by simp only [fillOffset]; omega)]
  have e5 : (List.range 16).map (fun t => (tileOffset t, tilePasses m t)) =
      (List.range 16).map (fun t => (tileOffset t, tilePasses n t)) :=
    List.map_congr_left fun t ht => by rw [tilePasses_congr h (List.mem_range.mp ht)]
  have f (a : Nat) (ha : a < 1048820) := field8_congr h ha
  have g (a : Nat) (ha : a + 1 < 1048820) := read16_congr h ha
  simp only [rangeItems, e1, e2, e3, e4, e5, Config.imagerBase]
  rw [f 0 (by omega), g 1 (by omega), g 3 (by omega), f 5 (by omega), f 6 (by omega), g 7 (by omega),
    f 105 (by omega), f 111 (by omega), f 1048812 (by omega), f (1048812 + 1) (by omega), f (1048812 + 2) (by omega),
    g (1048812 + 3) (by omega), g (1048812 + 5) (by omega), f (1048812 + 7) (by omega)]

theorem curveItems_congr : curveItems m = curveItems n := by
  refine List.map_congr_left fun k hk => ?_
  have hk := List.mem_range.mp hk
  have f (i : Nat) (hi : i ≤ 16) : field8 m (curveOffset k + i) = field8 n (curveOffset k + i) :=
    field8_congr h (by simp only [curveOffset]; omega)
  have e : (List.range 16).all (fun i => decide (field8 m (curveOffset k + i) ≤ field8 m (curveOffset k + (i + 1)))) =
      (List.range 16).all (fun i => decide (field8 n (curveOffset k + i) ≤ field8 n (curveOffset k + (i + 1)))) := by
    rw [Bool.eq_iff_iff, List.all_eq_true, List.all_eq_true]
    constructor <;> intro k i hi <;> have := k i hi <;> rw [List.mem_range] at hi <;>
      [rw [← f i (by omega), ← f (i + 1) (by omega)]; rw [f i (by omega), f (i + 1) (by omega)]] <;> exact this
  simp only [curvePasses]
  rw [f 0 (by omega), f 16 (by omega), e]

theorem floorItems_congr : floorItems m = floorItems n :=
  List.map_congr_left fun k hk => by
    have := List.mem_range.mp hk
    rw [field8_congr h (by simp only [floorOffset]; omega), field8_congr h (by simp only [floorOffset]; omega)]

theorem someTint_congr : someTint m = someTint n := by
  simp only [someTint]
  rw [Bool.eq_iff_iff, List.any_eq_true, List.any_eq_true]
  constructor <;> rintro ⟨k, hk, e⟩ <;> refine ⟨k, hk, ?_⟩ <;> rw [List.mem_range] at hk <;>
    [rw [← field8_congr h (by omega)]; rw [field8_congr h (by omega)]] <;> exact e

theorem tintItems_congr : tintItems m = tintItems n :=
  List.map_congr_left fun k hk => by
    have := List.mem_range.mp hk
    rw [someTint_congr h, field8_congr h (a := 105) (by omega), field8_congr h (by simp only [floorOffset]; omega),
      field8_congr h (by simp only [floorOffset]; omega)]

theorem someClass_congr : someClass m = someClass n := by
  simp only [someClass, classOffset]
  rw [Bool.eq_iff_iff, List.any_eq_true, List.any_eq_true]
  constructor <;> rintro ⟨k, hk, e⟩ <;> refine ⟨k, hk, ?_⟩ <;> rw [List.mem_range] at hk <;>
    [rw [← field8_congr h (by omega)]; rw [field8_congr h (by omega)]] <;> exact e

/-- The checks on the image look at no byte of the checksum. -/
theorem imageFailure_congr : imageFailure m = imageFailure n := by
  have e : decide (m.read16 (Config.imagerBase + 3) < m.read16 (Config.imagerBase + 5)) =
      decide (n.read16 (Config.imagerBase + 3) < n.read16 (Config.imagerBase + 5)) := by
    rw [decide_eq_decide, read16_congr h (by decide), read16_congr h (by decide)]
  rw [imageFailure, imageFailure, rangeItems_congr h, curveItems_congr h, floorItems_congr h, tintItems_congr h,
    someClass_congr h, e]
end

end Sys2Proof.Machine
end

