-- ==== Sys2Proof/Laws/PageLine.lean ====
section
/-! SUPPORT. Feeding a whole record to the Page Line Receiver at once: what the byte symbols of a header, and of a
payload with its CRC, come to. -/

namespace Sys2Proof.Machine

/-- The first byte of a longer collection is that of its nonempty start. -/
theorem byteAt_zero_append (xs ys : List Byte) (h : xs ≠ []) : byteAt (xs ++ ys) 0 = byteAt xs 0 := by
  cases xs with
  | nil => exact absurd rfl h
  | cons x xs => rfl

/-- Framing set twice is the last one set. -/
@[simp] theorem State.setFraming_setFraming (s : State) (f g : Framing) :
    (s.setFraming f).setFraming g = s.setFraming g := rfl

/-- Framing set is the framing read. -/
@[simp] theorem State.setFraming_framing (s : State) (f : Framing) : (s.setFraming f).receiver.framing = f := rfl

/-- Framing set to what it was. -/
theorem State.setFraming_self (s : State) (f : Framing) (h : s.receiver.framing = f) : s.setFraming f = s := by
  subst h; rfl

/-- The judgement of a whole header does not look at the framing state. -/
@[simp] theorem State.wholeHeader_setFraming (s : State) (f : Framing) (got : List Byte) :
    (s.setFraming f).wholeHeader got = s.wholeHeader got := by
  unfold State.wholeHeader State.headerFails
  split <;> rfl

/-- The judgement of a fragment does not look at the framing state. -/
@[simp] theorem State.completeFragment_setFraming (s : State) (f : Framing) (header got : List Byte) (cut : Bool) :
    (s.setFraming f).completeFragment header got cut = s.completeFragment header got cut := by
  unfold State.completeFragment
  cases cut <;> (split <;> rfl)

/-- The rest of a header, fed byte by byte, comes to the judgement of the whole header. -/
theorem feed_header_from (s : State) (n : Nat) :
    ∀ (rest got : List Byte), rest ≠ [] → (got ++ rest).length = n → headerLength (byteAt (got ++ rest) 0) = some n →
      rest.foldl State.feedByte (s.setFraming (.header got)) = s.wholeHeader (got ++ rest) := by
  intro rest
  induction rest with
  | nil => intro got h; exact absurd rfl h
  | cons b rest ih =>
    intro got _ hlen hk
    have e : got ++ b :: rest = (got ++ [b]) ++ rest := by simp
    have h0 : byteAt (got ++ [b]) 0 = byteAt (got ++ b :: rest) 0 := by
      rw [e]; exact (byteAt_zero_append _ _ (by simp)).symm
    cases rest with
    | nil =>
      have hl : ¬ (got ++ [b]).length < n := by omega
      simp [List.foldl, State.feedByte, State.takeHeaderBytes, hk]
      intro h; simp at hl hlen; omega
    | cons c rest =>
      have hl : (got ++ [b]).length < n := by simp at hlen ⊢; omega
      have step : State.feedByte (s.setFraming (.header got)) b = s.setFraming (.header (got ++ [b])) := by
        simp only [State.feedByte, State.setFraming_framing, State.takeHeaderBytes, h0, hk, if_pos hl,
          State.setFraming_setFraming]
      rw [List.foldl_cons, step, ih (got ++ [b]) (by simp) (by rw [← e]; exact hlen) (by rw [← e]; exact hk), ← e]

/-- A whole header, fed byte by byte after a start marker, comes to its judgement. -/
theorem feed_header (s : State) (bytes : List Byte) (h : s.receiver.framing = .header [])
    (hk : headerLength (byteAt bytes 0) = some bytes.length) :
    bytes.foldl State.feedByte s = s.wholeHeader bytes := by
  have hne : bytes ≠ [] := by
    rintro rfl
    simp [headerLength, byteAt] at hk
  have := feed_header_from s bytes.length bytes [] hne rfl hk
  rwa [State.setFraming_self s _ h, List.nil_append] at this

/-- The rest of a payload with its CRC, fed byte by byte, comes to the judgement of the whole fragment. -/
theorem feed_payload_from (s : State) (header : List Byte) :
    ∀ (rest got : List Byte), rest ≠ [] → (got ++ rest).length = payloadBytes header →
      rest.foldl State.feedByte (s.setFraming (.payload header got)) =
        s.completeFragment header (got ++ rest) false := by
  intro rest
  induction rest with
  | nil => intro got h; exact absurd rfl h
  | cons b rest ih =>
    intro got _ hlen
    have e : got ++ b :: rest = (got ++ [b]) ++ rest := by simp
    cases rest with
    | nil =>
      have hl : ¬ (got ++ [b]).length < payloadBytes header := by omega
      simp only [List.foldl, State.feedByte, State.setFraming_framing, State.takePayloadBytes, if_neg hl,
        State.completeFragment_setFraming]
    | cons c rest =>
      have hl : (got ++ [b]).length < payloadBytes header := by simp at hlen ⊢; omega
      have step : State.feedByte (s.setFraming (.payload header got)) b = s.setFraming (.payload header (got ++ [b])) := by
        simp only [State.feedByte, State.setFraming_framing, State.takePayloadBytes, if_pos hl,
          State.setFraming_setFraming]
      rw [List.foldl_cons, step, ih (got ++ [b]) (by simp) (by rw [← e]; exact hlen), ← e]

/-- A whole FRAGMENT, fed byte by byte after a start marker, comes to its judgement. -/
theorem feed_fragment (s : State) (header body : List Byte) (key : PlateKey) (version band part len : Nat) (last : Bool)
    (h : s.receiver.framing = .header []) (hk : headerLength (byteAt header 0) = some header.length)
    (hj : judgeHeader header = some (.fragment key version band part last len))
    (hl : body.length = payloadBytes header) :
    (header ++ body).foldl State.feedByte s = s.completeFragment header body false := by
  have hne : body ≠ [] := by
    rintro rfl
    simp [payloadBytes] at hl
  rw [List.foldl_append, feed_header s header h hk]
  have := feed_payload_from s header body [] hne (by simpa using hl)
  rw [List.nil_append] at this
  rw [← this]
  simp [State.wholeHeader, hj]

end Sys2Proof.Machine
end

