-- ==== Sys2Proof/Laws/PathBoard.lean ====
section
/-! SUPPORT. The operations of the Plate Board and of Station Control keep the laws of owners, of the holding queue, of
the Imager's job and of the band buffers. -/

namespace Sys2Proof.Machine

variable {x : Option Slot} {s : State}

/-! ## Owners -/

/-- A station that an entry may name as its owner: this one or a PRESENT peer. -/
def State.mayOwn (s : State) (n : Station) : Prop := n = s.settings.station ∨ (s.peer n).state = .present

/-- Every owner that the board names is such a station. -/
def Board.Owners (b : Board) (P : Station → Prop) : Prop := ∀ e ∈ b.entries, ∀ n, e.state = .owned n → P n

theorem State.lawfulBut.owners (h : s.lawfulBut x) : s.board.Owners s.mayOwn := h.1.2

theorem State.mayOwn_congr {t : State} (h : KeepsBoard s t) (k : t.settings = s.settings) : t.mayOwn = s.mayOwn := by
  funext n
  simp only [State.mayOwn, State.peer, h.2.2, k]

variable {b : Board} {P : Station → Prop}

theorem Board.Owners.withStamp (h : b.Owners P) : b.withStamp.Owners P := by
  unfold Board.withStamp
  split
  · exact h
  · intro e he n hn
    simp only [List.mem_map] at he
    obtain ⟨d, hd, rfl⟩ := he
    exact h d hd n hn

theorem Board.Owners.write (h : b.Owners P) (i : Nat) {e : BoardEntry} (he : ∀ n, e.state = .owned n → P n) :
    (b.write i e).Owners P := by
  intro d hd n hn
  rcases List.mem_or_eq_of_mem_set hd with k | rfl
  · exact h.withStamp d k n hn
  · exact he n hn

theorem Board.Owners.append (h : b.Owners P) {e : BoardEntry} (he : ∀ n, e.state = .owned n → P n) :
    (b.append e).Owners P := by
  intro d hd n hn
  have hd' : d ∈ b.withStamp.entries ++ [{ e with stamp := b.withStamp.stamp }] := hd
  rw [List.mem_append] at hd'
  rcases hd' with k | k
  · exact h.withStamp d k n hn
  · rw [List.mem_singleton] at k
    subst k
    exact he n hn

theorem Board.Owners.record {c : Board} (h : b.Owners P) {e : BoardEntry} (hc : b.record e = some c)
    (he : ∀ n, e.state = .owned n → P n) : c.Owners P := by
  unfold Board.record at hc
  split at hc
  · cases hc
    exact h.append he
  · rw [Option.map_eq_some_iff] at hc
    obtain ⟨i, _, rfl⟩ := hc
    exact h.write i he

/-- The board written, outside LOADING. -/
theorem State.ownBoard_lawful (h : s.lawfulBut x) (hs : s.station.state ≠ .loading) {y : Board}
    (ho : y.Owners s.mayOwn) : (s.setBoard y).lawfulBut x :=
  State.setBoard_lawful h (fun k => absurd k hs) fun e he n hn => Or.inr (ho e he n hn)

/-! ## The Plate Board -/

@[simp] theorem State.boardHasNoRoom_lawful (h : s.lawfulBut x) : s.boardHasNoRoom.lawfulBut x :=
  State.raise_lawful (s := (s.setBoard { s.board with full := true }).latch .boardFull)
    (State.latch_lawful (State.setBoard_lawful h (fun _ k => k) fun e he _ hn => Or.inl ⟨e, he, hn⟩) .boardFull)
    .unrecorded

@[simp] theorem State.boardAnomaly_lawful (h : s.lawfulBut x) : s.boardAnomaly.lawfulBut x := State.raise_lawful h _

/-- What the jobs that an entry supersedes leave behind. -/
theorem State.noticeSuperseded_all (h : s.lawfulBut x) (key : PlateKey) (version : Nat) :
    (s.noticeSuperseded key version).lawfulBut x ∧ (s.noticeSuperseded key version).station = s.station ∧
      (s.noticeSuperseded key version).mayOwn = s.mayOwn :=
  ⟨State.noticeSuperseded_lawful h key version, (State.noticeSuperseded_board s key version).2.1,
    State.mayOwn_congr (State.noticeSuperseded_board _ _ _) (State.noticeSuperseded_keeps s key version).2.1⟩

theorem State.takeHeader_lawful (h : s.lawfulBut x) (hs : s.station.state ≠ .loading) (key : PlateKey)
    (version sizeClass screeningClass rank : Nat) :
    (s.takeHeader key version sizeClass screeningClass rank).lawfulBut x := by
  have hc : ∀ n, (s.contestedEntry key version sizeClass rank).state = .owned n → s.mayOwn n := fun n hn => by cases hn
  unfold State.takeHeader
  dsimp only
  split
  · split
    · rename_i b hb
      exact State.noticeContested_lawful (State.ownBoard_lawful h hs (h.owners.record hb hc)) _ _ _ _ _
    · exact State.boardHasNoRoom_lawful h
  · rename_i i _
    split
    · exact h
    · split
      · obtain ⟨ht, hk, hm⟩ := State.noticeSuperseded_all h key version
        generalize s.noticeSuperseded key version = t at *
        exact State.noticeContested_lawful (State.ownBoard_lawful ht (by rw [hk]; exact hs)
          (ht.owners.write i fun n hn => by rw [hm]; exact hc n hn)) _ _ _ _ _
      · split
        · exact State.raise_lawful h _
        · have hw := State.ownBoard_lawful h hs (h.owners.write i hc)
          split
          · exact State.noticeContested_lawful hw _ _ _ _ _
          · exact State.noticeContested_lawful hw _ _ _ _ _
          all_goals exact State.raise_lawful h _

/-- A header moves the station in no state. -/
@[simp] theorem State.takeHeader_station (s : State) (key : PlateKey) (version sizeClass screeningClass rank : Nat) :
    (s.takeHeader key version sizeClass screeningClass rank).station = s.station := by
  have hc : ∀ t : State, (t.noticeContested key version sizeClass screeningClass rank).station = t.station := by
    intro t
    unfold State.noticeContested State.createJob
    (repeat' split) <;> rfl
  unfold State.takeHeader
  dsimp only
  (repeat' split) <;> simp [hc, State.boardHasNoRoom]

@[simp] theorem State.advanceTo_board (s : State) (deadline : Nat) : KeepsBoard s (s.advanceTo deadline) := by
  unfold State.advanceTo
  split <;> simp [KeepsBoard, State.elapse]

theorem State.windowExpires_lawful (h : s.lawfulBut x) (hs : s.station.state ≠ .loading) (i : Nat) :
    (s.windowExpires i).lawfulBut x := by
  unfold State.windowExpires
  split
  · exact h
  · rename_i e _
    split
    · rename_i deadline _
      have ha := State.advanceTo_lawful h deadline
      have hb := State.advanceTo_board s deadline
      dsimp only
      refine State.noticeUntaken_lawful (State.latch_lawful (State.ownBoard_lawful ha (by rw [hb.2.1]; exact hs) ?_) _) _ _
      exact Board.Owners.write ha.owners i (e := { e with state := .untaken }) fun n hn => by cases hn
    all_goals exact h

@[simp] theorem State.reportClaim_lawful (h : s.lawfulBut x) (own : Option Slot) (key : PlateKey) (version : Nat)
    (r : ClaimResult) : (s.reportClaim own key version r).lawfulBut x := by
  unfold State.reportClaim
  split
  · exact State.claimResult_lawful h _ _ _ _
  · exact h

theorem State.takeClaim_lawful (h : s.lawfulBut x) (hs : s.station.state ≠ .loading) {sender : Station}
    (ho : s.mayOwn sender) (key : PlateKey) (version : Nat) (own : Option Slot) :
    (s.takeClaim sender key version own).lawfulBut x := by
  unfold State.takeClaim
  dsimp only
  have told : ∀ t : State, t.lawfulBut x →
      ((t.noticeOwned key version sender).reportClaim own key version .ownedHere).lawfulBut x := fun t ht =>
    State.reportClaim_lawful (State.noticeOwned_lawful ht _ _ _) _ _ _ _
  split
  · split
    · rename_i b hb
      exact told _ (State.ownBoard_lawful h hs (h.owners.record hb fun n hn => by cases hn; exact ho))
    · exact State.reportClaim_lawful (State.boardHasNoRoom_lawful h) _ _ _ _
  · rename_i i _
    split
    · exact h
    · rename_i old _
      split
      · obtain ⟨ht, hk, hm⟩ := State.noticeSuperseded_all h key version
        generalize s.noticeSuperseded key version = t at *
        exact told _ (State.ownBoard_lawful ht (by rw [hk]; exact hs)
          (ht.owners.write i fun n hn => by rw [hm]; cases hn; exact ho))
      · have hw := State.ownBoard_lawful h hs
          (h.owners.write i (e := { old with state := .owned sender }) fun n hn => by cases hn; exact ho)
        split
        · exact State.reportClaim_lawful h _ _ _ _
        · split <;> first
            | exact told _ hw
            | exact State.reportClaim_lawful (State.boardAnomaly_lawful h) _ _ _ _

theorem State.takeDone_lawful (h : s.lawfulBut x) (hs : s.station.state ≠ .loading) (sender : Station) (key : PlateKey)
    (version : Nat) (outcome : DoneOutcome) (damaged : Nat) (first : Option DamageKind) :
    (s.takeDone sender key version outcome damaged first).lawfulBut x := by
  unfold State.takeDone State.boardDone
  dsimp only
  have hd : ∀ n, EntryState.done sender outcome damaged first = .owned n → s.mayOwn n := fun n hn => by cases hn
  split
  · split
    · rename_i b hb
      have hb' : b.Owners s.mayOwn := h.owners.record hb fun n hn => by cases hn
      have hb' : ({ b with full := false } : Board).Owners s.mayOwn := hb'
      exact State.noticeDone_lawful (State.ownBoard_lawful h hs hb') _ _
    · exact State.boardHasNoRoom_lawful h
  · rename_i i _
    split
    · exact h
    · rename_i old _
      split
      · obtain ⟨ht, hk, hm⟩ := State.noticeSuperseded_all h key version
        generalize s.noticeSuperseded key version = t at *
        refine State.noticeDone_lawful (State.ownBoard_lawful ht (by rw [hk]; exact hs) fun d hd => ?_) _ _
        refine ht.owners.write i (e := ⟨key, version, .done sender outcome damaged first, none, 0⟩) (fun n hn => ?_) d hd
        cases hn
      · have hw : ({ s.board.write i { old with state := .done sender outcome damaged first } with full := false }
            : Board).Owners s.mayOwn :=
          h.owners.write i (e := { old with state := .done sender outcome damaged first }) hd
        (repeat' split) <;> first
          | exact h
          | exact State.noticeDone_lawful (State.ownBoard_lawful h hs hw) _ _
          | exact State.boardAnomaly_lawful h
          | exact State.noticeDone_lawful (State.ownBoard_lawful (State.boardAnomaly_lawful h) hs hw) _ _

/-! ## Orphaning -/

theorem Board.orphanAt_states (peer : Station) (b : Board) (i : Nat) :
    (b.orphanAt peer i).entries.map (·.state) =
      if (b.entries.map (·.state))[i]? = some (.owned peer) then (b.entries.map (·.state)).set i (.orphaned peer)
      else b.entries.map (·.state) := by
  have hst : b.withStamp.entries.map (·.state) = b.entries.map (·.state) := by
    unfold Board.withStamp
    split
    · rfl
    · simp [List.map_map, Function.comp_def]
  unfold Board.orphanAt
  cases he : b.entries[i]? with
  | none => simp [he]
  | some e =>
    by_cases hp : e.state = .owned peer
    · simp [he, hp, Board.write, List.map_set, hst]
    · simp [he, hp]

theorem Board.orphan_states (peer : Station) (l : List Nat) (b : Board) (i : Nat) :
    ((l.foldl (Board.orphanAt peer) b).entries.map (·.state))[i]? =
      if i ∈ l ∧ (b.entries.map (·.state))[i]? = some (.owned peer) then some (.orphaned peer)
      else (b.entries.map (·.state))[i]? := by
  induction l generalizing b with
  | nil => simp
  | cons a l ih =>
    rw [List.foldl_cons, ih, Board.orphanAt_states]
    generalize b.entries.map (·.state) = m
    by_cases ha : m[a]? = some (.owned peer)
    · rw [if_pos ha]
      have hl : a < m.length := (List.getElem?_eq_some_iff.mp ha).1
      by_cases hi : i = a
      · subst hi
        have hv : m[i] = .owned peer := (List.getElem?_eq_some_iff.mp ha).2
        simp [hl, hv]
      · rw [List.getElem?_set_ne (Ne.symm hi)]
        simp [hi]
    · rw [if_neg ha]
      by_cases hi : i = a
      · subst hi
        simp [ha]
      · simp [hi]

/-- Every entry of a peer orphaned: the owners that are left are other stations. -/
theorem Board.Owners.orphaned (peer : Station) (h : b.Owners P) :
    ((List.range b.entries.length).foldl (Board.orphanAt peer) b).Owners fun n => P n ∧ n ≠ peer := by
  intro e he n hn
  obtain ⟨i, hi⟩ := List.mem_iff_getElem?.mp he
  have k := Board.orphan_states peer (List.range b.entries.length) b i
  rw [List.getElem?_map, hi, Option.map_some, hn] at k
  split at k
  · cases k
  · rename_i hno
    have hb : (b.entries.map (·.state))[i]? = some (.owned n) := k.symm
    have hlen : i < b.entries.length := by
      have := (List.getElem?_eq_some_iff.mp hb).1
      simpa using this
    refine ⟨?_, fun e => hno ⟨List.mem_range.mpr hlen, by rw [hb, e]⟩⟩
    rw [List.getElem?_map, Option.map_eq_some_iff] at hb
    obtain ⟨d, hd, hs⟩ := hb
    exact h d (List.mem_of_getElem? hd) n hs

/-- A peer's record written and its plates orphaned. -/
theorem State.setPeerOrphan_lawful (h : s.lawfulBut x) (n : Station) (p : Peer) :
    ((s.setPeer n p).orphan n).lawfulBut x := by
  have hpeer : ∀ m, m ≠ n → ((s.setPeer n p).peer m) = s.peer m := by
    intro m hm
    have : (n : Nat) ≠ (m : Nat) := fun e => hm (Fin.ext e.symm)
    show (s.roll.peers.set n p)[m] = s.roll.peers[m]
    exact Vector.getElem_set_ne n.isLt m.isLt this
  obtain ⟨h1, h2, h3, h4⟩ := h
  unfold State.orphan
  split
  · rename_i hz
    refine ⟨⟨h1.1, fun e he m hm => ?_⟩, h2, h3, h4⟩
    by_cases hn : m = n
    · exfalso
      subst hn
      have : e ∈ s.board.entries.filter fun e => decide (e.state = .owned m) := by
        rw [List.mem_filter]; exact ⟨he, by simpa using hm⟩
      have hz' : (s.board.entries.filter fun e => decide (e.state = .owned m)).length = 0 := hz
      rw [List.length_eq_zero_iff] at hz'
      rw [hz'] at this
      cases this
    · rw [hpeer m hn]
      exact h1.2 e he m hm
  · refine ⟨⟨fun k => ?_, fun e he m hm => ?_⟩, h2, h3, h4⟩
    · have hb : s.board.entries = [] := h1.1 k
      show ((List.range s.board.entries.length).foldl (Board.orphanAt n) s.board).entries = []
      rw [hb]
      exact hb
    · have ho : s.board.Owners s.mayOwn := h1.2
      obtain ⟨a, c⟩ := ho.orphaned n e he m hm
      have a' : m = s.settings.station ∨ (s.peer m).state = .present := a
      rw [← hpeer m c] at a'
      exact a'

theorem State.setPeer_self (s : State) (n : Station) : s.setPeer n (s.peer n) = s := by
  show { s with roll := { s.roll with peers := s.roll.peers.set n s.roll.peers[n] } } = s
  have : s.roll.peers.set n s.roll.peers[n] = s.roll.peers := by
    apply Vector.ext
    intro i hi
    by_cases e : (n : Nat) = i
    · subst e; simp
    · simp
  rw [this]

@[simp] theorem State.orphan_lawful (h : s.lawfulBut x) (n : Station) : (s.orphan n).lawfulBut x := by
  have := State.setPeerOrphan_lawful h n (s.peer n)
  rw [State.setPeer_self] at this
  exact this

/-! ## Station Control -/

/-- The station state, the queue and the Roll Unit written together. -/
theorem State.setControl_lawful (h : s.lawfulBut x) {y : StationControl} {l : Link} {r : RollUnit}
    (hl : s.link.placesHold → l.placesHold) (hy : y.state = .loading → s.board.entries = [])
    (hr : ∀ n : Station, (s.peer n).state = .present → r.peers[n].state = .present)
    (hq : (((s.setStation y).setLink l).setRoll r).presenceLawful) :
    (((s.setStation y).setLink l).setRoll r).lawfulBut x := by
  obtain ⟨h1, h2, h3, _, h5⟩ := h
  exact ⟨⟨hy, fun e he n hn => (h1.2 e he n hn).imp id (hr n)⟩, h2, hl h3, hq, h5⟩

/-- The station in another state, with an empty presence place. -/
theorem State.enter_lawful (h : s.lawfulBut x) (hp : s.link.presence = none) {y : StationControl}
    (hy : y.state ≠ .loading) : (s.setStation y).lawfulBut x :=
  State.setControl_lawful (l := s.link) (r := s.roll) h id (fun k => absurd k hy) (fun _ k => k) fun q hq => by
    have hq' : s.link.presence = some q := hq
    rw [hp] at hq'; cases hq'

/-- With no JOIN period to come and no DRAINING, nothing stands in the presence place. -/
theorem State.lawfulBut.presence_empty (h : s.lawfulBut x)
    (hj : s.station.state = .joining → s.roll.joinPeriod ≠ none) (hd : s.station.state ≠ .draining) :
    s.link.presence = none := by
  obtain ⟨_, _, h3, h4, _⟩ := h
  cases hq : s.link.presence with
  | none => rfl
  | some q =>
    exfalso
    obtain ⟨_, b, c⟩ := h4 q hq
    have ha := (h3 .presence q hq).1
    cases hm : q.msg with
    | join d => exact hj (c d hm).1 (c d hm).2
    | leave => exact hd (b hm).1
    | roll _ _ _ => rw [hm] at ha; cases ha
    | claim _ _ _ => rw [hm] at ha; cases ha
    | done _ _ _ _ _ => rw [hm] at ha; cases ha

/-- The law of the Imager's job, with no job anywhere. -/
theorem State.imagerLawfulBut.ofNone {t : State} (h5 : ∀ n, t.job n = none) (h6 : t.imager.held = none) :
    t.imagerLawfulBut x :=
  ⟨fun n j _ hj => (by rw [h5] at hj; cases hj), fun y hy => (by rw [h6] at hy; cases hy)⟩

theorem Vector.replicate_job (n : Slot) : (Vector.replicate 8 (none : Option Job))[n] = none := by simp

/-- The blocks at their cleared values, whatever stood before. -/
theorem State.lawfulBut.ofCleared {t : State} (h1 : t.board.entries = []) (h2 : t.receiver.holding = [])
    (h3 : t.link.placesHold) (h4 : t.link.presence = none) (h5 : ∀ n, t.job n = none) (h6 : t.imagerLawfulBut x)
    (h7 : t.unpacker = Unpacker.cleared) (h8 : t.ring = Ring.cleared) (h9 : t.screener = Screener.cleared) :
    t.lawfulBut x := by
  refine ⟨⟨fun _ => h1, fun e he => (by rw [h1] at he; cases he)⟩,
    ⟨by rw [h2]; exact Nat.zero_le _, fun n => ⟨by rw [h2]; exact Nat.zero_le _, fun ⟨r, hr, _⟩ =>
      (by rw [h2] at hr; cases hr)⟩⟩, h3, fun q hq => (by rw [h4] at hq; cases hq),
    fun n j hj => (by rw [h5] at hj; cases hj),
    h6,
    ⟨fun d a hd => (by rw [h7] at hd; cases hd), fun n j hj => (by rw [h5] at hj; cases hj)⟩,
    (by rw [h8]; exact .cleared), fun b => ?_, .ofCleared h5 h8 h7 h9⟩
  unfold State.buffersHeld
  have hc : allSlots.countP (t.cursorHas b) = 0 := by
    rw [List.countP_eq_zero]
    intro n _
    simp [State.cursorHas, h5]
  have h9' : t.screener.current = none := by rw [h9]; rfl
  rw [hc, h7, h8, h9', Ring.cleared_has]
  simp only [Option.bind_none, Nat.add_zero]
  show (List.range Config.bandBuffers).count b + _ = _
  by_cases hb : b < Config.bandBuffers
  · rw [if_pos hb]
    have : (List.range Config.bandBuffers).count b = 1 :=
      List.count_eq_one_of_mem List.nodup_range (List.mem_range.mpr hb)
    rw [this]; simp
  · rw [if_neg hb]
    have : (List.range Config.bandBuffers).count b = 0 :=
      List.count_eq_zero_of_not_mem fun k => hb (List.mem_range.mp k)
    rw [this]; simp

@[simp] theorem State.clearBlocks_lawful (s : State) (c : Clearing) : (s.clearBlocks c).lawfulBut x := by
  unfold State.clearBlocks State.disposeOfPlate
  dsimp only
  (repeat' split) <;>
    exact State.lawfulBut.ofCleared rfl rfl (Link.placesHold.emptied _) rfl
      (fun n => Vector.replicate_job n) (.ofNone (fun n => Vector.replicate_job n) rfl) rfl rfl rfl

/-- The presence place of a cleared station is empty. -/
theorem State.clearBlocks_presence (s : State) (c : Clearing) : (s.clearBlocks c).link.presence = none := by
  unfold State.clearBlocks State.disposeOfPlate
  dsimp only
  split <;> rfl

@[simp] theorem State.clearForHalt_lawful (s : State) : s.clearForHalt.lawfulBut x := by
  have h : (s.clearBlocks .halt).lawfulBut x := State.clearBlocks_lawful s .halt
  exact State.setReceiver_lawful (State.setRoll_lawful (State.setLink_lawful h (Link.Tame.withPhase (Link.Tame.refl _) _))
    rfl (Or.inl rfl)) rfl

theorem State.clearForHalt_presence (s : State) : s.clearForHalt.link.presence = none := State.clearBlocks_presence s .halt

@[simp] theorem State.halt_lawful (s : State) : s.halt.lawfulBut x :=
  State.latch_lawful (State.enter_lawful (State.clearForHalt_lawful s) (State.clearForHalt_presence s) (by simp)) _

@[simp] theorem State.bar_lawful (s : State) (r : BarredReason) : (s.bar r).lawfulBut x :=
  State.latch_lawful (State.enter_lawful (State.clearForHalt_lawful s) (State.clearForHalt_presence s) (by simp)) _

/-- Entry to JOINING with an empty presence place. -/
theorem State.enterJoining_lawful (h : s.lawfulBut x) (hp : s.link.presence = none) : s.enterJoining.lawfulBut x := by
  have hreq : s.link.request .presence (.join (s.loader.digest.getD 0#16)) =
      s.link.put .presence (.join (s.loader.digest.getD 0#16)) := by
    unfold Link.request
    have : s.link.at .presence = none := hp
    rw [this]
  refine State.setDamage_lawful (s := (((s.setStation { s.station with state := .joining }).setLink
    (s.link.request .presence (.join (s.loader.digest.getD 0#16)))).setRoll
      { s.roll with
        isolationTimer := some (s.now + s.settings.silenceLimit * s.settings.rollPeriod),
        joinPeriod := none, joinSentAt := none })) ?_ _
  refine State.setControl_lawful h (fun k => k.request rfl) (fun k => by cases k) (fun _ k => k) fun q hq => ?_
  have e : (s.link.request .presence (.join (s.loader.digest.getD 0#16))).at .presence = some q := hq
  rw [hreq, Link.at_put_same] at e
  cases e
  exact ⟨rfl, fun k => (by cases k), fun _ _ => ⟨rfl, rfl⟩⟩

theorem State.startJoining_lawful (h : s.lawfulBut x) (hp : s.link.presence = none) : s.startJoining.lawfulBut x := by
  have h1 := State.enterJoining_lawful h hp
  exact State.setImager_lawful (State.setRoll_lawful (State.setLink_lawful h1 (Link.Tame.withPhase (Link.Tame.refl _) _))
    rfl (Or.inl rfl)) rfl (Or.inl rfl)

@[simp] theorem State.rejoin_lawful (h : s.lawfulBut x) : s.rejoin.lawfulBut x := by
  unfold State.rejoin
  split
  · exact State.latch_lawful (State.enterJoining_lawful (State.clearBlocks_lawful s .rejoin)
      (State.clearBlocks_presence s .rejoin)) _
  · exact h

/-- Entry to DETACHED, with no live job. -/
theorem State.detach_lawful (h : s.lawfulBut x) (hj : ∀ n, s.job n = none) : s.detach.lawfulBut x := by
  have hi := h.2.2.2.2.2.1
  have e : s.detach.jobs = s.jobs ∧ s.detach.imager = s.imager ∧ s.detach.board = Board.cleared ∧
      s.detach.receiver = Receiver.afterReset ∧ s.detach.link = { s.link.emptied with phase := .passive } ∧
      s.detach.unpacker = Unpacker.cleared ∧ s.detach.ring = Ring.cleared ∧ s.detach.screener = Screener.cleared := by
    simp [State.detach, State.latch]
  generalize s.detach = t at e
  obtain ⟨e1, e2, e3, e4, e5, e6, e7, e8⟩ := e
  have hk : ∀ n, t.job n = none := fun n => (State.job_congr e1 n).trans (hj n)
  refine State.lawfulBut.ofCleared (by rw [e3]; rfl) (by rw [e4]; rfl) ?_ (by rw [e5]; rfl) hk
    ⟨fun n j _ k => (by rw [hk] at k; cases k), fun y hy => ?_⟩ e6 e7 e8
  · rw [e5]; exact (Link.placesHold.emptied s.link).withPhase _
  · rw [e2] at hy ⊢
    obtain ⟨a, b⟩ := hi.2 y hy
    refine ⟨a, fun hx => ?_⟩
    obtain ⟨j, k, _⟩ := b hx
    rw [hj] at k; cases k

@[simp] theorem State.judgeMediaOut_lawful (h : s.lawfulBut x) : s.judgeMediaOut.lawfulBut x := by
  unfold State.judgeMediaOut
  split
  · exact State.latch_lawful h _
  · exact h

theorem State.leaveLoading_lawful (h : s.lawfulBut x) (hs : s.station.state = .loading)
    (result : Option BarredReason) : (s.leaveLoading result).lawfulBut x := by
  unfold State.leaveLoading
  dsimp only
  refine State.judgeMediaOut_lawful ?_
  split
  · exact State.halt_lawful _
  · split
    · exact State.bar_lawful _ _
    · refine State.startJoining_lawful (State.setLoader_lawful h _) ?_
      exact h.presence_empty (fun k => by rw [hs] at k; cases k) (by rw [hs]; simp)

@[simp] theorem State.resetPart_lawful (s : State) : s.resetPart.lawfulBut x :=
  State.lawfulBut.ofCleared rfl rfl (fun p q hq => by
    cases p <;> simp [State.resetPart, State.reset, Link.afterReset, Link.at] at hq) rfl
    (fun n => Vector.replicate_job n) (.ofNone (fun n => Vector.replicate_job n) rfl) rfl rfl rfl

@[simp] theorem State.countCorrected_lawful (h : s.lawfulBut x) (n : Nat) : (s.countCorrected n).lawfulBut x :=
  State.raiseBy_lawful h _ _

@[simp] theorem State.uncorrectable_lawful (h : s.lawfulBut x) (r : Region) : (s.uncorrectable r).lawfulBut x := by
  unfold State.uncorrectable
  dsimp only
  split <;> first
    | exact State.halt_lawful _
    | exact State.setStation_lawful (State.raise_lawful h _) rfl

theorem State.drain_lawful (h : s.lawfulBut x) (hs : s.station.state = .active) : s.drain.lawfulBut x := by
  have hp := h.presence_empty (fun k => by rw [hs] at k; cases k) (by rw [hs]; simp)
  exact State.tableEmptied_lawful (State.enter_lawful h hp (by simp)) fun _ => hp

theorem State.resumeDraining_lawful (h : s.lawfulBut x) (hs : s.station.state = .draining) :
    s.resumeDraining.lawfulBut x := by
  unfold State.resumeDraining
  split
  · rename_i q hq
    have hw : (s.setLink (s.link.withdraw .presence)).lawfulBut x :=
      State.setLink_lawful h (Link.Tame.withdraw _ _)
    split
    · split
      · exact State.setStation_lawful hw rfl
      · rename_i hnp
        refine State.enter_lawful hw ?_ (by simp)
        show (s.link.withdraw .presence).presence = none
        unfold Link.withdraw
        have : s.link.at .presence = some q := hq
        rw [this]
        dsimp only
        rw [if_neg hnp]
        rfl
    · rename_i hne
      exfalso
      obtain ⟨_, _, h3, h4, _⟩ := h
      obtain ⟨_, _, c⟩ := h4 q hq
      have ha := (h3 .presence q hq).1
      cases hm : q.msg with
      | join d => have := (c d hm).1; rw [hs] at this; cases this
      | leave => exact hne hm
      | roll _ _ _ => rw [hm] at ha; cases ha
      | claim _ _ _ => rw [hm] at ha; cases ha
      | done _ _ _ _ _ => rw [hm] at ha; cases ha
  · rename_i hp
    exact State.enter_lawful h hp (by simp)

end Sys2Proof.Machine
end

