-- ==== Sys2Proof/Laws/PathLink.lean ====
section
/-! SUPPORT. The operations of the Roll Unit and of the Link Controller keep the laws of owners, of the holding queue, of
the Imager's job and of the band buffers. -/

namespace Sys2Proof.Machine

variable {x : Option Slot} {s : State}

/-! ## The Roll Unit -/

@[simp] theorem State.restartIsolation_lawful (h : s.lawfulBut x) : s.restartIsolation.lawfulBut x :=
  State.setRoll_lawful h rfl (Or.inl rfl)

@[simp] theorem State.queueRoll_lawful (h : s.lawfulBut x) : s.queueRoll.lawfulBut x :=
  State.setRoll_lawful (State.setLink_lawful h (Link.Tame.requestRoll _ (Place.takes_roll _ _ _))) rfl (Or.inl rfl)

/-- The join period starts at the sending of the JOIN, which has left its place. -/
theorem State.startJoinPeriod_lawful (h : s.lawfulBut x) (hp : s.link.presence = none) :
    s.startJoinPeriod.lawfulBut x :=
  State.setControl_lawful (y := s.station) (l := s.link) h id (fun k => h.1.1 k) (fun _ k => k) fun q hq => by
    have hq' : s.link.presence = some q := hq
    rw [hp] at hq'; cases hq'

theorem State.ownSent_lawful (h : s.lawfulBut x) (m : Msg) (hp : ∀ d, m = .join d → s.link.presence = none) :
    (s.ownSent m).lawfulBut x := by
  have hi := State.restartIsolation_lawful h
  unfold State.ownSent
  dsimp only
  split
  · exact State.startJoinPeriod_lawful hi (hp _ rfl)
  · exact State.setRoll_lawful hi rfl (Or.inl rfl)
  all_goals exact hi

/-- A peer record written; a PRESENT peer stays so. -/
theorem State.setPeer_lawful (h : s.lawfulBut x) (n : Station) {p : Peer}
    (hp : (s.peer n).state = .present → p.state = .present) : (s.setPeer n p).lawfulBut x := by
  refine State.setControl_lawful (y := s.station) (l := s.link)
    (r := { s.roll with peers := s.roll.peers.set n p }) h id (fun k => h.1.1 k) (fun m k => ?_) h.2.2.2.1
  by_cases e : m = n
  · subst e
    simpa using hp k
  · have : (n : Nat) ≠ (m : Nat) := fun y => e (Fin.ext y.symm)
    have e' : (s.roll.peers.set n p)[m] = s.roll.peers[m] := Vector.getElem_set_ne n.isLt m.isLt this
    simp only [e']
    exact k

@[simp] theorem State.heardFrom_lawful (h : s.lawfulBut x) (n : Station) : (s.heardFrom n).lawfulBut x := by
  unfold State.heardFrom
  split
  · exact State.latch_lawful (State.setPeer_lawful h n fun _ => rfl) _
  · exact State.setPeer_lawful h n id
  · exact State.setPeer_lawful h n id

/-- A peer that was heard, and not LOST, is PRESENT. -/
theorem State.heardFrom_present (s : State) (n : Station) (h : (s.peer n).state ≠ .lost) :
    ((s.heardFrom n).peer n).state = .present := by
  unfold State.heardFrom
  split
  · show ((s.roll.peers.set n s.newPeer)[n]).state = .present
    simp [State.newPeer]
  · rename_i k
    show ((s.roll.peers.set n { s.peer n with silence := some s.silenceDeadline, heard := some s.now })[n]).state = .present
    simp [k]
  · rename_i k; exact absurd k h

@[simp] theorem State.heardFrom_station (s : State) (n : Station) : (s.heardFrom n).station = s.station := by
  unfold State.heardFrom
  split <;> rfl

@[simp] theorem State.judgeDigest_lawful (h : s.lawfulBut x) (n : Station) (d : Half) :
    (s.judgeDigest n d).lawfulBut x := by
  unfold State.judgeDigest
  dsimp only
  split
  · exact State.latch_lawful (State.setPeer_lawful h n (by exact id)) _
  · exact State.setPeer_lawful h n id

@[simp] theorem State.takeJoin_lawful (h : s.lawfulBut x) (n : Station) (digest : Half) :
    (s.takeJoin n digest).lawfulBut x := by
  unfold State.takeJoin
  dsimp only
  split
  · exact State.judgeDigest_lawful (State.latch_lawful (State.setPeer_lawful (State.orphan_lawful h n) n fun _ => rfl) _) _ _
  · exact State.judgeDigest_lawful (State.latch_lawful (State.setPeer_lawful h n fun _ => rfl) _) _ _

@[simp] theorem State.takeLeave_lawful (h : s.lawfulBut x) (n : Station) : (s.takeLeave n).lawfulBut x :=
  State.setPeerOrphan_lawful h n _

@[simp] theorem State.takeItem_lawful (h : s.lawfulBut x) (n : Station) (slot : Nat) (item : Half) :
    (s.takeItem n slot item).lawfulBut x := by
  unfold State.takeItem
  dsimp only
  split
  · exact State.setPeer_lawful h n id
  · split
    · exact State.rejoin_lawful (State.setPeer_lawful h n id)
    · exact State.setPeer_lawful h n id
  · exact State.setPeer_lawful h n id
  · exact State.setPeer_lawful h n id
  · exact State.setPeer_lawful h n id
  · exact State.judgeDigest_lawful h n item
  · exact State.setPeer_lawful h n id

@[simp] theorem State.takeRoll_lawful (h : s.lawfulBut x) (n : Station) (counter slot : Nat) (item : Half) :
    (s.takeRoll n counter slot item).lawfulBut x :=
  State.takeItem_lawful (State.setPeer_lawful h n (p := (s.peer n).noteCounter counter) id) n slot item

theorem State.takePeerMessage_lawful (h : s.lawfulBut x) (hs : s.station.state ≠ .loading) (n : Station) (m : Msg) :
    (s.takePeerMessage n m).lawfulBut x := by
  have hh := State.heardFrom_lawful h n
  have hs' : (s.heardFrom n).station.state ≠ .loading := by rw [State.heardFrom_station]; exact hs
  unfold State.takePeerMessage
  split
  · exact State.takeJoin_lawful h n _
  · split
    · exact State.takeLeave_lawful h n
    · exact h
  · split
    · exact h
    · exact State.takeRoll_lawful hh n _ _ _
  · split
    · exact h
    · rename_i k
      exact State.takeClaim_lawful hh hs' (Or.inr (State.heardFrom_present s n k)) _ _ _
  · split
    · exact h
    · exact State.takeDone_lawful hh hs' n _ _ _ _ _

@[simp] theorem State.loseContact_lawful (h : s.lawfulBut x) (n : Station) : (s.loseContact n).lawfulBut x :=
  State.setPeerOrphan_lawful (State.latch_lawful h .peerLost) n { s.peer n with state := .lost, silence := none }

/-! ## The Link Controller -/

@[simp] theorem State.setPhase_lawful (h : s.lawfulBut x) (ph : LinkPhase) : (s.setPhase ph).lawfulBut x :=
  State.setLink_lawful h (Link.Tame.withPhase (Link.Tame.refl _) ph)

theorem State.leaveWithdrawn_lawful (h : s.lawfulBut x) (hp : s.link.presence = none) :
    s.leaveWithdrawn.lawfulBut x := by
  unfold State.leaveWithdrawn
  split
  · exact State.enter_lawful h hp (by simp)
  · exact h

@[simp] theorem State.claimUnsent_lawful (h : s.lawfulBut x) (n : Slot) (r : Unsent) :
    (s.claimUnsent n r).lawfulBut x := by
  unfold State.claimUnsent
  split
  · exact State.claimReturned_lawful h n
  · exact State.claimWithdrawn_lawful h n

@[simp] theorem State.reportUnsent_lawful (h : s.lawfulBut x) (p : Place) : (s.reportUnsent p).lawfulBut x := by
  have h1 : (s.setLink (s.link.unsent p)).lawfulBut x := State.setLink_lawful h (Link.Tame.unsent _ _)
  unfold State.reportUnsent
  dsimp only
  split
  · exact State.claimUnsent_lawful h1 _ _
  · rename_i hw
    refine State.leaveWithdrawn_lawful h1 ?_
    show (s.link.unsent .presence).presence = none
    unfold Link.unsentReport at hw
    unfold Link.unsent
    split at hw
    · cases hw
    · rename_i q hq
      have hr : q.replacement = none := (h.2.2.2.1 q hq).1
      rw [hr] at hw ⊢
      dsimp only
      cases hwd : q.withdrawal
      · rw [hwd] at hw; simp at hw
      · rfl
  · exact h1

@[simp] theorem State.reportContender_lawful (h : s.lawfulBut x) (c : Option Place) :
    (s.reportContender c).lawfulBut x := by
  unfold State.reportContender
  split
  · exact State.reportUnsent_lawful h _
  · exact h

@[simp] theorem State.startCandidate_lawful (h : s.lawfulBut x) (p : Place) : (s.startCandidate p).lawfulBut x := by
  have h1 : (s.setLink (s.link.start p s.bid)).lawfulBut x := State.setLink_lawful h (Link.Tame.start _ _ _)
  unfold State.startCandidate
  dsimp only
  split
  · exact State.claimStarted_lawful h1 _
  · exact h1

@[simp] theorem State.startOpening_lawful (h : s.lawfulBut x) : s.startOpening.lawfulBut x := by
  unfold State.startOpening
  split
  · exact State.setPhase_lawful (State.startCandidate_lawful h _) _
  · exact State.setPhase_lawful h _

@[simp] theorem State.breakOpening_lawful (h : s.lawfulBut x) (c : Option Place) : (s.breakOpening c).lawfulBut x :=
  State.reportContender_lawful (State.raise_lawful (State.setPhase_lawful h _) _) c

@[simp] theorem State.endRound_lawful (h : s.lawfulBut x) (c : Option Place) (won : List Nat) (low : Nat) :
    (s.endRound c won low).lawfulBut x := by
  unfold State.endRound
  (repeat' split) <;> simp [h]

@[simp] theorem State.endBody_lawful (h : s.lawfulBut x) (role : LinkRole) (key : WinningKey) (framed : Bool)
    (bytes : List Byte) : (s.endBody role key framed bytes).lawfulBut x := by
  unfold State.endBody
  dsimp only
  split <;> exact State.setPhase_lawful h _

@[simp] theorem State.countSpoiled_lawful (h : s.lawfulBut x) (held : Bool) : (s.countSpoiled held).lawfulBut x := by
  unfold State.countSpoiled
  dsimp only
  split
  · exact State.raise_lawful (State.raise_lawful h _) _
  · exact State.raise_lawful h _

@[simp] theorem State.endSpoiled_lawful (h : s.lawfulBut x) (role : LinkRole) (held : Bool) :
    (s.endSpoiled role held).lawfulBut x := by
  have h1 := State.countSpoiled_lawful (State.setPhase_lawful h .waiting) held
  unfold State.endSpoiled
  dsimp only
  split
  · exact State.reportUnsent_lawful h1 _
  all_goals exact h1

theorem State.handOverOwn_lawful (h : s.lawfulBut x) (hs : s.station.state ≠ .loading) (p : Place) (m : Msg)
    (hl : m = .leave → ∀ n, s.job n = none) : (s.handOverOwn p m).lawfulBut x := by
  unfold State.handOverOwn
  dsimp only
  split
  · exact h
  · exact h
  · exact State.detach_lawful h (hl rfl)
  · split
    · rename_i n _
      exact State.takeClaim_lawful (State.claimReturned_lawful h n) hs (Or.inl rfl) _ _ _
    · exact State.takeClaim_lawful h hs (Or.inl rfl) _ _ _
  · rename_i damaged _
    have h1 : (s.addDamageTotal damaged).lawfulBut x := State.setDamage_lawful h _
    exact State.takeDone_lawful h1 hs _ _ _ _ _ _

theorem State.acceptOwn_lawful (h : s.lawfulBut x) (hs : s.station.state ≠ .loading) (p : Place) :
    (s.acceptOwn p).lawfulBut x := by
  unfold State.acceptOwn
  split
  · exact State.setPhase_lawful h _
  · rename_i m hm
    dsimp only
    obtain ⟨q, hq, rfl⟩ : ∃ q, s.link.at p = some q ∧ q.msg = m := by
      unfold Link.message at hm
      rw [Option.map_eq_some_iff] at hm
      exact hm
    have ha := (h.2.2.1 p q hq).1
    have h1 : ((s.setLink { s.link.sent p with phase := .waiting }).raise .sent).lawfulBut x :=
      State.raise_lawful (State.setLink_lawful h (Link.Tame.withPhase (Link.Tame.sent s.link p) _)) _
    have hpres : p = .presence → (s.link.sent p).presence = none := by
      rintro rfl
      have hr : q.replacement = none := (h.2.2.2.1 q hq).1
      unfold Link.sent
      rw [hq]
      dsimp only [Option.bind_some]
      rw [hr]
      rfl
    have hp : ∀ m, (m = Msg.leave ∨ ∃ d, m = Msg.join d) → q.msg = m → p = .presence := by
      rintro m hm hq'
      rw [hq'] at ha
      rcases hm with rfl | ⟨d, rfl⟩ <;> cases p <;> first | rfl | cases ha
    have h2 := State.ownSent_lawful h1 q.msg fun d hd => hpres (hp _ (Or.inr ⟨d, rfl⟩) hd)
    refine State.handOverOwn_lawful h2 ?_ p q.msg fun hl n => ?_
    · have : ((((s.setLink { s.link.sent p with phase := .waiting }).raise .sent).ownSent q.msg)).station = s.station := by
        unfold State.ownSent
        dsimp only
        split <;> rfl
      rw [this]; exact hs
    · have : ((((s.setLink { s.link.sent p with phase := .waiting }).raise .sent).ownSent q.msg)).jobs = s.jobs := by
        unfold State.ownSent
        dsimp only
        split <;> rfl
      rw [State.job_congr this]
      have hpp := hp _ (Or.inl rfl) hl
      subst hpp
      exact ((h.2.2.2.1 q hq).2.1 hl).2 n

theorem State.acceptOther_lawful (h : s.lawfulBut x) (hs : s.station.state ≠ .loading)
    (heard : Option (Station × Msg)) : (s.acceptOther heard).lawfulBut x := by
  unfold State.acceptOther
  dsimp only
  split
  · exact State.setPhase_lawful h _
  · split
    · exact State.bar_lawful _ _
    · have h1 : ((s.setPhase .waiting).raise .taken).lawfulBut x := State.raise_lawful (State.setPhase_lawful h _) _
      exact State.takePeerMessage_lawful h1 hs _ _

theorem State.endWindow_lawful (h : s.lawfulBut x) (hs : s.station.state ≠ .loading) (role : LinkRole) (hold : Bool)
    (heard : Option (Station × Msg)) (low : Bool) : (s.endWindow role hold heard low).lawfulBut x := by
  unfold State.endWindow
  split
  · exact State.endSpoiled_lawful h _ _
  · split
    · exact State.acceptOwn_lawful h hs _
    · exact State.acceptOther_lawful h hs _
    · exact State.setPhase_lawful h _

end Sys2Proof.Machine
end

