-- ==== Sys2Proof/Laws/PathLine.lean ====
section
/-! SUPPORT. The operations of the Page Line Receiver keep the laws of owners, of the holding queue, of the Imager's job
and of the band buffers. -/

namespace Sys2Proof.Machine

variable {x : Option Slot} {s : State}

/-! ## Bands of a job -/

/-- A band of a table with one band changed. -/
theorem Job.band_modifyBand (j : Job) (b : Nat) (f : Band → Band) (a : Nat) :
    (j.modifyBand b f).band a = if a = b ∧ b < j.bands.length then f (j.band a) else j.band a := by
  unfold Job.band Job.modifyBand
  dsimp only
  rw [List.getD_eq_getElem?_getD, List.getD_eq_getElem?_getD, List.getElem?_modify]
  by_cases hb : b = a
  · subst hb
    by_cases hl : b < j.bands.length
    · simp [hl]
    · simp [hl]
  · have : ¬ a = b := fun e => hb e.symm
    simp [hb, this]

/-- A mark changes no band's state. -/
theorem Job.mark_band (j : Job) (band : Nat) (kind : DamageKind) (part : Option Nat) (capture : Option (List Byte))
    (a : Nat) : ((j.mark band kind part capture).band a).state = (j.band a).state := by
  have e : (j.mark band kind part capture).band a =
      (j.modifyBand band fun b => { b with kind := b.kind.or (some kind) }).band a := rfl
  rw [e, Job.band_modifyBand]
  split <;> rfl

theorem Job.mark_states (j : Job) (band : Nat) (kind : DamageKind) (part : Option Nat) (capture : Option (List Byte)) :
    ((j.mark band kind part capture).bands.map fun e => e.state) = j.bands.map fun e => e.state :=
  Job.modifyBand_sameStates j band (f := fun b => { b with kind := b.kind.or (some kind) }) fun _ => rfl

theorem Job.mark_tame (j : Job) (band : Nat) (kind : DamageKind) (part : Option Nat) (capture : Option (List Byte)) :
    j.Tame (j.mark band kind part capture) := by
  refine ⟨id, fun h c hc => ?_, Iff.rfl, Iff.rfl, rfl, rfl, rfl, id, id⟩
  obtain ⟨h1, h2, h3⟩ := h c hc
  refine ⟨by simpa [Job.mark] using h1, fun a ha => ?_, ?_⟩
  · rw [Job.mark_band]; exact h2 a ha
  · rw [Job.mark_band]; exact h3

@[simp] theorem State.markDamage_lawful (h : s.lawfulBut x) (n : Slot) (band : Nat) (kind : DamageKind)
    (part : Option Nat) (capture : Option (List Byte)) : (s.markDamage n band kind part capture).lawfulBut x := by
  refine State.modifyJob_lawful h n (fun j _ => ?_) fun j _ => ?_
  · split
    · exact Job.mark_tame j _ _ _ _
    · exact Job.Tame.refl j
  · split
    · exact Job.mark_states j _ _ _ _
    · rfl

/-! ## The holding queue -/

/-- A record put at the tail: a fragment where there is room, or the end marker of a slot that has none, for a job whose
end is admitted. -/
theorem State.append_lawful (h : s.lawfulBut x) (r : HoldingRecord)
    (hf : r.isFragment = true → s.receiver.isFull = false)
    (he : ∀ n, r.isEndOf n = true → (∀ y ∈ s.receiver.holding, y.isEndOf n = false) ∧
      ∃ j, s.job n = some j ∧ j.endAdmitted = true ∧ j.quiet = none) : (s.append r).lawfulBut x := by
  obtain ⟨h1, h2, h3, h4, h5, h6, h7, h8, h9⟩ := h
  refine ⟨h1, ⟨?_, fun n => ⟨?_, fun k => ?_⟩⟩, h3, h4, h5, h6, ⟨fun d a e => ?_, h7.2⟩, h8, h9⟩
  · show ((s.receiver.holding ++ [r]).filter HoldingRecord.isFragment).length ≤ Config.fragmentPlaces
    rw [List.filter_append, List.length_append]
    cases hr : r.isFragment
    · simp [hr]; exact h2.1
    · have := hf hr
      simp [Receiver.isFull] at this
      simp [hr]
      omega
  · show ((s.receiver.holding ++ [r]).filter fun y => y.isEndOf n).length ≤ 1
    rw [List.filter_append, List.length_append]
    cases hr : r.isEndOf n
    · simp [hr]; exact (h2.2 n).1
    · have : s.receiver.holding.filter (fun y => y.isEndOf n) = [] := by
        rw [List.filter_eq_nil_iff]
        intro y hy
        simp [(he n hr).1 y hy]
      rw [this]
      simp [hr]
  · obtain ⟨y, hy, hn⟩ := k
    have hy' : y ∈ s.receiver.holding ++ [r] := hy
    rw [List.mem_append, List.mem_singleton] at hy'
    rcases hy' with hy' | rfl
    · exact (h2.2 n).2 ⟨y, hy', hn⟩
    · exact (he n hn).2
  · obtain ⟨j, a1, a2, a3, a4⟩ := h7.1 d a e
    refine ⟨j, a1, a2, a3, fun y hy => ?_⟩
    obtain ⟨b1, q, rest, b2, b3⟩ := a4 y hy
    refine ⟨b1, q, rest ++ [r], ?_, b3⟩
    show s.receiver.holding ++ [r] = _
    rw [b2]; rfl

/-- A job whose end is not admitted, or whose quiet timer runs, has no end marker. -/
theorem State.lawfulBut.noMarker (h : s.lawfulBut x) {n : Slot} {j : Job} (hj : s.job n = some j)
    (hn : ¬ (j.endAdmitted = true ∧ j.quiet = none)) : ∀ y ∈ s.receiver.holding, y.isEndOf n = false := by
  intro y hy
  cases hr : y.isEndOf n with
  | false => rfl
  | true =>
    obtain ⟨k, hk, e⟩ := (h.2.1.2 n).2 ⟨y, hy, hr⟩
    rw [hj] at hk; cases hk
    exact absurd e hn

theorem State.admitEnd_lawful (h : s.lawfulBut x) {n : Slot} {j : Job} (hj : s.job n = some j)
    (hn : ¬ (j.endAdmitted = true ∧ j.quiet = none)) (origin : EndOrigin) : (s.admitEnd n j origin).lawfulBut x := by
  have h1 : (s.modifyJob n fun j => { j with endAdmitted := true, quiet := none }).lawfulBut x :=
    State.modifyJob_lawful h n fun _ _ => ⟨id, id, Iff.rfl, Iff.rfl, rfl, rfl, rfl, fun _ => ⟨rfl, rfl⟩, id⟩
  refine State.append_lawful (s := s.modifyJob n fun j => { j with endAdmitted := true, quiet := none }) h1
    { slot := n, generation := j.generation, key := j.key, version := j.version, body := .endMarker origin }
    (fun k => by cases k) fun m hm => ?_
  have hm' : n = m := by simpa [HoldingRecord.isEndOf] using hm
  subst hm'
  exact ⟨h.noMarker hj hn, _, by rw [State.job_modifyJob_same, hj]; rfl, rfl, rfl⟩

/-! ## Framing and attribution -/

@[simp] theorem State.setFraming_lawful (h : s.lawfulBut x) (f : Framing) : (s.setFraming f).lawfulBut x :=
  State.setReceiver_lawful h rfl

@[simp] theorem State.reportUnattributed_lawful (h : s.lawfulBut x) (raw : List Byte) :
    (s.reportUnattributed raw).lawfulBut x := State.latch_lawful (State.setDamage_lawful h _) _

@[simp] theorem State.reportLate_lawful (h : s.lawfulBut x) : s.reportLate.lawfulBut x := State.setDamage_lawful h _

@[simp] theorem State.reportStale_lawful (h : s.lawfulBut x) : s.reportStale.lawfulBut x := State.setDamage_lawful h _

@[simp] theorem State.reportDuplicate_lawful (h : s.lawfulBut x) : s.reportDuplicate.lawfulBut x :=
  State.setDamage_lawful h _

@[simp] theorem State.headerFails_lawful (h : s.lawfulBut x) (got : List Byte) : (s.headerFails got).lawfulBut x :=
  State.reportUnattributed_lawful (State.setFraming_lawful h _) _

@[simp] theorem State.dropMarked_lawful (h : s.lawfulBut x) (n : Slot) (a : Arrived) (kind : DamageKind) :
    (s.dropMarked n a kind).lawfulBut x := State.markDamage_lawful h _ _ _ _ _

@[simp] theorem State.noteOverflow_lawful (h : s.lawfulBut x) : s.noteOverflow.lawfulBut x :=
  State.setRoll_lawful h rfl (Or.inl rfl)

theorem State.checkFragment_lawful (h : s.lawfulBut x) {n : Slot} {j : Job} (hj : s.job n = some j)
    (ht : j.endAdmitted = false) (a : Arrived) : (s.checkFragment n j a).lawfulBut x := by
  have h1 : (s.moveCursor n a).lawfulBut x :=
    State.modifyJob_lawful h n fun _ _ => ⟨id, id, Iff.rfl, Iff.rfl, rfl, rfl, rfl, id, id⟩
  have hj1 : ∀ k, (s.moveCursor n a).job n = some k → k.endAdmitted = false := by
    intro k hk
    unfold State.moveCursor at hk
    rw [State.job_modifyJob_same, hj] at hk
    cases hk; exact ht
  unfold State.checkFragment
  dsimp only
  generalize s.moveCursor n a = t at h1 hj1
  split
  · exact State.dropMarked_lawful h1 _ _ _
  · split
    · exact State.dropMarked_lawful h1 _ _ _
    · split
      · exact State.noteOverflow_lawful (State.latch_lawful (State.dropMarked_lawful h1 _ _ _) _)
      · rename_i hfull
        unfold State.admitFragment
        dsimp only
        refine State.modifyJob_lawful (State.raise_lawful (State.append_lawful h1 _ (fun _ => by simpa using hfull)
          fun m hm => by cases hm) _) n fun k hk => ?_
        have := hj1 k hk
        exact ⟨id, id, Iff.rfl, Iff.rfl, rfl, rfl, rfl, fun e => (by rw [this] at e; cases e.1), id⟩

theorem Job.takesRecords_open {j : Job} (h : j.takesRecords = true) : j.endAdmitted = false := by
  simp [Job.takesRecords] at h; exact h.2

@[simp] theorem State.takeArrived_lawful (h : s.lawfulBut x) (key : PlateKey) (version : Nat) (a : Arrived) :
    (s.takeArrived key version a).lawfulBut x := by
  unfold State.takeArrived State.judgeArrived
  split
  · exact State.raise_lawful h _
  · split
    · exact h
    · rename_i j hj
      split
      · exact State.reportLate_lawful h
      · rename_i ht
        split
        · exact State.reportUnattributed_lawful h _
        · split
          · exact State.reportDuplicate_lawful h
          · exact State.checkFragment_lawful h hj (Job.takesRecords_open (by simpa using ht)) a

@[simp] theorem State.completeFragment_lawful (h : s.lawfulBut x) (header got : List Byte) (cut : Bool) :
    (s.completeFragment header got cut).lawfulBut x := by
  unfold State.completeFragment
  dsimp only
  split
  · split
    · exact State.takeArrived_lawful (State.setFraming_lawful (State.setFreeCount_lawful h _) _) _ _ _
    · exact State.takeArrived_lawful (State.setFraming_lawful h _) _ _ _
  · exact State.setFraming_lawful h _

@[simp] theorem State.takePlateEnd_lawful (h : s.lawfulBut x) (key : PlateKey) (version : Nat) :
    (s.takePlateEnd key version).lawfulBut x := by
  unfold State.takePlateEnd
  split
  · exact State.raise_lawful h _
  · split
    · exact h
    · rename_i j hj
      split
      · rename_i ht
        refine State.raise_lawful (State.admitEnd_lawful h hj (fun e => ?_) _) _
        rw [Job.takesRecords_open ht] at e
        cases e.1
      · exact State.reportLate_lawful h

/-! ## The bytes of the page line -/

@[simp] theorem State.takeArrived_station (s : State) (key : PlateKey) (version : Nat) (a : Arrived) :
    (s.takeArrived key version a).station = s.station := by
  unfold State.takeArrived State.judgeArrived State.checkFragment State.admitFragment
  dsimp only
  (repeat' split) <;> rfl

@[simp] theorem State.completeFragment_station (s : State) (header got : List Byte) (cut : Bool) :
    (s.completeFragment header got cut).station = s.station := by
  unfold State.completeFragment
  dsimp only
  (repeat' split) <;> first | rw [State.takeArrived_station]; rfl | rfl

@[simp] theorem State.takePlateEnd_station (s : State) (key : PlateKey) (version : Nat) :
    (s.takePlateEnd key version).station = s.station := by
  unfold State.takePlateEnd
  (repeat' split) <;> rfl

theorem State.wholeHeader_station (s : State) (got : List Byte) : (s.wholeHeader got).station = s.station := by
  unfold State.wholeHeader
  split
  · rfl
  · rw [State.takeHeader_station]; rfl
  · rw [State.takePlateEnd_station]; rfl
  · rfl

/-- A byte of the page line moves the station in no state. -/
theorem State.feedByte_station (s : State) (b : Byte) : (s.feedByte b).station = s.station := by
  unfold State.feedByte State.takeHeaderBytes State.takePayloadBytes
  (repeat' split) <;> first
    | rfl
    | exact State.wholeHeader_station s _
    | exact State.completeFragment_station s _ _ _

theorem State.wholeHeader_lawful (h : s.lawfulBut x) (hs : s.station.state ≠ .loading) (got : List Byte) :
    (s.wholeHeader got).lawfulBut x := by
  have hf := State.setFraming_lawful h .hunting
  unfold State.wholeHeader
  split
  · exact State.headerFails_lawful h _
  · exact State.takeHeader_lawful hf hs _ _ _ _ _
  · exact State.takePlateEnd_lawful hf _ _
  · exact State.setFraming_lawful h _

theorem State.feedByte_lawful (h : s.lawfulBut x) (hs : s.station.state ≠ .loading) (b : Byte) :
    (s.feedByte b).lawfulBut x := by
  unfold State.feedByte
  split
  · exact h
  · unfold State.takeHeaderBytes
    split
    · exact State.headerFails_lawful h _
    · split
      · exact State.setFraming_lawful h _
      · exact State.wholeHeader_lawful h hs _
  · unfold State.takePayloadBytes
    split
    · exact State.setFraming_lawful h _
    · exact State.completeFragment_lawful h _ _ _

@[simp] theorem State.feed_lawful (h : s.lawfulBut x) (bytes : List Byte) : (s.feed bytes).lawfulBut x := by
  unfold State.feed
  split
  · rename_i hr
    have hs : s.station.state ≠ .loading := by
      intro e
      simp [State.running, e, StationState.running] at hr
    clear hr
    induction bytes generalizing s with
    | nil => exact h
    | cons b bytes ih => exact ih (State.feedByte_lawful h hs b) (by rw [State.feedByte_station]; exact hs)
  · exact h

@[simp] theorem State.cutShort_lawful (h : s.lawfulBut x) : s.cutShort.lawfulBut x := by
  unfold State.cutShort
  split
  · exact h
  · exact State.headerFails_lawful h _
  · exact State.completeFragment_lawful h _ _ _

end Sys2Proof.Machine
end

