-- ==== Sys2Proof/Laws/PathUnpack.lean ====
section
/-! SUPPORT. The operations of the Unpacker keep the laws of owners, of the holding queue, of the Imager's job and of the
band buffers. -/

namespace Sys2Proof.Machine

variable {x : Option Slot} {s : State}

/-! ## A cursor, the pool and the Unpacker's work together -/

/-- The place of a buffer in a cursor, as a count. -/
def bufferAt (c : Option Nat) (b : Nat) : Nat := if c = some b then 1 else 0

/-- One job, the pool and the Unpacker's work changed together, from where the Unpacker does not wait for ring room: the
buffers that the cursor and the pool hold stay the same ones. -/
theorem State.setCursor_lawful (h : s.lawfulBut x) (hw : s.unpacker.waitsForRing = false) {n : Slot} {j k : Job}
    (hj : s.job n = some j) {f : Job → Job} (hk : f j = k) {w : UnpackWork} {p : List Nat}
    (k1 : k.standingLawful) (k2 : k.cursorLawful) (k3 : k.stage = j.stage) (k4 : k.generation = j.generation)
    (k5 : k.endAdmitted = j.endAdmitted ∧ k.quiet = j.quiet)
    (hb : ∀ b, p.count b + bufferAt k.cursor.buffer b = s.unpacker.pool.count b + bufferAt j.cursor.buffer b)
    (hd : ∀ d a, w = .waitRing d a → d.slot = n ∧ k.cursor.current = none ∧ k.cursor.buffer = d.buffer ∧
      ∀ taken, a = .judgeOn taken →
        j.stage = .receiving ∧ ∃ r rest, s.receiver.holding = r :: rest ∧ r.slot = n ∧ r.generation = j.generation)
    (hn : (∀ d a, w ≠ .waitRing d a) → k.cursor.current = none → k.cursor.buffer = none)
    (ht : ((s.setUnpacker { work := w, pool := p }).modifyJob n f).storeLawful) :
    ((s.setUnpacker { work := w, pool := p }).modifyJob n f).lawfulBut x := by
  have htj : ∀ m, ((s.setUnpacker { work := w, pool := p }).modifyJob n f).job m =
      if m = n then some k else s.job m := by
    intro m
    by_cases e : m = n
    · subst e
      rw [State.job_modifyJob_same, if_pos rfl]
      have : (s.setUnpacker { work := w, pool := p }).job m = some j := hj
      rw [this, Option.map_some, hk]
    · rw [if_neg e, State.job_modifyJob_other _ _ _ _ e]
      rfl
  have hrest : ((s.setUnpacker { work := w, pool := p }).modifyJob n f).unpacker = { work := w, pool := p } := rfl
  have hty : (s.setUnpacker { work := w, pool := p }).modifyJob n f =
      (s.setUnpacker { work := w, pool := p }).setJobs ((s.setUnpacker { work := w, pool := p }).modifyJob n f).jobs := rfl
  generalize ((s.setUnpacker { work := w, pool := p }).modifyJob n f).jobs = u at hty
  rw [hty] at htj hrest ⊢
  have back : ∀ m i, ((s.setUnpacker { work := w, pool := p }).setJobs u).job m = some i →
      (m = n ∧ i = k) ∨ (m ≠ n ∧ s.job m = some i) := by
    intro m i hi
    rw [htj] at hi
    by_cases e : m = n
    · rw [if_pos e] at hi; cases hi; exact Or.inl ⟨e, rfl⟩
    · rw [if_neg e] at hi; exact Or.inr ⟨e, hi⟩
  have hnw := Unpacker.waits_false hw
  obtain ⟨h1, h2, h3, h4, h5, h6, h7, h8, h9, _⟩ := h
  refine ⟨h1, ⟨h2.1, fun m => ⟨(h2.2 m).1, fun hr => ?_⟩⟩, h3, fun q hq => ?_, fun m i hi => ?_,
    ⟨fun m i hx hi => ?_, fun y hy => ⟨(h6.2 y hy).1, fun hx => ?_⟩⟩, ⟨fun d a e => ?_, fun m i hi hc hwt => ?_⟩, h8,
    fun b => ?_, hty ▸ ht⟩
  · obtain ⟨i, q1, q2⟩ := (h2.2 m).2 hr
    by_cases e : m = n
    · subst e
      rw [hj] at q1; cases q1
      exact ⟨k, by rw [htj, if_pos rfl], k5.1.trans q2.1, k5.2.trans q2.2⟩
    · exact ⟨i, by rw [htj, if_neg e]; exact q1, q2⟩
  · obtain ⟨a, b, c⟩ := h4 q hq
    refine ⟨a, fun e => ?_, c⟩
    rw [(b e).2 n] at hj; cases hj
  · rcases back m i hi with ⟨_, rfl⟩ | ⟨_, q⟩
    · exact ⟨k1, k2⟩
    · exact h5 m i q
  · rcases back m i hi with ⟨rfl, rfl⟩ | ⟨_, q⟩
    · rw [k3, k4]; exact h6.1 m j hx hj
    · exact h6.1 m i hx q
  · obtain ⟨i, q, e⟩ := (h6.2 y hy).2 hx
    by_cases z : y.slot = n
    · rw [z, hj] at q; cases q
      exact ⟨k, by rw [htj, if_pos z], k4.trans e⟩
    · exact ⟨i, by rw [htj, if_neg z]; exact q, e⟩
  · rw [hrest] at e
    obtain ⟨e1, e2, e3, e4⟩ := hd d a e
    refine ⟨k, by rw [htj, if_pos e1], e2, e3, fun y hy => ?_⟩
    obtain ⟨f1, r, rest, f2, f3, f4⟩ := e4 y hy
    exact ⟨k3.trans f1, r, rest, f2, f3.trans e1.symm, f4.trans k4.symm⟩
  · rcases back m i hi with ⟨rfl, rfl⟩ | ⟨_, q⟩
    · refine hn (fun d a e => ?_) hc
      exact hwt d a (by rw [hrest]; exact e) (hd d a e).1
    · exact h7.2 m i q hc fun d a e => absurd e (hnw d a)
  · have hc := countP_change allSlots (List.nodup_finRange 8) n (List.mem_finRange _) (s.cursorHas b)
      (((s.setUnpacker { work := w, pool := p }).setJobs u).cursorHas b)
      (fun m hm => by simp [State.cursorHas, htj, hm])
    have e1 : (s.cursorHas b n).toNat = bufferAt j.cursor.buffer b := by
      simp only [State.cursorHas, hj, Option.bind_some, bufferAt]
      by_cases e : j.cursor.buffer = some b <;> simp [e]
    have e2 : (((s.setUnpacker { work := w, pool := p }).setJobs u).cursorHas b n).toNat =
        bufferAt k.cursor.buffer b := by
      simp only [State.cursorHas, htj, if_true, Option.bind_some, bufferAt]
      by_cases e : k.cursor.buffer = some b <;> simp [e]
    rw [e1, e2] at hc
    have hz := h9 b
    have hb' := hb b
    unfold State.buffersHeld at hz ⊢
    have : ((s.setUnpacker { work := w, pool := p }).setJobs u).unpacker.pool = p := rfl
    rw [this]
    show p.count b + _ + (List.finRange 32).countP (s.ring.has b) +
      (if s.screener.current.bind (fun c => c.buffer) = some b then 1 else 0) = _
    omega

/-! ## Descriptors -/

/-- A descriptor that waited enters the ring, and the Unpacker takes other work. -/
theorem State.placeWaiting_lawful (h : s.lawfulBut x) {d : Descriptor} {a : AfterRing}
    (hw : s.unpacker.work = .waitRing d a) (hf : s.ring.isFull = false) {w : UnpackWork} (hn : ∀ d a, w ≠ .waitRing d a) :
    ((s.placeDescriptor d).setWork w).lawfulBut x := by
  obtain ⟨h1, h2, h3, h4, h5, h6, h7, h8, h9, h0⟩ := h
  obtain ⟨j, hj, hc, hbu, _⟩ := h7.1 d a hw
  have hbuf : (j.placed d).cursor.buffer = none := by
    unfold Job.placed
    dsimp only
    split
    · rfl
    · rename_i e
      rw [hbu]
      cases hdb : d.buffer <;> simp [hdb] at e ⊢
  have hcur : (j.placed d).cursor.current = none := by
    unfold Job.placed
    dsimp only
    split <;> exact hc
  have htj : ∀ m, ((s.placeDescriptor d).setWork w).job m = if m = d.slot then some (j.placed d) else s.job m := by
    intro m
    show ((s.setRing (s.ring.place d)).modifyJob d.slot fun j => j.placed d).job m = _
    by_cases e : m = d.slot
    · subst e
      rw [State.job_modifyJob_same, if_pos rfl]
      have : (s.setRing (s.ring.place d)).job d.slot = some j := hj
      rw [this]; rfl
    · rw [if_neg e, State.job_modifyJob_other _ _ _ _ e]
      rfl
  have back : ∀ m i, ((s.placeDescriptor d).setWork w).job m = some i →
      (m = d.slot ∧ i = j.placed d) ∨ (m ≠ d.slot ∧ s.job m = some i) := by
    intro m i hi
    rw [htj] at hi
    by_cases e : m = d.slot
    · rw [if_pos e] at hi; cases hi; exact Or.inl ⟨e, rfl⟩
    · rw [if_neg e] at hi; exact Or.inr ⟨e, hi⟩
  refine ⟨h1, ⟨h2.1, fun m => ⟨(h2.2 m).1, fun hr => ?_⟩⟩, h3, fun q hq => ?_, fun m i hi => ?_,
    ⟨fun m i hx hi => ?_, fun y hy => ⟨(h6.2 y hy).1, fun hx => ?_⟩⟩, ⟨fun d' a' e => ?_, fun m i hi hc' hwt => ?_⟩,
    Ring.lawful.place h8 hf d, fun b => ?_,
    h0.placed h8 hf (h0.1.2.2 d a hw) (.of (k := j.placed d) hj (by rw [htj, if_pos rfl])
      (fun m e => by rw [htj, if_neg e])
      (Job.modifyBand_states j d.band (f := fun b => { b with state := .queued }) fun _ => rfl)) rfl hn rfl rfl⟩
  · obtain ⟨i, q1, q2⟩ := (h2.2 m).2 hr
    by_cases e : m = d.slot
    · subst e
      rw [hj] at q1; cases q1
      exact ⟨j.placed d, by rw [htj, if_pos rfl], q2⟩
    · exact ⟨i, by rw [htj, if_neg e]; exact q1, q2⟩
  · obtain ⟨a, b, c⟩ := h4 q hq
    refine ⟨a, fun e => ?_, c⟩
    rw [(b e).2 d.slot] at hj; cases hj
  · rcases back m i hi with ⟨_, rfl⟩ | ⟨_, q⟩
    · exact ⟨(h5 _ j hj).1, fun c hcc => by rw [hcur] at hcc; cases hcc⟩
    · exact h5 m i q
  · rcases back m i hi with ⟨rfl, rfl⟩ | ⟨_, q⟩
    · exact h6.1 _ j hx hj
    · exact h6.1 m i hx q
  · obtain ⟨i, q, e⟩ := (h6.2 y hy).2 hx
    by_cases z : y.slot = d.slot
    · rw [z, hj] at q; cases q
      exact ⟨j.placed d, by rw [htj, if_pos z], e⟩
    · exact ⟨i, by rw [htj, if_neg z]; exact q, e⟩
  · exact absurd e (hn d' a')
  · rcases back m i hi with ⟨_, rfl⟩ | ⟨e, q⟩
    · exact hbuf
    · refine h7.2 m i q hc' fun d' a' z => ?_
      rw [hw] at z; cases z
      exact Ne.symm e
  · have hcc := countP_change allSlots (List.nodup_finRange 8) d.slot (List.mem_finRange _) (s.cursorHas b)
      (((s.placeDescriptor d).setWork w).cursorHas b) (fun m hm => by simp [State.cursorHas, htj, hm])
    have e1 : (s.cursorHas b d.slot).toNat = if d.buffer = some b then 1 else 0 := by
      simp only [State.cursorHas, hj, Option.bind_some, hbu]
      by_cases e : d.buffer = some b <;> simp [e]
    have e2 : (((s.placeDescriptor d).setWork w).cursorHas b d.slot).toNat = 0 := by
      simp only [State.cursorHas, htj, if_true, Option.bind_some, hbuf]
      simp
    rw [e1, e2] at hcc
    have hz := h9 b
    unfold State.buffersHeld at hz ⊢
    show s.unpacker.pool.count b + _ + (List.finRange 32).countP ((s.ring.place d).has b) +
      (if s.screener.current.bind (fun c => c.buffer) = some b then 1 else 0) = _
    rw [Ring.place_has h8 hf]
    omega

/-- A descriptor offered where the wait for ring room would be lawful. -/
theorem State.offerDescriptor_lawful (hw : s.unpacker.waitsForRing = false) {d : Descriptor} {a : AfterRing}
    (h : (s.setWork (.waitRing d a)).lawfulBut x) : (s.offerDescriptor d a).lawfulBut x := by
  unfold State.offerDescriptor
  split
  · exact h
  · rename_i hf
    have hf' : (s.setWork (.waitRing d a)).ring.isFull = false := by
      show s.ring.isFull = false
      simpa using hf
    exact State.placeWaiting_lawful h rfl hf' (w := s.unpacker.work) (Unpacker.waits_false hw)

/-! ## The Unpacker at work on the head record -/

/-- The Unpacker does not wait for ring room, and the record at the head is of the slot's job, in RECEIVING. -/
def State.Acts (s : State) (n : Slot) : Prop :=
  s.unpacker.waitsForRing = false ∧ ∃ j r rest, s.job n = some j ∧ j.stage = .receiving ∧
    s.receiver.holding = r :: rest ∧ r.slot = n ∧ r.generation = j.generation

theorem State.endBand_lawful (h : s.lawfulBut x) (hw : s.unpacker.waitsForRing = false) {n : Slot} (b : Nat)
    {after : AfterRing} (ha : ∀ taken, after = .judgeOn taken → s.Acts n)
    (ho : ∀ j, s.job n = some j → (j.band b).state = .awaited ∨ (j.band b).state = .decoding) :
    (s.endBand n b after).lawfulBut x := by
  unfold State.endBand
  split
  · exact h
  · rename_i j hj
    have hj5 := h.2.2.2.2.1 n j hj
    have act : ∀ taken, after = .judgeOn taken →
        j.stage = .receiving ∧ ∃ r rest, s.receiver.holding = r :: rest ∧ r.slot = n ∧ r.generation = j.generation := by
      intro t ht
      obtain ⟨_, k, r, rest, a1, a2, a3, a4, a5⟩ := ha t ht
      rw [hj] at a1; cases a1
      exact ⟨a2, r, rest, a3, a4, a5⟩
    have hd : (s.bandStates n)[b]? = some .awaited ∨ (s.bandStates n)[b]? = some .decoding := by
      rw [State.bandStates_of hj]
      exact (ho j hj).imp (fun e => Job.band_at e (by simp)) fun e => Job.band_at e (by simp)
    dsimp only
    split
    · refine State.offerDescriptor_lawful (s := (s.returnBuffer j.cursor.buffer).modifyJob n
        fun j => { j with cursor := UnpackCursor.empty }) hw ?_
      refine State.setCursor_lawful (k := { j with cursor := UnpackCursor.empty })
        (f := fun j => { j with cursor := UnpackCursor.empty }) (w := .waitRing _ after) h hw hj rfl hj5.1
        (fun c hc => by cases hc) rfl rfl ⟨rfl, rfl⟩ (fun b => ?_) (fun d a e => ?_) (fun _ _ => rfl) (h.store.waits hd
          (State.bandStates_modifyJob (s := s.setUnpacker _) fun _ _ => rfl) rfl rfl ?_ rfl)
      · show ((j.cursor.buffer.map (insertSorted s.unpacker.pool)).getD s.unpacker.pool).count b + 0 = _
        cases hbuf : j.cursor.buffer with
        | none => simp [bufferAt]
        | some y =>
          have hz := h.2.2.2.2.2.2.2.2.1 y
          have hy : s.unpacker.pool.count y = 0 := by
            unfold State.buffersHeld at hz
            have : 0 < allSlots.countP (s.cursorHas y) := by
              rw [List.countP_pos_iff]
              exact ⟨n, List.mem_finRange _, by simp [State.cursorHas, hj, hbuf]⟩
            have : (if y < Config.bandBuffers then 1 else 0) ≤ 1 := by split <;> omega
            omega
          simp only [Option.map_some, Option.getD_some, Nat.add_zero]
          rw [count_insertSorted (not_mem_of_count hy)]
          simp [bufferAt]
      · cases e
        exact ⟨rfl, rfl, rfl, act⟩
      · show ((j.cursor.buffer.map (insertSorted s.unpacker.pool)).getD s.unpacker.pool).Pairwise (· < ·)
        cases j.cursor.buffer with
        | none => exact h.store.2.2.1
        | some y => exact insertSorted_rises h.store.2.2.1 y
    · refine State.offerDescriptor_lawful (s := s.modifyJob n fun j => { j with cursor := j.cursor.ended }) hw ?_
      refine State.setCursor_lawful (k := { j with cursor := j.cursor.ended })
        (f := fun j => { j with cursor := j.cursor.ended }) (w := .waitRing _ after) h hw hj rfl hj5.1
        (fun c hc => by cases hc) rfl rfl ⟨rfl, rfl⟩ (fun b => rfl) (fun d a e => ?_) (fun e _ => ?_)
        (h.store.waits hd (State.bandStates_modifyJob (s := s.setUnpacker _) fun _ _ => rfl) rfl rfl h.store.2.2.1 rfl)
      · cases e
        exact ⟨rfl, rfl, rfl, act⟩
      · exact absurd rfl (e _ _)

/-- What the end of a band leaves where the Unpacker does not wait: the holding queue as it was, the band QUEUED and no
current band. -/
theorem State.endBand_spec (s : State) (n : Slot) (b : Nat) (after : AfterRing) {j : Job} (hj : s.job n = some j) :
    (s.endBand n b after).receiver = s.receiver ∧ ((s.endBand n b after).unpacker.waitsForRing = false →
      ∃ k, (s.endBand n b after).job n = some k ∧ k.stage = j.stage ∧ k.generation = j.generation ∧
        k.cursor.current = none ∧ k.bands = (j.modifyBand b fun e => { e with state := .queued }).bands) := by
  have key : ∀ (t : State) (k : Job) (d : Descriptor), t.job n = some k → d.slot = n → d.band = b →
      t.receiver = s.receiver → k.stage = j.stage → k.generation = j.generation → k.cursor.current = none →
      k.bands = j.bands →
      (t.offerDescriptor d after).receiver = s.receiver ∧ ((t.offerDescriptor d after).unpacker.waitsForRing = false →
        ∃ k, (t.offerDescriptor d after).job n = some k ∧ k.stage = j.stage ∧ k.generation = j.generation ∧
          k.cursor.current = none ∧ k.bands = (j.modifyBand b fun e => { e with state := .queued }).bands) := by
    intro t k d hk hd hb hr k1 k2 k3 k4
    unfold State.offerDescriptor
    split
    · exact ⟨hr, fun e => by cases e⟩
    · refine ⟨hr, fun _ => ⟨k.placed d, ?_, k1, k2, ?_, ?_⟩⟩
      · have : (t.setRing (t.ring.place d)).job n = some k := hk
        unfold State.placeDescriptor
        rw [hd, State.job_modifyJob_same, this]
        rfl
      · unfold Job.placed
        dsimp only
        split <;> exact k3
      · show (k.modifyBand d.band fun e => { e with state := .queued }).bands = _
        unfold Job.modifyBand
        dsimp only
        rw [k4, hb]
  unfold State.endBand
  rw [hj]
  dsimp only
  split
  · refine key _ { j with cursor := UnpackCursor.empty } _ ?_ rfl rfl rfl rfl rfl rfl rfl
    have : (s.returnBuffer j.cursor.buffer).job n = some j := hj
    rw [State.job_modifyJob_same, this]
    rfl
  · refine key _ { j with cursor := j.cursor.ended } _ ?_ rfl rfl rfl rfl rfl rfl rfl
    rw [State.job_modifyJob_same, hj]
    rfl

/-! ## Band order -/

@[simp] theorem State.reportGap_lawful (h : s.lawfulBut x) (n : Slot) (b : Nat) : (s.reportGap n b).lawfulBut x := by
  unfold State.reportGap
  split
  · exact State.markDamage_lawful h _ _ _ _ _
  · exact h

/-- A GAP report changes no more of a job than its marks. -/
theorem State.reportGap_spec (s : State) (n : Slot) (b : Nat) {j : Job} (hj : s.job n = some j) :
    (s.reportGap n b).receiver = s.receiver ∧ (s.reportGap n b).unpacker = s.unpacker ∧
      ∃ k, (s.reportGap n b).job n = some k ∧ k.stage = j.stage ∧ k.generation = j.generation ∧
        k.bands.length = j.bands.length ∧ ∀ a, (k.band a).state = (j.band a).state := by
  unfold State.reportGap
  split
  · refine ⟨rfl, rfl, ?_⟩
    unfold State.markDamage
    rw [State.job_modifyJob_same, hj]
    refine ⟨_, rfl, ?_⟩
    dsimp only
    split
    · refine ⟨rfl, rfl, by simp [Job.mark], fun a => ?_⟩
      have e : (j.mark b .gap none none).band a =
          (j.modifyBand b fun e => { e with kind := e.kind.or (some .gap) }).band a := rfl
      rw [e, Job.band_modifyBand]
      split <;> rfl
    · exact ⟨rfl, rfl, rfl, fun _ => rfl⟩
  · exact ⟨rfl, rfl, j, hj, rfl, rfl, rfl, fun _ => rfl⟩

/-- The state of a job's bands below a number, once they are ended: none AWAITED, and no current band below another
number. -/
def State.BandsEnded (s : State) (n : Slot) (length below current : Nat) : Prop :=
  ∃ j, s.job n = some j ∧ j.bands.length = length ∧
    (∀ a, a < below → a < length → (j.band a).state ≠ .awaited) ∧ ∀ c, j.cursor.current = some c → current ≤ c

/-- A band ended as a gap: the Unpacker waits for ring room, or it goes on with the same record. -/
theorem State.endAsGap_lawful (h : s.lawfulBut x) {n : Slot} (ha : s.Acts n) (b : Nat) (taken : Option DamageKind)
    (ho : ∀ j, s.job n = some j → (j.band b).state = .awaited ∨ (j.band b).state = .decoding) :
    (s.endAsGap n b taken).lawfulBut x := by
  obtain ⟨hw, j, r, rest, a1, a2, a3, a4, a5⟩ := ha
  obtain ⟨g1, g2, k, k1, k2, k3, _, k5⟩ := State.reportGap_spec s n b a1
  refine State.endBand_lawful (State.reportGap_lawful h n b) (by rw [g2]; exact hw) b (fun _ _ => ?_) fun i hi => ?_
  rotate_left
  · rw [k1] at hi; cases hi
    rw [k5]; exact ho j a1
  exact ⟨by rw [g2]; exact hw, k, r, rest, k1, k2.trans a2, by rw [g1]; exact a3, a4, a5.trans k3.symm⟩

theorem State.endAsGap_spec {n : Slot} (ha : s.Acts n) {j : Job} (hj : s.job n = some j) (b : Nat)
    (taken : Option DamageKind) (hw : (s.endAsGap n b taken).unpacker.waitsForRing = false) :
    (s.endAsGap n b taken).Acts n ∧ ∃ k, (s.endAsGap n b taken).job n = some k ∧ k.bands.length = j.bands.length ∧
      k.cursor.current = none ∧
      ∀ a, (k.band a).state = if a = b ∧ b < j.bands.length then .queued else (j.band a).state := by
  obtain ⟨_, j', r, rest, a1, a2, a3, a4, a5⟩ := ha
  rw [hj] at a1; cases a1
  obtain ⟨g1, _, i, i1, i2, i3, i4, i5⟩ := State.reportGap_spec s n b hj
  obtain ⟨e1, e2⟩ := State.endBand_spec (s.reportGap n b) n b (.judgeOn taken) i1
  obtain ⟨k, k1, k2, k3, k4, k5⟩ := e2 hw
  refine ⟨⟨hw, k, r, rest, k1, k2.trans (i2.trans a2), ?_, a4, a5.trans (k3.trans i3).symm⟩, k, k1, ?_, k4,
    fun a => ?_⟩
  · exact (congrArg Receiver.holding (e1.trans g1)).trans a3
  · rw [k5]; simp [i4]
  · have e : k.band a = (i.modifyBand b fun e => { e with state := .queued }).band a := by
      unfold Job.band; rw [k5]
    rw [e, Job.band_modifyBand, i4]
    split
    · rfl
    · exact i5 a

theorem State.BandsEnded.mono {n : Slot} {l a b c : Nat} (h : s.BandsEnded n l a c) (hb : b ≤ a) :
    s.BandsEnded n l b c := by
  obtain ⟨j, h1, h2, h3, h4⟩ := h
  exact ⟨j, h1, h2, fun i hi => h3 i (Nat.lt_of_lt_of_le hi hb), h4⟩

/-- The band order keeps the laws; where the Unpacker does not wait, the bands below are ended. -/
theorem State.orderBands_lawful (h : s.lawfulBut x) {n : Slot} (ha : s.Acts n) (b : Nat) (taken : Option DamageKind) :
    (s.orderBands n b taken).lawfulBut x ∧ ((s.orderBands n b taken).unpacker.waitsForRing = false →
      (s.orderBands n b taken).Acts n ∧
        (s.orderBands n b taken).BandsEnded n (((s.job n).map Job.bandCount).getD 0) b b) := by
  obtain ⟨hw, j, r, rest, a1, a2, a3, a4, a5⟩ := ha
  have ha : s.Acts n := ⟨hw, j, r, rest, a1, a2, a3, a4, a5⟩
  have hl : ((s.job n).map Job.bandCount).getD 0 = j.bands.length := by rw [a1]; rfl
  rw [hl]
  have first : (s.endCurrentBelow n b taken).lawfulBut x ∧
      ((s.endCurrentBelow n b taken).unpacker.waitsForRing = false → (s.endCurrentBelow n b taken).Acts n ∧
        (s.endCurrentBelow n b taken).BandsEnded n j.bands.length 0 b) := by
    have hcur : s.currentBand n = j.cursor.current := by unfold State.currentBand; rw [a1]; rfl
    have self : ∀ c, (∀ c', j.cursor.current = some c' → c ≤ c') → s.BandsEnded n j.bands.length 0 c := fun c hc =>
      ⟨j, a1, rfl, fun a q => absurd q (Nat.not_lt_zero a), hc⟩
    unfold State.endCurrentBelow
    split
    · rename_i c hc
      rw [hcur] at hc
      split
      · have hcur : ∀ i, s.job n = some i → (i.band c).state = .awaited ∨ (i.band c).state = .decoding := fun i hi => by
          rw [a1] at hi; cases hi
          exact Or.inr ((h.2.2.2.2.1 n j a1).2 c hc).2.2
        refine ⟨State.endAsGap_lawful h ha c taken hcur, fun q => ?_⟩
        obtain ⟨b1, k, k1, k2, k3, _⟩ := State.endAsGap_spec ha a1 c taken q
        exact ⟨b1, k, k1, k2, fun a q => absurd q (Nat.not_lt_zero a), fun c' q' => by rw [k3] at q'; cases q'⟩
      · rename_i hn
        exact ⟨h, fun _ => ⟨ha, self b fun c' q => by rw [hc] at q; cases q; omega⟩⟩
    · rename_i hc
      rw [hcur] at hc
      exact ⟨h, fun _ => ⟨ha, self b fun c' q => by rw [hc] at q; cases q⟩⟩
  have rest : ∀ k, ((List.range k).foldl (State.endIfAwaited n taken) (s.endCurrentBelow n b taken)).lawfulBut x ∧
      (((List.range k).foldl (State.endIfAwaited n taken)
        (s.endCurrentBelow n b taken)).unpacker.waitsForRing = false →
        ((List.range k).foldl (State.endIfAwaited n taken) (s.endCurrentBelow n b taken)).Acts n ∧
        ((List.range k).foldl (State.endIfAwaited n taken)
          (s.endCurrentBelow n b taken)).BandsEnded n j.bands.length k b) := by
    intro k
    induction k with
    | zero => exact first
    | succ k ih =>
      rw [List.range_succ, List.foldl_append]
      generalize (List.range k).foldl (State.endIfAwaited n taken) (s.endCurrentBelow n b taken) = t at ih
      obtain ⟨ih1, ih2⟩ := ih
      show (State.endIfAwaited n taken t k).lawfulBut x ∧ ((State.endIfAwaited n taken t k).unpacker.waitsForRing = false →
        (State.endIfAwaited n taken t k).Acts n ∧ (State.endIfAwaited n taken t k).BandsEnded n j.bands.length (k + 1) b)
      unfold State.endIfAwaited
      by_cases q : t.unpacker.waitsForRing = false
      · obtain ⟨t1, i, i1, i2, i3, i4⟩ := ih2 q
        by_cases p : (i.band k).state = .awaited
        · rw [if_pos (by rw [q, i1]; simpa using p)]
          refine ⟨State.endAsGap_lawful ih1 t1 k taken fun m hm => by rw [i1] at hm; cases hm; exact Or.inl p, fun q' => ?_⟩
          obtain ⟨b1, m, m1, m2, m3, m4⟩ := State.endAsGap_spec t1 i1 k taken q'
          refine ⟨b1, m, m1, m2.trans i2, fun a u v => ?_, fun c' q' => by rw [m3] at q'; cases q'⟩
          rw [m4]
          split
          · simp
          · rename_i hne
            refine i3 a ?_ v
            by_cases e : a = k
            · exact absurd ⟨e, by rw [i2, ← e]; exact v⟩ hne
            · omega
        · rw [if_neg (by rw [q, i1]; simpa using p)]
          refine ⟨ih1, fun _ => ⟨t1, i, i1, i2, fun a u v => ?_, i4⟩⟩
          by_cases e : a = k
          · rw [e]; exact p
          · exact i3 a (by omega) v
      · have q1 : t.unpacker.waitsForRing = true := by simpa using q
        rw [if_neg (by rw [q1]; simp)]
        exact ⟨ih1, fun z => absurd z q⟩
  exact rest b

/-! ## Fragments -/

theorem State.discardHead_lawful (h : s.lawfulBut x) (hw : s.unpacker.waitsForRing = false) :
    s.discardHead.lawfulBut x := State.finishHead_lawful (State.raise_lawful h _) hw

theorem State.endAndDiscard_lawful (h : s.lawfulBut x) {n : Slot} (ha : s.Acts n) (b : Nat) (taken : Option DamageKind)
    (ho : ∀ j, s.job n = some j → (j.band b).state = .awaited ∨ (j.band b).state = .decoding) :
    (s.endAndDiscard n b taken).lawfulBut x := by
  have h1 := State.endAsGap_lawful h ha b taken ho
  unfold State.endAndDiscard
  dsimp only
  split
  · exact h1
  · rename_i q
    exact State.discardHead_lawful h1 (by simpa using q)

/-- A band that is AWAITED is a band of the plate. -/
theorem Job.awaited_lt {j : Job} {b : Nat} (h : (j.band b).state = .awaited) : b < j.bands.length := by
  rcases Nat.lt_or_ge b j.bands.length with k | k
  · exact k
  · simp [Job.band, List.getD_eq_getElem?_getD, List.getElem?_eq_none k] at h

/-- A band begun: its job has no current band, it is a band of the plate and every band below it is ended. -/
theorem State.beginBand_lawful (h : s.lawfulBut x) (hw : s.unpacker.waitsForRing = false) {n : Slot} {b : Nat} {j : Job}
    (hj : s.job n = some j) (hb : b < j.bands.length) (ha : (j.band b).state = .awaited) (hc : j.cursor.current = none)
    (ho : ∀ a, a < b → (j.band a).state ≠ .awaited) : (s.beginBand n b).lawfulBut x := by
  unfold State.beginBand
  split
  · exact State.setWork_lawful h hw (by simp)
  · rename_i y rest hp
    have hj5 := h.2.2.2.2.1 n j hj
    have hbuf : j.cursor.buffer = none :=
      h.2.2.2.2.2.2.1.2 n j hj hc fun d a e => absurd e (Unpacker.waits_false hw d a)
    refine State.setCursor_lawful (j := j)
      (k := { j.modifyBand b fun e => { e with state := .decoding } with
        cursor := { current := some b, nextPart := 0, pixels := 0, buffer := some y } }) (w := .decoding) (p := rest)
      (f := fun j => { j.modifyBand b fun e => { e with state := .decoding } with
        cursor := { current := some b, nextPart := 0, pixels := 0, buffer := some y } })
      h hw hj rfl hj5.1 (fun c q => ?_) rfl rfl ⟨rfl, rfl⟩ (fun c => ?_) (fun d a e => by cases e) (fun _ e => by cases e)
      (h.store.begun (n := n) (b := b) (by rw [State.bandStates_of hj]; exact Job.band_at ha (by simp))
        (.of (k := { j.modifyBand b fun e => { e with state := .decoding } with
          cursor := { current := some b, nextPart := 0, pixels := 0, buffer := some y } }) hj
          (by rw [State.job_modifyJob_same,
                show (s.setUnpacker { work := .decoding, pool := rest }).job n = some j from hj]; rfl)
          (fun m e => State.job_modifyJob_other _ _ _ _ e) (Job.modifyBand_states j b (f := fun e => { e with state := .decoding }) fun _ => rfl))
        rfl (fun _ _ e => by cases e) hp rfl rfl)
    · cases q
      refine ⟨by simpa using hb, fun a q => ?_, ?_⟩
      rotate_left
      · show ((j.modifyBand b fun e => { e with state := .decoding }).band b).state = .decoding
        rw [Job.band_modifyBand, if_pos ⟨rfl, hb⟩]
      show ((j.modifyBand b fun e => { e with state := .decoding }).band a).state ≠ .awaited
      rw [Job.band_modifyBand]
      split
      · simp
      · rename_i hne
        exact ho a (by by_cases e : a = b <;> [exact absurd ⟨e, hb⟩ hne; omega])
    · rw [hp, hbuf, List.count_cons]
      simp [bufferAt]

theorem State.judgeBand_lawful (h : s.lawfulBut x) {n : Slot} (ha : s.Acts n) (b part : Nat) (taken : Option DamageKind)
    {l : Nat} (ho : s.BandsEnded n l b b) : (s.judgeBand n b part taken).lawfulBut x := by
  obtain ⟨j, hj, o1, o2, o3⟩ := ho
  unfold State.judgeBand
  rw [hj]
  dsimp only
  split
  · exact State.discardHead_lawful h ha.1
  · exact State.discardHead_lawful h ha.1
  · exact State.discardHead_lawful h ha.1
  · rename_i hst
    split
    · exact State.endAndDiscard_lawful h ha b taken fun i hi => by rw [hj] at hi; cases hi; exact Or.inr hst
    · exact State.setWork_lawful h ha.1 (by simp)
  · rename_i hst
    split
    · exact State.discardHead_lawful h ha.1
    · split
      · have hb := Job.awaited_lt hst
        refine State.beginBand_lawful h ha.1 hj hb hst ?_ fun a q => o2 a q (by omega)
        cases hc : j.cursor.current with
        | none => rfl
        | some c => exact absurd hst (((h.2.2.2.2.1 n j hj).2 c hc).2.1 b (o3 c hc))
      · exact State.endAndDiscard_lawful h ha b taken fun i hi => by rw [hj] at hi; cases hi; exact Or.inl hst

theorem State.judgeFragment_lawful (h : s.lawfulBut x) {n : Slot} (ha : s.Acts n) (b part : Nat)
    (taken : Option DamageKind) : (s.judgeFragment n b part taken).lawfulBut x := by
  obtain ⟨h1, h2⟩ := State.orderBands_lawful h ha b taken
  unfold State.judgeFragment
  dsimp only
  split
  · exact h1
  · rename_i q
    obtain ⟨a1, a2⟩ := h2 (by simpa using q)
    exact State.judgeBand_lawful h1 a1 b part taken a2

/-! ## End markers -/

theorem State.processEnd_lawful (h : s.lawfulBut x) {n : Slot} (ha : s.Acts n) : (s.processEnd n).lawfulBut x := by
  obtain ⟨hw, j, _, _, a1, a2, _⟩ := ha
  refine State.assessIfComplete_lawful (State.finishHead_lawful (State.setStage_lawful h n (fun k hk => ?_)
    fun d a e => absurd e (Unpacker.waits_false hw d a)) hw) n
  rw [a1] at hk; cases hk
  exact ⟨⟨id, id, Iff.rfl, Iff.rfl, rfl, rfl, rfl, id, id⟩, by simp, by simp, Or.inr (by rw [a2]; simp), fun _ => rfl⟩

theorem State.judgeEnd_lawful (h : s.lawfulBut x) {n : Slot} (ha : s.Acts n) : (s.judgeEnd n).lawfulBut x := by
  obtain ⟨h1, h2⟩ := State.orderBands_lawful h ha (((s.job n).map Job.bandCount).getD 0) none
  unfold State.judgeEnd
  dsimp only
  split
  · exact h1
  · rename_i q
    exact State.processEnd_lawful h1 (h2 (by simpa using q)).1

/-! ## Taking records -/

theorem State.actOn_lawful (h : s.lawfulBut x) {r : HoldingRecord} (ha : s.Acts r.slot) (taken : Option DamageKind) :
    (s.actOn r taken).lawfulBut x := by
  unfold State.actOn
  split
  · exact State.judgeFragment_lawful h ha _ _ _
  · exact State.judgeEnd_lawful h ha

/-- A record that is not stale is of a live job in RECEIVING. -/
theorem State.isStale_false {r : HoldingRecord} (h : s.isStale r = false) :
    ∃ j, s.job r.slot = some j ∧ j.generation = r.generation ∧ j.stage = .receiving := by
  unfold State.isStale at h
  cases hj : s.job r.slot with
  | none => rw [hj] at h; simp at h
  | some j => rw [hj] at h; simp at h; exact ⟨j, rfl, h⟩

theorem State.takeHead_lawful (h : s.lawfulBut x) (hw : s.unpacker.waitsForRing = false) : s.takeHead.lawfulBut x := by
  unfold State.takeHead
  split
  · exact h
  · rename_i r rest hr
    split
    · exact State.reportStale_lawful (State.finishHead_lawful h hw)
    · rename_i q
      obtain ⟨j, j1, j2, j3⟩ := State.isStale_false (by simpa using q)
      exact State.actOn_lawful h ⟨hw, j, r, rest, j1, j3, hr, rfl, j2.symm⟩ _

/-! ## Decoding -/

theorem State.endDecoding_lawful (h : s.lawfulBut x) (hw : s.unpacker.waitsForRing = false) (n : Slot) (b : Nat)
    (ho : ∀ j, s.job n = some j → (j.band b).state = .awaited ∨ (j.band b).state = .decoding) :
    (s.endDecoding n b).lawfulBut x := by
  have h1 : (s.endBand n b .recordDone).lawfulBut x := State.endBand_lawful h hw b (fun _ e => by cases e) ho
  unfold State.endDecoding
  dsimp only
  split
  · exact h1
  · rename_i q
    exact State.finishHead_lawful h1 (by simpa using q)

theorem State.partDecoded_lawful (h : s.lawfulBut x) (hw : s.unpacker.waitsForRing = false) :
    s.partDecoded.lawfulBut x := by
  unfold State.partDecoded
  split
  · exact h
  · split
    · rename_i j _ hj
      split
      · rename_i b buffer hc _
        have ho : (j.band b).state = .decoding := ((h.2.2.2.2.1 _ j hj).2 b hc).2.2
        unfold State.decodePart
        dsimp only
        have h1 : ∀ f, (s.setFrame f).lawfulBut x := fun f => State.setFrame_lawful h f
        unfold State.endPart
        split
        · refine State.endDecoding_lawful (State.markDamage_lawful (h1 _) _ _ _ _ _) (by exact hw) _ _ fun i hi => ?_
          unfold State.markDamage at hi
          rw [State.job_modifyJob_same, Option.map_eq_some_iff] at hi
          obtain ⟨k, hk, rfl⟩ := hi
          cases hj.symm.trans hk
          right
          split
          · rw [Job.mark_band]; exact ho
          · exact ho
        · refine State.endDecoding_lawful (State.raise_lawful (h1 _) _) (by exact hw) _ _ fun i hi => Or.inr ?_
          cases hj.symm.trans hi
          exact ho
        · exact State.finishHead_lawful (State.modifyJob_lawful (h1 _) _ fun _ _ =>
            ⟨id, id, Iff.rfl, Iff.rfl, rfl, rfl, rfl, id, id⟩) hw
      · exact h
    · exact h

/-! ## The wait for ring room ends -/

theorem State.resumeAfterRing_lawful (h : s.lawfulBut x) {d : Descriptor} {a : AfterRing}
    (hw : s.unpacker.work = .waitRing d a) (hf : s.ring.isFull = false) : (s.resumeAfterRing d a).lawfulBut x := by
  have h1 : ((s.placeDescriptor d).setWork .free).lawfulBut x := State.placeWaiting_lawful h hw hf (by simp)
  obtain ⟨j, q1, q2, q3, q4⟩ := h.2.2.2.2.2.2.1.1 d a hw
  unfold State.resumeAfterRing
  dsimp only
  have hr : ((s.placeDescriptor d).setWork .free).receiver = s.receiver := rfl
  have hj : ((s.placeDescriptor d).setWork .free).job d.slot = some (j.placed d) := by
    show ((s.setRing (s.ring.place d)).modifyJob d.slot fun j => j.placed d).job d.slot = _
    have : (s.setRing (s.ring.place d)).job d.slot = some j := q1
    rw [State.job_modifyJob_same, this]; rfl
  have hwt : ((s.placeDescriptor d).setWork .free).unpacker.waitsForRing = false := rfl
  generalize (s.placeDescriptor d).setWork .free = t at h1 hr hj hwt
  split
  · exact State.finishHead_lawful h1 hwt
  · exact h1
  · rename_i taken r rest hrest
    rw [hr] at hrest
    obtain ⟨r1, r', rest', r2, r3, r4⟩ := q4 taken rfl
    rw [hrest] at r2
    cases r2
    rw [← r3] at hj
    exact State.actOn_lawful h1 ⟨hwt, j.placed d, r, rest, hj, r1, by rw [hr]; exact hrest, rfl, r4⟩ _

end Sys2Proof.Machine
end

