-- ==== Sys2Proof/Laws/PathSteps.lean ====
section
/-! SUPPORT. The operations of the Screener, of the Imager, of the configuration loader and of the Maintenance Port keep
the laws of owners, of the holding queue, of the Imager's job and of the band buffers. -/

namespace Sys2Proof.Machine

variable {x : Option Slot} {s : State}

/-! ## The Screener -/

/-- A buffer that some place other than the pool has is counted there once it returns. -/
theorem count_returned {l : List Nat} {c : Option Nat} (h : ∀ b, c = some b → l.count b = 0) (b : Nat) :
    ((c.map (insertSorted l)).getD l).count b = l.count b + if c = some b then 1 else 0 := by
  cases c with
  | none => simp
  | some y =>
    simp only [Option.map_some, Option.getD_some]
    rw [count_insertSorted (not_mem_of_count (h y rfl))]
    simp

/-- The number of places that a buffer is in is at most one. -/
theorem State.pathLawfulBut.held_le (h : s.pathLawfulBut x) (b : Nat) : s.buffersHeld b ≤ 1 := by
  have := h.2.2.2.2.2.2.2.2 b
  rw [this]; split <;> omega

/-- A rising list to which a buffer, if there is one, returns. -/
theorem returned_rises {l : List Nat} (h : l.Pairwise (· < ·)) (c : Option Nat) :
    ((c.map (insertSorted l)).getD l).Pairwise (· < ·) := by
  cases c with
  | none => exact h
  | some y => exact insertSorted_rises h y

/-- The descriptor at the consumer index leaves the ring and its buffer returns. -/
theorem State.advanceReturn_lawful (h : s.lawfulBut x) (he : s.ring.isEmpty = false) {d : Descriptor}
    (hd : s.ring.entries[s.ring.consumer].descriptor = some d) :
    ((s.setRing s.ring.advance).returnBuffer d.buffer).lawfulBut x := by
  have hle := h.path.held_le
  obtain ⟨h1, h2, h3, h4, h5, h6, h7, h8, h9, h0⟩ := h
  refine ⟨h1, h2, h3, h4, h5, h6, h7, h8.advance he, fun b => ?_, h0.of (fun _ => rfl)
    (fun i d e => (Ring.takes_advance he e).2) (fun _ _ => id) (returned_rises h0.2.2.1 _) rfl rfl⟩
  have hz := h9 b
  have ha := Ring.advance_has he hd
  unfold State.buffersHeld at hz hle ⊢
  show (((d.buffer.map (insertSorted s.unpacker.pool)).getD s.unpacker.pool)).count b + allSlots.countP (s.cursorHas b) +
    (List.finRange 32).countP (s.ring.advance.has b) +
      (if s.screener.current.bind (fun c => c.buffer) = some b then 1 else 0) = _
  rw [count_returned fun y hy => ?_]
  · have := ha b
    omega
  · have := ha y
    rw [if_pos hy] at this
    have := hle y
    omega

/-- The descriptor at the consumer index becomes the current band. -/
theorem State.advanceTake_path (h : s.pathLawfulBut x) (he : s.ring.isEmpty = false) {d : Descriptor}
    (hd : s.ring.entries[s.ring.consumer].descriptor = some d) (hc : s.screener.current = none) {c : CurrentBand}
    (hb : c.buffer = d.buffer) (store : List Nat) :
    ((s.setRing s.ring.advance).setScreener { current := some c, store := store }).pathLawfulBut x := by
  obtain ⟨h1, h2, h3, h4, h5, h6, h7, h8, h9⟩ := h
  refine ⟨h1, h2, h3, h4, h5, h6, h7, h8.advance he, fun b => ?_⟩
  have hz := h9 b
  have ha := Ring.advance_has he hd b
  unfold State.buffersHeld at hz ⊢
  rw [hc] at hz
  show s.unpacker.pool.count b + allSlots.countP (s.cursorHas b) + (List.finRange 32).countP (s.ring.advance.has b) +
      (if c.buffer = some b then 1 else 0) = _
  rw [hb]
  simp only [Option.bind_none] at hz
  simp at hz
  omega

/-- The current band ends and its buffer returns. -/
theorem State.releaseCurrent_path (h : s.pathLawfulBut x) {c : CurrentBand} (hc : s.screener.current = some c) :
    ((s.setScreener { s.screener with current := none }).returnBuffer c.buffer).pathLawfulBut x := by
  have hle := h.held_le
  obtain ⟨h1, h2, h3, h4, h5, h6, h7, h8, h9⟩ := h
  refine ⟨h1, h2, h3, h4, h5, h6, h7, h8, fun b => ?_⟩
  have hz := h9 b
  unfold State.buffersHeld at hz hle ⊢
  rw [hc] at hz hle
  show (((c.buffer.map (insertSorted s.unpacker.pool)).getD s.unpacker.pool)).count b + allSlots.countP (s.cursorHas b) +
    (List.finRange 32).countP (s.ring.has b) + (if (none : Option Nat) = some b then 1 else 0) = _
  simp only [Option.bind_some] at hz hle
  rw [count_returned fun y hy => ?_]
  · simp
    omega
  · have := hle y
    rw [if_pos hy] at this
    omega

/-- One band of a job, not in DECODING, put in a state other than AWAITED. -/
theorem Job.modifyBand_tame (j : Job) (b : Nat) {f : Band → Band} (hf : ∀ e, (f e).state ≠ .awaited)
    (hd : (j.band b).state ≠ .decoding) : j.Tame (j.modifyBand b f) := by
  refine ⟨id, fun h c hc => ?_, Iff.rfl, Iff.rfl, rfl, rfl, rfl, id, id⟩
  obtain ⟨h1, h2, h3⟩ := h c hc
  refine ⟨by simpa using h1, fun a ha => ?_, ?_⟩
  · rw [Job.band_modifyBand]
    split
    · exact hf _
    · exact h2 a ha
  · rw [Job.band_modifyBand]
    split
    · rename_i e; exact absurd (e.1 ▸ h3) hd
    · exact h3

theorem State.takeEntry_lawful (h : s.lawfulBut x) (he : s.ring.isEmpty = false) {d : Descriptor}
    (hd : s.ring.entries[s.ring.consumer].descriptor = some d) (hc : s.screener.current = none) :
    (s.takeEntry d).lawfulBut x := by
  unfold State.takeEntry
  split
  · exact State.advanceReturn_lawful h he hd
  · rename_i hv
    split
    · rename_i j y rest hj hst
      have ht : s.ring.takes s.ring.consumer d := ⟨Ring.owns_consumer he, hd, by simpa using hv⟩
      have hq : (j.band d.band).state = .queued := Job.band_of (by rw [← State.bandStates_of hj]; exact h.store.1.1 _ d ht)
      let c := s.currentOf d j y
      have hj' : ((s.setRing s.ring.advance).setScreener { current := some c, store := rest }).job d.slot = some j := hj
      refine (State.modifyJob_path (State.advanceTake_path h.path he hd hc (c := c) rfl rest) _ fun k hk => ?_).with
        (h.store.taken he ht (.of (k := j.modifyBand d.band fun b => { b with state := .screening }) hj
          (by rw [State.job_modifyJob_same, hj']; rfl) (fun m e => State.job_modifyJob_other _ _ _ _ e)
          (Job.modifyBand_states j d.band (f := fun b => { b with state := .screening }) fun _ => rfl))
          rfl rfl hc hst rfl rfl)
      cases hj'.symm.trans hk
      exact Job.modifyBand_tame j _ (fun _ => by simp) (by rw [hq]; simp)
    · exact h

/-- The current band recorded in the job in which it stands SCREENING. -/
theorem State.recordBand_lawful (h : s.lawfulBut x) {c : CurrentBand} (hc : s.screener.current = some c) {j : Job}
    (hj : s.job c.slot = some j) (hs : (j.band c.band).state = .screening) :
    (((s.setScreener { s.screener with current := none }).returnBuffer c.buffer).recordScreened c).lawfulBut x := by
  have hj' : ((s.setScreener { s.screener with current := none }).returnBuffer c.buffer).job c.slot = some j := hj
  refine State.assessIfComplete_lawful ((State.modifyJob_path (State.releaseCurrent_path h.path hc) _ fun k hk => ?_).with
    (h.store.recorded hc (n := c.slot) (b := c.band) (by rw [State.bandStates_of hj]; exact Job.band_at hs (by simp))
      (.of (k := { j.modifyBand c.band fun b => { b with state := .screened c.screened } with
          screenedCount := j.screenedCount + 1 }) hj
        (by rw [State.job_modifyJob_same, hj']; rfl) (fun m e => State.job_modifyJob_other _ _ _ _ e)
        (Job.modifyBand_states j c.band (f := fun b => { b with state := .screened c.screened }) fun _ => rfl))
      rfl rfl (returned_rises h.store.2.2.1 _) rfl)) _
  cases hj'.symm.trans hk
  exact Job.modifyBand_tame j c.band (f := fun b => { b with state := .screened c.screened }) (fun _ => by simp)
    (by rw [hs]; simp)

/-- The current band ends without being recorded, and its screened buffer returns. -/
theorem State.returnBand_lawful (h : s.lawfulBut x) {c : CurrentBand} (hc : s.screener.current = some c) :
    (((s.setScreener { s.screener with current := none }).returnBuffer c.buffer).returnScreened c.screened).lawfulBut x :=
  (State.setScreener_path (State.releaseCurrent_path h.path hc)
    (y := { current := none, store := insertSorted s.screener.store c.screened }) rfl).with
    (h.store.returned hc (fun _ => rfl) rfl rfl (returned_rises h.store.2.2.1 _) rfl)

theorem State.bandFinished_lawful (h : s.lawfulBut x) {c : CurrentBand} (hc : s.screener.current = some c) :
    (s.bandFinished c).lawfulBut x := by
  have h1 : (s.writeScreened c).lawfulBut x := State.setFrame_lawful h _
  have hc1 : (s.writeScreened c).screener.current = some c := hc
  unfold State.bandFinished State.finishBand
  generalize s.writeScreened c = t at h1 hc1
  have h2 := State.returnBand_lawful h1 hc1
  dsimp only
  split
  · exact h2
  · rename_i j hj
    split
    · split
      · split
        · rename_i e; exact State.recordBand_lawful h1 hc1 hj e
        · exact h2
      · split
        · rename_i e; exact State.recordBand_lawful h1 hc1 hj e
        · exact h2
      · rename_i e
        refine State.endJob_lawful h2 _ _ fun k hk => Or.inr ?_
        cases hj.symm.trans hk
        rw [e]; simp
      all_goals exact h2
    · exact h2

/-! ## The Imager -/

@[simp] theorem State.countEject_lawful (h : s.lawfulBut x) : s.countEject.lawfulBut x := by
  unfold State.countEject
  split <;> first | exact State.raise_lawful h _ | exact h

/-- The Imager's hold cleared: no job is in stage IMAGING any more. -/
theorem State.release_lawful (h : s.lawfulBut x) (hj : ∀ n j, s.job n = some j → j.stage ≠ .imaging) {i : Imager}
    (hi : i.held = none) : (s.setImager i).lawfulBut none := by
  obtain ⟨h1, h2, h3, h4, h5, _, h7⟩ := h
  refine ⟨h1, h2, h3, h4, h5, ⟨fun n j _ k => ⟨fun e => absurd e (hj n j k), fun e => ?_⟩, fun y hy => ?_⟩, h7⟩
  · have e' : i.held = some { slot := n, generation := j.generation } := e
    rw [hi] at e'; cases e'
  · have hy' : i.held = some y := hy
    rw [hi] at hy'; cases hy'

/-- The ending of the held job reported: no job is in stage IMAGING any more. -/
theorem State.reportEnding_lawful (h : s.lawfulBut none) (hb : s.imager.state.busy = true) :
    ∃ y, s.reportEnding.lawfulBut y ∧ ∀ n j, s.reportEnding.job n = some j → j.stage ≠ .imaging := by
  unfold State.reportEnding
  split
  · rename_i e
    refine ⟨none, h, fun n j hj hs => ?_⟩
    have := (h.2.2.2.2.2.1.1 n j (by simp) hj).mp hs
    rw [e] at this; cases this
  · rename_i y hy
    obtain ⟨j, j1, j2⟩ := (h.2.2.2.2.2.1.2 y hy).2 (by simp)
    rw [j1]
    dsimp only
    have hst : j.stage = .imaging := (h.2.2.2.2.2.1.1 _ j (by simp) j1).mpr (by rw [hy, j2])
    have hl : s.lawfulBut (some y.slot) := ((State.lawfulBut_none s).mp h).but _
    obtain ⟨e1, e2, e3⟩ := State.imagerEnding_lawful hl hb (fun k hk => by rw [j1] at hk; cases hk; exact hst)
      (s.endingOf j)
    refine ⟨some y.slot, e1, fun n k hk hs => ?_⟩
    by_cases e : n = y.slot
    · subst e; exact e2 k hk hs
    · have := (e1.2.2.2.2.2.1.1 n k (fun z => e (Option.some.inj z).symm) hk).mp hs
      rw [e3, hy] at this
      exact e (congrArg HeldJob.slot (Option.some.inj this)).symm

theorem State.endHold_lawful (h : s.lawfulBut none) (hb : s.imager.state.busy = true) (timeout : Bool) :
    (s.endHold timeout).lawfulBut none := by
  have hi : s.countEject.imager = s.imager := by unfold State.countEject; split <;> rfl
  obtain ⟨y, h1, h2⟩ := State.reportEnding_lawful (State.countEject_lawful h) (by rw [hi]; exact hb)
  unfold State.endHold
  dsimp only
  generalize s.countEject.reportEnding = t at h1 h2
  split
  · exact State.latch_lawful (State.release_lawful h1 h2 rfl) _
  · exact State.arbitrate_lawful (State.release_lawful h1 h2 rfl)

@[simp] theorem State.plateLoaded_lawful (h : s.lawfulBut x) : s.plateLoaded.lawfulBut x := by
  unfold State.plateLoaded
  split
  · exact State.issueEject_lawful h _
  · exact State.issueEject_lawful h _
  · exact State.issueEject_lawful h _
  · unfold State.enterImaging
    dsimp only
    have h1 : (s.setImager
        { s.imager with
          state := .imaging, loadTimer := none, plateRequest := none, nextSwath := some 0, swathInOutput := false,
          drum := { running := true, counter := s.settings.windowMax, clocks := 0, indexSeen := false } }).lawfulBut x :=
      State.setImager_lawful h rfl (Or.inr rfl)
    split
    · exact h1
    · exact State.scrapForFault_lawful h1 _

@[simp] theorem State.ignoreLine_lawful (h : s.lawfulBut x) : s.ignoreLine.lawfulBut x := by
  unfold State.ignoreLine
  split
  · exact State.raise_lawful h _
  · exact h

@[simp] theorem State.judgeIndex_lawful (h : s.lawfulBut x) : s.judgeIndex.lawfulBut x := by
  unfold State.judgeIndex
  split
  · exact State.scrapForFault_lawful h _
  · exact State.setImager_lawful h rfl (Or.inl rfl)

@[simp] theorem State.drumExpires_lawful (h : s.lawfulBut x) : s.drumExpires.lawfulBut x :=
  State.scrapForFault_lawful (State.elapse_lawful h _) _

@[simp] theorem State.takeIndex_lawful (h : s.lawfulBut x) (ticks : Nat) : (s.takeIndex ticks).lawfulBut x := by
  unfold State.takeIndex
  dsimp only
  split
  · exact State.elapse_lawful (State.drumExpires_lawful h) _
  · exact State.judgeIndex_lawful (State.elapse_lawful h _)

@[simp] theorem State.completeSwath_lawful (h : s.lawfulBut x) : s.completeSwath.lawfulBut x := by
  have h1 : (s.setImager { s.imager with
      swathInOutput := false, swathData := none, nextSwath := some (s.imager.nextSwath.getD 0 + 1) }).lawfulBut x :=
    State.setImager_lawful h rfl (Or.inl rfl)
  unfold State.completeSwath
  dsimp only
  split
  · exact State.issueEject_lawful h1 _
  · split
    · exact State.issueEject_lawful h1 _
    · exact h1

@[simp] theorem State.headChanges_lawful (h : s.lawfulBut x) (asserted : Bool) : (s.headChanges asserted).lawfulBut x := by
  have h1 : (s.setImager { s.imager with headReady := asserted }).lawfulBut x :=
    State.setImager_lawful h rfl (Or.inl rfl)
  unfold State.headChanges
  dsimp only
  generalize s.setImager { s.imager with headReady := asserted } = t at h1
  split
  · split
    · unfold State.headBack
      split
      · rename_i e
        exact State.arbitrate_lawful (State.setImager_lawful h1 rfl (Or.inl (by rw [e.1]; rfl)))
      · exact h1
    · unfold State.headLost
      split
      · exact State.scrapForFault_lawful h1 _
      · exact State.recordFault_lawful h1 _
      · exact State.setImager_lawful h1 rfl (Or.inl rfl)
      all_goals exact h1
  · exact h1

@[simp] theorem State.mediaChanges_lawful (h : s.lawfulBut x) (asserted : Bool) :
    (s.mediaChanges asserted).lawfulBut x := by
  have h1 : (s.setImager { s.imager with mediaOut := asserted }).lawfulBut x :=
    State.setImager_lawful h rfl (Or.inl rfl)
  unfold State.mediaChanges
  dsimp only
  split
  · exact h1
  · split
    · exact State.latch_lawful h1 _
    · exact State.arbitrate_lawful h1

/-! ## The configuration loader -/

/-- The blocks take their copies while the station is in LOADING, where the board is empty. -/
theorem State.loadBlocks_lawful (h : s.lawfulBut x) (hs : s.station.state = .loading) : s.loadBlocks.lawfulBut x := by
  obtain ⟨h1, h2⟩ := h
  refine ⟨⟨h1.1, fun e he => ?_⟩, h2⟩
  have he' : e ∈ s.board.entries := he
  rw [h1.1 hs] at he'
  cases he'

theorem State.takeChecks_lawful (h : s.lawfulBut x) (hs : s.station.state = .loading) (image : Mem)
    (failure : Option (BarredReason × Option Nat)) : (s.takeChecks image failure).lawfulBut x := by
  unfold State.takeChecks
  split
  · exact State.setLoader_lawful h _
  · exact State.leaveLoading_lawful (State.setLoader_lawful h _) (by exact hs) _

/-! ## The Maintenance Port -/

@[simp] theorem State.answer_lawful (h : s.lawfulBut x) (response : List Byte) : (s.answer response).lawfulBut x :=
  State.setPort_lawful h _

@[simp] theorem State.refuse_lawful (h : s.lawfulBut x) : s.refuse.lawfulBut x := State.setPort_lawful h _

theorem State.act_lawful (h : s.lawfulBut x) {taken : Bool} {effect : State}
    (k : taken = true → effect.lawfulBut x) : (s.act taken effect).lawfulBut x := by
  unfold State.act
  split
  · rename_i e; exact State.answer_lawful (k e) _
  · exact State.refuse_lawful h

theorem State.onSlot_lawful (h : s.lawfulBut x) (b : Byte) {f : Slot → State} (k : ∀ n, (f n).lawfulBut x) :
    (s.onSlot b f).lawfulBut x := by
  unfold State.onSlot
  split
  · exact k _
  · exact State.refuse_lawful h

@[simp] theorem State.runRelease_lawful (h : s.lawfulBut x) (data : List Byte) : (s.runRelease data).lawfulBut x := by
  refine State.onSlot_lawful h _ fun n => State.act_lawful h fun e => ?_
  cases hj : s.job n with
  | none => rw [hj] at e; cases e
  | some j =>
    rw [hj] at e
    have hs : j.stage = .held := by simpa using e
    have ho : j.standing = .owned := by
      cases hc : j.standing with
      | owned => rfl
      | contending =>
        rcases (h.2.2.2.2.1 n j hj).1.1 hc with z | z <;> rw [hs] at z <;> cases z
    have h1 : (s.modifyJob n fun j => { j with verdict := .released }).lawfulBut x :=
      State.modifyJob_lawful h n fun _ _ => ⟨id, id, Iff.rfl, Iff.rfl, rfl, rfl, rfl, id, id⟩
    refine State.enterReady_lawful h1 n fun k hk => ?_
    rw [State.job_modifyJob_same, hj] at hk
    cases hk
    exact ⟨Or.inr (by rw [hs]; simp), by rw [hs]; simp, ho⟩

@[simp] theorem State.runDrop_lawful (h : s.lawfulBut x) (data : List Byte) : (s.runDrop data).lawfulBut x :=
  State.onSlot_lawful h _ fun n => State.act_lawful h fun _ => State.dropJob_lawful h n

@[simp] theorem State.runDrain_lawful (h : s.lawfulBut x) : s.runDrain.lawfulBut x :=
  State.act_lawful h fun e => State.drain_lawful h (by simpa using e)

@[simp] theorem State.runResume_lawful (h : s.lawfulBut x) : s.runResume.lawfulBut x := by
  unfold State.runResume
  split
  · rename_i e; exact State.act_lawful h fun _ => State.resumeDraining_lawful h e
  · rename_i e
    exact State.act_lawful h fun _ => State.startJoining_lawful h
      (h.presence_empty (fun z => by rw [e] at z; cases z) (by rw [e]; simp))
  all_goals exact State.refuse_lawful h

/-- A command executed keeps the laws. -/
@[simp] theorem State.execute_lawful (h : s.lawfulBut x) (code : Byte) (data : List Byte) :
    (s.execute code data).lawfulBut x := by
  have rd : ∀ r, (s.answer r).lawfulBut x := fun r => State.answer_lawful h r
  have no := State.refuse_lawful h
  unfold State.execute
  split
  · exact rd _
  · exact rd _
  · exact State.answer_lawful (State.setPort_lawful h _) _
  · exact State.answer_lawful (State.setPort_lawful h _) _
  · exact State.onSlot_lawful h _ fun n => rd _
  · refine State.onSlot_lawful h _ fun n => ?_
    split
    · exact rd _
    · exact no
  · refine State.onSlot_lawful h _ fun n => ?_
    split
    · exact rd _
    · exact no
  · unfold State.runReadBoard
    dsimp only
    split
    · exact rd _
    · exact no
  · unfold State.runFindBoard
    dsimp only
    split
    · exact rd _
    · exact no
  · unfold State.runReadPeer
    split
    · exact rd _
    · exact no
  · unfold State.runReadCounters
    split
    · exact rd _
    · exact no
  · exact State.answer_lawful (State.setPort_lawful h _) _
  · exact rd _
  · exact State.answer_lawful (State.setDamage_lawful h _) _
  · exact rd _
  · exact State.runRelease_lawful h data
  · exact State.runDrop_lawful h data
  · exact State.runDrain_lawful h
  · exact State.runResume_lawful h
  · exact State.resetPart_lawful s
  · exact no

@[simp] theorem State.takeCommandByte_lawful (h : s.lawfulBut x) (code : Byte) : (s.takeCommandByte code).lawfulBut x := by
  have h1 : s.beginCommand.lawfulBut x := State.setPort_lawful h _
  unfold State.takeCommandByte
  dsimp only
  split
  · exact State.refuse_lawful h1
  · split
    · exact State.refuse_lawful h1
    · split
      · exact State.execute_lawful h1 _ _
      · exact State.setPort_lawful h1 _

@[simp] theorem State.takeDataByte_lawful (h : s.lawfulBut x) (b : Byte) : (s.takeDataByte b).lawfulBut x := by
  unfold State.takeDataByte
  split
  · exact State.raise_lawful h _
  · dsimp only
    split
    · exact State.setPort_lawful h _
    · exact State.execute_lawful (State.setPort_lawful h _) _ _

@[simp] theorem State.portCommand_lawful (h : s.lawfulBut x) (code : Byte) (data : List Byte) :
    (s.portCommand code data).lawfulBut x := by
  unfold State.portCommand
  split
  · have h1 : (s.clearInput.takeCommandByte code).lawfulBut x :=
      State.takeCommandByte_lawful (State.setPort_lawful h _) code
    generalize s.clearInput.takeCommandByte code = t at h1
    induction data generalizing t with
    | nil => exact h1
    | cons b data ih => exact ih _ (State.takeDataByte_lawful h1 b)
  · exact State.raiseBy_lawful h _ _

@[simp] theorem State.writeInput_lawful (h : s.lawfulBut x) (address : PortAddress) (byte : Byte) :
    (s.writeInput address byte).lawfulBut x := by
  unfold State.writeInput
  split
  · exact State.setPort_lawful h _
  · exact State.raise_lawful h _

end Sys2Proof.Machine
end

