-- ==== Sys2Proof/Laws/Screener.lean ====
section
/-! SUPPORT. The tile walker and the bits of a screened buffer. -/

namespace Sys2Proof.Machine

/-- The walker's column after `x` pixels is the column that R134 gives, within the tile's width. -/
theorem TileShape.walk (t : TileShape) (h : 0 < t.width) (y x : Nat) :
    (List.range x).foldl (fun c _ => t.nextColumn c) (t.firstColumn y) =
      (x + t.step * (y / t.height)) % t.width := by
  induction x with
  | zero => simp [TileShape.firstColumn]
  | succ x ih =>
    rw [List.range_succ, List.foldl_append, ih]
    simp only [List.foldl_cons, List.foldl_nil, TileShape.nextColumn]
    have hlt := Nat.mod_lt (x + t.step * (y / t.height)) h
    have e : (x + 1 + t.step * (y / t.height)) % t.width =
        ((x + t.step * (y / t.height)) % t.width + 1) % t.width := by
      rw [Nat.mod_add_mod]
      congr 1
      omega
    rw [e]
    generalize (x + t.step * (y / t.height)) % t.width = col at hlt
    split
    · rename_i k
      rw [k, Nat.mod_self]
    · exact (Nat.mod_eq_of_lt (by omega)).symm

/-- A bit written in a byte is the one read there. -/
theorem getLsbD_withBit_same (b : Byte) (k : Nat) (v : Bool) (h : k < 8) : (withBit b k v).getLsbD k = v := by
  unfold withBit
  cases v <;> simp [h]

/-- Another bit of the byte is as before. -/
theorem getLsbD_withBit_other (b : Byte) (k i : Nat) (v : Bool) (h : i ≠ k) :
    (withBit b k v).getLsbD i = b.getLsbD i := by
  unfold withBit
  have : (1#8 <<< k).getLsbD i = false := by
    simp only [BitVec.getLsbD_shiftLeft, BitVec.getLsbD_one]
    by_cases hi : i < k
    · simp [hi]
    · have : i - k ≠ 0 := by omega
      simp [this]
  cases v
  · simp only [Bool.false_eq_true, if_false, BitVec.getLsbD_and, BitVec.getLsbD_not, this]
    by_cases hi : i < 8
    · simp [hi]
    · simp [BitVec.getLsbD_of_ge b i (by omega)]
  · simp only [if_true, BitVec.getLsbD_or, this, Bool.or_false]

/-- A dot written is the one read. -/
theorem Mem.readDot_writeDot_same {m : Mem} (h : m.WF) (buffer l x : Nat) (v : Bool) :
    (m.writeDot buffer l x v).readDot buffer l x = v := by
  unfold Mem.writeDot Mem.readDot
  rw [Mem.read_write_same h, getLsbD_withBit_same _ _ _ (by omega)]

/-- A dot at another place of the same buffer, within the pitch of a line, is as before. -/
theorem Mem.readDot_writeDot_other {m : Mem} (h : m.WF) (buffer l x l' x' : Nat) (v : Bool)
    (hx : x < Config.linePitch) (hx' : x' < Config.linePitch) (hne : ¬ (l' = l ∧ x' = x)) :
    (m.writeDot buffer l x v).readDot buffer l' x' = m.readDot buffer l' x' := by
  unfold Mem.writeDot Mem.readDot
  have hp : Config.linePitch = 16384 := rfl
  by_cases ha : screenedAddress buffer l' x' = screenedAddress buffer l x
  · rw [ha, Mem.read_write_same h]
    apply getLsbD_withBit_other
    intro hk
    apply hne
    unfold screenedAddress at ha
    rw [hp] at ha hx hx'
    generalize buffer * Config.screenedBufferBytes = base at ha
    omega
  · rw [Mem.read_write_other h _ ha]

/-- A dot at another place of the screened store is as before: of another buffer, line or column. -/
theorem Mem.readDot_writeDot_elsewhere {m : Mem} (h : m.WF) (b l x b' l' x' : Nat) (v : Bool) (hl : l < 256)
    (hl' : l' < 256) (hx : x < Config.linePitch) (hx' : x' < Config.linePitch) (hne : ¬ (b' = b ∧ l' = l ∧ x' = x)) :
    (m.writeDot b l x v).readDot b' l' x' = m.readDot b' l' x' := by
  by_cases hb : b' = b
  · subst hb
    exact Mem.readDot_writeDot_other h b' l x l' x' v hx hx' fun e => hne ⟨rfl, e⟩
  · unfold Mem.writeDot Mem.readDot
    refine congrArg (fun y : Byte => y.getLsbD _) (Mem.read_write_other h _ ?_)
    unfold screenedAddress
    have hp : Config.linePitch = 16384 := rfl
    have hs : Config.screenedBufferBytes = 524288 := rfl
    rw [hp] at hx hx'
    rw [hp, hs]
    omega

/-- What writing a band leaves in the screened store: every dot of another buffer, and every dot of its own at a line
or a column that the band does not have (R129, R131). -/
theorem ScreenJob.readDot_write (c : ScreenJob) (f : FrameMemory) (h : f.screened.WF) (lines b l x : Nat)
    (hw : c.width ≤ Config.linePitch) (hlines : lines ≤ 256) (hl : l < 256) (hx : x < Config.linePitch)
    (hne : b ≠ c.screened ∨ lines ≤ l ∨ c.width ≤ x) :
    (c.write f lines).readDot b l x = f.screened.readDot b l x := by
  have hpixels : ∀ (k : Nat) (m : Mem × Nat) (y row : Nat), y < lines → k ≤ c.width → m.1.WF →
      ((List.range k).foldl (c.pixel f y row) m).1.WF ∧
        ((List.range k).foldl (c.pixel f y row) m).1.readDot b l x = m.1.readDot b l x := by
    intro k
    induction k with
    | zero => exact fun m y row _ _ hm => ⟨hm, rfl⟩
    | succ k ih =>
      intro m y row hy hk hm
      obtain ⟨h1, h2⟩ := ih m y row hy (by omega) hm
      rw [List.range_succ, List.foldl_append, List.foldl_cons, List.foldl_nil]
      exact ⟨Mem.writeDot_wf h1 _ _ _ _, (Mem.readDot_writeDot_elsewhere h1 _ _ _ _ _ _ _ (by omega) hl (by omega) hx
        (by rintro ⟨rfl, rfl, rfl⟩; omega)).trans h2⟩
  have hrows : ∀ k, k ≤ lines → ((List.range k).foldl (c.line f) f.screened).WF ∧
      ((List.range k).foldl (c.line f) f.screened).readDot b l x = f.screened.readDot b l x := by
    intro k
    induction k with
    | zero => exact fun _ => ⟨h, rfl⟩
    | succ k ih =>
      intro hk
      obtain ⟨h1, h2⟩ := ih (by omega)
      rw [List.range_succ, List.foldl_append, List.foldl_cons, List.foldl_nil]
      obtain ⟨h3, h4⟩ := hpixels c.width (_, _) k _ (by omega) le_rfl h1
      exact ⟨h3, h4.trans h2⟩
  exact (hrows lines le_rfl).2

end Sys2Proof.Machine
end

