-- ==== Sys2Proof/WellFormed.lean ====
section
/-! DEFINITION. Which commands have the form their row gives them. `exec` has a meaning for every command; a
command outside these forms stands for nothing the outside can do. -/

namespace Sys2Proof

/-- Data bytes of a maintenance command: at most as many as the command takes (R176). -/
def dataAtMost (n : Nat) (data : List Byte) : Bool := decide (data.length ≤ n)

/-- The bytes that a record's kind byte and length call for: whether `bytes` is one whole record of kind `kind`
with a header of `len` bytes and, for a FRAGMENT, its payload and CRC (R183). -/
def wholeRecord (kind : Byte) (len : Nat) (payload : Nat) (bytes : List Byte) : Bool :=
  decide (bytes.head? = some kind) && decide (bytes.length = len + payload)

/-- Bytes after the header of a FRAGMENT: the payload and its two CRC bytes (R183). -/
def fragmentTail (bytes : List Byte) : Nat :=
  (bytes.getD 7 0).toNat * 256 + (bytes.getD 8 0).toNat + 2

/-- The form of each command. -/
def Instr.wellFormed : Instr → Bool
  | .configurationReadDone record => decide (record.length = Config.recordSize)
  | .claimWindowExpiry place => decide (place < Config.boardPlaces)
  | .plateHeader bytes => wholeRecord 0x01#8 8 0 bytes
  | .fragment bytes => wholeRecord 0x02#8 10 (fragmentTail bytes) bytes
  | .plateEnd bytes => wholeRecord 0x03#8 6 0 bytes
  | .headerFailure bytes => decide (bytes ≠ []) && decide (bytes.length ≤ 10)
  | .readJob data => dataAtMost 1 data
  | .readBandMap data => dataAtMost 2 data
  | .readDamage data => dataAtMost 2 data
  | .readBoard data => dataAtMost 2 data
  | .findBoard data => dataAtMost 3 data
  | .readPeer data => dataAtMost 1 data
  | .readSetting data => dataAtMost 3 data
  | .readCounters data => dataAtMost 1 data
  | .setMask data => dataAtMost 2 data
  | .clearAttention data => dataAtMost 2 data
  | .release data => dataAtMost 1 data
  | .drop data => dataAtMost 1 data
  | .reset | .loadingEnded _ | .linkSynchronised | .openingStart | .contentionRoundEnd _ | .bodyEnd _ _
  | .spoilWindowEnd _ | .rollTimerExpiry | .joinPeriodExpiry | .silenceTimerExpiry _ | .isolationTimerExpiry
  | .uncorrectableError _ | .startMarker _ | .quietTimerExpiry _ | .takeHeadRecord _ | .takeHeadAnew _
  | .partDecoded _ | .descriptorEntersRing | .screenerTake | .bandFinished _ | .loaded | .loadTimeout
  | .index _ _ | .swathComplete _ | .drumLate | .headReadyChange _ | .ejected | .ejectTimeout
  | .mediaOutChange _ | .inputByteWrite _ _ | .dataByteTaken | .unknownCommand _ | .dataRead | .readStatus
  | .readAttention | .readLog | .clearCounters | .clearLog | .drain | .resume | .resetStation => true

end Sys2Proof
end

