-- ==== Sys2Proof/Tests/Slice0.lean ====
section
/-! SUPPORT. The model's own tests: ill-formed commands that the form check refuses, the spec's worked examples, and for
each statement a concrete state and operands that meet its hypotheses, clause by clause. -/

namespace Sys2Proof.Tests

open Sys2Proof Sys2Proof.Machine

-- One test at a time: each waits for the kernel's check of all before it, and a hundred that wait at once would ask for
-- more threads than the memory limit has room for.
set_option Elab.async false

/-! ## Well-formedness -/

theorem test_form_record : (Instr.configurationReadDone [0#8]).wellFormed = false := by decide

theorem test_form_place : (Instr.claimWindowExpiry 512).wellFormed = false ∧
    (Instr.claimWindowExpiry 511).wellFormed = true := by decide

theorem test_form_plateHeader : (Instr.plateHeader [1, 0, 0, 1, 0, 0, 0]).wellFormed = false := by decide

theorem test_form_fragment : (Instr.fragment [2, 0, 0, 1, 0, 0, 0, 0, 1, 0, 0x7F, 0]).wellFormed = false ∧
    (Instr.fragment [2, 0, 0, 1, 0, 0, 0, 0, 1, 0, 0x7F, 0, 0]).wellFormed = true := by decide

theorem test_form_plateEnd : (Instr.plateEnd [2, 0, 0, 1, 0, 0]).wellFormed = false := by decide

theorem test_form_headerFailure : (Instr.headerFailure []).wellFormed = false ∧
    (Instr.headerFailure (List.replicate 11 0)).wellFormed = false := by decide

theorem test_form_data1 : (Instr.readJob [0, 0]).wellFormed = false ∧ (Instr.readPeer [0, 0]).wellFormed = false ∧
    (Instr.readCounters [0, 0]).wellFormed = false ∧ (Instr.release [0, 0]).wellFormed = false ∧
    (Instr.drop [0, 0]).wellFormed = false := by decide

theorem test_form_data2 : (Instr.readBandMap [0, 0, 0]).wellFormed = false ∧
    (Instr.readDamage [0, 0, 0]).wellFormed = false ∧ (Instr.readBoard [0, 0, 0]).wellFormed = false ∧
    (Instr.setMask [0, 0, 0]).wellFormed = false ∧ (Instr.clearAttention [0, 0, 0]).wellFormed = false := by decide

theorem test_form_data3 : (Instr.findBoard [0, 0, 0, 0]).wellFormed = false ∧
    (Instr.readSetting [0, 0, 0, 0]).wellFormed = false := by decide

/-! ## A plant and a working station -/

/-- A configuration image: station 3, one supported class of 1024 by 1024 pixels, tiles of 8 by 8 values, all 0. -/
def plantImage : Mem :=
  [(0, 3), (2, 20), (4, 100), (5, 3), (6, 12), (7, 3), (8, 232), (9, 1), (10, 4), (12, 4), (45, 255), (62, 255),
   (79, 255), (96, 255), (97, 8), (98, 250), (99, 8), (100, 250), (101, 8), (102, 250), (103, 8), (104, 250), (105,
   4), (109, 1), (111, 2)]
  ++ [(157, 8), (159, 8), (160, 3), (65698, 8), (65700, 8), (65701, 3), (131239, 8), (131241, 8), (131242, 3),
   (196780, 8), (196782, 8), (196783, 3), (262321, 8), (262323, 8), (262324, 3), (327862, 8), (327864, 8), (327865,
   3), (393403, 8), (393405, 8), (393406, 3), (458944, 8), (458946, 8), (458947, 3)]
  ++ [(524485, 8), (524487, 8), (524488, 3), (590026, 8), (590028, 8), (590029, 3), (655567, 8), (655569, 8), (655570,
   3), (721108, 8), (721110, 8), (721111, 3), (786649, 8), (786651, 8), (786652, 3), (852190, 8), (852192, 8),
   (852193, 3), (917731, 8), (917733, 8), (917734, 3), (983272, 8), (983274, 8), (983275, 3)]
  ++ [(1048812, 10), (1048813, 10), (1048814, 4), (1048816, 10), (1048818, 50), (1048819, 1)]

/-- The settings of that image. -/
def plant : Settings := settingsOf plantImage

/-- A station that is ACTIVE and waits for an opening. -/
def working : State :=
  { State.reset with
    station := { StationControl.afterReset with state := .active }, settings := plant,
    loader := { phase := .ended, validity := .valid, reason := none, failing := none, image := plantImage,
                digest := some 0x1234#16 },
    link := { Link.afterReset with phase := .waiting },
    roll := { RollUnit.afterReset with rollTimer := some 0, isolationTimer := some 0 } }

/-- The working station in another station state. -/
def stationIn (x : StationState) : State := { working with station := { working.station with state := x } }

/-- The working station with a link phase. -/
def linked (ph : LinkPhase) : State := { working with link := { working.link with phase := ph } }

/-- A message in a place. -/
def queued (m : Msg) : Queued := { msg := m, age := 0, inProgress := true, withdrawal := false, replacement := none }

/-- A plate key. -/
def key1 : PlateKey := { title := 1, edition := 2, page := 3, sep := .c }

/-- A job that is CONTENDING and RECEIVING, of four bands. -/
def job1 : Job :=
  { generation := 1, standing := .contending, stage := .receiving, key := key1, version := 5, sizeClass := 0,
    screeningClass := 0, rank := 2, endAdmitted := false, endProcessed := false, quiet := some 0, admission := none,
    cursor := UnpackCursor.empty, bands := List.replicate 4 { state := .awaited, kind := none }, screenedCount := 0,
    damagedCount := 0, firstDamage := none, verdict := .notAssessed, retries := 0, claimInProgress := false,
    withdrawal := none }

/-- A state with a job in slot 0. -/
def withJob (s : State) (j : Job) : State := { s with jobs := { s.jobs with slots := s.jobs.slots.set 0 (some j) } }

/-- A state with one board entry. -/
def withEntry (s : State) (st : EntryState) : State :=
  { s with board :=
      { entries := [{ key := key1, version := 5, state := st, info := none, stamp := 0 }], full := false, stamp := 1 } }

/-- A state with a peer record. -/
def withPeer (s : State) (n : Station) (p : Peer) : State :=
  { s with roll := { s.roll with peers := s.roll.peers.set n p } }

/-- A state with another Imager. -/
def withImager (s : State) (f : Imager → Imager) : State := { s with imager := f s.imager }

/-- A state whose receiver has taken a start marker. -/
def marked (s : State) : State := { s with receiver := { s.receiver with framing := .header [] } }

/-- A state with another Link Controller. -/
def onLink (s : State) (f : Link → Link) : State := { s with link := f s.link }

/-- A state with another Maintenance Port. -/
def onPort (s : State) (f : Port → Port) : State := { s with port := f s.port }

/-- A state with another station number. -/
def withOwn (n : Station) (s : State) : State := { s with settings := { s.settings with station := n } }

/-- A job and the message of its slot in the outgoing queue. -/
def withSlot (s : State) (j : Job) (m : Msg) : State :=
  onLink (withJob s j) fun l => { l with slots := l.slots.set 0 (some (queued m)) }

/-- A station that drains. -/
def draining (s : State) : State := { s with station := { s.station with state := .draining } }

/-- A draining station with one live job, owned. -/
def lastJob : State := draining (withJob working { job1 with standing := .owned })

/-- A state with a job in slot 1 that no supersession of `key1` touches. -/
def withOther (s : State) : State :=
  { s with jobs := { s.jobs with slots := s.jobs.slots.set 1 (some { job1 with key := { key1 with page := 9 } }) } }

/-- A state whose age counter is at a value, with one message queued long ago in the place of slot 7. -/
def aged (n : Nat) (s : State) : State :=
  onLink s fun l => { l with
    ageCounter := n
    slots := l.slots.set 7 (some { queued (.done key1 4 .clean 0 none) with age := 4294967290, inProgress := false }) }

/-- The station's message marked for withdrawal in slot 0. -/
def withdrawing (s : State) (m : Msg) : State :=
  onLink s fun l => { l with slots := l.slots.set 0 (some { queued m with withdrawal := true }) }

/-! ## The spec's examples -/

/-- R189: the CRC-16 of the nine ASCII digits 1 to 9 is 29B1h. -/
theorem test_crc : crc16 [0x31, 0x32, 0x33, 0x34, 0x35, 0x36, 0x37, 0x38, 0x39] = 0x29B1#16 := by decide +kernel

/-- R185: 5Fh 00h C8h 80h is a TONE RUN of 200 pixels of tone 128. -/
theorem test_runCode : readRun [0x5F, 0x00, 0xC8, 0x80] = some (.toneRun 128, 200, []) := by decide +kernel

/-- R188: title 3, edition 12, page 7, separation M, version 4. -/
theorem test_plateEnd :
    let key : PlateKey := { title := 3, edition := 12, page := 7, sep := .m }
    (Header.plateEnd key 4).encode = [0x03, 0x32, 0x0C, 0x07, 0x04, 0xF7] ∧
    judgeHeader [0x03, 0x32, 0x0C, 0x07, 0x04, 0xF7] = some (.plateEnd key 4) ∧
    judgeHeader [0x03, 0x32, 0x0C, 0x07, 0x05, 0xF7] = none := by decide +kernel

/-- Chapter 1.4, first opening: the DONE of station 2 holds the line longest in round 1. -/
theorem test_doneContends :
    let s := onLink (withOwn 2 working) fun l =>
      { l with slots := l.slots.set 5 (some (queued (.done key1 4 .clean 0 none))) }
    [0, 1, 2].map (s.contentionField (.slot 5)) = [3, 0, 2] := by decide +kernel

/-- Chapter 1.4, second opening: the CLAIMs of stations 9 and 11 hold 3 and 46 units, and station 11 12 units. -/
theorem test_claimContends :
    let s := onLink (withOwn 11 working) fun l =>
      { l with slots := l.slots.set 5 (some (queued (.claim key1 4 (some 45)))) }
    [0, 1, 2].map (s.contentionField (.slot 5)) = [2, 45, 11] := by decide +kernel

/-- The five codes of chapter 6.13, part 0, read one after another. -/
theorem test_smallBand :
    readRun [0x1F, 0x01, 0x40, 0x5F] = some (.blank, 320, [0x5F]) ∧
    readRun [0x5F, 0x00, 0xC8, 0x80, 0x63] = some (.toneRun 128, 200, [0x63]) ∧
    readRun [0x63, 0x40, 0x60, 0x80, 0xA0, 0x3F] = some (.toneList [64, 96, 128, 160], 4, [0x3F]) ∧
    readRun [0x3F, 0x01, 0xF4, 0x9F] = some (.solid, 500, [0x9F]) ∧
    readRun [0x9F, 0x3C, 0x00] = some (.copyAbove, 15360, []) ∧
    readRun [0x1F, 0x00, 0x14] = none ∧
    Run.copyAbove.fits 1024 32768 0 15360 = false ∧ Run.copyAbove.fits 1024 32768 1024 15360 = true ∧
    Run.blank.fits 1024 32768 16384 16385 = false := by decide +kernel

/-- R115: the code that reaches the count in a part without the last-part flag is written, and is a FORMAT error. -/
theorem test_countReached :
    decodeCodes 0 4 8 false 1 [0x27] 0 [] = ((List.range 4).map (fun a => (a, 0xFF#8)) ++
      (List.range 4).map (fun a => (16384 + a, 0xFF#8)), .format) ∧
    (decodeCodes 0 4 8 true 1 [0x27] 0 []).2 = .reached 8 := by decide +kernel

/-- The settings of chapter 7.11 for separation M and screening class 2. -/
def shortLine : Settings :=
  { Settings.unset with
    curves := [[], [], [0, 20, 36, 50, 64, 78, 92, 106, 120, 134, 148, 162, 176, 192, 210, 232, 255], []]
    floors := [0, 0, 12, 0], ceilings := [0, 0, 240, 0], faultTint := 6
    tiles := List.replicate 16 { width := 16, height := 16, step := 5 } }

/-- Chapter 7.11: curve values and output values. -/
theorem test_toneCurve :
    [0, 17, 40, 100, 200, 250, 255, 8].map (shortLine.curveValue .m) = [0, 21, 43, 95, 184, 246, 255, 10] ∧
    [0, 17, 40, 100, 200, 250, 255, 8].map (shortLine.output .m) = [0, 21, 43, 95, 184, 255, 255, 0] := by decide

/-- The screener at chapter 7.11's line: band 3 of the job, written into screened buffer 0. -/
def shortLineJob (buffer : Option Nat) : ScreenJob :=
  { settings := shortLine, sep := .m, tileNo := 10, width := 108, band := 3, buffer := buffer, screened := 0 }

/-- Its frame memory: the eight tones, and row 4 of the tile at columns 9 to 15 and 0. -/
def shortLineFrame : FrameMemory :=
  { bands := Mem.writeList [] (bandAddress 2 20 100) [0, 17, 40, 100, 200, 250, 255, 8], screened := []
    tiles := (Mem.writeList [] (10 * 65536 + 64) [5]).writeList (10 * 65536 + 64 + 9) [37, 81, 30, 90, 150, 249, 3] }

/-- Chapter 7.11: the dots of columns 100 to 107, and those of the same line as a fault tint band. -/
theorem test_shortLine :
    (List.range 8).map (fun i =>
      ((shortLineJob (some 2)).line shortLineFrame [] 20).readDot 0 20 (100 + i)) =
      [false, false, true, true, true, true, true, false] ∧
    (List.range 8).map (fun i => ((shortLineJob none).line shortLineFrame [] 20).readDot 0 20 (100 + i)) =
      [false, false, false, false, false, false, true, true] := by decide +kernel

/-- Chapter 7.11: where the walker starts on plate lines 788, 800 and 1024. -/
theorem test_walker :
    let t : TileShape := { width := 16, height := 16, step := 5 }
    (t.rowBase 788, t.firstColumn 788) = (64, 5) ∧ (t.rowBase 800, t.firstColumn 800) = (0, 10) ∧
    (t.rowBase 1024, t.firstColumn 1024) = (0, 0) := by decide

/-! ## Configuration records -/

/-- A record with the bytes of a memory before the checksum, and a checksum that is right when `flip` is 0. -/
def recordWith (m : Mem) (flip : Half) : List Byte :=
  let bytes := (List.range Config.checksumBase).map m.read
  let c := crc16 bytes ^^^ flip
  bytes ++ [byteOf (c.toNat / 256), byteOf c.toNat]

theorem recordWith_byte (m : Mem) (flip : Half) (a : Nat) (h : a < Config.checksumBase) :
    recordByte (recordWith m flip) a = m.read a := by
  have hl : a < ((List.range Config.checksumBase).map m.read).length := by simpa using h
  simp only [recordByte, recordWith]
  rw [List.getD_eq_getElem?_getD, List.getElem?_append_left hl]
  simp [h]

theorem recordWith_checksum (m : Mem) (flip : Half) :
    half (recordByte (recordWith m flip) Config.checksumBase) (recordByte (recordWith m flip) (Config.checksumBase + 1)) =
      crc16 ((List.range Config.checksumBase).map m.read) ^^^ flip := by
  have hl : ((List.range Config.checksumBase).map m.read).length = Config.checksumBase := by simp
  simp only [recordByte, recordWith]
  rw [List.getD_eq_getElem?_getD, List.getElem?_append_right (by omega), List.getD_eq_getElem?_getD,
    List.getElem?_append_right (by omega), hl]
  generalize crc16 _ ^^^ flip = c
  simp only [Nat.sub_self, Nat.add_sub_cancel_left, List.getElem?_cons_zero, List.getElem?_cons_succ, Option.getD_some,
    half, nat16, byteOf]
  apply BitVec.eq_of_toNat_eq
  have := c.isLt
  simp only [BitVec.toNat_ofNat]
  omega

/-- The checksum passes exactly when it is not flipped. -/
theorem recordWith_passes (m : Mem) (flip : Half) : checksumPasses (recordWith m flip) = decide (flip = 0#16) := by
  unfold checksumPasses
  rw [recordWith_checksum]
  have e : (List.range Config.checksumBase).map (recordByte (recordWith m flip)) =
      (List.range Config.checksumBase).map m.read :=
    List.map_congr_left fun a ha => recordWith_byte m flip a (List.mem_range.mp ha)
  rw [e]
  generalize crc16 _ = c
  rw [decide_eq_decide]
  constructor
  · intro h
    have : c ^^^ c = c ^^^ (c ^^^ flip) := by rw [← h]
    simpa [← BitVec.xor_assoc] using this.symm
  · rintro rfl
    simp

/-- A memory that lists no byte of a tile's value area. -/
def bare (m : Mem) : Bool :=
  m.all fun c => decide (c.1 < Config.tileBase) || decide (Config.imagerBase ≤ c.1) ||
    decide ((c.1 - Config.tileBase) % Config.tilePitch < 5)

theorem read_unlisted {m : Mem} {a : Nat} (h : ∀ c ∈ m, c.1 ≠ a) : m.read a = 0#8 := by
  induction m with
  | nil => rfl
  | cons c m ih =>
    have hc : a ≠ c.1 := fun e => h c (List.mem_cons_self ..) e.symm
    rw [show Mem.read (c :: m) a = if a = c.1 then c.2 else Mem.read m a from rfl, if_neg hc]
    exact ih fun x hx => h x (List.mem_cons_of_mem _ hx)

/-- The image of such a record holds the memory's bytes before the checksum. -/
theorem recordWith_image {m : Mem} (hb : bare m = true) (flip : Half) (a : Nat) (h : a < Config.checksumBase) :
    (imageOf (recordWith m flip)).read a = m.read a := by
  have h1 : a < Config.recordSize := Nat.lt_of_lt_of_le h (by decide)
  rw [imageOf_read, recordWith_byte m flip a h]
  by_cases hk : keptByte (recordWith m flip) a = true
  · simp [h1, hk]
  · have : m.read a = 0#8 := by
      apply read_unlisted
      rintro c hc rfl
      simp only [bare, List.all_eq_true] at hb
      have := hb c hc
      apply hk
      simp only [Bool.or_eq_true, decide_eq_true_eq] at this
      simp only [keptByte]
      split
      · rfl
      · rename_i hn
        simp only [not_or, Nat.not_lt, Nat.not_le] at hn
        have h5 : (c.1 - Config.tileBase) % Config.tilePitch < 5 := by omega
        simp [h5]
    simp [this]

/-- The tile items of such a memory: every value it lists none of is 0, so the shapes alone decide. -/
theorem tiles_bare {m : Mem} (hb : bare m = true) :
    (List.range 16).map (fun t => (tileOffset t, tilePasses m t)) = (List.range 16).map fun t =>
      (tileOffset t, within 8 256 (m.read16 (tileOffset t)) && within 8 256 (m.read16 (tileOffset t + 2)) &&
        decide (field8 m (tileOffset t + 4) < m.read16 (tileOffset t))) := by
  refine List.map_congr_left fun t ht => ?_
  have ht := List.mem_range.mp ht
  simp only [tilePasses, Prod.mk.injEq, true_and]
  generalize hw : m.read16 (tileOffset t) = w
  generalize hg : m.read16 (tileOffset t + 2) = g
  by_cases h : within 8 256 w = true ∧ within 8 256 g = true
  · simp only [h.1, h.2, Bool.true_and, Bool.and_eq_left_iff_imp, List.all_eq_true, decide_eq_true_eq]
    simp only [within, Bool.and_eq_true, decide_eq_true_eq] at h
    intro _ i hi
    have hm : w * g ≤ 256 * 256 := Nat.mul_le_mul h.1.2 h.2.2
    have hi := List.mem_range.mp hi
    have : m.read (tileOffset t + 5 + i) = 0#8 := by
      apply read_unlisted
      intro c hc e
      simp only [bare, List.all_eq_true] at hb
      have := hb c hc
      simp only [Bool.or_eq_true, decide_eq_true_eq] at this
      change (c.1 < 156 ∨ 1048812 ≤ c.1) ∨ (c.1 - 156) % 65541 < 5 at this
      simp only [tileOffset, Config.tileBase, Config.tilePitch] at e
      have h5 : (c.1 - 156) % 65541 = 5 + i := by omega
      omega
    simp [field8, this]
  · by_cases h1 : within 8 256 w = true
    · have h2 : within 8 256 g = false := by simpa [h1] using h
      simp [h2]
    · simp [h1]

/-- What the checks find in such a record. -/
theorem recordWith_failure {m : Mem} (hb : bare m = true) : recordFailure (recordWith m 0) = imageFailure m := by
  rw [recordFailure, recordWith_passes, imageFailure_congr (recordWith_image hb 0)]
  rfl

/-- A record with a wrong checksum. -/
theorem recordWith_flipped (m : Mem) : recordFailure (recordWith m 1) = some (.checksum, none) := by
  rw [recordFailure, recordWith_passes]
  rfl

theorem plant_bare : bare plantImage = true ∧ bare (plantImage.write 0 16) = true ∧ bare (plantImage.write 29 1) = true ∧
    bare (plantImage.write 97 251) = true ∧ bare (plantImage.write 105 100) = true ∧ bare (plantImage.write 9 0) = true ∧
    bare (plantImage.write 1048818 10) = true := by decide +kernel

/-- A record that passes every check, by its checks. -/
theorem plant_valid : recordFailure (recordWith plantImage 0) = none := by
  rw [recordWith_failure plant_bare.1]
  simp only [imageFailure, rangeItems, tiles_bare plant_bare.1]
  decide +kernel

theorem witness_ChecksStopAtTheFirstFailure :
    checksumPasses (recordWith plantImage 1) = false ∧
    (let r := recordWith (plantImage.write 0 16) 0
     checksumPasses r = true ∧ firstFailing (rangeItems (imageOf r)) = some 0) ∧
    (let r := recordWith (plantImage.write 29 1) 0
     checksumPasses r = true ∧ firstFailing (rangeItems (imageOf r)) = none ∧
       firstFailing (curveItems (imageOf r)) = some 29) ∧
    (let r := recordWith (plantImage.write 97 251) 0
     checksumPasses r = true ∧ firstFailing (rangeItems (imageOf r)) = none ∧
       firstFailing (curveItems (imageOf r)) = none ∧ firstFailing (floorItems (imageOf r)) = some 97) ∧
    (let r := recordWith (plantImage.write 105 100) 0
     checksumPasses r = true ∧ firstFailing (rangeItems (imageOf r)) = none ∧
       firstFailing (curveItems (imageOf r)) = none ∧ firstFailing (floorItems (imageOf r)) = none ∧
       firstFailing (tintItems (imageOf r)) = some 97) ∧
    (let r := recordWith (plantImage.write 9 0) 0
     checksumPasses r = true ∧ firstFailing (rangeItems (imageOf r)) = none ∧
       firstFailing (curveItems (imageOf r)) = none ∧ firstFailing (floorItems (imageOf r)) = none ∧
       firstFailing (tintItems (imageOf r)) = none ∧ someClass (imageOf r) = false) ∧
    (let r := recordWith (plantImage.write 1048818 10) 0
     checksumPasses r = true ∧ firstFailing (rangeItems (imageOf r)) = none ∧
       firstFailing (curveItems (imageOf r)) = none ∧ firstFailing (floorItems (imageOf r)) = none ∧
       firstFailing (tintItems (imageOf r)) = none ∧ someClass (imageOf r) = true ∧
       (imageOf r).read16 1048817 ≤ (imageOf r).read16 1048815) ∧
    (let r := recordWith plantImage 0
     checksumPasses r = true ∧ firstFailing (rangeItems (imageOf r)) = none ∧
       firstFailing (curveItems (imageOf r)) = none ∧ firstFailing (floorItems (imageOf r)) = none ∧
       firstFailing (tintItems (imageOf r)) = none ∧ someClass (imageOf r) = true ∧
       (imageOf r).read16 1048815 < (imageOf r).read16 1048817) := by
  obtain ⟨b0, b1, b2, b3, b4, b5, b6⟩ := plant_bare
  dsimp only
  simp only [recordWith_passes, rangeItems_congr (recordWith_image b0 0), curveItems_congr (recordWith_image b0 0),
    floorItems_congr (recordWith_image b0 0), tintItems_congr (recordWith_image b0 0),
    someClass_congr (recordWith_image b0 0), read16_congr (recordWith_image b0 0) (a := 1048817) (by decide),
    read16_congr (recordWith_image b0 0) (a := 1048815) (by decide),
    rangeItems_congr (recordWith_image b1 0),
    rangeItems_congr (recordWith_image b2 0), curveItems_congr (recordWith_image b2 0),
    rangeItems_congr (recordWith_image b3 0), curveItems_congr (recordWith_image b3 0),
    floorItems_congr (recordWith_image b3 0),
    rangeItems_congr (recordWith_image b4 0), curveItems_congr (recordWith_image b4 0),
    floorItems_congr (recordWith_image b4 0), tintItems_congr (recordWith_image b4 0),
    rangeItems_congr (recordWith_image b5 0), curveItems_congr (recordWith_image b5 0),
    floorItems_congr (recordWith_image b5 0), tintItems_congr (recordWith_image b5 0),
    someClass_congr (recordWith_image b5 0),
    rangeItems_congr (recordWith_image b6 0), curveItems_congr (recordWith_image b6 0),
    floorItems_congr (recordWith_image b6 0), tintItems_congr (recordWith_image b6 0),
    someClass_congr (recordWith_image b6 0), read16_congr (recordWith_image b6 0) (a := 1048817) (by decide),
    read16_congr (recordWith_image b6 0) (a := 1048815) (by decide)]
  simp only [rangeItems, tiles_bare b0, tiles_bare b1, tiles_bare b2, tiles_bare b3, tiles_bare b4, tiles_bare b5,
    tiles_bare b6]
  decide +kernel

/-- The items stand at their offsets: a number just outside its bounds names its item. -/
theorem witness_ChecksStopAtTheFirstFailure_bounds :
    (∀ x ∈ [(0, 16), (5, 2), (5, 16), (6, 11), (6, 61), (9, 2), (97, 0), (104, 255), (105, 0), (106, 2), (110, 2),
        (111, 97), (112, 2), (145, 2)],
      firstFailing (rangeItems (plantImage.write x.1 (BitVec.ofNat 8 x.2))) = some x.1) ∧
    firstFailing (rangeItems (plantImage.write 2 4)) = some 1 ∧
    firstFailing (rangeItems (plantImage.write 11 1)) = some 10 ∧
    firstFailing (curveItems (plantImage.write 96 254)) = some 80 ∧
    firstFailing (floorItems (plantImage.write 104 1)) = some 103 ∧
    firstFailing (tintItems (plantImage.write 105 8)) = some 97 ∧
    (someClass plantImage = true ∧ someClass (plantImage.write 9 0) = false) := by decide +kernel

theorem witness_ChecksStopAtTheFirstFailure_imager :
    firstFailing (rangeItems (plantImage.write 1048814 3)) = some 1048814 ∧
    firstFailing (rangeItems (plantImage.write 1048816 0)) = some 1048815 ∧
    firstFailing (rangeItems (plantImage.write 1048819 4)) = some 1048819 := by
  have b : bare (plantImage.write 1048814 3) = true ∧ bare (plantImage.write 1048816 0) = true ∧
      bare (plantImage.write 1048819 4) = true := by decide +kernel
  simp only [rangeItems, tiles_bare b.1, tiles_bare b.2.1, tiles_bare b.2.2]
  decide +kernel

/-! ## Start-up -/

theorem witness_StepRunsFrontCommand :
    ({ State.reset with pending := [.drain, .resume] }).pending = .drain :: [.resume] := rfl

theorem witness_EveryStepGoesOn : State.reset.pending = [] := rfl

theorem witness_ValidRecordBeginsLoading : State.reset.station.state = .loading ∧ State.reset.loader.phase = .reading ∧
    recordFailure (recordWith plantImage 0) = none := ⟨rfl, rfl, plant_valid⟩

theorem witness_ValidRecordBeginsLoading_addresses :
    155 < 156 ∧ 156 = 156 + 65541 * 0 + 0 ∧ 160 = 156 + 65541 * 0 + 4 ∧ 65696 = 156 + 65541 * 0 + 65540 ∧
      1048811 = 156 + 65541 * 15 + 65540 ∧ 1048812 < 1048822 ∧ 1048821 < 1048822 := by decide

theorem witness_InvalidRecordBars : State.reset.station.state = .loading ∧ State.reset.loader.phase = .reading ∧
    State.reset.station.haltRegion = none ∧ recordFailure (recordWith plantImage 1) = some (.checksum, none) :=
  ⟨rfl, rfl, rfl, recordWith_flipped _⟩

/-- A station that loads its blocks. -/
def loadingBlocks (image : Mem) : State :=
  { State.reset with
    loader := { State.reset.loader with phase := .loadingBlocks, validity := .valid, image := image,
                                        digest := some 0x1234#16 } }

theorem witness_LoadingEndedJoins : (loadingBlocks plantImage).station.state = .loading ∧
    (loadingBlocks plantImage).loader.phase = .loadingBlocks ∧ (loadingBlocks plantImage).station.haltRegion = none ∧
    (loadingBlocks plantImage).link.presence = none ∧
    ({ loadingBlocks plantImage with imager := { State.reset.imager with mediaOut := true } }).imager.mediaOut = true ∧
    (loadingBlocks plantImage).imager.mediaOut = false := by decide

theorem witness_LoadingEndedWritesTiles :
    let s := loadingBlocks [(157, 8#8), (159, 8#8)]
    s.station.state = .loading ∧ s.loader.phase = .loadingBlocks ∧ s.memoriesCanonical ∧ 0 < 16 ∧
    (∀ k, k < 16 → s.loader.image.read16 (tileOffset k) * s.loader.image.read16 (tileOffset k + 2) ≤ 65536) ∧
    63 < s.loader.image.read16 (tileOffset 0) * s.loader.image.read16 (tileOffset 0 + 2) := by
  refine ⟨rfl, rfl, ?_, by decide, by decide +kernel, by decide +kernel⟩
  unfold State.memoriesCanonical
  decide

/-! ## The plant link -/

/-- The working station with a message in its roll place. -/
def rollQueued (ph : LinkPhase) : State :=
  onLink (linked ph) fun l => { l with roll := some (queued (.roll 15 10 0x0040#16)) }

/-- The working station with a message in its presence place. -/
def presenceQueued (ph : LinkPhase) (m : Msg) : State :=
  onLink (linked ph) fun l => { l with presence := some (queued m) }

/-- The working station with a CLAIM of slot 0. -/
def claimQueued (ph : LinkPhase) : State :=
  onLink (linked ph) fun l => { l with slots := l.slots.set 0 (some (queued (.claim key1 5 none))) }

theorem witness_OpeningStartsCandidate :
    (linked .synchronising).link.phase = .synchronising ∧
    ((linked .waiting).link.phase = .waiting ∧ (linked .waiting).link.candidate = none) ∧
    ((linked (.round none [])).link.phase = .round none [] ∧ (linked (.round none [])).link.candidate = none) ∧
    (let q := queued (.done key1 5 .tinted 96 (some .gap))
     let s := onLink (linked .waiting) fun l => { l with slots := l.slots.set 7 (some q) }
     s.link.phase = .waiting ∧ s.link.candidate = some (.slot 7) ∧ s.link.slots[(7 : Slot)] = some q) ∧
    ((claimQueued .waiting).link.candidate = some (.slot 0) ∧
      (claimQueued .waiting).link.slots[(0 : Slot)] = some (queued (.claim key1 5 none))) ∧
    ((presenceQueued .waiting .leave).link.candidate = some .presence ∧
      (presenceQueued .waiting .leave).link.presence = some (queued .leave)) ∧
    ((presenceQueued .waiting (.join 7)).link.candidate = some .presence ∧
      (presenceQueued .waiting (.join 7)).link.presence = some (queued (.join 7))) ∧
    ((rollQueued .waiting).link.candidate = some .roll ∧
      (rollQueued .waiting).link.roll = some (queued (.roll 15 10 0x0040#16))) := by decide +kernel

theorem witness_CandidateComesFirst : (claimQueued .waiting).link.candidate = some (.slot 0) ∧
    (linked .waiting).link.candidate = none := by decide +kernel

theorem witness_RoundWon :
    (∃ s : State, s.link.phase = .round (some .roll) [] ∧ (0, 4) ∈ [(0, 4), (1, 64), (2, 16)] ∧ 0 < 1 ∧ 1 ≤ 4 ∧
      ∀ p, some Place.roll = some p → s.contentionField p 0 + 1 = 1) ∧
    (∃ s : State, s.link.phase = .round (some .roll) [0, 0] ∧ ∀ p, some Place.roll = some p →
      s.contentionField p 2 + 1 = 4) ∧
    (∃ s : State, s.link.phase = .round none [2] ∧ 64 ≤ 64 ∧ ∀ p, none = some p → s.contentionField p 1 + 1 = 64) := by
  refine ⟨⟨rollQueued (.round (some .roll) []), rfl, by decide, by decide, by decide, ?_⟩,
    ⟨rollQueued (.round (some .roll) [0, 0]), rfl, ?_⟩, ⟨linked (.round none [2]), rfl, by decide, ?_⟩⟩
  · rintro p ⟨⟩; decide +kernel
  · rintro p ⟨⟩; decide +kernel
  · rintro p ⟨⟩

theorem witness_LostEmptyAndBrokenRounds :
    (∀ won ∈ [[], [0, 0]],
      let s := rollQueued (.round (some .roll) won)
      s.link.phase = .round (some .roll) won ∧ s.contentionField .roll won.length + 1 < longestHold won.length ∧
        s.link.at .roll = some (queued (.roll 15 10 0x0040#16)) ∧ s.link.ageCounter < 4294967295) ∧
    (∀ m ∈ [Msg.join 7, .leave],
      let s := presenceQueued (.round (some .presence) [1]) m
      s.link.phase = .round (some .presence) [1] ∧ s.contentionField .presence 1 + 1 < 64 ∧
        s.link.at .presence = some (queued m)) ∧
    (∀ m ∈ [Msg.claim key1 5 (some 62), .done key1 5 .clean 0 none],
      let s := withSlot (linked (.round (some (.slot 0)) [2])) job1 m
      s.link.phase = .round (some (.slot 0)) [2] ∧ s.contentionField (.slot 0) 1 + 1 < 64 ∧
        s.link.at (.slot 0) = some (queued m) ∧ s.job 0 = some job1) ∧
    ((0, 4) ∈ [(0, 4), (1, 64), (2, 16)] ∧ (1, 64) ∈ [(0, 4), (1, 64), (2, 16)] ∧
      (2, 16) ∈ [(0, 4), (1, 64), (2, 16)] ∧ 4 < 5 ∧ 64 < 65 ∧ 16 < 17) ∧
    (∀ st ∈ [EntryState.contested 7, .untaken], ∀ w ∈ [WithdrawalCause.window, .drop],
      let j := { job1 with claimInProgress := true, withdrawal := some w }
      let s := withEntry (withSlot (linked (.round (some (.slot 0)) [])) j (.claim key1 5 (some 9))) st
      s.job 0 = some j ∧
        s.board.entryFor j.key = some { key := key1, version := 5, state := st, info := none, stamp := 0 }) ∧
    (let q := { queued .leave with withdrawal := true }
     let s := onLink (stationIn .draining) fun l => { l with phase := .round (some .presence) [], presence := some q }
     s.link.phase = .round (some .presence) [] ∧ s.link.at .presence = some q ∧ q.withdrawal = true ∧
       q.replacement = none ∧ q.msg = .leave) ∧
    (let m : Msg := .claim key1 5 (some 9)
     let s := withdrawing (withSlot (linked (.round (some (.slot 0)) [])) job1 m) m
     s.link.at (.slot 0) = some { queued m with withdrawal := true } ∧ s.job 0 = some job1) ∧
    (let q := { queued (.roll 15 10 0x0040#16) with replacement := some (.roll 0 11 9#16) }
     let s := onLink (linked (.round (some .roll) [0])) fun l => { l with roll := some q }
     s.link.at .roll = some q ∧ q.replacement = some (.roll 0 11 9#16) ∧ s.link.ageCounter < 4294967295) ∧
    (let m : Msg := .claim key1 5 (some 9)
     let s := withdrawing (linked (.round (some (.slot 0)) [])) m
     s.link.at (.slot 0) = some { queued m with withdrawal := true } ∧ s.job 0 = none) ∧
    (linked (.round none [])).link.phase = .round none [] ∧
    ((linked (.round none [0])).link.phase = .round none [0] ∧ ([0] : List Nat) ≠ []) := by decide +kernel

/-- The winning key of this station's ROLL. -/
def rollKey : WinningKey := { rank := 0, value := 0, sender := 3 }

theorem witness_BodyEndAndSpoiledWindow :
    (linked (.body .receiver rollKey)).link.phase = .body .receiver rollKey ∧
    ((rollQueued (.body (.sender .roll) rollKey)).link.phase = .body (.sender .roll) rollKey ∧
      (rollQueued (.body (.sender .roll) rollKey)).link.at .roll = some (queued (.roll 15 10 0x0040#16))) ∧
    (linked (.body .abandoned rollKey)).link.phase = .body .abandoned rollKey ∧
    (∀ r ∈ [LinkRole.receiver, .abandoned],
      (linked (.spoil r true none)).link.phase = .spoil r true none ∧ (false || true) = true ∧
        (linked (.spoil r false none)).link.phase = .spoil r false none ∧ (true || false) = true) ∧
    (linked .owed).link.phase = .owed ∧
    (∀ x ∈ [none, some (Msg.roll 0 11 9#16)],
      let q := { queued (.roll 15 10 0x0040#16) with replacement := x }
      let s := onLink (linked (.spoil (.sender .roll) true none)) fun l => { l with roll := some q }
      s.link.phase = .spoil (.sender .roll) true none ∧ s.link.at .roll = some q ∧ q.withdrawal = false ∧
        q.replacement = x ∧ s.link.ageCounter < 4294967295) ∧
    (∀ m ∈ [Msg.join 7, .leave], ∀ w ∈ [true, false],
      let q := { queued m with withdrawal := w }
      let s := onLink (stationIn .draining) fun l =>
        { l with phase := .spoil (.sender .presence) false none, presence := some q }
      s.link.phase = .spoil (.sender .presence) false none ∧ s.link.at .presence = some q ∧ q.withdrawal = w ∧
        q.replacement = none ∧ q.msg = m) ∧
    (∀ m ∈ [Msg.claim key1 5 (some 62), .done key1 5 .clean 0 none],
      let s := withSlot (linked (.spoil (.sender (.slot 0)) false none)) job1 m
      s.link.phase = .spoil (.sender (.slot 0)) false none ∧ s.link.at (.slot 0) = some (queued m) ∧
        s.job 0 = some job1) ∧
    (∀ st ∈ [EntryState.contested 7, .untaken], ∀ w ∈ [WithdrawalCause.window, .drop],
      let m : Msg := .claim key1 5 (some 62)
      let j := { job1 with claimInProgress := true, withdrawal := some w }
      let s := withdrawing (withEntry (withSlot (linked (.spoil (.sender (.slot 0)) false none)) j m) st) m
      s.link.phase = .spoil (.sender (.slot 0)) false none ∧
        s.link.at (.slot 0) = some { queued m with withdrawal := true } ∧ s.job 0 = some j ∧ j.withdrawal = some w ∧
        s.board.entryFor j.key = some { key := key1, version := 5, state := st, info := none, stamp := 0 } ∧
        s.link.ageCounter < 4294967295) ∧
    (let m : Msg := .claim key1 5 (some 62)
     let s := withdrawing (linked (.spoil (.sender (.slot 0)) false none)) m
     s.link.phase = .spoil (.sender (.slot 0)) false none ∧
       s.link.at (.slot 0) = some { queued m with withdrawal := true } ∧ s.job 0 = none) := by decide +kernel

theorem witness_BodyRoundTrip : (Msg.join 0xFFFF#16).inRange ∧ Msg.leave.inRange ∧ (Msg.roll 15 11 0#16).inRange ∧
    (Msg.claim key1 255 (some 63)).inRange ∧ (Msg.done key1 255 .wasted 96 (some .format)).inRange ∧
    (Msg.done { title := 15, edition := 63, page := 255, sep := .y } 0 .clean 0 none).inRange := by
  simp [Msg.inRange, PlateKey.inRange, key1]

/-- A body with its nibble check. -/
def bodyOf (bytes : List Byte) : List Byte := bytes ++ [nibbleCheck bytes]

/-- Bodies with one field at its last good value, and past it. -/
theorem witness_BodyRoundTrip_refusals :
    (∀ x ∈ [((0, 0, 5), [0x13, 5, 0xFB, 1, 2]), ((2, 63, 15), [0x14, 15, 0xF3, 63, 1, 255, 63]),
        ((3, 0, 0), [0x15, 0, 0, 0, 255, 0, 5, 96, 5]), ((3, 0, 0), [0x15, 0, 0, 0, 1, 0, 1, 0, 0])],
      (judgeBody { rank := x.1.1, value := x.1.2.1, sender := x.1.2.2 } true (bodyOf x.2)).isSome = true) ∧
    (∀ x ∈ [((0, 0, 5), [0x13, 5, 0xFC, 1, 2]), ((0, 0, 16), [0x13, 16, 0xFB, 1, 2]),
        ((2, 63, 15), [0x14, 15, 0xF4, 63, 1, 255, 63]), ((2, 63, 15), [0x14, 15, 0xF3, 64, 1, 255, 63]),
        ((2, 63, 15), [0x14, 15, 0xF3, 63, 0, 255, 63]), ((2, 64, 15), [0x14, 15, 0xF3, 63, 1, 255, 64]),
        ((3, 0, 0), [0x15, 0, 0, 0, 255, 0, 6, 96, 5]), ((3, 0, 0), [0x15, 0, 0, 0, 255, 0, 0, 96, 5]),
        ((3, 0, 0), [0x15, 0, 0, 0, 255, 0, 5, 97, 5]), ((3, 0, 0), [0x15, 0, 0, 0, 255, 0, 5, 96, 6]),
        ((3, 0, 0), [0x15, 0, 0, 0, 255, 0, 5, 96, 0]), ((3, 0, 0), [0x15, 0, 0, 0, 1, 0, 1, 0, 1]),
        ((1, 0, 5), [0x13, 5, 0xFB, 1, 2]), ((0, 1, 5), [0x13, 5, 0xFB, 1, 2]), ((0, 0, 6), [0x13, 5, 0xFB, 1, 2]),
        ((2, 62, 15), [0x14, 15, 0xF3, 63, 1, 255, 63]), ((0, 0, 5), [0x13, 5, 0xFB, 1, 2, 3])],
      judgeBody { rank := x.1.1, value := x.1.2.1, sender := x.1.2.2 } true (bodyOf x.2) = none) ∧
    judgeBody { rank := 1, value := 0, sender := 5 } false (bodyOf [0x12, 5]) = none ∧
    judgeBody { rank := 1, value := 0, sender := 5 } true [0x12, 5, 0] = none := by decide +kernel

theorem witness_OwnJoinRollOrDoneAccepted :
    (let s := presenceQueued (.spoil (.sender .presence) false none) (.join 7)
     s.link.phase = .spoil (.sender .presence) false none ∧ s.link.presence = some (queued (.join 7)) ∧
       (queued (.join 7)).replacement = none) ∧
    (let s := rollQueued (.spoil (.sender .roll) false none)
     s.link.phase = .spoil (.sender .roll) false none ∧ s.link.roll = some (queued (.roll 15 10 0x0040#16)) ∧
       10 ≤ 11) ∧
    (∀ st ∈ [EntryState.owned 3, .orphaned 3, .untaken], ∀ version ∈ [4, 5],
      let q := queued (.done key1 version .tinted 96 (some .check))
      let s := withEntry
        (onLink (linked (.spoil (.sender (.slot 7)) false none)) fun l => { l with slots := l.slots.set 7 (some q) }) st
      s.link.phase = .spoil (.sender (.slot 7)) false none ∧ s.link.slots[(7 : Slot)] = some q ∧
        s.jobFor key1 version = none ∧ s.board.placeOf key1 = some 0 ∧ s.settings.station = 3 ∧
        s.board.entries[0]? = some { key := key1, version := 5, state := st, info := none, stamp := 0 } ∧
        s.board.stamp < 4294967295) := by decide +kernel

theorem witness_OwnLeaveDetaches :
    let s := presenceQueued (.spoil (.sender .presence) false none) .leave
    s.link.phase = .spoil (.sender .presence) false none ∧ s.link.presence = some (queued .leave) ∧
      (queued .leave).msg = .leave := by decide

theorem witness_DuplicateNumberBars :
    (linked (.spoil .receiver false (some (3, .leave)))).link.phase =
      .spoil .receiver false
        (some ((linked (.spoil .receiver false (some (3, .leave)))).settings.station, .leave)) := by decide +kernel

/-- A peer that is PRESENT with a running silence timer. -/
def presentPeer : Peer := { Peer.unknown with state := .present, silence := some 0 }

theorem witness_PeerRecordFollowsItsPeer :
    (∀ p ∈ [Peer.unknown, { presentPeer with state := .lost, silence := none }],
      ∀ m ∈ [Msg.join 7, .leave, .roll 0 3 0xFFF7#16, .claim key1 5 (some 63), .done key1 5 .clean 0 none],
      let s := withPeer (linked (.spoil .receiver false (some (5, m)))) 5 p
      s.link.phase = .spoil .receiver false (some (5, m)) ∧ 5 ≠ s.settings.station ∧ (s.peer 5).state = p.state ∧
        (s.peer 5).state ≠ .present) ∧
    (let s := withPeer (linked (.spoil .receiver false (some (5, .roll 0 3 0xFFF7#16)))) 5
       { presentPeer with joining := true }
     (s.peer 5).state = .present ∧ (s.peer 5).joining = true ∧
       (0xFFF7#16).getLsbD s.settings.station.val = false) ∧
    (∀ x ∈ [none, some 7, some 0],
      let s := withPeer (linked (.spoil .receiver false (some (5, .roll 0 3 0xFFF7#16)))) 5 presentPeer
      let t := { s with clock := 100 * 100000, roll := { s.roll with joinSentAt := x } }
      t.link.phase = .spoil .receiver false (some (5, .roll 0 3 0xFFF7#16)) ∧ 5 ≠ t.settings.station ∧
        (t.peer 5).state = .present ∧ (t.peer 5).joining = false ∧
        (0xFFF7#16).getLsbD t.settings.station.val = false ∧ t.now = 100 ∧ t.settings.rollPeriod = 100 ∧
        (t.roll.joinSentAt = none ∨ (x = some 0 ∧ t.now = 0 + t.settings.rollPeriod) ∨
          (x = some 7 ∧ t.now < 7 + t.settings.rollPeriod))) ∧
    (∀ m ∈ [Msg.leave, .join 7, .roll 15 11 0x1234#16, .roll 0 3 0xFFFF#16, .roll 0 0 0#16],
      let s := withPeer (linked (.spoil .receiver false (some (5, m)))) 5 presentPeer
      s.link.phase = .spoil .receiver false (some (5, m)) ∧ 5 ≠ s.settings.station ∧ (s.peer 5).state = .present ∧
        (0xFFFF#16).getLsbD s.settings.station.val = true) ∧
    (let s := withPeer working 5 presentPeer
     (s.peer 5).silence = some 0 ∧ 0 ≤ s.now) := by decide +kernel

/-! ## The Roll Unit and Station Control -/

theorem witness_RollItemOfEachSlot : working.loader.digest = some 0x1234#16 := rfl

theorem witness_RollTimerAndJoinPeriod :
    (working.roll.rollTimer = some 0 ∧ 0 ≤ working.now ∧ working.link.roll = none ∧
      working.link.ageCounter < 4294967295) ∧
    (let s := { stationIn .joining with roll := { working.roll with joinPeriod := some 0 } }
     s.roll.joinPeriod = some 0 ∧ 0 ≤ s.now ∧ s.station.state = .joining) ∧
    (∀ b ∈ [true, false],
      let q := { queued (.roll 15 10 0x0040#16) with inProgress := b }
      let s := onLink working fun l => { l with roll := some q }
      s.roll.rollTimer = some 0 ∧ s.link.roll = some q ∧ q.inProgress = b ∧ s.link.ageCounter < 4294967295) ∧
    (let q := { queued (.roll 15 10 0x0040#16) with replacement := some (.roll 0 11 9#16) }
     let s := onLink (linked (.spoil (.sender .roll) false none)) fun l => { l with roll := some q }
     s.link.phase = .spoil (.sender .roll) false none ∧ s.link.roll = some q ∧ q.msg = .roll 15 10 0x0040#16 ∧
       q.replacement = some (.roll 0 11 9#16) ∧ s.link.ageCounter < 4294967295) := by decide

/-- The roll timer expires with the age counter at its last values, with the roll place empty or holding a ROLL. -/
theorem witness_RollTimerAndJoinPeriod_renumbered :
    (∀ n ∈ [4294967294, 4294967295], ∀ x ∈ [none, some { queued (.roll 15 10 0x0040#16) with inProgress := false }],
      let s := onLink (aged n working) fun l => { l with roll := x }
      s.roll.rollTimer = some 0 ∧ 0 ≤ s.now ∧ s.link.roll = x ∧ (x.map (·.inProgress)).getD false = false ∧
        s.link.ageCounter = n ∧ s.link.queued.length = if x = none then 1 else 2) ∧
    (let q := { queued (.roll 15 10 0x0040#16) with replacement := some (.roll 0 11 9#16) }
     let s := onLink (aged 4294967295 (linked (.spoil (.sender .roll) false none))) fun l => { l with roll := some q }
     s.link.phase = .spoil (.sender .roll) false none ∧ s.link.roll = some q ∧
       q.replacement = some (.roll 0 11 9#16) ∧ s.link.ageCounter = 4294967295) := by decide +kernel

/-- Numbers that do not stand close are numbered anew in their order. -/
theorem witness_renumbers : renumbers [7, 4294967294, 9] fun a => if a = 7 then 0 else if a = 9 then 1 else 2 := by
  unfold renumbers
  decide

/-- A station whose every timer runs to the millisecond 7, with the Imager in a state and the drum watch running. -/
def timersAhead (x : StationState) (i : ImagerState) : State :=
  let s := withPeer (withJob (withEntry (stationIn x) (.contested 7)) { job1 with quiet := some 7 }) 5
    { presentPeer with silence := some 7 }
  withImager
    { s with roll := { s.roll with rollTimer := some 7, isolationTimer := some 7, joinPeriod := some 7 } }
    fun k => { k with
      state := i, loadTimer := some 7, ejectTimer := some 7
      drum := { running := true, counter := 9, clocks := 3, indexSeen := false } }

theorem witness_RollTimerAndJoinPeriod_ahead :
    ∀ x ∈ [StationState.joining, .active, .draining], ∀ i ∈ [ImagerState.loading, .ejecting],
      let s := timersAhead x i
      s.now < 7 ∧ s.roll.rollTimer = some 7 ∧ s.roll.joinPeriod = some 7 ∧ s.station.state = x ∧
        s.roll.isolationTimer = some 7 ∧ (s.peer 5).silence = some 7 ∧
        s.job 0 = some { job1 with quiet := some 7 } ∧ s.running = true ∧
        (s.board.entries[0]?.map (·.state)) = some (.contested 7) ∧ s.imager.loadTimer = some 7 ∧
        s.imager.ejectTimer = some 7 ∧ s.imager.state = i ∧ s.imager.drum.running = true := by decide

theorem witness_IsolationAndDisowningRejoin :
    (∀ x ∈ [StationState.joining, .active, .draining],
      (stationIn x).roll.isolationTimer = some 0 ∧ 0 ≤ (stationIn x).now ∧
        (stationIn x).station.state ∈ [StationState.joining, .active, .draining]) ∧
    (∀ x ∈ [StationState.joining, .active, .draining],
      let s := { withPeer (onLink (stationIn x) fun l =>
          { l with phase := .spoil .receiver false (some (5, .roll 4 3 0xFFF7#16)) }) 5 presentPeer with
        clock := 10100000 }
      let t := { s with roll := { s.roll with joinSentAt := some 0 } }
      t.station.state = x ∧ t.link.phase = .spoil .receiver false (some (5, .roll 4 3 0xFFF7#16)) ∧
        5 ≠ t.settings.station ∧ (t.peer 5).state = .present ∧ (t.peer 5).joining = false ∧
        t.roll.joinSentAt = some 0 ∧ 0 + t.settings.rollPeriod < t.now ∧
        (0xFFF7#16).getLsbD t.settings.station.val = false) := by decide +kernel

/-- A station in LOADING that holds a halt. -/
def haltHeld (ph : LoaderPhase) : State :=
  { State.reset with
    station := { State.reset.station with haltRegion := some .tileStore }
    loader := { State.reset.loader with phase := ph } }

theorem witness_UncorrectableErrorHalts :
    (State.reset.station.state = .loading ∧ (stationIn .halted).station.state = .halted) ∧
    (∀ x ∈ [StationState.joining, .active, .draining, .detached, .barred],
      (stationIn x).station.state ∈ [StationState.joining, .active, .draining, .detached, .barred]) ∧
    ((haltHeld .loadingBlocks).station.state = .loading ∧ (haltHeld .loadingBlocks).station.haltRegion = some .tileStore ∧
      (haltHeld .loadingBlocks).loader.phase = .loadingBlocks) ∧
    ((haltHeld .reading).station.haltRegion = some .tileStore ∧ (haltHeld .reading).loader.phase = .reading ∧
      recordFailure (recordWith plantImage 1) = some (.checksum, none)) :=
  ⟨by decide, by decide, by decide, rfl, rfl, recordWith_flipped _⟩

/-! ## The Plate Board and the page line -/

theorem key1_inRange : key1.inRange := by simp [PlateKey.inRange, key1]

/-- The working station with a start marker taken, in a station state. -/
def listening (x : StationState) : State := marked (stationIn x)

theorem witness_PlateHeaderContests :
    (Header.plate key1 5 0 3 7).inRange ∧
    (let s := listening .active
     s.running = true ∧ s.receiver.framing = .header [] ∧ s.board.placeOf key1 = none ∧ s.board.entries.length < 512 ∧
       s.board.stamp < 4294967295 ∧ s.station.state = .active ∧ s.jobFor key1 5 = none ∧
       (s.settings.sizeClass 0).supported = true ∧ bandsOfHeight (s.settings.sizeClass 0).height ≤ s.unreserved ∧
       s.imager.state ≠ .fault ∧ s.imager.mediaOut = false ∧ s.freeSlots = 0 :: [1, 2, 3, 4, 5, 6, 7] ∧
       s.link.ageCounter < 4294967295) ∧
    (let s := listening .joining
     s.running = true ∧ s.receiver.framing = .header [] ∧ s.board.placeOf key1 = none ∧ s.station.state ≠ .active) ∧
    (let s := onLink (listening .active) fun l => { l with slots := Vector.replicate 8 (some (queued .leave)) }
     s.running = true ∧ s.receiver.framing = .header [] ∧ s.freeSlots = []) := by
  refine ⟨⟨key1_inRange, by decide, by decide, by decide, by decide⟩, ?_, ?_, ?_⟩ <;> decide +kernel

/-- A listening station that is JOINING, with one entry. -/
def joiningWith (x : EntryState) : State := withEntry (listening .joining) x

/-- A board whose every place holds an entry of another key that some station owns. -/
def fullBoard : Board :=
  { entries := List.replicate 512
      { key := { key1 with page := 9 }, version := 5, state := .owned 2, info := none, stamp := 0 }
    full := false, stamp := 600 }

theorem fullBoard_stays : fullBoard.placeOf key1 = none ∧ 512 ≤ fullBoard.entries.length ∧
    ∀ e ∈ fullBoard.entries, e.state = .owned 2 := by
  refine ⟨?_, Nat.le_of_eq List.length_replicate.symm, ?_⟩
  · rw [Board.placeOf, List.findIdx?_eq_none_iff]
    intro e he
    rw [List.eq_of_mem_replicate he]
    decide
  · intro e he
    rw [List.eq_of_mem_replicate he]

/-- That board with an entry of another key and of a given state in place 0. -/
def almostFullBoard (x : EntryState) : Board :=
  { fullBoard with
    entries := { key := { key1 with page := 8 }, version := 5, state := x, info := none, stamp := 1 } ::
      fullBoard.entries.tail }

theorem almostFullBoard_stays (x : EntryState) : (almostFullBoard x).placeOf key1 = none ∧
    512 ≤ (almostFullBoard x).entries.length ∧ ((almostFullBoard x).entries[0]?.map (·.state)) = some x ∧
    (∀ k d, (almostFullBoard x).entries[k]? = some d → k ≠ 0 → d.state = .owned 2) ∧
    (almostFullBoard x).stamp < 4294967295 := by
  have h : fullBoard.entries.tail = List.replicate 511
      { key := { key1 with page := 9 }, version := 5, state := .owned 2, info := none, stamp := 0 } := List.tail_replicate
  refine ⟨?_, ?_, rfl, ?_, (by decide : (600 : Nat) < 4294967295)⟩
  · rw [Board.placeOf, List.findIdx?_eq_none_iff]
    intro e he
    rw [almostFullBoard, h, List.mem_cons] at he
    rcases he with rfl | he
    · exact (by decide : decide ({ key1 with page := 8 } = key1) = false)
    · rw [List.eq_of_mem_replicate he]
      decide
  · rw [almostFullBoard, h, List.length_cons, List.length_replicate]
  · intro k d hd hk
    obtain ⟨m, rfl⟩ := Nat.exists_eq_succ_of_ne_zero hk
    rw [almostFullBoard, h, List.getElem?_cons_succ] at hd
    rw [List.eq_of_mem_replicate (List.mem_of_getElem? hd)]

/-- A station that hears a message of a PRESENT peer, with a board. -/
def hearing (m : Msg) (b : Board) : State :=
  { withPeer (linked (.spoil .receiver false (some (5, m)))) 5 presentPeer with board := b }

theorem hearing_noJob (m : Msg) (b : Board) : ∀ k, (hearing m b).job k = none := by
  have : ∀ k : Slot, State.reset.job k = none := by decide
  exact this

theorem witness_PeerClaimOrDoneRecorded :
    (∀ version ∈ [4, 5, 6],
      ∀ m ∈ [Msg.claim key1 version (some 63), .done key1 version .tinted 1 (some .gap)],
      ∀ st ∈ [EntryState.owned 5, .orphaned 5, .untaken, .contested 7, .owned 2, .orphaned 2, .done 5 .clean 0 none],
      let s := withEntry (hearing m Board.cleared) st
      s.link.phase = .spoil .receiver false (some (5, m)) ∧ 5 ≠ s.settings.station ∧ (s.peer 5).state = .present ∧
        (∀ k, s.job k = none) ∧ s.jobFor key1 version = none ∧ s.board.stamp < 4294967295 ∧
        s.board.placeOf key1 = some 0 ∧
        s.board.entries[0]? = some { key := key1, version := 5, state := st, info := none, stamp := 0 }) ∧
    (∀ m ∈ [Msg.claim key1 5 (some 63), .done key1 5 .clean 0 none],
      let s := hearing m Board.cleared
      s.board.placeOf key1 = none ∧ s.board.entries.length < 512 ∧ s.jobFor key1 5 = none ∧
        s.board.stamp < 4294967295) ∧
    (∀ m, (hearing m fullBoard).board.placeOf key1 = none ∧ 512 ≤ (hearing m fullBoard).board.entries.length ∧
      (∀ k, (hearing m fullBoard).job k = none) ∧ ∀ e ∈ (hearing m fullBoard).board.entries, e.state = .owned 2) ∧
    (∀ m, ∀ x ∈ [EntryState.done 2 .clean 0 none, .untaken, .orphaned 2],
      let s := hearing m (almostFullBoard x)
      s.board.placeOf key1 = none ∧ 512 ≤ s.board.entries.length ∧ (s.board.entries[0]?.map (·.state)) = some x ∧
        (∀ k d, s.board.entries[k]? = some d → k ≠ 0 → d.state = .owned 2) ∧ s.board.stamp < 4294967295) ∧
    (∀ m ∈ [Msg.claim key1 5 (some 63), .done key1 5 .clean 0 none], ∀ st ∈ [EntryState.untaken, .contested 7],
      let q := { queued (.claim key1 5 none) with inProgress := false }
      let s := onLink (withJob (withEntry (hearing m Board.cleared) st) job1) fun l =>
        { l with slots := l.slots.set 0 (some q) }
      s.jobFor key1 5 = some 0 ∧ s.job 0 = some job1 ∧ job1.standing = .contending ∧
        s.link.slots[(0 : Slot)] = some q ∧ q.inProgress = false ∧ s.board.placeOf key1 = some 0 ∧
        s.board.entries[0]? = some { key := key1, version := 5, state := st, info := none, stamp := 0 }) ∧
    (let s := withPeer (linked (.spoil .receiver false (some (5, .leave)))) 5 { presentPeer with state := .lost }
     (s.peer 5).state = .lost ∧ ∀ d, Msg.leave ≠ .join d) := by
  refine ⟨by decide +kernel, by decide +kernel, fun m => ?_, fun m x _ => almostFullBoard_stays x, by decide +kernel,
    by decide, fun d h => by cases h⟩
  exact ⟨fullBoard_stays.1, fullBoard_stays.2.1, hearing_noJob m _, fullBoard_stays.2.2⟩

/-- A peer's CLAIM or DONE of a higher version than the entry's finds a live job of the old one, in every standing and
stage, and a job beside it that the supersession leaves, while the station is ACTIVE or drains. -/
theorem witness_PeerClaimOrDoneRecorded_supersedes :
    (∀ m ∈ [Msg.claim key1 6 (some 63), .done key1 6 .clean 0 none],
      ∀ j ∈ [job1, { job1 with standing := .owned }, { job1 with standing := .owned, stage := .closing },
        { job1 with standing := .owned, stage := .held }, { job1 with standing := .owned, stage := .ready 4 },
        { job1 with standing := .owned, stage := .imaging }],
      ∀ p ∈ [none, some false, some true],
      let s := onLink (withOther (withJob (withEntry (hearing m Board.cleared) (.owned 3)) j)) fun l =>
        { l with slots := l.slots.set 0 (p.map fun b => { queued (.claim key1 5 none) with inProgress := b }) }
      s.link.phase = .spoil .receiver false (some (5, m)) ∧ 5 ≠ s.settings.station ∧ (s.peer 5).state = .present ∧
        s.job 0 = some j ∧ j.key = key1 ∧ j.version < 6 ∧ (∀ k, 1 < k → s.job k = none) ∧
        (s.job 1).map (fun x => decide (x.key ≠ key1)) = some true ∧ s.jobFor key1 6 = none ∧
        s.board.placeOf key1 = some 0 ∧ (s.board.entries[0]?.map (·.version)) = some 5 ∧
        (s.link.slots[(0 : Slot)]).map (·.inProgress) = p ∧ s.screener.current = none) ∧
    (∀ m ∈ [Msg.claim key1 6 (some 63), .done key1 6 .clean 0 none],
      ∀ j ∈ [job1, { job1 with standing := .owned, stage := .held }],
      let s := draining (withJob (withEntry (hearing m Board.cleared) (.owned 3)) j)
      s.drainedBy 0 ∧ ¬ (withOther s).drainedBy 0 ∧ s.job 0 = some j ∧ s.link.presence = none) ∧
    (∀ x ∈ [ImagerState.loading, .ejecting, .imaging], ∀ b ∈ [true, false],
      let s := withImager (hearing .leave Board.cleared) fun i => { i with state := x, swathInOutput := b }
      s.imager.state = x ∧ s.imager.pendingCancel = none ∧ s.imager.swathInOutput = b) ∧
    (let s := hearing .leave Board.cleared
     (∀ r, s.outlasts { job1 with standing := .owned, stage := .cancelling r } key1 6) ∧
       s.outlasts { job1 with version := 6 } key1 6 ∧ ¬ s.outlasts job1 key1 6 ∧
       ¬ s.outlasts { job1 with standing := .owned, stage := .imaging } key1 6 ∧
       (withImager s fun i => { i with pendingCancel := some .dropped }).outlasts
         { job1 with standing := .owned, stage := .imaging } key1 6) ∧
    (∀ m ∈ [Msg.claim key1 5 (some 63), .done key1 5 .clean 0 none],
      let s := withJob (withEntry (hearing m Board.cleared) (.owned 3)) { job1 with standing := .owned }
      ∀ k j, s.job k = some j → j.key = key1 → j.version = 5 → j.standing = .owned) ∧
    (let b : Board := { almostFullBoard .untaken with stamp := 4294967295 }
     4294967295 ≤ (hearing .leave b).board.stamp) := by
  refine ⟨by decide +kernel, ?_, by decide +kernel, ?_, ?_, by decide +kernel⟩
  · unfold State.drainedBy
    decide +kernel
  · unfold State.outlasts
    refine ⟨fun r => .inr (.inr ⟨rfl, .inl ⟨r, rfl⟩⟩), .inr (.inl (Nat.le_refl 6)), ?_, ?_,
      .inr (.inr ⟨rfl, .inr ⟨rfl, by decide⟩⟩)⟩
    · rintro (h | h | ⟨h, _⟩)
      · exact h rfl
      · exact absurd h (by decide)
      · cases h
    · rintro (h | h | ⟨_, ⟨r, h⟩ | ⟨_, h⟩⟩)
      · exact h rfl
      · exact absurd h (by decide)
      · cases h
      · exact h rfl
  · intro m _ s k j hj _ _
    have h : ∀ k, (s.job k).all (fun j => decide (j.standing = .owned)) = true := by
      have : ∀ k, ((withJob working { job1 with standing := .owned }).job k).all
          (fun j => decide (j.standing = .owned)) = true := by decide
      exact this
    have := h k
    rw [hj] at this
    simpa using this

/-- A station whose CLAIM of slot 0 is in its spoil window, with the job of that slot and a board. -/
def claiming (j : Option Job) (b : Board) : State :=
  let s := withSlot (linked (.spoil (.sender (.slot 0)) false none)) job1 (.claim key1 5 (some 9))
  { s with jobs := { s.jobs with slots := s.jobs.slots.set 0 j }, board := b }

/-- A job in CLOSING with every band SCREENED. -/
def complete : Job :=
  { job1 with
    stage := .closing, bands := List.replicate 4 { state := .screened 9, kind := none }, screenedCount := 4 }

/-- A job with every band SCREENED, of which some carry a kind. -/
def damagedBy (kinds : List (Option DamageKind)) (j : Job) : Job :=
  { j with
    bands := kinds.map fun k => { state := .screened 1, kind := k }
    screenedCount := kinds.length, damagedCount := (kinds.filter Option.isSome).length }

/-- The kinds of a plate's bands, and the verdict that the settings of `plant` give them. -/
def verdicts : List (List (Option DamageKind) × Verdict) :=
  [([none, none], .clean), ([some .gap, none], .heldForKind), ([some .check, some .check], .withinTint),
   ([some .check, some .fill, some .format], .heldForCount)]

/-- What `hasVerdict` asks of a job of `damagedBy`. -/
theorem damagedBy_hasVerdict (j : Job) : ∀ x ∈ verdicts, (damagedBy x.1 j).hasVerdict plant x.2 := by
  have h : plant.tintLimit = 2 ∧ plant.action .gap = .hold ∧ plant.action .check = .tint ∧
    plant.action .fill = .tint ∧ plant.action .format = .tint := by decide +kernel
  obtain ⟨hl, hg, hc, hf, ho⟩ := h
  intro x hx
  simp only [verdicts, List.mem_cons, List.not_mem_nil, or_false] at hx
  rcases hx with rfl | rfl | rfl | rfl <;> simp [Job.hasVerdict, damagedBy, hl, hg, hc, hf, ho]

theorem witness_OwnClaimOwnsTheJob_assessed : ∀ x ∈ verdicts,
    let j := damagedBy x.1 complete
    let s := withImager (claiming (some j) Board.cleared) fun i => { i with mediaOut := true }
    s.settings = plant ∧ s.job 0 = some j ∧ j.key = key1 ∧ j.version = 5 ∧ j.standing = .contending ∧
      j.withdrawal ≠ some .drop ∧ j.stage = .closing ∧ j.screenedCount = j.bands.length ∧ s.imager.mediaOut = true := by
  decide +kernel

theorem witness_OwnClaimOwnsTheJob :
    (∀ st ∈ [EntryState.contested 7, .untaken, .orphaned 2, .owned 2, .owned 3, .done 2 .clean 0 none],
      ∀ version ∈ [4, 5, 6], ∀ j ∈ [none, some job1],
      let e : BoardEntry := { key := key1, version := version, state := st, info := none, stamp := 0 }
      let s := claiming j { entries := [e], full := false, stamp := 1 }
      s.link.phase = .spoil (.sender (.slot 0)) false none ∧
        s.link.slots[(0 : Slot)] = some (queued (.claim key1 5 (some 9))) ∧ s.job 0 = j ∧
        (∀ k, k ≠ 0 → s.job k = none) ∧ s.board.placeOf key1 = some 0 ∧ s.board.entries[0]? = some e ∧
        s.board.stamp < 4294967295) ∧
    (∀ j ∈ [none, some job1],
      let s := claiming j Board.cleared
      s.job 0 = j ∧ s.board.placeOf key1 = none ∧ s.board.entries.length < 512 ∧ s.board.stamp < 4294967295) ∧
    (∀ j, ∀ x ∈ [EntryState.done 2 .clean 0 none, .untaken, .orphaned 2],
      let s := claiming j (almostFullBoard x)
      s.board.placeOf key1 = none ∧ 512 ≤ s.board.entries.length ∧ (s.board.entries[0]?.map (·.state)) = some x ∧
        (∀ k d, s.board.entries[k]? = some d → k ≠ 0 → d.state = .owned 2) ∧ s.board.stamp < 4294967295) ∧
    ((claiming (some job1) fullBoard).board.placeOf key1 = none ∧
      512 ≤ (claiming (some job1) fullBoard).board.entries.length ∧
      ∀ e ∈ (claiming (some job1) fullBoard).board.entries, e.state = .owned 2) ∧
    (job1.key = key1 ∧ job1.version = 5 ∧ job1.standing = .contending ∧ job1.stage = .receiving ∧
      job1.withdrawal ≠ some .drop) ∧
    (let s := withImager (claiming (some complete) Board.cleared) fun i => { i with state := .fault }
     s.job 0 = some complete ∧ complete.key = key1 ∧ complete.version = 5 ∧ complete.standing = .contending ∧
       complete.stage = .closing ∧ complete.screenedCount = complete.bands.length ∧ complete.damagedCount = 0 ∧
       s.imager.state ≠ .idle ∧ s.jobs.readyCounter < 4294967295) ∧
    ({ complete with screenedCount := 3 }.screenedCount ≠ complete.bands.length) ∧
    (∀ x ∈ [Stage.receiving, .closing],
      let j := { job1 with stage := x, withdrawal := some .drop }
      let s := claiming (some j) Board.cleared
      s.job 0 = some j ∧ j.withdrawal = some .drop ∧ j.stage = x ∧ s.screener.current = none) :=
  ⟨by decide +kernel, by decide +kernel, fun _ x _ => almostFullBoard_stays x, fullBoard_stays, by decide,
    by decide +kernel, by decide, by decide +kernel⟩

theorem witness_PlateHeaderAgainstTheBoard :
    (Header.plate key1 4 3 0 0).inRange ∧
    (let s := joiningWith .untaken
     s.station.state = .joining ∧ s.receiver.framing = .header [] ∧ s.board.placeOf key1 = some 0 ∧
       (s.board.entries[0]?.map (·.version)) = some 5 ∧ 4 < 5) ∧
    (∀ x ∈ [EntryState.contested 7, .owned 2, .done 2 .clean 0 none], x ≠ .untaken ∧ ∀ n, x ≠ .orphaned n) ∧
    ((joiningWith (.orphaned 2)).board.placeOf key1 = some 0 ∧ (joiningWith (.orphaned 2)).board.stamp < 4294967295) ∧
    (5 < 6 ∧ ∀ n, (joiningWith .untaken).job n = none) ∧
    (∀ j ∈ [job1, { job1 with standing := .owned }, { job1 with standing := .owned, stage := .ready 4 },
        { job1 with standing := .owned, stage := .imaging }],
      let s := withImager (withJob (joiningWith (.owned 3)) j) fun i => { i with state := .loading }
      s.station.state = .joining ∧ s.board.placeOf key1 = some 0 ∧ s.job 0 = some j ∧ j.key = key1 ∧ j.version < 6 ∧
        (∀ m, m ≠ 0 → s.job m = none) ∧ s.link.slots[(0 : Slot)] = none ∧ s.screener.current = none ∧
        s.link.ageCounter < 4294967295 ∧ s.imager.state = .loading ∧ s.imager.pendingCancel = none) ∧
    (let j := { job1 with standing := .owned, stage := .held }
     let s := onLink (withJob (withEntry (listening .draining) (.owned 3)) j) fun l =>
       { l with ageCounter := 4294967293 }
     s.station.state = .draining ∧ s.board.placeOf key1 = some 0 ∧ s.job 0 = some j ∧ j.version < 6 ∧
       (∀ m, m ≠ 0 → s.job m = none) ∧ s.screener.current = none ∧ s.link.ageCounter + 1 < 4294967295) ∧
    (let s := { listening .draining with board := fullBoard }
     s.station.state = .draining ∧ s.receiver.framing = .header [] ∧ s.board.placeOf key1 = none ∧
       512 ≤ s.board.entries.length ∧ ∀ e ∈ s.board.entries, e.state = .owned 2) ∧
    (∀ x ∈ [EntryState.done 2 .clean 0 none, .untaken, .orphaned 2],
      let s := { listening .draining with board := almostFullBoard x }
      s.board.placeOf key1 = none ∧ 512 ≤ s.board.entries.length ∧ (s.board.entries[0]?.map (·.state)) = some x ∧
        (∀ k d, s.board.entries[k]? = some d → k ≠ 0 → d.state = .owned 2) ∧ s.board.stamp < 4294967295) := by
  refine ⟨⟨key1_inRange, by decide, by decide, by decide, by decide⟩, ?_, ?_, ?_, ?_, by decide +kernel,
    by decide +kernel, ⟨rfl, rfl, fullBoard_stays⟩, fun x _ => almostFullBoard_stays x⟩
  · decide +kernel
  · decide +kernel
  · decide +kernel
  · exact ⟨by decide, by decide⟩

/-- In ACTIVE a header finds an entry of its key, with its job or without, and a full board: the station may contend,
also while it cancels the old version, and does not where Job Control has no slot. -/
theorem witness_PlateHeaderAgainstTheBoard_active :
    (∀ st ∈ [EntryState.contested 7, .owned 3, .done 2 .clean 0 none, .untaken, .orphaned 2],
      ∀ version ∈ [4, 5, 6],
      let s := withEntry (listening .active) st
      (Header.plate key1 version 0 0 0).inRange ∧ s.running = true ∧ s.receiver.framing = .header [] ∧
        s.board.placeOf key1 = some 0 ∧
        s.board.entries[0]? = some { key := key1, version := 5, state := st, info := none, stamp := 0 } ∧
        (∀ n, s.job n = none) ∧ s.station.state = .active ∧ s.jobFor key1 version = none ∧
        (s.settings.sizeClass 0).supported = true ∧ bandsOfHeight (s.settings.sizeClass 0).height ≤ s.unreserved ∧
        s.imager.state ≠ .fault ∧ s.imager.mediaOut = false ∧ s.freeSlots = [0, 1, 2, 3, 4, 5, 6, 7]) ∧
    (∀ j ∈ [job1, { job1 with standing := .owned }, { job1 with standing := .owned, stage := .ready 4 },
        { job1 with standing := .owned, stage := .imaging }],
      ∀ x ∈ [ImagerState.loading, .ejecting, .imaging], ∀ p ∈ [none, some false, some true],
      let s := onLink (withOther (withImager (withJob (withEntry (listening .active) (.owned 3)) j) fun i =>
        { i with state := x })) fun l =>
        { l with slots := l.slots.set 0 (p.map fun b => { queued (.claim key1 5 none) with inProgress := b }) }
      s.running = true ∧ s.board.placeOf key1 = some 0 ∧ s.job 0 = some j ∧ j.key = key1 ∧ j.version < 6 ∧
        (s.job 1).map (fun x => decide (x.key ≠ key1)) = some true ∧ (∀ k, 1 < k → s.job k = none) ∧
        (s.link.slots[(0 : Slot)]).map (·.inProgress) = p ∧ s.imager.state = x ∧ s.imager.pendingCancel = none ∧
        s.screener.current = none ∧ s.freeSlots = [2, 3, 4, 5, 6, 7]) ∧
    (∀ x ∈ [EntryState.done 2 .clean 0 none, .untaken, .orphaned 2],
      let s := { listening .active with board := { almostFullBoard x with stamp := 4294967295 } }
      s.running = true ∧ s.board.placeOf key1 = none ∧ 512 ≤ s.board.entries.length ∧
        (s.board.entries[0]?.map (·.state)) = some x ∧ 4294967295 ≤ s.board.stamp ∧ s.freeSlots ≠ []) ∧
    (let s := { listening .active with board := fullBoard }
     s.running = true ∧ s.board.placeOf key1 = none ∧ 512 ≤ s.board.entries.length ∧
       ∀ e ∈ s.board.entries, e.state = .owned 2) ∧
    (∀ j ∈ [job1, { job1 with standing := .owned, stage := .held }],
      let s := withJob (withEntry (listening .draining) (.owned 3)) j
      s.drainedBy 0 ∧ s.job 0 = some j ∧ s.link.presence = none ∧ s.screener.current = none) := by
  refine ⟨?_, by decide +kernel, fun x _ => ?_, ⟨rfl, fullBoard_stays⟩, ?_⟩
  · have h : ∀ st ∈ [EntryState.contested 7, .owned 3, .done 2 .clean 0 none, .untaken, .orphaned 2],
        ∀ version ∈ [4, 5, 6],
        let s := withEntry (listening .active) st
        s.running = true ∧ s.receiver.framing = .header [] ∧ s.board.placeOf key1 = some 0 ∧
          s.board.entries[0]? = some { key := key1, version := 5, state := st, info := none, stamp := 0 } ∧
          (∀ n, s.job n = none) ∧ s.station.state = .active ∧ s.jobFor key1 version = none ∧
          (s.settings.sizeClass 0).supported = true ∧ bandsOfHeight (s.settings.sizeClass 0).height ≤ s.unreserved ∧
          s.imager.state ≠ .fault ∧ s.imager.mediaOut = false ∧ s.freeSlots = [0, 1, 2, 3, 4, 5, 6, 7] := by
      decide +kernel
    have r : ∀ version ∈ [4, 5, 6], (Header.plate key1 version 0 0 0).inRange := by
      intro v hv
      refine ⟨key1_inRange, ?_, by decide, by decide, by decide⟩
      simp only [List.mem_cons, List.not_mem_nil, or_false] at hv
      omega
    exact fun st hst v hv => ⟨r v hv, h st hst v hv⟩
  · obtain ⟨h1, h2, h3, _, _⟩ := almostFullBoard_stays x
    refine ⟨rfl, h1, h2, h3, Nat.le_refl 4294967295, ?_⟩
    have : (listening .active).freeSlots ≠ [] := by decide +kernel
    exact this
  · intro j hj
    unfold State.drainedBy
    simp only [List.mem_cons, List.not_mem_nil, or_false] at hj
    rcases hj with rfl | rfl <;> exact ⟨⟨rfl, by decide⟩, rfl, rfl, rfl⟩

/-- A claim window expires on a board whose stamps are given anew, and where the last job of a draining station loses
its claim. -/
theorem witness_ClaimWindowExpires_limits :
    (∀ n ∈ [4294967294, 4294967295],
      let s := withEntry working (.contested 0)
      let t := { s with board := { s.board with stamp := n } }
      t.running = true ∧ t.board.stamp = n ∧ t.jobFor key1 5 = none ∧ (t.board.entries[0]?.map (·.stamp)) = some 0) ∧
    (∀ b ∈ [true, false], ∀ n ∈ [0, 4294967295],
      let q := { queued (.join 7) with inProgress := b }
      let s := onLink (draining (withJob (withEntry working (.contested 0)) job1)) fun l =>
        { l with presence := some q, ageCounter := n }
      s.running = true ∧ s.jobFor key1 5 = some 0 ∧ s.job 0 = some job1 ∧ job1.standing = .contending ∧
        job1.claimInProgress = false ∧ s.link.slots[(0 : Slot)] = none ∧ s.station.state = .draining ∧
        (∀ m, m ≠ 0 → s.job m = none) ∧ s.link.presence = some q ∧ q.inProgress = b) := by decide +kernel

theorem witness_ClaimWindowExpires :
    (let s := withEntry working (.contested 0)
     s.running = true ∧
       s.board.entries[0]? = some { key := key1, version := 5, state := .contested 0, info := none, stamp := 0 } ∧
       0 ≤ s.now ∧ s.board.stamp < 4294967295 ∧ s.jobFor key1 5 = none) ∧
    (let s := withSlot (withEntry working (.contested 0)) job1 (.claim key1 5 none)
     let q := { queued (.claim key1 5 none) with inProgress := false }
     let t := onLink s fun l => { l with slots := l.slots.set 0 (some q) }
     t.jobFor key1 5 = some 0 ∧ t.job 0 = some job1 ∧ job1.standing = .contending ∧ job1.claimInProgress = false ∧
       t.link.slots[(0 : Slot)] = some q ∧ q.inProgress = false) ∧
    (∀ w ∈ [none, some WithdrawalCause.drop],
      let j := { job1 with claimInProgress := true, withdrawal := w }
      let s := withSlot (withEntry working (.contested 0)) j (.claim key1 5 (some 9))
      s.jobFor key1 5 = some 0 ∧ s.job 0 = some j ∧ j.standing = .contending ∧ j.claimInProgress = true ∧
        s.link.slots[(0 : Slot)] = some (queued (.claim key1 5 (some 9))) ∧
        (queued (.claim key1 5 (some 9))).inProgress = true) := by decide +kernel

theorem witness_StartMarkerAndHeaderFailure :
    working.running = true ∧ working.receiver.framing = .hunting ∧
    (listening .active).receiver.framing = .header [] ∧
    ((0x00#8 ≠ 0x01#8 ∧ 0x00#8 ≠ 0x02#8 ∧ 0x00#8 ≠ 0x03#8) ∧ (0x04#8 ≠ 0x01#8 ∧ 0x04#8 ≠ 0x02#8 ∧ 0x04#8 ≠ 0x03#8)) ∧
    (let bytes : List Byte := [0x03, 0x32, 0x0C, 0x07, 0x04, 0xF8]
     headerLength (byteAt bytes 0) = some bytes.length ∧ bytes.getLast? ≠ some (nibbleCheck bytes.dropLast)) ∧
    (let bytes : List Byte := [0x03, 0x32, 0x0C, 0x00, 0x04, nibbleCheck [0x03, 0x32, 0x0C, 0x00, 0x04]]
     headerLength (byteAt bytes 0) = some bytes.length ∧ headerFields bytes = none) := by decide +kernel

/-- A station in the payload of a FRAGMENT of band 3, part 0, with `length` payload bytes of which some have come. -/
def inPayload (s : State) (length : Nat) (got : List Byte) : State :=
  { s with receiver := { s.receiver with framing := .payload (Header.fragment key1 5 3 0 false length).encode got } }

theorem witness_StartMarkerAndHeaderFailure_cutShort :
    (Header.fragment key1 5 3 0 false 0).inRange ∧ (Header.fragment key1 5 3 0 false 9).inRange ∧
    (let s := inPayload (listening .active) 0 []
     s.running = true ∧ s.receiver.framing = .payload (Header.fragment key1 5 3 0 false 0).encode [] ∧
       ([] : List Byte).length + [0x1F#8].length < 0 + 2 ∧ s.jobFor key1 5 = none) ∧
    (∀ j ∈ [{ job1 with stage := .closing }, { job1 with endAdmitted := true }],
      let s := inPayload (listening .active) 9 [0x1F#8]
      let t := withJob s j
      t.running = true ∧ t.receiver.framing = .payload (Header.fragment key1 5 3 0 false 9).encode [0x1F#8] ∧
        [0x1F#8].length + (List.replicate 9 0#8).length < 9 + 2 ∧ t.jobFor key1 5 = some 0 ∧ t.job 0 = some j) := by
  refine ⟨⟨key1_inRange, by decide, by decide, by decide, by decide⟩,
    ⟨key1_inRange, by decide, by decide, by decide, by decide⟩, by decide +kernel, by decide +kernel⟩

theorem witness_HeaderRoundTrip : (Header.plate key1 255 3 3 7).inRange ∧
    (Header.fragment key1 255 95 15 true 4096).inRange ∧ (Header.plateEnd key1 0).inRange := by
  simp [Header.inRange, PlateKey.inRange, key1]

/-- Headers with one field at its last good value, and past it; a header of its kind's length that is taken. -/
theorem witness_HeaderRoundTrip_refusals :
    (∀ bytes ∈ [[0x01, 0xF3, 63, 1, 255, 0x33, 7], [0x02, 0xF3, 63, 1, 255, 95, 0x8F, 0x10, 0], [0x03, 0xF3, 63, 1, 255]],
      headerLength (byteAt (bodyOf bytes) 0) = some (bodyOf bytes).length ∧
        (judgeHeader (bodyOf bytes)).isSome = true) ∧
    (∀ bytes ∈ [[0x01, 0xF4, 63, 1, 255, 0x33, 7], [0x01, 0xF3, 64, 1, 255, 0x33, 7], [0x01, 0xF3, 63, 0, 255, 0x33, 7],
        [0x01, 0xF3, 63, 1, 255, 0x43, 7], [0x01, 0xF3, 63, 1, 255, 0x34, 7], [0x01, 0xF3, 63, 1, 255, 0x33, 8],
        [0x02, 0xF3, 63, 1, 255, 96, 0x8F, 0x10, 0], [0x02, 0xF3, 63, 1, 255, 95, 0x90, 0x10, 0],
        [0x02, 0xF3, 63, 1, 255, 95, 0x8F, 0x10, 1], [0x04, 0xF3, 63, 1, 255], [0x00, 0xF3, 63, 1, 255]],
      judgeHeader (bodyOf bytes) = none) ∧
    judgeHeader [0x03, 0xF3, 63, 1, 255, 0] = none := by decide +kernel

/-- A station that is taking the job's records. -/
def taking (j : Job) : State := withJob (listening .active) j

/-- The job's cursor at band 2, part 3. -/
def cursored : Job := { job1 with admission := some { band := 2, part := 3, last := false } }

theorem witness_FragmentAdmitted :
    (Header.fragment key1 5 3 15 true [0x1F#8].length).inRange ∧
    ((taking job1).running = true ∧ (taking job1).receiver.framing = .header [] ∧ (taking job1).jobFor key1 5 = some 0 ∧
      (taking job1).job 0 = some job1 ∧ job1.stage = .receiving ∧ job1.endAdmitted = false ∧ 3 < job1.bands.length ∧
      crc16 [0x1F] = half 0x02 0x2E ∧ (∀ f ∈ (taking job1).settings.fills, f.matches [0x1F] = false) ∧
      ((taking job1).receiver.holding.filter HoldingRecord.isFragment).length < 8192) ∧
    (∀ c, job1.admission = some c → c.band < 3 ∨ (c.band = 3 ∧ c.part < 15 ∧ c.last = false)) ∧
    (∀ c, cursored.admission = some c → c.band < 3 ∨ (c.band = 3 ∧ c.part < 0 ∧ c.last = false)) ∧
    (∀ c, cursored.admission = some c → c.band < 2 ∨ (c.band = 2 ∧ c.part < 4 ∧ c.last = false)) := by
  refine ⟨⟨key1_inRange, by decide, by decide, by decide, by decide⟩, by decide +kernel, ?_, ?_, ?_⟩
  · rintro c ⟨⟩
  · rintro c ⟨⟩; decide
  · rintro c ⟨⟩; decide

/-- A fill pattern that matches 64 bytes of 55h. -/
def fill55 : FillPattern := { enabled := true, mask := List.replicate 8 0xFF, crc := crc16 (List.replicate 64 0x55) }

theorem fill55_matches : fill55.matches (List.replicate 64 0x55) = true := by
  have e : fill55.masked (List.replicate 64 0x55) = List.replicate 64 0x55 := by decide +kernel
  rw [FillPattern.matches, e]
  simp only [fill55, List.length_replicate, decide_true, Bool.true_and, Nat.le_refl]

theorem witness_DroppedFragmentMarksItsBand :
    (crc16 [0x1F] ≠ half 0x00 0x00) ∧
    (let s := { taking job1 with settings := { plant with fills := [fill55] } }
     s.running = true ∧ s.receiver.framing = .header [] ∧ s.jobFor key1 5 = some 0 ∧ s.job 0 = some job1 ∧
       ∃ f ∈ s.settings.fills, f.matches (List.replicate 64 0x55) = true) ∧
    (let held : HoldingRecord :=
       { slot := 0, generation := 1, key := key1, version := 5, body := .fragment 0 0 false [] [] }
     let s := { taking job1 with receiver := { framing := .header [], holding := List.replicate 8192 held } }
     s.running = true ∧ s.receiver.framing = .header [] ∧ s.jobFor key1 5 = some 0 ∧ s.job 0 = some job1 ∧
       crc16 [0x1F] = half 0x02 0x2E ∧ (∀ f ∈ s.settings.fills, f.matches [0x1F] = false) ∧
       8192 ≤ (s.receiver.holding.filter HoldingRecord.isFragment).length) ∧
    job1.firstDamage = none := by
  refine ⟨by decide +kernel, ⟨by decide, by decide, by decide +kernel, by decide, fill55, ?_, fill55_matches⟩,
    ⟨by decide, rfl, by decide +kernel, rfl, by decide +kernel, by decide +kernel, ?_⟩, rfl⟩
  · exact List.mem_cons_self ..
  · rw [List.filter_replicate]
    exact Nat.le_of_eq List.length_replicate.symm

theorem witness_DroppedFragmentMarksItsBand_cutShort :
    (Header.fragment key1 5 3 0 false 9).inRange ∧
    (∀ j ∈ [job1, cursored], ∀ got ∈ [[], List.replicate 10 0#8],
      let s := inPayload (taking j) 9 got
      s.running = true ∧ s.receiver.framing = .payload (Header.fragment key1 5 3 0 false 9).encode got ∧
        got.length + ([] : List Byte).length < 9 + 2 ∧ s.jobFor key1 5 = some 0 ∧ s.job 0 = some j ∧ j.stage = .receiving ∧
        j.endAdmitted = false ∧ 3 < j.bands.length) ∧
    (∀ c, cursored.admission = some c → c.band < 3) ∧ job1.admission = none := by
  refine ⟨⟨key1_inRange, by decide, by decide, by decide, by decide⟩, by decide +kernel, ?_, rfl⟩
  rintro c ⟨⟩
  decide

theorem witness_FragmentNotTaken :
    (Header.fragment key1 5 95 0 false 4096).inRange ∧ (listening .active).jobFor key1 5 = none ∧
    ((taking { job1 with stage := .closing }).jobFor key1 5 = some 0 ∧ Stage.closing ≠ .receiving) ∧
    ((taking { job1 with endAdmitted := true }).jobFor key1 5 = some 0) ∧
    ((taking job1).jobFor key1 5 = some 0 ∧ job1.bands.length ≤ 4) ∧
    (1 < job1.bands.length ∧ ∀ c, cursored.admission = some c → 1 < c.band) ∧
    (2 < job1.bands.length ∧ ∀ c, cursored.admission = some c → 2 = c.band ∧ 3 ≤ c.part) := by
  refine ⟨⟨key1_inRange, by decide, by decide, by decide, by decide⟩, by decide +kernel, by decide +kernel,
    by decide +kernel, by decide +kernel, ⟨by decide, ?_⟩, ⟨by decide, ?_⟩⟩
  · rintro c ⟨⟩; decide
  · rintro c ⟨⟩; decide

theorem witness_PlateEndAndQuietTimer :
    (Header.plateEnd key1 5).inRange ∧ (Header.plateEnd key1 6).inRange ∧
    ((listening .active).running = true ∧ (listening .active).receiver.framing = .header [] ∧
      (listening .active).jobFor key1 6 = none) ∧
    ((taking job1).job 0 = some job1 ∧ (taking job1).running = true ∧ (taking job1).receiver.framing = .header [] ∧
      (taking job1).jobFor key1 6 = none ∧ (taking job1).jobFor key1 5 = some 0 ∧ job1.stage = .receiving ∧
      job1.endAdmitted = false ∧ job1.quiet = some 0 ∧ 0 ≤ (taking job1).now) ∧
    (let j := { job1 with endAdmitted := true }
     (taking j).job 0 = some j ∧ (taking j).jobFor key1 5 = some 0 ∧ j.endAdmitted = true) := by
  refine ⟨⟨key1_inRange, by decide⟩, ⟨key1_inRange, by decide⟩, by decide +kernel, by decide +kernel, by decide +kernel⟩

/-! ## The Unpacker and the band ring -/

/-- A fragment's holding record of slot 0. -/
def record (band part : Nat) (last : Bool) (payload : List Byte) : HoldingRecord :=
  { slot := 0, generation := 1, key := key1, version := 5, body := .fragment band part last payload [] }

/-- A working station with a job, the Unpacker's work and one record at the head. -/
def unpacking (w : UnpackWork) (j : Job) (r : HoldingRecord) : State :=
  let s := withJob working j
  { s with receiver := { s.receiver with holding := [r] }, unpacker := { s.unpacker with work := w } }

/-- An end marker's holding record of slot 0. -/
def endRecord (origin : EndOrigin) : HoldingRecord :=
  { slot := 0, generation := 1, key := key1, version := 5, body := .endMarker origin }

/-- The job with its last band alone not ended: the current band in buffer 0, or AWAITED; with a kind or none. -/
def lastOpen (kind : Option DamageKind) (current : Bool) : Job :=
  { job1 with
    bands := List.replicate 3 { state := .queued, kind := none }
      ++ [{ state := if current then .decoding else .awaited, kind := kind }]
    damagedCount := if kind.isSome then 1 else 0
    cursor := if current then { current := some 3, nextPart := 1, pixels := 9, buffer := some 0 }
      else UnpackCursor.empty }

/-- A ring whose every entry is the Screener's. -/
def fullRing : Ring :=
  { Ring.cleared with
    entries := Vector.replicate 32
      { descriptor := some { slot := 1, band := 0, buffer := none, void := false }, mark := false }
    producerPass := true }

theorem witness_StaleRecordsAndEndMarkers_assessed : ∀ x ∈ verdicts,
    let j := damagedBy x.1 { job1 with standing := .owned, endAdmitted := true }
    let s := withImager (unpacking .free j (endRecord .plateEnd)) fun i => { i with mediaOut := true }
    s.settings = plant ∧ s.receiver.holding = endRecord .plateEnd :: [] ∧ s.job (endRecord .plateEnd).slot = some j ∧
      j.generation = (endRecord .plateEnd).generation ∧ j.stage = .receiving ∧ j.standing = .owned ∧
      (∀ a, a < j.bands.length → (j.band a).state ≠ .awaited) ∧ j.cursor.current = none ∧
      j.screenedCount = j.bands.length ∧ s.imager.mediaOut = true := by decide +kernel

theorem witness_StaleRecordsAndEndMarkers :
    (let s := unpacking .free { job1 with generation := 2 } (record 0 0 false [])
     s.receiver.holding = record 0 0 false [] :: [] ∧ s.unpacker.work = .free ∧
       ∀ j, s.job (record 0 0 false []).slot = some j → j.generation ≠ 1) ∧
    (let s := unpacking .waitBuffer { job1 with stage := .cancelling .dropped } (record 0 0 false [])
     s.unpacker.work = .waitBuffer ∧ ∀ j, s.job 0 = some j → j.stage ≠ .receiving) ∧
    (∀ x ∈ [BandState.queued, .screening, .screened 9], ∀ st ∈ [Standing.contending, .owned],
      ∀ origin ∈ [EndOrigin.plateEnd, .quiet], ∀ count ∈ [3, 4],
      let j := { job1 with
        standing := st, screenedCount := count, bands := List.replicate 4 { state := x, kind := none } }
      let s := withImager (unpacking .free j (endRecord origin)) fun i => { i with state := .fault }
      s.receiver.holding = endRecord origin :: [] ∧ (endRecord origin).body = .endMarker origin ∧
        s.job (endRecord origin).slot = some j ∧ j.generation = (endRecord origin).generation ∧
        j.stage = .receiving ∧ (∀ a, a < j.bands.length → (j.band a).state ≠ .awaited) ∧ j.cursor.current = none ∧
        j.damagedCount = 0 ∧ s.imager.state ≠ .idle ∧ s.jobs.readyCounter < 4294967295) ∧
    (∀ kind ∈ [none, some DamageKind.fill], ∀ full ∈ [true, false], ∀ current ∈ [true, false],
      let j := lastOpen kind current
      let s := { unpacking .waitBuffer j (endRecord .quiet) with ring := if full then fullRing else Ring.cleared }
      s.job 0 = some j ∧ s.ring.isFull = full ∧ 3 < j.bands.length ∧ j.screenedCount ≠ j.bands.length ∧
        (∀ a, a < j.bands.length → a ≠ 3 → (j.band a).state ≠ .awaited) ∧
        ((j.cursor.current = some 3 ∧ (j.band 3).state = .decoding) ∨
          (j.cursor.current = none ∧ j.cursor.buffer = none ∧ (j.band 3).state = .awaited))) := by
  refine ⟨⟨rfl, rfl, ?_⟩, ⟨rfl, ?_⟩, by decide +kernel, by decide +kernel⟩
  · rintro j ⟨⟩; decide
  · rintro j ⟨⟩; decide

/-- The job with band 0 past AWAITED. -/
def band0Queued : Job := job1.modifyBand 0 fun b => { b with state := .queued }

/-- The job with band 0 current in buffer 0, `pixels` of it decoded. -/
def decoding (pixels : Nat) : Job :=
  { job1.modifyBand 0 (fun b => { b with state := .decoding }) with
    cursor := { current := some 0, nextPart := 0, pixels := pixels, buffer := some 0 } }

theorem witness_FragmentAtTheHead :
    (let r := record 1 0 true [0x1F]
     let s := unpacking .free band0Queued r
     s.receiver.holding = r :: [] ∧ r.body = .fragment 1 0 true [0x1F] [] ∧ s.job r.slot = some band0Queued ∧
       band0Queued.generation = r.generation ∧ band0Queued.stage = .receiving ∧ band0Queued.cursor.current = none ∧
       1 < band0Queued.bands.length ∧ (∀ a, a < 1 → (band0Queued.band a).state ≠ .awaited) ∧
       band0Queued.band 1 = { state := .awaited, kind := none } ∧
       s.unpacker.pool = 0 :: (List.range 16).tail ∧ s.unpacker.work = .free) ∧
    (let r := record 0 0 false [0x1F]
     let s := { unpacking .waitBuffer job1 r with unpacker := { work := .waitBuffer, pool := [] } }
     s.receiver.holding = r :: [] ∧ s.job r.slot = some job1 ∧ job1.band 0 = { state := .awaited, kind := none } ∧
       s.unpacker.pool = [] ∧ s.unpacker.work = .waitBuffer) ∧
    (let s := unpacking .free (decoding 9) (record 1 0 false [0x1F])
     s.job 0 = some (decoding 9) ∧ (decoding 9).cursor.current = some 0 ∧ (decoding 9).cursor.buffer = some 0 ∧
       ((decoding 9).band 0).state = .decoding ∧ ((decoding 9).band 0).kind = none ∧
       (∀ a, a < 1 → ((decoding 9).band a).state ≠ .awaited) ∧
       (decoding 9).band 1 = { state := .awaited, kind := none } ∧ s.ring.isFull = false ∧
       s.unpacker.pool.Pairwise (· < ·)) ∧
    ((∀ a, a < 0 → ((decoding 9).band a).state ≠ .awaited) ∧ (decoding 9).cursor.nextPart = 0 ∧
      1 ≠ (decoding 9).cursor.nextPart ∧
      (∀ part ∈ [0, 1, 3], part ≠ { (decoding 9).cursor with nextPart := 2 }.nextPart) ∧ fullRing.isFull = true ∧ Ring.cleared.isFull = false) ∧
    (((decoding 9).modifyBand 0 fun b => { b with kind := some .check }).band 0).kind ≠ none ∧
    (∀ b ∈ [BandState.awaited, .queued, .screening, .screened 9],
      let j := job1.modifyBand 0 fun _ => { state := b, kind := some .check }
      j.cursor.current = none ∧ j.cursor.buffer = none ∧ (j.band 0).state = b ∧ (j.band 0).kind ≠ none) := by
  decide +kernel

/-- The order of the bands ends the current band first, then each AWAITED band below, in rising order; each of the four
kinds of skipped band, with room in the ring and with none, at a fragment and at an end marker. -/
theorem witness_SkippedBands_first :
    ((decoding 9).endsFirst 0 3 ∧ (decoding 9).endsFirst 0 (decoding 9).bands.length ∧ job1.endsFirst 0 3 ∧
      job1.endsFirst 0 job1.bands.length ∧ band0Queued.endsFirst 1 3 ∧ ((decoding 9).gapEnded 0).endsFirst 1 3) := by
  unfold Job.endsFirst
  refine ⟨?_, ?_, ?_, ?_, ?_, ?_⟩ <;> decide +kernel

theorem witness_SkippedBands :
    (∀ full ∈ [true, false],
      ∀ j ∈ [decoding 9, job1, job1.modifyBand 0 fun b => { b with kind := some .fill }],
      ∀ r ∈ [record 3 0 false [0x1F], endRecord .plateEnd],
      let s := { unpacking .free j r with
        ring := if full then fullRing else Ring.cleared
        unpacker := { work := .free, pool := [1, 3] } }
      let pool := if j.cursor.buffer = some 0 then [0, 1, 3] else [1, 3]
      s.receiver.holding = r :: [] ∧ s.job r.slot = some j ∧ j.generation = r.generation ∧ j.stage = .receiving ∧
        3 < j.bands.length ∧ s.unpacker.pool.Pairwise (· < ·) ∧ pool.Pairwise (· < ·) ∧
        (∀ x < 16, x ∈ pool ↔ j.cursor.buffer = some x ∨ x ∈ s.unpacker.pool) ∧ s.ring.isFull = full) := by
  decide +kernel

/-- The codes of a record decoded at the cursor of `decoding pixels`, in a band of 1024 by 256 pixels. -/
def decodedTo (pixels : Nat) (last : Bool) (payload : List Byte) : CodesEnd :=
  (decodeCodes 0 1024 262144 last payload.length payload pixels []).2

theorem witness_PartDecodedGoesOn :
    (let r := record 0 0 false [0x1E]
     let s := unpacking .decoding (decoding 0) r
     s.unpacker.work = .decoding ∧ s.receiver.holding = r :: [] ∧ s.job r.slot = some (decoding 0) ∧
       (decoding 0).cursor.current = some 0 ∧ (decoding 0).cursor.buffer = some 0 ∧
       (s.settings.sizeClass (decoding 0).sizeClass).width = 1024 ∧
       bandLinesOf (s.settings.sizeClass (decoding 0).sizeClass).height 0 = 256 ∧ s.frame.bands = [] ∧
       decodedTo 0 false [0x1E] = .reached 31 ∧ 31 ≠ 262144) ∧
    (decodedTo 262113 true [0x1E] = .reached 262144 ∧ ((decoding 262113).band 0).kind = none ∧
      (unpacking .decoding (decoding 262113) (record 0 1 true [0x1E])).ring.isFull = false ∧ fullRing.isFull = true) ∧
    (readRun [0xA0] = none ∧ readRun [0x1E] = some (.blank, 31, []) ∧ readRun [0x83] = some (.copyAbove, 4, []) ∧
      1023 < 1024 ∧ 262144 < 262114 + 31 ∧ 1024 ≤ 1024 ∧ 262113 + 31 = 262144 ∧ 262112 + 31 < 262144) := by
  decide +kernel

theorem witness_FormatErrorEndsTheBand :
    (let r := record 0 0 false [0xFF]
     let s := unpacking .decoding (decoding 0) r
     s.unpacker.work = .decoding ∧ s.receiver.holding = r :: [] ∧ s.job r.slot = some (decoding 0) ∧
       (decoding 0).stage = .receiving ∧ 0 < (decoding 0).bands.length ∧ ((decoding 0).band 0).kind = none ∧
       s.ring.isFull = false ∧ fullRing.isFull = true ∧ decodedTo 0 false [0xFF] = .format) ∧
    (let j := (decoding 0).mark 0 .fill (some 1) none
     (j.band 0).kind = some .fill ∧ j.firstDamage ≠ none ∧ j.stage = .receiving ∧ j.cursor.current = some 0) ∧
    (decodedTo 0 true [0x1E] = .reached 31 ∧ 31 ≠ 262144) ∧
    (decodedTo 0 false [0x1E] = .reached 31 ∧ 31 ≠ 262144 ∧ 15 = 15) ∧
    (5 ≤ (0xA0#8).toNat / 32 ∧ (0x1F#8).toNat % 32 = 31 ∧ [0x01#8].length < 2 ∧
      (0x00#8).toNat * 256 + (0x1F#8).toNat < 32 ∧ (0x5F#8).toNat / 32 = 2 ∧ (0x7F#8).toNat / 32 = 3 ∧
      (List.replicate 31 0#8).length < (0x00#8).toNat * 256 + (0x20#8).toNat ∧
      ((0x40#8).toNat % 32 < 31 ∧ (0x40#8).toNat / 32 = 2) ∧
      ((0x61#8).toNat % 32 < 31 ∧ (0x61#8).toNat / 32 = 3 ∧ [0#8].length < (0x61#8).toNat % 32 + 1)) := by decide +kernel

theorem witness_RunCodeLayout : 5 ≤ (0xA0#8).toNat / 32 ∧
    ((0x00#8).toNat % 32 < 31 ∧ 1 = (0x00#8).toNat % 32 + 1 ∧ (0x00#8).toNat / 32 = 0) ∧
    ((0x3E#8).toNat % 32 < 31 ∧ 31 = (0x3E#8).toNat % 32 + 1 ∧ (0x3E#8).toNat / 32 = 1) ∧
    ((0x5F#8).toNat % 32 = 31 ∧ 32 = (0x00#8).toNat * 256 + (0x20#8).toNat ∧ (0x5F#8).toNat / 32 = 2) ∧
    ((0x7F#8).toNat % 32 = 31 ∧ 65535 = (0xFF#8).toNat * 256 + (0xFF#8).toNat ∧ (0x7F#8).toNat / 32 = 3) ∧
    (0x80#8).toNat / 32 = 4 := by decide

theorem witness_RunWritesInRasterOrder : Mem.WF [] ∧ 0 < 16384 ∧ 16384 ≤ 16384 ∧
    (Run.copyAbove = .copyAbove → 16384 ≤ 16384) ∧ (Run.blank = .copyAbove → 16384 ≤ 0) :=
  ⟨by decide, by decide, by decide, fun _ => by decide, fun h => by cases h⟩

/-- A descriptor of slot 0's band 0. -/
def descriptor (buffer : Option Nat) (void : Bool) : Descriptor :=
  { slot := 0, band := 0, buffer := buffer, void := void }

theorem witness_DescriptorEntersRing :
    (∀ after ∈ [AfterRing.recordDone, .judgeOn none], ∀ full ∈ [true, false],
      let s := { unpacking (.waitRing (descriptor none false) after) job1 (record 1 0 false []) with
        ring := if full then fullRing else Ring.cleared }
      s.unpacker.work = .waitRing (descriptor none false) after ∧ s.ring.isFull = full ∧
        s.job (descriptor none false).slot = some job1) ∧
    (∀ kind ∈ [none, some DamageKind.check],
      let r := record 1 0 false []
      let j := job1.modifyBand 1 fun b => { b with kind := some .check }
      let s := unpacking (.waitRing (descriptor none false) (.judgeOn kind)) j r
      s.receiver.holding = r :: [] ∧ r.slot = (descriptor none false).slot ∧ j.cursor.current = none ∧
        r.body = .fragment 1 0 false [] [] ∧ 1 ≠ (descriptor none false).band ∧ (j.band 1).state = .awaited ∧
        (∀ a, a < 1 → a ≠ (descriptor none false).band → (j.band a).state ≠ .awaited) ∧
        (descriptor none false).band < j.bands.length ∧ s.unpacker.pool = 0 :: (List.range 16).tail) ∧
    (let j := lastOpen (some .gap) false
     let d : Descriptor := { slot := 0, band := 3, buffer := none, void := false }
     let s := unpacking (.waitRing d (.judgeOn none)) j (endRecord .plateEnd)
     s.receiver.holding = endRecord .plateEnd :: [] ∧ s.job d.slot = some j ∧ j.cursor.current = none ∧
       d.band < j.bands.length ∧ (∀ a, a < j.bands.length → a ≠ d.band → (j.band a).state ≠ .awaited) ∧
       j.standing = .contending ∧ s.ring.isFull = false) := by decide +kernel

theorem witness_DescriptorEntersRing_goesOn :
    (∀ r ∈ [record 3 0 false [0x1F], endRecord .quiet],
      let s := unpacking (.waitRing (descriptor none false) (.judgeOn none)) job1 r
      s.job (descriptor none false).slot = some job1 ∧ s.ring.isFull = false ∧ s.receiver.holding = r :: [] ∧
        r.slot = (descriptor none false).slot ∧ r.generation = job1.generation ∧ job1.stage = .receiving ∧
        s.port.counts[Count.corrected.number] ≤ 4294967295) ∧
    (record 3 0 false [0x1F]).body = .fragment 3 0 false [0x1F] [] ∧ (job1.band 3).kind = none ∧
    (endRecord .quiet).body = .endMarker .quiet := by decide +kernel

theorem witness_DescriptorEntersRing_ownBand :
    (∀ x ∈ [BandState.awaited, .decoding, .queued, .screening, .screened 9], ∀ band ∈ [0, 1],
      let r := record band 1 false [0x1F]
      let j := job1.modifyBand band fun b => { b with state := x, kind := some .gap }
      let s := unpacking (.waitRing (descriptor none false) (.judgeOn none)) j r
      s.receiver.holding = r :: [] ∧ r.body = .fragment band 1 false [0x1F] [] ∧ j.cursor.current = none ∧
        (descriptor none false).band < j.bands.length ∧ (j.band band).state = x ∧ s.ring.isFull = false ∧
        ∀ a, a < band → a ≠ (descriptor none false).band → (j.band a).state ≠ .awaited) ∧
    (let s := unpacking (.waitRing (descriptor none false) (.judgeOn none)) job1 (record 1 0 false [0x1F])
     let t := { s with unpacker := { s.unpacker with pool := [] } }
     t.unpacker.pool = [] ∧ (job1.band 1).state = .awaited ∧ t.ring.isFull = false) := by decide +kernel

theorem witness_DescriptorEntersRing_nextBand :
    (∀ r ∈ [record 3 0 false [0x1F], record 1 1 false [0x1F], endRecord .quiet], ∀ full ∈ [true, false],
      let d := descriptor none false
      let s := { unpacking (.waitRing d (.judgeOn none)) job1 r with
        ring := if full then fullRing.advance else Ring.cleared }
      s.receiver.holding = r :: [] ∧ r.slot = d.slot ∧ s.job d.slot = some job1 ∧ s.ring.isFull = false ∧
        (s.ring.place d).isFull = full ∧ job1.cursor.buffer = none ∧ job1.stage = .receiving) ∧
    (1 < job1.bands.length ∧ 1 ≠ (descriptor none false).band ∧ (job1.band 1).state = .awaited ∧
      ∀ a, a < 1 → a ≠ (descriptor none false).band → (job1.band a).state ≠ .awaited) ∧
    ((record 3 0 false [0x1F]).body = .fragment 3 0 false [0x1F] [] ∧
      (record 1 1 false [0x1F]).body = .fragment 1 1 false [0x1F] [] ∧
      (endRecord .quiet).body = .endMarker .quiet) := by decide +kernel

/-! ## The Screener -/

/-- A station with one descriptor in its ring. -/
def ringed (d : Descriptor) : State :=
  let r := Ring.cleared.place d
  { withJob working job1 with
    ring := { r with entries := r.entries.set 0 { descriptor := some d, mark := false } } }

/-- The Screener's current band, band 0 of slot 0 in band buffer 3 and screened buffer 9. -/
def current : CurrentBand :=
  { slot := 0, generation := 1, band := 0, buffer := some 3, screened := 9, sizeClass := 0, screeningClass := 0,
    sep := .c, plateLine := 0, column := 0, walkerRow := 0, walkerCol := 0 }

/-- A station that screens the current band of a job. -/
def screening (s : State) (j : Job) : State :=
  { withJob s j with screener := { s.screener with current := some current } }

theorem witness_ScreenerTakesDescriptor :
    (∃ c, (screening working job1).screener.current = some c) ∧ working.ring.isEmpty = true ∧
    (∀ v ∈ [true, false],
      let d := descriptor (some 4) v
      let s := ringed d
      s.screener.current = none ∧ s.ring.isEmpty = false ∧ s.ring.entries[s.ring.consumer].descriptor = some d ∧
        d.void = v ∧ s.screener.store = 0 :: (List.range 768).tail ∧ s.job d.slot = some job1) := by
  refine ⟨⟨current, rfl⟩, by decide +kernel, by decide +kernel⟩

theorem witness_BandFinishedByItsJob :
    (∀ st ∈ [Stage.receiving, .closing],
      let j := { job1.modifyBand 0 fun b => { b with state := .screening } with stage := st }
      (screening working j).screener.current = some current ∧ (screening working j).job current.slot = some j ∧
        j.generation = current.generation ∧ (j.band current.band).state = .screening ∧ j.stage = st ∧
        j.standing = .contending ∧ { j with standing := .owned }.screenedCount + 1 ≠ j.bands.length) ∧
    (∀ j, (screening working { job1 with generation := 2 }).job current.slot = some j →
      j.generation ≠ current.generation) ∧
    (∀ j, (screening working job1).job current.slot = some j → (j.stage = .receiving ∨ j.stage = .closing) ∧
      (j.band current.band).state ≠ .screening) ∧
    (∀ r ∈ [CancelReason.superseded, .dropped],
      let j := { job1 with stage := .cancelling r }
      (screening working j).job current.slot = some j ∧ j.generation = current.generation ∧
        j.stage = .cancelling r) := by
  refine ⟨by decide +kernel, ?_, ?_, by decide +kernel⟩
  · rintro j ⟨⟩
    decide
  · rintro j ⟨⟩
    exact ⟨.inl rfl, by decide⟩

/-- A band of the job is in the Screener when DROP or a higher version cancels it. -/
theorem witness_CancelledWithTheScreener :
    (∀ st ∈ [Stage.receiving, .closing],
      let j := { job1 with stage := st, withdrawal := some .drop }
      let s := screening (claiming none Board.cleared) j
      s.link.phase = .spoil (.sender (.slot 0)) false none ∧
        s.link.slots[(0 : Slot)] = some (queued (.claim key1 5 (some 9))) ∧ s.board.placeOf key1 = none ∧
        s.board.entries.length < 512 ∧ s.job 0 = some j ∧ s.screener.current = some current ∧ current.slot = 0 ∧
        current.generation = j.generation) ∧
    (∀ st ∈ [Stage.receiving, .closing, .held, .ready 4],
      let j := { job1 with standing := .owned, stage := st }
      let s := screening (joiningWith (.owned 3)) j
      s.station.state = .joining ∧ s.receiver.framing = .header [] ∧ s.board.placeOf key1 = some 0 ∧ s.job 0 = some j ∧
        j.key = key1 ∧ j.version < 6 ∧ s.board.stamp < 4294967295 ∧ (∀ m, m ≠ 0 → s.job m = none) ∧
        s.screener.current = some current ∧ current.slot = 0 ∧ current.generation = j.generation) := by decide +kernel

/-- A station with work on slot 0's job everywhere in the data path: band 0 SCREENED in buffer 5, band 1 QUEUED with its
descriptor in the ring, band 2 current in band buffer 4, its record at the head, an end marker behind it. -/
def busy (standing : Standing) (work : UnpackWork) : State :=
  let j : Job :=
    { job1 with
      standing := standing, endAdmitted := true, quiet := none, screenedCount := 1
      bands := [{ state := .screened 5, kind := none }, { state := .queued, kind := none },
        { state := .decoding, kind := none }, { state := .awaited, kind := none }]
      cursor := { current := some 2, nextPart := 1, pixels := 31, buffer := some 4 } }
  { withJob working j with
    receiver := { framing := .hunting, holding := [record 2 1 false [0x1F], endRecord .plateEnd] }
    unpacker := { work := work, pool := [6, 7] }
    ring := (ringed { slot := 0, band := 1, buffer := some 3, void := false }).ring
    screener := { current := none, store := [6] } }

/-- An owned job in CLOSING whose last band is in the Screener, with damaged bands of some kinds. -/
def closing (kinds : List (Option DamageKind)) : Job :=
  { job1 with
    standing := .owned, stage := .closing, endAdmitted := true, endProcessed := true,
    bands := (kinds.map fun k => { state := .screened 1, kind := k }).modify 0 fun b => { b with state := .screening }
    screenedCount := kinds.length - 1, damagedCount := (kinds.filter Option.isSome).length }

/-- What `hasVerdict` asks of a job of `closing`. -/
theorem closing_hasVerdict : ∀ x ∈ verdicts, (closing x.1).hasVerdict plant x.2 := by
  intro x hx
  have h := damagedBy_hasVerdict (closing x.1) x hx
  simp only [verdicts, List.mem_cons, List.not_mem_nil, or_false] at hx
  rcases hx with rfl | rfl | rfl | rfl
  · exact .inl ⟨rfl, rfl⟩
  all_goals simpa [Job.hasVerdict, closing, damagedBy] using h

theorem witness_LastBandAssessesThePlate :
    (∀ x ∈ verdicts,
      let j := closing x.1
      let s := screening (withImager working fun i => { i with state := .fault }) j
      s.settings = plant ∧ s.screener.current = some current ∧ s.job current.slot = some j ∧ j.generation = current.generation ∧
        j.stage = .closing ∧ j.standing = .owned ∧ j.screenedCount + 1 = j.bands.length ∧
        (j.band current.band).state = .screening ∧ s.imager.state ≠ .idle ∧ s.jobs.readyCounter < 4294967295) ∧
    (let s := screening (withImager working fun i => { i with mediaOut := true }) (closing [none])
     s.job current.slot = some (closing [none]) ∧ s.imager.mediaOut = true) ∧
    (closing [none, none]).damagedCount = 0 ∧ plant.action .gap = .hold ∧ plant.action .check = .tint ∧
    plant.action .format = .tint ∧ plant.action .fill = .tint ∧ plant.tintLimit = 2 := by decide +kernel

theorem witness_DotsFollowTheTile :
    ∀ s ∈ [screening working job1, { working with screener := { working.screener with current := some current } }],
      s.memoriesCanonical ∧ s.screener.current = some current ∧ (s.settings.sizeClass current.sizeClass).width ≤ 16384 ∧
       0 < (s.settings.tile (current.screeningClass * 4 + current.sep.code)).width ∧
       255 < bandLinesOf (s.settings.sizeClass current.sizeClass).height current.band ∧
       1023 < (s.settings.sizeClass current.sizeClass).width ∧ 10 ≠ current.screened ∧
       (s.settings.sizeClass current.sizeClass).width ≤ 16383 ∧
       bandLinesOf (s.settings.sizeClass current.sizeClass).height { current with band := 4 }.band ≤ 255 := by
  unfold State.memoriesCanonical
  decide +kernel

theorem witness_ToneCurve :
    (plant.point .y 0 = 0 ∧ plant.point .y 16 = 255 ∧ ∀ i, i < 16 → plant.point .y i ≤ plant.point .y (i + 1)) ∧
    (shortLine.point .m 0 = 0 ∧ shortLine.point .m 16 = 255 ∧
      ∀ i, i < 16 → shortLine.point .m i ≤ shortLine.point .m (i + 1)) ∧
    recordFailure (recordWith plantImage 0) = none ∧
    (let d := descriptor (some 4) false
     let s := ringed d
     s.screener.current = none ∧ s.ring.isEmpty = false ∧ s.ring.entries[s.ring.consumer].descriptor = some d ∧
       d.void = false ∧ d.buffer = some 4 ∧ s.job d.slot = some job1 ∧ s.screener.store = 0 :: (List.range 768).tail) :=
  ⟨by decide +kernel, by decide +kernel, plant_valid, by decide +kernel⟩

/-! ## The Imager -/

/-- The job in IMAGING, its bands SCREENED. -/
def imagingJob : Job :=
  { job1 with
    standing := .owned, stage := .imaging, bands := List.replicate 4 { state := .screened 9, kind := none }
    screenedCount := 4 }

/-- A station whose Imager holds slot 0's job, with the rest of the Imager given. -/
def holding (f : Imager → Imager) : State :=
  withImager (withJob working imagingJob) fun i => f { i with
    held := some { slot := 0, generation := 1 }
    plate := some { sizeClass := 0, bandCount := 4, swathCount := 32 } }

/-- The Imager in IMAGING before swath `n`. -/
def beforeSwath (n : Nat) (i : Imager) : Imager :=
  { i with
    state := .imaging, nextSwath := some n, headReady := true
    drum := { running := true, counter := 50, clocks := 3, indexSeen := n ≠ 0 } }

/-- The Imager in IMAGING with swath `n` in output. -/
def inSwath (n : Nat) (i : Imager) : Imager := { beforeSwath n i with swathInOutput := true }

theorem witness_LoadedOutcomes :
    (∀ ready ∈ [true, false],
      let s := holding fun i => { i with state := .loading, headReady := ready }
      s.imager.state = .loading ∧ s.imager.disposal = none ∧ s.imager.pendingCancel = none ∧
        s.imager.headReady = ready) ∧
    (let s := holding fun i => { i with state := .loading, pendingCancel := some .dropped }
     s.imager.state = .loading ∧ s.imager.disposal = none ∧ s.imager.pendingCancel = some .dropped) ∧
    (∀ c ∈ [Clearing.rejoin, .halt],
      let s := withImager working fun i => { i with state := .loading, disposal := some c }
      s.imager.state = .loading ∧ s.imager.disposal = some c) ∧
    (working.imager.state ≠ .loading ∧ working.running = true ∧ State.reset.running = false) := by decide

theorem witness_IndexAndSwathComplete :
    (∀ x ∈ [(0, 3), (49, 3), (50, 0)], ∀ n ∈ [0, 31],
      let s := holding fun i => { beforeSwath n i with drum := { (beforeSwath n i).drum with clocks := x.2 } }
      s.imager.state = .imaging ∧ s.imager.drum.running = true ∧ s.imager.drum.clocks < s.settings.prescaler ∧
        x.1 * s.settings.prescaler + s.imager.drum.clocks ≤ s.imager.drum.counter * s.settings.prescaler ∧
        s.imager.drum.counter ≠ 0 ∧ s.imager.nextSwath = some n ∧
        s.imager.held = some { slot := 0, generation := 1 } ∧ s.job 0 = some imagingJob ∧
        (imagingJob.band (n / 8)).state = .screened 9) ∧
    (let s := holding (beforeSwath 0)
     s.imager.swathInOutput = false ∧ s.imager.drum.indexSeen = false) ∧
    (let s := holding (beforeSwath 31)
     s.imager.swathInOutput = false ∧ s.settings.windowMax - s.settings.windowMin = 40 ∧
       ¬ 40 < s.imager.drum.counter - 10 ∧ s.imager.drum.indexSeen = true ∧ 40 < s.imager.drum.counter - 9) ∧
    (let s := holding (inSwath 3)
     s.imager.swathInOutput = true ∧
       49 * s.settings.prescaler + s.imager.drum.clocks ≤ s.imager.drum.counter * s.settings.prescaler ∧
       s.imager.drum.counter * s.settings.prescaler < 50 * s.settings.prescaler + s.imager.drum.clocks) ∧
    (let s := holding fun i => { beforeSwath 3 i with drum := { (beforeSwath 3 i).drum with counter := 0 } }
     s.imager.state = .imaging ∧ s.imager.drum.running = true ∧ s.imager.drum.counter = 0) ∧
    (∀ n ∈ [0, 31],
      let s := holding (inSwath n)
      s.imager.state = .imaging ∧ s.imager.swathInOutput = true ∧ s.imager.nextSwath = some n ∧
        s.imager.plate = some { sizeClass := 0, bandCount := 4, swathCount := 32 } ∧ s.imager.pendingCancel = none) ∧
    (0 + 1 ≠ 32 ∧ 31 + 1 = 32) ∧
    ((holding fun i => { inSwath 31 i with pendingCancel := some .superseded }).imager.pendingCancel =
      some .superseded) ∧
    (∀ x ∈ [ImagerState.idle, .loading, .ejecting, .fault],
      (withImager working fun i => { i with state := x }).imager.state ≠ .imaging) := by decide +kernel

theorem witness_PlatesetterLines :
    (let s := holding (beforeSwath 3)
     s.imager.state = .imaging ∧ s.imager.drum.running = true ∧ s.running = true ∧ s.imager.headReady = true) ∧
    (∀ x ∈ [ImagerState.ejecting, .fault],
      let s := withImager working fun i => { i with state := x, headReady := true }
      s.running = true ∧ s.imager.headReady = true ∧ s.imager.state = x) ∧
    (let s := withImager working fun i => { i with state := .fault, seenInactive := true }
     s.running = true ∧ s.imager.headReady = false ∧ s.imager.state = .fault ∧ s.imager.seenInactive = true ∧
       (∀ n, s.job n = none) ∧ s.imager.mediaOut = false) ∧
    (State.reset.running = false ∧ State.reset.imager.headReady = !true) ∧
    (∀ x ∈ [ImagerState.idle, .loading], ∀ b ∈ [true, false],
      let s := withImager working fun i => { i with state := x, headReady := !b }
      s.imager.headReady = (!b) ∧ s.imager.state = x) ∧
    (∀ x ∈ [ImagerState.imaging, .ejecting, .fault],
      let s := withImager working fun i => { i with state := x }
      s.imager.headReady = (!true) ∧ s.imager.state = x ∧ s.imager.seenInactive = false) ∧
    (∀ x ∈ [ImagerState.idle, .loading, .imaging, .ejecting, .fault],
      let s := withImager working fun i => { i with state := x, mediaOut := true }
      s.imager.mediaOut = true ∧ s.imager.state = x ∧ ∀ n, s.job n = none) ∧
    (State.reset.station.state = .loading ∧ working.station.state ≠ .loading ∧ working.imager.mediaOut = false) := by decide

/-- A READY job in slot 1, of rank 2 and ready order 4, beside the state's own. -/
def readyBeside (s : State) : State :=
  { s with jobs := { s.jobs with slots := s.jobs.slots.set 1 (some { imagingJob with stage := .ready 4 }) } }

/-- The arbiter's events with a READY job in slot 1, and what it does at each: slot 1's job in IMAGING. -/
theorem witness_ArbiterTakesTheFirstReady :
    (let s := withImager (readyBeside working) fun i => { i with mediaOut := true }
     s.running = true ∧ s.imager.state = .idle ∧ s.imager.mediaOut = true ∧
       s.jobs.slots[(1 : Slot)] = some { imagingJob with stage := .ready 4 } ∧ ∀ m : Slot, m ≠ 1 → s.jobs.slots[m] = none) ∧
    (let s := withImager (readyBeside working) fun i => { i with state := .fault, seenInactive := true }
     s.imager.mediaOut = false ∧ s.imager.state = .fault ∧ s.imager.seenInactive = true ∧ s.imager.headReady = false ∧
       ∀ m : Slot, m ≠ 1 → s.jobs.slots[m] = none) ∧
    (let s := withImager (readyBeside working) fun i => { i with state := .ejecting, disposal := some .rejoin }
     s.imager.state = .ejecting ∧ s.imager.pendingFault = none ∧ s.imager.held = none ∧ s.imager.mediaOut = false ∧
       ∀ m : Slot, m ≠ 1 → s.jobs.slots[m] = none) ∧
    (∀ x ∈ [(Disposition.good, none), (.scrap, some CancelReason.dropped), (.returned, some .superseded)],
      let s := readyBeside (holding fun i => { i with state := .ejecting, disposition := some x.1, pendingCancel := x.2 })
      s.imager.state = .ejecting ∧ s.imager.pendingFault = none ∧ s.job 0 = some imagingJob ∧
        s.imager.held = some { slot := 0, generation := 1 } ∧ s.imager.disposition = some x.1 ∧
        s.imager.pendingCancel = x.2 ∧ s.screener.current = none ∧ s.imager.mediaOut = false ∧
        ∀ m : Slot, m ≠ 1 → m ≠ 0 → s.jobs.slots[m] = none) := by decide +kernel

/-- A job of slot 0 enters READY while the Imager is IDLE: released, at its last band, at its end marker, at its own CLAIM;
clean, or with damage within the tint limit. -/
theorem witness_ArbiterTakesTheFirstReady_entersReady :
    (let j := { imagingJob with stage := .held }
     let s := withJob working j
     s.running = true ∧ s.imager.state = .idle ∧ s.imager.mediaOut = false ∧ s.jobs.readyCounter < 4294967295 ∧
       (0#8).toNat < 8 ∧ s.opensTo 0x30#8 ∧ s.job 0 = some j ∧ j.stage = .held) ∧
    (∀ kinds ∈ [[none, none], [some DamageKind.check, some .check]],
      let j := closing kinds
      let s := screening working j
      s.screener.current = some current ∧ s.job current.slot = some j ∧ j.generation = current.generation ∧
        j.stage = .closing ∧ j.standing = .owned ∧ j.screenedCount + 1 = j.bands.length ∧
        (j.band current.band).state = .screening ∧ s.imager.state = .idle ∧ j.damagedCount ≤ s.settings.tintLimit ∧
        ∀ b ∈ j.bands, ∀ kind, b.kind = some kind → s.settings.action kind = .tint) ∧
    (let j := { complete with standing := .owned, stage := .receiving, endAdmitted := true }
     let s := unpacking .free j (endRecord .plateEnd)
     s.unpacker.work = .free ∧ s.receiver.holding = endRecord .plateEnd :: [] ∧ s.job (endRecord .plateEnd).slot = some j ∧
       j.generation = (endRecord .plateEnd).generation ∧ j.stage = .receiving ∧ j.cursor.current = none ∧
       j.screenedCount = j.bands.length ∧ (∀ a, a < j.bands.length → (j.band a).state ≠ .awaited) ∧
       j.damagedCount = 0 ∧ s.imager.state = .idle) ∧
    (let s := { withEntry (claiming (some complete) Board.cleared) (.contested 7) with pending := [] }
     s.link.phase = .spoil (.sender (.slot 0)) false none ∧
       s.link.slots[(0 : Slot)] = some (queued (.claim complete.key complete.version (some 9))) ∧
       s.job 0 = some complete ∧ complete.standing = .contending ∧ complete.withdrawal ≠ some .drop ∧
       complete.stage = .closing ∧ complete.screenedCount = complete.bands.length ∧ s.board.placeOf complete.key = some 0 ∧
       s.board.entries[0]? = some { key := key1, version := 5, state := .contested 7, info := none, stamp := 0 } ∧
       complete.damagedCount = 0 ∧ s.imager.state = .idle) := by
  refine ⟨⟨rfl, rfl, rfl, by decide, by decide, ⟨.inl rfl, by decide⟩, rfl, rfl⟩, ?_, by decide +kernel,
    by decide +kernel⟩
  intro kinds hk
  simp only [List.mem_cons, List.not_mem_nil, or_false] at hk
  rcases hk with rfl | rfl
  · refine ⟨rfl, rfl, rfl, rfl, rfl, rfl, by decide, rfl, by decide, ?_⟩
    decide +kernel
  · refine ⟨rfl, rfl, rfl, rfl, rfl, rfl, by decide, rfl, by decide +kernel, ?_⟩
    decide +kernel

theorem witness_EjectEndsTheHold :
    (∀ fault ∈ [none, some ImagerFault.drumLate], ∀ d ∈ [Disposition.good, .scrap, .returned],
      ∀ cancel ∈ [none, some CancelReason.superseded, some .dropped],
      let s := holding fun i =>
        { i with state := .ejecting, disposition := some d, pendingFault := fault, pendingCancel := cancel }
      s.running = true ∧ s.imager.held = some { slot := 0, generation := 1 } ∧ s.job 0 = some imagingJob ∧
        s.imager.state = .ejecting ∧
        s.imager.disposition = some d ∧ s.imager.pendingCancel = cancel ∧ s.imager.pendingFault = fault ∧
        s.screener.current = none ∧ (∀ m, m ≠ 0 → s.job m = none)) ∧
    (imagingJob.retries < plant.retryLimit ∧ plant.retryLimit ≤ { imagingJob with retries := 1 }.retries ∧
      working.jobs.readyCounter < 4294967295) ∧
    (∀ cancel ∈ [none, some CancelReason.superseded, some .dropped],
      let s := holding fun i => { i with state := .loading, loadTimer := some 0, pendingCancel := cancel }
      0 ≤ s.now ∧ s.imager.state = .loading ∧ s.imager.loadTimer = some 0 ∧ s.imager.disposition = none ∧
        s.imager.pendingCancel = cancel) ∧
    (∀ x ∈ [(Disposition.good, none), (.scrap, none), (.scrap, some CancelReason.dropped), (.returned, some .superseded)],
      let s := holding fun i =>
        { i with state := .ejecting, ejectTimer := some 0, disposition := some x.1, pendingCancel := x.2 }
      0 ≤ s.now ∧ s.imager.state = .ejecting ∧ s.imager.ejectTimer = some 0 ∧ s.imager.disposition = some x.1 ∧
        s.imager.pendingCancel = x.2) ∧
    (∀ fault ∈ [none, some ImagerFault.drumLate], ∀ d ∈ [Disposition.good, .scrap, .returned],
      let s := withImager (stationIn .halted) fun i =>
        { i with state := .ejecting, disposition := some d, pendingFault := fault, ejectTimer := some 0,
                 disposal := some .halt }
      s.imager.held = none ∧ s.imager.disposition = some d ∧ s.imager.state = .ejecting ∧
        s.imager.pendingFault = fault ∧ s.running = false ∧ s.imager.ejectTimer = some 0 ∧ 0 ≤ s.now) ∧
    (let s := withImager (stationIn .joining) fun i =>
       { i with state := .loading, loadTimer := some 0, disposal := some .rejoin }
     s.imager.held = none ∧ s.imager.state = .loading ∧ s.imager.disposition = none ∧
       s.imager.loadTimer = some 0) ∧
    (∀ x ∈ [ImagerState.idle, .loading, .imaging, .fault],
      (withImager working fun i => { i with state := x }).imager.state ≠ .ejecting ∧ working.running = true ∧
        (withImager (stationIn .halted) fun i => { i with state := x }).running = false) := by decide +kernel

/-! ## The Maintenance Port -/

theorem witness_PortTakesBytes :
    working.port.inputByte = none ∧
    (onPort working fun p => { p with inputByte := some (.data, 9) }).port.inputByte ≠ none ∧
    ((onPort working fun p => { p with inputByte := some (.data, 9) }).port.inputByte = some (.data, 9#8) ∧
      (onPort working fun p => { p with inputByte := some (.data, 9) }).port.command = none) ∧
    (onPort working fun p => { p with response := [7, 8] }).port.response = 7 :: [8] ∧ working.port.response = [] ∧
    (commandData 0x05#8 = none ∧ working.takesCommand 0x05#8) ∧
    (State.reset.station.state = .loading ∧ ∀ c, State.reset.takesCommand c) ∧
    (∀ c, working.opensTo c) ∧ ([0xFE#8] : List Byte) ≠ [] ∧
    (onPort working fun p => { p with inputByte := some (.command, 0x31) }).opensTo 0x31#8 :=
  ⟨rfl, by decide, ⟨rfl, rfl⟩, rfl, rfl, ⟨by decide, .inl rfl⟩, ⟨rfl, fun _ => .inl rfl⟩,
    fun _ => ⟨.inl rfl, by decide⟩, by decide, .inr rfl, by decide⟩

theorem witness_ReadsAnswer : State.reset.takesCommand 0x01#8 ∧ working.opensTo 0x02#8 ∧ working.opensTo 0x22#8 ∧
    working.opensTo 0x28#8 ∧ working.opensTo 0x20#8 ∧ (20#8).toNat ≤ 20 ∧ 20 < (21#8).toNat := by
  have h (c : Byte) : working.opensTo c := ⟨.inl rfl, by decide⟩
  exact ⟨.inl rfl, h _, h _, h _, h _, by decide, by decide⟩

theorem witness_ReadsOfOneThing :
    (∀ c ∈ [0x10#8, 0x11#8, 0x12#8, 0x18#8, 0x19#8, 0x1C#8], working.opensTo c) ∧
    (8 ≤ (8#8).toNat ∧ (7#8).toNat < 8 ∧ 16 ≤ (16#8).toNat ∧ (15#8).toNat < 16 ∧ 1 < (2#8).toNat) ∧
    (working.job 7 = none ∧ (withJob working job1).job 0 = some job1) ∧
    (∀ q key version outcome damaged first,
      ¬ (working.link.slots[7] = some q ∧ q.msg = .done key version outcome damaged first)) ∧
    (∃ q key version outcome damaged first,
      (withSlot working job1 (.done key1 4 .clean 0 none)).link.slots[0] = some q ∧
        q.msg = .done key version outcome damaged first) ∧
    (let s := withEntry working .untaken
     (∀ p e, ¬ (s.board.entries[p]? = some e ∧ nat16 0 0 ≤ p ∧ e.state.code = (4#8).toNat)) ∧
       ∃ e, s.board.entries[0]? = some e ∧ nat16 0 0 ≤ 0 ∧ e.state.code = (2#8).toNat) := by
  refine ⟨fun _ _ => ⟨.inl rfl, by decide⟩, by decide, by decide, ?_, ⟨_, _, _, _, _, _, rfl, rfl⟩, ?_, _, rfl, by decide,
    by decide⟩
  · intro q key version outcome damaged first h
    have hnone : working.link.slots[7] = none := by decide
    rw [hnone] at h
    cases h.1
  · rintro (_ | p) e ⟨h, _, k⟩
    · cases h
      revert k
      decide
    · cases h

theorem witness_ClearsAndMask : ∀ c ∈ [0x21#8, 0x23#8, 0x04#8, 0x03#8], working.opensTo c :=
  fun _ _ => ⟨.inl rfl, by decide⟩

theorem witness_ActionCommands :
    (∀ c, working.opensTo c ∧ (stationIn .draining).opensTo c ∧ (stationIn .detached).opensTo c ∧
      (stationIn .barred).opensTo c) ∧
    (let j := { imagingJob with stage := .held }
     let s := withImager (withJob working j) fun i => { i with state := .fault }
     (7#8).toNat < 8 ∧ s.job 0 = some j ∧ j.stage = .held ∧ s.imager.state ≠ .idle ∧
       s.jobs.readyCounter < 4294967295) ∧
    (∀ j, (withJob working job1).job 0 = some j → j.stage ≠ .held) ∧
    (working.job 7 = none ∧ 8 ≤ (8#8).toNat ∧ 8 ≤ (255#8).toNat) ∧
    (job1.standing = .contending ∧ job1.claimInProgress = false ∧
      ∀ q, (withJob working job1).link.slots[0] = some q → q.inProgress = false) ∧
    (∀ w ∈ [none, some WithdrawalCause.window, some .drop],
      let j := { job1 with claimInProgress := true, withdrawal := w }
      let s := withSlot working j (.claim key1 5 none)
      s.job 0 = some j ∧ j.standing = .contending ∧ s.link.slots[0] = some (queued (.claim key1 5 none)) ∧
        (queued (.claim key1 5 none)).inProgress = true) ∧
    (∀ st ∈ [Stage.receiving, .closing, .held, .ready 4, .imaging, .cancelling .superseded],
      let j := { job1 with standing := .owned, stage := st }
      let s := withJob working j
      s.job 0 = some j ∧ j.stage = st ∧ s.screener.current = none ∧
        (screening working j).screener.current = some current ∧ current.slot = 0 ∧ current.generation = j.generation) ∧
    (∀ x ∈ [ImagerState.loading, .ejecting, .imaging], ∀ c ∈ [none, some CancelReason.superseded],
      let s := holding fun i => { i with state := x, pendingCancel := c }
      s.job 0 = some imagingJob ∧ imagingJob.standing = .owned ∧ imagingJob.stage = .imaging ∧ s.imager.state = x ∧
        s.imager.pendingCancel = c) ∧
    (working.station.state = .active ∧ (withJob working job1).job 0 ≠ none ∧ (∀ n, working.job n = none) ∧
      working.link.presence = none ∧ working.link.ageCounter < 4294967295) ∧
    ((stationIn .draining).station.state = .draining ∧ (stationIn .draining).link.presence = none ∧
      (stationIn .detached).station.state = .detached ∧ (stationIn .detached).link.presence = none ∧
      (stationIn .detached).link.ageCounter < 4294967295 ∧
      (stationIn .detached).loader.digest = some 0x1234#16) ∧
    (∀ b ∈ [true, false],
      let q := { queued .leave with inProgress := b }
      let s := onLink (stationIn .draining) fun l => { l with presence := some q }
      s.link.presence = some q ∧ q.msg = .leave ∧ q.inProgress = b) ∧
    (∀ x ∈ [StationState.barred, .joining, .active, .halted], (stationIn x).station.state = x) := by
  refine ⟨?_, by decide, ?_, by decide, ⟨rfl, rfl, ?_⟩, by decide, by decide, by decide, by decide, by decide,
    by decide, by decide⟩
  · exact fun c => ⟨⟨.inl rfl, by decide⟩, ⟨.inl rfl, by decide⟩, ⟨.inl rfl, by decide⟩, ⟨.inl rfl, by decide⟩⟩
  · rintro j ⟨⟩
    decide
  · rintro q ⟨⟩

/-- The last live job of a draining station ends by each event that ends a job, with the presence place empty or taken
and the age counter at its last values; with another live job the station is not drained. -/
theorem witness_LastJobOfADrainingStation :
    (∀ n ∈ [0, 4294967293, 4294967294, 4294967295], ∀ x ∈ [none, some false, some true],
      let s := onLink (draining (withJob working job1)) fun l =>
        { l with ageCounter := n, presence := x.map fun b => { queued .leave with inProgress := b } }
      s.station.state = .draining ∧ (∀ m, m ≠ 0 → s.job m = none) ∧ (withOther s).job 1 ≠ none ∧
        s.link.ageCounter = n ∧ s.link.presence.map (·.inProgress) = x) ∧
    (∀ d ∈ [Disposition.good, .scrap, .returned], ∀ cancel ∈ [none, some CancelReason.superseded],
      let s := draining (holding fun i =>
        { i with state := .ejecting, disposition := some d, pendingCancel := cancel, pendingFault := some .drumLate })
      s.running = true ∧ s.imager.held = some { slot := 0, generation := 1 } ∧ s.job 0 = some imagingJob ∧
        s.station.state = .draining ∧ (∀ m, m ≠ 0 → s.job m = none) ∧ s.screener.current = none) ∧
    (∀ r ∈ [CancelReason.superseded, .dropped],
      let j := { job1 with standing := .owned, stage := .cancelling r }
      let s := draining (screening working j)
      s.screener.current = some current ∧ s.job current.slot = some j ∧ j.generation = current.generation ∧
        s.station.state = .draining ∧ (∀ m, m ≠ 0 → s.job m = none)) ∧
    (∀ st ∈ [Stage.receiving, .closing],
      let j := { job1 with stage := st, withdrawal := some .drop }
      let s := draining (claiming (some j) Board.cleared)
      s.link.phase = .spoil (.sender (.slot 0)) false none ∧ s.job 0 = some j ∧ s.board.placeOf key1 = none ∧
        s.station.state = .draining ∧ (∀ m, m ≠ 0 → s.job m = none) ∧ s.screener.current = none) ∧
    (∀ st ∈ [Stage.receiving, .closing, .held, .ready 4],
      let j := { job1 with standing := .owned, stage := st }
      let s := draining (withJob working j)
      s.opensTo 0x31#8 ∧ s.job 0 = some j ∧ s.screener.current = none ∧ s.station.state = .draining) ∧
    (let s := draining (withJob working job1)
     s.opensTo 0x31#8 ∧ s.job 0 = some job1 ∧ s.link.slots[(0 : Slot)] = none) ∧
    (∀ ph ∈ [LinkPhase.round (some (.slot 0)) [], .spoil (.sender (.slot 0)) true none],
      let m : Msg := .claim key1 5 (some 9)
      let j := { job1 with claimInProgress := true, withdrawal := some .drop }
      let s := draining (withdrawing (withSlot (linked ph) j m) m)
      s.link.phase = ph ∧ s.link.at (.slot 0) = some { queued m with withdrawal := true } ∧ s.job 0 = some j ∧
        s.station.state = .draining ∧ (∀ k, k ≠ 0 → s.job k = none)) := by
  have h : ∀ st ∈ [Stage.receiving, .closing, .held, .ready 4],
      let j := { job1 with standing := .owned, stage := st }
      let s := draining (withJob working j)
      s.job 0 = some j ∧ s.screener.current = none ∧ s.station.state = .draining := by decide
  exact ⟨by decide +kernel, by decide +kernel, by decide +kernel, by decide +kernel,
    fun st hst => ⟨⟨.inl rfl, by simp [draining]⟩, h st hst⟩, ⟨⟨.inl rfl, by simp [draining]⟩, rfl, rfl⟩,
    by decide +kernel⟩

/-- RELEASE with the ready counter at its last values, beside a READY job. -/
theorem witness_ActionCommands_renumbered :
    ∀ n ∈ [4294967294, 4294967295],
      let j := { imagingJob with stage := .held }
      let s := withImager (withJob (readyBeside working) j) fun i => { i with state := .fault }
      let t := { s with jobs := { s.jobs with readyCounter := n } }
      t.job 0 = some j ∧ j.stage = .held ∧ t.imager.state ≠ .idle ∧ t.jobs.readyCounter = n ∧ t.jobs.orders ≠ [] := by
  decide +kernel

/-! ## Invariants -/

/-- The working station with commands that wait. -/
def waiting (cs : List Instr) : State := { working with pending := cs }

theorem witness_MemoriesStayCanonical : (waiting [.drain]).memoriesCanonical ∧ ∃ t, step (waiting [.drain]) = .next t := by
  refine ⟨?_, _, rfl⟩
  unfold State.memoriesCanonical
  decide +kernel

theorem witness_QueuePlacesAndPassivityStayLawful : (waiting [.drain]).link.placesHold ∧
    (waiting [.drain]).linkPassive ∧ ∃ t, step (waiting [.drain]) = .next t := by
  refine ⟨?_, fun h => absurd h (by decide), _, rfl⟩
  intro p q h
  have hs : ∀ n : Slot, (waiting [.drain]).link.at (.slot n) = none := by decide
  have : (waiting [.drain]).link.at p = none := by
    cases p with
    | slot n => exact hs n
    | roll => rfl
    | presence => rfl
  rw [this] at h
  cases h

/-- The working station after a PLATE HEADER for which it contends, before the PLATE END. -/
def contending : State :=
  { marked (working.takeHeader key1 5 0 3 7) with pending := [.plateEnd (Header.plateEnd key1 5).encode] }

theorem working_lawful : working.lawful := by
  rw [← State.lawfulBut_none]
  refine State.lawfulBut.ofCleared rfl rfl ?_ rfl ?_ (.ofNone ?_ rfl) rfl rfl rfl
  · exact (Link.placesHold.emptied Link.afterReset).withPhase .waiting
  · decide
  · decide

theorem contending_lawful : contending.lawful := by
  have h := State.takeHeader_lawful (working_lawful.but none) (by decide) key1 5 0 3 7
  rw [State.lawfulBut_none] at h
  exact h

theorem witness_BoardAndReservationStayLawful : (withEntry (waiting [.drain]) .untaken).board.lawful ∧
    (withJob (waiting [.drain]) job1).reservationFits ∧ (∃ t, step (waiting [.drain]) = .next t) ∧
    (contending.linkPassive ∧ contending.lawful ∧ (contending.job 0).map (·.standing) = some .contending ∧
      ∃ t, step contending = .next t) := by
  refine ⟨?_, ?_, ⟨_, rfl⟩, fun h => absurd h (by decide), contending_lawful, by decide +kernel, _, rfl⟩
  · unfold Board.lawful
    decide
  · unfold State.reservationFits
    decide

/-! ## Single steps -/

/-- What a function of the state answers after one step. -/
def after {α : Type} (f : State → α) (s : State) : Option α :=
  match step s with
  | .next t => some (f t)
  | .fault _ => none
  | .refused _ => none

/-- With nothing waiting, one clock passes, and a running drum watch counts it. -/
theorem test_idle : after (fun t => (t.clock, t.imager.drum.counter, t.imager.drum.clocks)) (holding (beforeSwath 0)) =
    some (1, 49, 0) := by decide +kernel

/-- READ STATUS right after reset: LOADING, no reason, no failing item, no halt, NOT CHECKED, Imager IDLE. -/
theorem test_readStatus :
    after (fun t => (t.port.response, t.port.ready, t.port.refused)) { State.reset with pending := [.readStatus] } =
      some (List.replicate 16 0, true, false) := by decide +kernel

/-- The bid with 8 free slots and 768 buffers, and with a job of four bands. -/
theorem test_bid : working.bid = 63 ∧ (withJob working job1).bid = 63 ∧
    (withJob working { job1 with bands := List.replicate 96 { state := .awaited, kind := none } }).bid = 63 ∧
    (withJob working { job1 with bands := List.replicate 97 { state := .awaited, kind := none } }).bid = 62 := by
  decide +kernel

/-- A header that contends takes slot 0 and queues its CLAIM with no bid yet. -/
theorem test_plateHeader :
    after (fun t => (t.board.entries.length, (t.job 0).map (·.bands.length), t.link.slots[(0 : Slot)].map (·.msg)))
      { listening .active with pending := [.plateHeader (Header.plate key1 5 0 3 7).encode] } =
      some (1, some 4, some (.claim key1 5 none)) := by decide +kernel

/-- A fragment of an unknown plate is passed over. -/
theorem test_passedOver :
    after (fun t => (t.port.counts[10], t.receiver.framing))
      { listening .active with
        pending := [.fragment ((Header.fragment key1 5 0 0 false 1).encode ++ [0x1F, 0x02, 0x2E])] } =
      some (1, .hunting) := by decide +kernel

/-- A fragment cut short by a start marker is taken with its marker's framing, and its band carries CHECK. -/
theorem test_cutShort :
    after (fun t => ((t.job 0).map (fun j => (j.band 3).kind), t.receiver.framing, t.freeCount))
      { taking job1 with
        receiver := { framing := .payload (Header.fragment key1 5 3 0 false 9).encode [0x1F], holding := [] }
        pending := [.startMarker []] } =
      some (some (some .check), .header [], 2) := by decide +kernel

/-- With 3 of 4 clocks of a tick gone, an INDEX 50 ticks later comes after the counter has reached 0: DRUM LATE. -/
theorem test_indexLateByClocks :
    after (fun t => (t.imager.state, t.imager.lastFault))
      { holding (beforeSwath 3) with pending := [.index 50 0] } = some (.ejecting, some .drumLate) ∧
    after (fun t => (t.imager.state, t.imager.lastFault))
      { holding (beforeSwath 3) with pending := [.index 49 0] } = some (.imaging, none) := by decide +kernel

/-- The last swath complete: the plate is ejected GOOD. -/
theorem test_lastSwath :
    after (fun t => (t.imager.state, t.imager.ejectLine, t.port.counts[4]))
      { holding (inSwath 31) with pending := [.swathComplete 2] } =
      some (.ejecting, some .good, 2) := by decide +kernel

/-- A fragment of band 3 finds band 0 current and bands 1 and 2 AWAITED: the three end as GAP in rising order, and part 0
begins band 3. -/
theorem test_skippedBands :
    after (fun t => ((t.job 0).map fun j => (j.bands, j.damagedCount, j.cursor.current),
        (List.finRange 32).filterMap fun i => t.ring.entries[i].descriptor.map fun d => (d.band, d.buffer), t.unpacker.pool.length))
      { unpacking .free (decoding 9) (record 3 0 false [0x1F]) with
        unpacker := { work := .free, pool := [1, 3] }, pending := [.takeHeadRecord 0] } =
      some (some (List.replicate 3 { state := .queued, kind := some .gap } ++ [{ state := .decoding, kind := none }],
        3, some 3), [(0, none), (1, none), (2, none)], 2) := by decide +kernel

/-- Freed by DROP, and cancelled by it with a band in the Screener: the descriptor is void, the cursor's buffer returns,
the head record is dropped as stale, the end marker goes; a freed job's screened buffers return. -/
theorem test_leavesTheDataPath :
    (∀ s ∈ [busy .contending .decoding, busy .owned .decoding, { busy .owned (.waitRing
        { slot := 0, band := 2, buffer := some 4, void := false } .recordDone) with
          screener := { current := some current, store := [6] } }],
      let t := { s with pending := [.drop [0]] }
      after (fun t => t.ring.entries[0].descriptor.map (·.void)) t = some (some true) ∧
        after (fun t => t.unpacker.pool) t = some [4, 6, 7] ∧ after (fun t => t.unpacker.work) t = some .free ∧
        after (fun t => (t.receiver.holding.length, t.damage.log.stale)) t = some (0, 1) ∧
        after (fun t => (t.job 0).map (·.stage)) t =
          some (if s.screener.current.isSome then some (.cancelling .dropped) else none) ∧
        after (fun t => t.screener.store) t = some (if s.screener.current.isSome then [6] else [5, 6])) := by
  decide +kernel

/-- The ages of the messages of slots 0 and 7, the presence place's message and age, and the age counter. -/
def ages (t : State) : Option Nat × Option (Msg × Nat) × Option Nat × Nat :=
  (t.link.slots[(0 : Slot)].map (·.age), t.link.presence.map fun q => (q.msg, q.age),
    t.link.slots[(7 : Slot)].map (·.age), t.link.ageCounter)

/-- DROP of the last live job of a draining station queues its DONE and then a LEAVE; with another live job, no LEAVE. With
the age counter at its last value the DONE already queued takes 0, the new one 1 and the LEAVE 2. -/
theorem test_lastJobLeaves :
    ∀ x ∈ [(lastJob, some 0, some (.leave, 1), none, 2), (withOther lastJob, some 0, none, none, 1),
        (aged 4294967295 lastJob, some 1, some (.leave, 2), some 0, 3)],
      after ages { x.1 with pending := [.drop [0]] } = some x.2 := by
  decide +kernel

/-- A header of a higher version in ACTIVE: the old job ends with its DONE and slot 1 takes one for the new version. -/
theorem test_headerSupersedes :
    after (fun t => ((t.job 0).isSome, t.link.slots[(0 : Slot)].map (·.age), (t.job 1).map (·.version),
        t.link.slots[(1 : Slot)].map fun q => (q.msg, q.age)))
      { withJob (withEntry (listening .active) (.owned 3)) { job1 with standing := .owned } with
        pending := [.plateHeader (Header.plate key1 6 0 3 7).encode] } =
      some (false, some 0, some 6, some (.claim key1 6 none, 1)) := by decide +kernel

/-- EJECTED outside EJECTING is counted, and a map that comes one roll period after the JOIN does not disown. -/
theorem test_ignoredLineAndEarlyMap :
    after (fun t => t.port.counts[18]) { working with pending := [.ejected] } = some 1 ∧
    (∀ x ∈ [(100, StationState.active), (101, .joining)],
      let s := withPeer (linked (.spoil .receiver false (some (5, .roll 0 3 0xFFF7#16)))) 5 presentPeer
      after (fun t => t.station.state)
        { s with
          clock := x.1 * 100000, roll := { s.roll with joinSentAt := some 0 }, pending := [.spoilWindowEnd false] } =
        some x.2) := by decide +kernel

/-- The CLAIM of a freed job makes the entry this station's, and another slot's job of its version stays CONTENDING (log 29). -/
theorem test_claimOfAFreedJob :
    let s := claiming none (withEntry working (.contested 7)).board
    after (fun t => (t.board.entries.map (·.state), t.job 0, (t.job 1).map (·.standing)))
      { s with jobs := { s.jobs with slots := s.jobs.slots.set 1 (some job1) }, pending := [.spoilWindowEnd false] } =
      some ([.owned working.settings.station], none, some .contending) := by decide +kernel

/-- An eject GOOD is over and the highest rank goes next, of one rank the lowest ready order. -/
theorem test_arbiter :
    after (fun t => ((t.job 1).map (·.stage), t.imager.held.map (·.slot), t.imager.state, t.imager.loadTimer))
      { readyBeside (holding fun i => { i with state := .ejecting, disposition := some .good }) with pending := [.ejected] } =
      some (some .imaging, some 1, .loading, some 10000) := by decide +kernel

/-- An accepted ROLL from a PRESENT peer one number ahead of the expected one counts a missed ROLL. -/
theorem test_missedRoll :
    let peer := { presentPeer with lastCounter := some 3 }
    after (fun t => ((t.peer 5).missed, (t.peer 5).lastCounter, t.port.counts[1]))
      { withPeer (linked (.spoil .receiver false (some (5, .roll 5 9 4)))) 5 peer with
        pending := [.spoilWindowEnd false] } =
      some (1, some 5, 1) := by decide +kernel

/-- SET MASK one byte at a time: the second data byte executes it. -/
theorem test_setMask :
    after (fun t => (t.port.mask, t.port.command, t.port.ready))
      { onPort working (fun p =>
          { p with command := some { code := 0x04, got := [0xBF] }, inputByte := some (.data, 0xFE), ready := false })
        with pending := [.dataByteTaken] } =
      some (0xBFFE#16, none, true) := by decide +kernel

/-- A word spells no command: the table gives none of its rows bits. -/
theorem test_noWord : decodeTableWord 8 0 = none ∧ State.reset.withFetchWord 8 0 = State.reset := by decide +kernel

end Sys2Proof.Tests
end

section
/-! PROOF of O58. The outgoing queue keeps its places by the lemmas of Laws/Lawful.lean. The passivity of the Link
Controller depends on the station state and the receive state alone, the posture below: nearly every operation leaves it
as it is, and the few that do not end in a state that takes part in the plant, or with the link passive. -/

namespace Sys2Proof.Machine

/-- Every command keeps the three laws of `Holds`. -/
theorem exec_holds {c : Instr} {s t : State} (h : exec c s = .next t) : Holds s t := by
  cases c <;> injection h with h <;> subst h <;> (repeat' split) <;> simp (maxDischargeDepth := 40)

/-- The station state and the receive state, which R2 and R18 tie together. -/
def State.posture (s : State) : StationState × LinkPhase := (s.station.state, s.link.phase)

theorem State.besides.posture {s t : State} {n : Slot} (h : s.besides t n) : t.posture = s.posture := by
  obtain ⟨_, _, _, hs, _, _, hp, _⟩ := h
  rw [State.posture, State.posture, hs, hp]

/-! ## Operations that leave the posture as it is -/

variable (s : State) (n : Slot) (key : PlateKey) (version : Nat)

@[simp] theorem State.posture_ite (p : Prop) [Decidable p] (t : State) :
    (if p then s else t).posture = if p then s.posture else t.posture := apply_ite _ _ _ _

theorem State.posture_foldl {α : Type} {f : State → α → State} (hf : ∀ s x, (f s x).posture = s.posture) (s : State)
    (xs : List α) : (xs.foldl f s).posture = s.posture := by
  induction xs generalizing s with
  | nil => rfl
  | cons x xs ih => exact (ih (f s x)).trans (hf s x)

@[simp] theorem State.setLink_posture {l : Link} (h : l.phase = s.link.phase) : (s.setLink l).posture = s.posture := by
  simp [State.posture, h]

@[simp] theorem State.setPending_posture (x : List Instr) : (s.setPending x).posture = s.posture := rfl
@[simp] theorem State.setClock_posture (x : Nat) : (s.setClock x).posture = s.posture := rfl
@[simp] theorem State.setFreeCount_posture (x : Nat) : (s.setFreeCount x).posture = s.posture := rfl
@[simp] theorem State.setLoader_posture (x : Loader) : (s.setLoader x).posture = s.posture := rfl
@[simp] theorem State.setRoll_posture (x : RollUnit) : (s.setRoll x).posture = s.posture := rfl
@[simp] theorem State.setBoard_posture (x : Board) : (s.setBoard x).posture = s.posture := rfl
@[simp] theorem State.setJobs_posture (x : JobTable) : (s.setJobs x).posture = s.posture := rfl
@[simp] theorem State.setReceiver_posture (x : Receiver) : (s.setReceiver x).posture = s.posture := rfl
@[simp] theorem State.setUnpacker_posture (x : Unpacker) : (s.setUnpacker x).posture = s.posture := rfl
@[simp] theorem State.setRing_posture (x : Ring) : (s.setRing x).posture = s.posture := rfl
@[simp] theorem State.setScreener_posture (x : Screener) : (s.setScreener x).posture = s.posture := rfl
@[simp] theorem State.setDamage_posture (x : DamageUnit) : (s.setDamage x).posture = s.posture := rfl
@[simp] theorem State.setImager_posture (x : Imager) : (s.setImager x).posture = s.posture := rfl
@[simp] theorem State.setPort_posture (x : Port) : (s.setPort x).posture = s.posture := rfl
@[simp] theorem State.setFrame_posture (x : FrameMemory) : (s.setFrame x).posture = s.posture := rfl
@[simp] theorem State.latch_posture (c : Cause) : (s.latch c).posture = s.posture := rfl
@[simp] theorem State.raise_posture (c : Count) : (s.raise c).posture = s.posture := rfl
@[simp] theorem State.raiseBy_posture (c : Count) (k : Nat) : (s.raiseBy c k).posture = s.posture := rfl
@[simp] theorem State.modifyJob_posture (f : Job → Job) : (s.modifyJob n f).posture = s.posture := rfl
@[simp] theorem State.returnBuffer_posture (b : Option Nat) : (s.returnBuffer b).posture = s.posture := rfl
@[simp] theorem State.returnScreened_posture (b : Nat) : (s.returnScreened b).posture = s.posture := rfl
@[simp] theorem State.elapse_posture (k : Nat) : (s.elapse k).posture = s.posture := rfl
@[simp] theorem State.countCorrected_posture (k : Nat) : (s.countCorrected k).posture = s.posture := rfl
@[simp] theorem State.setWork_posture (w : UnpackWork) : (s.setWork w).posture = s.posture := rfl
@[simp] theorem State.readData_posture : s.readData.posture = s.posture := rfl
@[simp] theorem State.finishHead_posture : s.finishHead.posture = s.posture := rfl

@[simp] theorem State.advanceTo_posture (d : Nat) : (s.advanceTo d).posture = s.posture := by
  simp [State.advanceTo]

@[simp] theorem Link.request_phase (l : Link) (p : Place) (m : Msg) : (l.request p m).phase = l.phase := by
  unfold Link.request
  split
  · simp
  · split <;> simp

@[simp] theorem Link.withdraw_phase (l : Link) (p : Place) : (l.withdraw p).phase = l.phase := by
  unfold Link.withdraw
  split
  · rfl
  · split <;> simp

@[simp] theorem Link.unsent_phase (l : Link) (p : Place) : (l.unsent p).phase = l.phase := by
  unfold Link.unsent
  split
  · rfl
  · split
    · simp
    · split <;> simp

@[simp] theorem Link.start_phase (l : Link) (p : Place) (bid : Nat) : (l.start p bid).phase = l.phase := by
  simp [Link.start]

@[simp] theorem State.issueEject_posture (d : Disposition) : (s.issueEject d).posture = s.posture := rfl
@[simp] theorem State.scrapForFault_posture (f : ImagerFault) : (s.scrapForFault f).posture = s.posture := rfl
@[simp] theorem State.recordFault_posture (f : ImagerFault) : (s.recordFault f).posture = s.posture := rfl

@[simp] theorem State.imagerCancel_posture (r : CancelReason) : (s.imagerCancel r).posture = s.posture := by
  unfold State.imagerCancel
  dsimp only
  (repeat' split) <;> rfl

@[simp] theorem State.arbitrate_posture : s.arbitrate.posture = s.posture := by
  unfold State.arbitrate
  (repeat' split) <;> rfl

@[simp] theorem State.abandonWork_posture : (s.abandonWork n).posture = s.posture :=
  (State.abandonWork_besides s n).1.posture

@[simp] theorem State.freeJob_posture : (s.freeJob n).posture = s.posture := by
  cases hj : s.job n with
  | none => simp [State.freeJob, hj]
  | some j => exact (State.freeJob_leave hj).1.posture

@[simp] theorem State.endJob_posture (o : DoneOutcome) : (s.endJob n o).posture = s.posture := by
  cases hj : s.job n with
  | none => simp [State.endJob, hj]
  | some j => exact (State.endJob_endsWithDone hj o).2.posture

@[simp] theorem State.enterReady_posture : (s.enterReady n).posture = s.posture := by simp [State.enterReady]

@[simp] theorem State.assessIfComplete_posture : (s.assessIfComplete n).posture = s.posture := by
  unfold State.assessIfComplete State.assessJob
  (repeat' split) <;> simp

@[simp] theorem State.enterCancelling_posture (r : CancelReason) : (s.enterCancelling n r).posture = s.posture := by
  simp [State.enterCancelling]

@[simp] theorem State.cancelOwned_posture (r : CancelReason) : (s.cancelOwned n r).posture = s.posture := by
  unfold State.cancelOwned
  split <;> simp

@[simp] theorem State.withdrawClaim_posture : (s.withdrawClaim n).posture = s.posture := by simp [State.withdrawClaim]

@[simp] theorem State.loseClaim_posture : (s.loseClaim n).posture = s.posture := by simp [State.loseClaim]

@[simp] theorem State.dropJob_posture : (s.dropJob n).posture = s.posture := by
  unfold State.dropJob
  (repeat' split) <;> simp

@[simp] theorem State.noticeSuperseded_posture : (s.noticeSuperseded key version).posture = s.posture := by
  refine State.posture_foldl (fun s n => ?_) s allSlots
  unfold State.supersedeJob
  (repeat' split) <;> simp

@[simp] theorem State.noticeContested_posture (size screen rank : Nat) :
    (s.noticeContested key version size screen rank).posture = s.posture := by
  unfold State.noticeContested
  split
  · split
    · rename_i m _ _
      exact State.setLink_posture _ (Link.put_phase _ _ _)
    · rfl
  · rfl

@[simp] theorem State.loseContending_posture : (s.loseContending key version).posture = s.posture := by
  unfold State.loseContending
  (repeat' split) <;> simp

@[simp] theorem State.noticeUntaken_posture : (s.noticeUntaken key version).posture = s.posture := by
  unfold State.noticeUntaken
  (repeat' split) <;> simp

@[simp] theorem State.claimUnsent_posture (r : Unsent) : (s.claimUnsent n r).posture = s.posture := by
  unfold State.claimUnsent State.claimReturned State.claimWithdrawn
  dsimp only
  (repeat' split) <;> simp

@[simp] theorem State.reportClaim_posture (own : Option Slot) (r : ClaimResult) :
    (s.reportClaim own key version r).posture = s.posture := by
  unfold State.reportClaim State.claimResult
  dsimp only
  (repeat' split) <;> simp

@[simp] theorem State.imagerEnding_posture (e : Ending) : (s.imagerEnding n e).posture = s.posture := by
  unfold State.imagerEnding
  split <;> simp

/-! ## The Plate Board -/

@[simp] theorem State.takeHeader_posture (size screen rank : Nat) :
    (s.takeHeader key version size screen rank).posture = s.posture := by
  unfold State.takeHeader State.boardHasNoRoom
  dsimp only
  (repeat' split) <;> simp

@[simp] theorem State.windowExpires_posture (i : Nat) : (s.windowExpires i).posture = s.posture := by
  unfold State.windowExpires
  dsimp only
  (repeat' split) <;> simp

@[simp] theorem State.takeClaim_posture (sender : Station) (own : Option Slot) :
    (s.takeClaim sender key version own).posture = s.posture := by
  unfold State.takeClaim State.noticeOwned State.boardAnomaly State.boardHasNoRoom
  dsimp only
  (repeat' split) <;> simp

@[simp] theorem State.takeDone_posture (sender : Station) (o : DoneOutcome) (k : Nat) (first : Option DamageKind) :
    (s.takeDone sender key version o k first).posture = s.posture := by
  unfold State.takeDone State.boardDone State.noticeDone State.boardAnomaly State.boardHasNoRoom
  dsimp only
  (repeat' split) <;> simp

@[simp] theorem State.orphan_posture (peer : Station) : (s.orphan peer).posture = s.posture := by
  unfold State.orphan
  split <;> rfl

/-! ## The page line -/

@[simp] theorem State.setFraming_posture (f : Framing) : (s.setFraming f).posture = s.posture := rfl

@[simp] theorem State.headerFails_posture (got : List Byte) : (s.headerFails got).posture = s.posture := rfl
@[simp] theorem State.admitEnd_posture (j : Job) (o : EndOrigin) : (s.admitEnd n j o).posture = s.posture := rfl

@[simp] theorem State.checkFragment_posture (j : Job) (a : Arrived) : (s.checkFragment n j a).posture = s.posture := by
  unfold State.checkFragment
  dsimp only
  (repeat' split) <;> rfl

@[simp] theorem State.takeArrived_posture (a : Arrived) : (s.takeArrived key version a).posture = s.posture := by
  unfold State.takeArrived State.judgeArrived State.reportLate State.reportUnattributed State.reportDuplicate
  (repeat' split) <;> simp

@[simp] theorem State.completeFragment_posture (header got : List Byte) (cut : Bool) :
    (s.completeFragment header got cut).posture = s.posture := by
  unfold State.completeFragment
  (repeat' split) <;> simp

@[simp] theorem State.takePlateEnd_posture : (s.takePlateEnd key version).posture = s.posture := by
  unfold State.takePlateEnd State.reportLate
  (repeat' split) <;> simp

@[simp] theorem State.feedByte_posture (b : Byte) : (s.feedByte b).posture = s.posture := by
  unfold State.feedByte State.takeHeaderBytes State.takePayloadBytes State.wholeHeader
  (repeat' split) <;> simp

@[simp] theorem State.feed_posture (bytes : List Byte) : (s.feed bytes).posture = s.posture := by
  simp [State.feed, State.posture_foldl State.feedByte_posture]

@[simp] theorem State.cutShort_posture : s.cutShort.posture = s.posture := by
  unfold State.cutShort
  split <;> simp

/-! ## The Unpacker and the Screener -/

@[simp] theorem State.endBand_posture (b : Nat) (a : AfterRing) : (s.endBand n b a).posture = s.posture := by
  unfold State.endBand State.offerDescriptor
  dsimp only
  (repeat' split) <;> rfl

@[simp] theorem State.endAsGap_posture (b : Nat) (k : Option DamageKind) : (s.endAsGap n b k).posture = s.posture := by
  simp [State.endAsGap, State.reportGap, State.markDamage]

@[simp] theorem State.orderBands_posture (b : Nat) (k : Option DamageKind) :
    (s.orderBands n b k).posture = s.posture := by
  refine (State.posture_foldl (fun s a => by simp [State.endIfAwaited]) _ _).trans ?_
  unfold State.endCurrentBelow
  (repeat' split) <;> simp

@[simp] theorem State.judgeBand_posture (b part : Nat) (k : Option DamageKind) :
    (s.judgeBand n b part k).posture = s.posture := by
  unfold State.judgeBand State.beginBand State.endAndDiscard State.discardHead State.setWork
  dsimp only
  (repeat' split) <;> simp

@[simp] theorem State.actOn_posture (r : HoldingRecord) (k : Option DamageKind) :
    (s.actOn r k).posture = s.posture := by
  unfold State.actOn State.judgeFragment State.judgeEnd State.processEnd
  split <;> simp

@[simp] theorem State.takeHead_posture : s.takeHead.posture = s.posture := by
  unfold State.takeHead State.dropStale State.reportStale
  (repeat' split) <;> simp

@[simp] theorem State.endPart_posture (b part : Nat) (capture : List Byte) (e : PartEnd) :
    (s.endPart n b part capture e).posture = s.posture := by
  unfold State.endPart State.endDecoding State.markDamage
  split <;> simp

@[simp] theorem State.partDecoded_posture : s.partDecoded.posture = s.posture := by
  unfold State.partDecoded State.decodePart
  (repeat' split) <;> simp

@[simp] theorem State.resumeAfterRing_posture (d : Descriptor) (a : AfterRing) :
    (s.resumeAfterRing d a).posture = s.posture := by
  unfold State.resumeAfterRing State.placeDescriptor State.setWork
  dsimp only
  split <;> simp

@[simp] theorem State.takeEntry_posture (d : Descriptor) : (s.takeEntry d).posture = s.posture := by
  unfold State.takeEntry
  (repeat' split) <;> rfl

@[simp] theorem State.bandFinished_posture (c : CurrentBand) : (s.bandFinished c).posture = s.posture := by
  unfold State.bandFinished State.finishBand State.recordScreened State.writeScreened
  dsimp only
  (repeat' split) <;> simp

/-! ## The Imager -/

@[simp] theorem State.endHold_posture (timeout : Bool) : (s.endHold timeout).posture = s.posture := by
  have hr : s.countEject.reportEnding.posture = s.posture := by
    have hc : s.countEject.posture = s.posture := by unfold State.countEject; split <;> rfl
    unfold State.reportEnding
    (repeat' split) <;> simp [hc]
  simp [State.endHold, State.enterFault, State.enterIdle, hr]

@[simp] theorem State.plateLoaded_posture : s.plateLoaded.posture = s.posture := by
  unfold State.plateLoaded State.enterImaging
  dsimp only
  (repeat' split) <;> rfl

@[simp] theorem State.ignoreLine_posture : s.ignoreLine.posture = s.posture := by simp [State.ignoreLine]
@[simp] theorem State.drumExpires_posture : s.drumExpires.posture = s.posture := rfl

@[simp] theorem State.takeIndex_posture (ticks : Nat) : (s.takeIndex ticks).posture = s.posture := by
  simp [State.takeIndex, State.judgeIndex, State.outputSwath]

@[simp] theorem State.completeSwath_posture : s.completeSwath.posture = s.posture := by simp [State.completeSwath]

@[simp] theorem State.headChanges_posture (x : Bool) : (s.headChanges x).posture = s.posture := by
  have lost : ∀ u : State, u.headLost.posture = u.posture := fun u => by unfold State.headLost; split <;> rfl
  unfold State.headChanges State.headBack
  dsimp only
  (repeat' split) <;> simp [lost]

@[simp] theorem State.mediaChanges_posture (x : Bool) : (s.mediaChanges x).posture = s.posture := by
  simp [State.mediaChanges]

@[simp] theorem State.writeInput_posture (a : PortAddress) (b : Byte) : (s.writeInput a b).posture = s.posture := by
  unfold State.writeInput
  split <;> rfl

/-! ## The Roll Unit -/

@[simp] theorem State.setPeer_posture (m : Station) (p : Peer) : (s.setPeer m p).posture = s.posture := rfl

@[simp] theorem State.heardFrom_posture (m : Station) : (s.heardFrom m).posture = s.posture := by
  unfold State.heardFrom
  split <;> rfl

@[simp] theorem State.judgeDigest_posture (m : Station) (d : Half) : (s.judgeDigest m d).posture = s.posture := by
  unfold State.judgeDigest
  dsimp only
  split <;> rfl

@[simp] theorem State.takeJoin_posture (m : Station) (d : Half) : (s.takeJoin m d).posture = s.posture := by
  unfold State.takeJoin
  dsimp only
  split <;> simp

@[simp] theorem State.ownSent_posture (m : Msg) : (s.ownSent m).posture = s.posture := by
  unfold State.ownSent
  split <;> rfl

@[simp] theorem State.loseContact_posture (m : Station) : (s.loseContact m).posture = s.posture := by
  simp [State.loseContact]

@[simp] theorem State.queueRoll_posture : s.queueRoll.posture = s.posture := by simp [State.queueRoll]

end Sys2Proof.Machine
end

section
/-! The operations that change the posture. -/

namespace Sys2Proof.Machine

variable {s t : State}

theorem State.linkPassive.congr (h : s.linkPassive) (e : t.posture = s.posture) : t.linkPassive := by
  obtain ⟨hs, hp⟩ := Prod.mk.inj e
  unfold State.linkPassive State.running at *
  rwa [hs, hp]

theorem State.linkPassive.ofRunning (h : t.running = true) : t.linkPassive := fun k => by simp [h] at k

theorem State.running_of_posture (h : s.running = true) (e : t.posture = s.posture) : t.running = true := by
  rw [State.running, (Prod.mk.inj e).1]
  exact h

/-- A station whose Link Controller is neither passive nor finishes a spoil window it owes is running. -/
theorem State.linkPassive.running (h : s.linkPassive) (hp : s.link.phase ≠ .passive) (ho : s.link.phase ≠ .owed) :
    s.running = true := by
  by_contra k
  exact (h (by simpa using k)).elim hp ho

theorem LinkPhase.stopped_idle (ph : LinkPhase) : ph.stopped = .passive ∨ ph.stopped = .owed := by
  unfold LinkPhase.stopped
  split <;> simp

@[simp] theorem State.disposeOfPlate_link (s : State) (c : Clearing) : (s.disposeOfPlate c).link = s.link := by
  unfold State.disposeOfPlate
  dsimp only
  split <;> rfl

theorem State.clearForHalt_idle (s : State) :
    s.clearForHalt.link.phase = .passive ∨ s.clearForHalt.link.phase = .owed := LinkPhase.stopped_idle _

theorem State.halt_linkPassive (s : State) : s.halt.linkPassive := fun _ => s.clearForHalt_idle

theorem State.bar_linkPassive (s : State) (r : BarredReason) : (s.bar r).linkPassive := fun _ => s.clearForHalt_idle

theorem State.startJoining_linkPassive (s : State) : s.startJoining.linkPassive := State.linkPassive.ofRunning rfl

theorem State.rejoin_linkPassive (h : s.linkPassive) : s.rejoin.linkPassive := by
  unfold State.rejoin
  split
  · exact State.linkPassive.ofRunning rfl
  · exact h

theorem State.leaveLoading_linkPassive (s : State) (r : Option BarredReason) : (s.leaveLoading r).linkPassive := by
  have media : ∀ u : State, u.linkPassive → u.judgeMediaOut.linkPassive := fun u h =>
    h.congr (by simp [State.judgeMediaOut])
  refine media _ ?_
  split
  · exact State.halt_linkPassive _
  · split
    · exact State.bar_linkPassive _ _
    · exact State.startJoining_linkPassive _

theorem State.takeChecks_linkPassive (h : s.linkPassive) (image : Mem) (f : Option (BarredReason × Option Nat)) :
    (s.takeChecks image f).linkPassive := by
  unfold State.takeChecks
  split
  · exact h
  · exact State.leaveLoading_linkPassive _ _

theorem State.uncorrectable_linkPassive (h : s.linkPassive) (r : Region) : (s.uncorrectable r).linkPassive := by
  unfold State.uncorrectable
  dsimp only
  split
  case h_6 | h_7 => exact h
  all_goals exact State.halt_linkPassive _

theorem State.resetPart_linkPassive (s : State) : s.resetPart.linkPassive := fun _ => .inl rfl

/-! ### Messages of peers -/

theorem State.takeItem_linkPassive (h : s.linkPassive) (n : Station) (slot : Nat) (item : Half) :
    (s.takeItem n slot item).linkPassive := by
  unfold State.takeItem
  dsimp only
  split
  case h_2 =>
    split
    · exact State.rejoin_linkPassive h
    · exact h
  all_goals exact h.congr (by simp)

theorem State.takePeerMessage_linkPassive (h : s.linkPassive) (n : Station) (m : Msg) :
    (s.takePeerMessage n m).linkPassive := by
  unfold State.takePeerMessage
  split
  case h_3 counter slot item =>
    split
    · exact h
    · exact State.takeItem_linkPassive (s := (s.heardFrom n).setPeer n _) (h.congr (by simp)) n slot item
  all_goals exact h.congr (by simp [State.takeLeave])

/-! ### Openings: a station that takes part in one is running -/

theorem State.reportContender_running (h : s.running = true) (c : Option Place) :
    (s.reportContender c).running = true := by
  unfold State.reportContender State.reportUnsent
  split
  · dsimp only
    split
    · exact State.running_of_posture h (by simp)
    · unfold State.leaveWithdrawn
      split
      · rfl
      · exact h
    · exact h
  · exact h

theorem State.startOpening_running (h : s.running = true) : s.startOpening.running = true := by
  have start : ∀ p, (s.startCandidate p).running = true := fun p => by
    unfold State.startCandidate State.claimStarted
    dsimp only
    split <;> exact h
  unfold State.startOpening
  split
  · exact start _
  · exact h

theorem State.endRound_running (h : s.running = true) (c : Option Place) (won : List Nat) (low : Nat) :
    (s.endRound c won low).running = true := by
  have broken : (s.breakOpening c).running = true :=
    State.reportContender_running (s := (s.setPhase .waiting).raise .spoiled) h c
  unfold State.endRound
  split
  · split
    · exact h
    · exact broken
  · split
    · exact broken
    · split
      · exact h
      · exact State.reportContender_running (s := s.setPhase (nextPhase none (won ++ [low - 1]))) h c

theorem State.endBody_running (h : s.running = true) (role : LinkRole) (key : WinningKey) (framed : Bool)
    (bytes : List Byte) : (s.endBody role key framed bytes).running = true := by
  unfold State.endBody
  split <;> exact h

theorem State.endSpoiled_running (h : s.running = true) (role : LinkRole) (held : Bool) :
    (s.endSpoiled role held).running = true := by
  have counted : ((s.setPhase .waiting).countSpoiled held).running = true := by
    unfold State.countSpoiled
    dsimp only
    split <;> exact h
  unfold State.endSpoiled
  split
  · exact State.reportContender_running counted (some _)
  all_goals exact counted

theorem State.acceptOwn_linkPassive (h : s.running = true) (p : Place) : (s.acceptOwn p).linkPassive := by
  unfold State.acceptOwn
  split
  · exact State.linkPassive.ofRunning h
  · rename_i m _
    have hs : (((s.setLink { s.link.sent p with phase := .waiting }).raise .sent).ownSent m).running = true :=
      State.running_of_posture (s := (s.setLink { s.link.sent p with phase := .waiting }).raise .sent) h (by simp)
    unfold State.handOverOwn State.claimReturned
    dsimp only
    split
    case h_3 => exact fun _ => .inl rfl
    case h_4 =>
      refine State.linkPassive.ofRunning (State.running_of_posture hs ?_)
      split <;> simp
    all_goals exact State.linkPassive.ofRunning (State.running_of_posture hs (by simp [State.addDamageTotal]))

theorem State.acceptOther_linkPassive (h : s.running = true) (heard : Option (Station × Msg)) :
    (s.acceptOther heard).linkPassive := by
  unfold State.acceptOther
  cases heard with
  | none => exact State.linkPassive.ofRunning h
  | some x =>
    by_cases hx : x.1 = s.settings.station
    · exact (congrArg State.linkPassive (if_pos hx)).mpr (State.bar_linkPassive _ _)
    · exact (congrArg State.linkPassive (if_neg hx)).mpr (State.takePeerMessage_linkPassive
        (s := (s.setPhase .waiting).raise .taken) (State.linkPassive.ofRunning h) _ _)

theorem State.endWindow_linkPassive (h : s.running = true) (role : LinkRole) (hold : Bool)
    (heard : Option (Station × Msg)) (low : Bool) : (s.endWindow role hold heard low).linkPassive := by
  unfold State.endWindow
  split
  · exact State.linkPassive.ofRunning (State.endSpoiled_running h role hold)
  · split
    · exact State.acceptOwn_linkPassive h _
    · exact State.acceptOther_linkPassive h _
    · exact State.linkPassive.ofRunning h

/-! ### Maintenance commands -/

theorem State.onSlot_linkPassive (h : s.linkPassive) (b : Byte) {f : Slot → State} (hf : ∀ n, (f n).linkPassive) :
    (s.onSlot b f).linkPassive := by
  unfold State.onSlot
  split
  · exact hf _
  · exact h

theorem State.act_linkPassive (h : s.linkPassive) {taken : Bool} {effect : State}
    (k : taken = true → effect.linkPassive) : (s.act taken effect).linkPassive := by
  unfold State.act
  split
  · exact k ‹_›
  · exact h

theorem State.drain_linkPassive (s : State) : s.drain.linkPassive := by
  unfold State.drain State.tableEmptied
  split <;> exact State.linkPassive.ofRunning rfl

theorem State.resumeDraining_linkPassive (h : s.station.state = .draining) : s.resumeDraining.linkPassive := by
  unfold State.resumeDraining
  have hr : s.running = true := by rw [State.running, h]; rfl
  split
  · split
    · split
      · exact State.linkPassive.ofRunning hr
      · exact State.linkPassive.ofRunning rfl
    · exact State.linkPassive.ofRunning rfl
  · exact State.linkPassive.ofRunning rfl

theorem State.execute_linkPassive (h : s.linkPassive) (code : Byte) (data : List Byte) :
    (s.execute code data).linkPassive := by
  unfold State.execute
  split
  case h_16 => exact State.onSlot_linkPassive h _ fun n => State.act_linkPassive h fun _ => h.congr (by simp)
  case h_17 => exact State.onSlot_linkPassive h _ fun n => State.act_linkPassive h fun _ => h.congr (by simp)
  case h_18 => exact State.act_linkPassive h fun _ => s.drain_linkPassive
  case h_19 =>
    unfold State.runResume
    split
    · exact State.act_linkPassive h fun _ => State.resumeDraining_linkPassive ‹_›
    · exact State.act_linkPassive h fun _ => s.startJoining_linkPassive
    all_goals exact h
  case h_20 => exact s.resetPart_linkPassive
  case h_5 => exact State.onSlot_linkPassive h _ fun _ => h
  case h_6 => exact State.onSlot_linkPassive h _ fun _ => by split <;> exact h
  case h_7 => exact State.onSlot_linkPassive h _ fun _ => by split <;> exact h
  case h_8 => unfold State.runReadBoard; dsimp only; split <;> exact h
  case h_9 => unfold State.runFindBoard; dsimp only; split <;> exact h
  case h_10 => unfold State.runReadPeer; split <;> exact h
  case h_11 => unfold State.runReadCounters; split <;> exact h
  all_goals exact h

theorem State.takeCommandByte_linkPassive (h : s.linkPassive) (code : Byte) : (s.takeCommandByte code).linkPassive := by
  unfold State.takeCommandByte
  dsimp only
  split
  · exact h
  · split
    · exact h
    · split
      · exact State.execute_linkPassive (s := s.beginCommand) h code []
      · exact h

theorem State.takeDataByte_linkPassive (h : s.linkPassive) (b : Byte) : (s.takeDataByte b).linkPassive := by
  unfold State.takeDataByte
  dsimp only
  split
  · exact h
  · split
    · exact h
    · exact State.execute_linkPassive (s := s.setPort { s.port with command := none }) h _ _

theorem State.portCommand_linkPassive (h : s.linkPassive) (code : Byte) (data : List Byte) :
    (s.portCommand code data).linkPassive := by
  unfold State.portCommand
  split
  · exact List.foldlRecOn data _ (State.takeCommandByte_linkPassive (s := s.clearInput) h code)
      fun u hu b _ => State.takeDataByte_linkPassive hu b
  · exact h

/-! ### Every command -/

theorem exec_linkPassive {c : Instr} (h : s.linkPassive) (e : exec c s = .next t) : t.linkPassive := by
  cases c <;> injection e with e <;> subst e
  case reset => exact s.resetPart_linkPassive
  case configurationReadDone =>
    split
    · exact State.takeChecks_linkPassive h _ _
    · exact h
  case loadingEnded =>
    split
    · exact State.leaveLoading_linkPassive _ _
    · exact h
  case linkSynchronised =>
    split
    · rename_i hp
      exact State.linkPassive.ofRunning (h.running (by simp [hp]) (by simp [hp]))
    · exact h
  case openingStart =>
    split
    case h_3 => exact h
    all_goals
      rename_i hp
      exact State.linkPassive.ofRunning (State.startOpening_running (h.running (by simp [hp]) (by simp [hp])))
  case contentionRoundEnd =>
    split
    · rename_i hp
      exact State.linkPassive.ofRunning (State.endRound_running (h.running (by simp [hp]) (by simp [hp])) _ _ _)
    · exact h
  case bodyEnd =>
    split
    · rename_i hp
      exact State.linkPassive.ofRunning (State.endBody_running (h.running (by simp [hp]) (by simp [hp])) _ _ _ _)
    · exact h
  case spoilWindowEnd =>
    split
    · rename_i hp
      exact State.endWindow_linkPassive (h.running (by simp [hp]) (by simp [hp])) _ _ _ _
    · exact fun _ => .inl rfl
    · exact h
  case joinPeriodExpiry =>
    split
    · split
      · exact State.linkPassive.ofRunning rfl
      · exact h
    · exact h
  case isolationTimerExpiry =>
    split
    · exact State.rejoin_linkPassive (h.congr (s.advanceTo_posture _))
    · exact h
  case uncorrectableError => exact State.uncorrectable_linkPassive h _
  case dataByteTaken =>
    split
    · exact State.takeDataByte_linkPassive (s := s.clearInput) h _
    all_goals exact h
  case unknownCommand | readStatus | readAttention | readJob | readBandMap | readDamage | readBoard | findBoard |
      readPeer | readLog | readSetting | readCounters | clearCounters | clearLog | setMask | clearAttention | release |
      drop | drain | resume | resetStation =>
    exact State.portCommand_linkPassive h _ _
  all_goals exact h.congr (by (repeat' split) <;> simp)

/-- Settles O58: a step is an idle clock, which touches neither the queue nor the station, or one command. -/
theorem queuePlacesAndPassivityStayLawful : Obligations.QueuePlacesAndPassivityStayLawful := by
  intro s t h
  cases hp : s.pending with
  | nil =>
    rw [step_idle hp] at h
    injection h with h
    subst h
    exact ⟨(State.elapse_holds (Holds.refl s) 1).1, fun k => k.congr (s.elapse_posture 1)⟩
  | cons c rest =>
    rw [step_front hp] at h
    exact ⟨(exec_holds h).1, fun k => exec_linkPassive (s := s.setPending rest) k h⟩

end Sys2Proof.Machine
end

section
/-! PROOFS of O3, O4 and O60: the state after reset. -/

namespace Sys2Proof.Machine

/-- Settles O3: `State.resetPart` is written as the statement says. -/
theorem resetCommandEffect : Obligations.ResetCommandEffect := fun _ => rfl

theorem State.reset_job (n : Slot) : State.reset.job n = none := Vector.replicate_job n

theorem State.reset_at (p : Place) : State.reset.link.at p = none := by
  cases p <;> simp [State.reset, Link.afterReset, Link.at]

theorem State.reset_freeSlots : State.reset.freeSlots = allSlots :=
  List.filter_eq_self.mpr fun n _ => by
    rw [State.slotFree, State.reset_job]
    simp [State.reset, Link.afterReset]

theorem State.reset_reserved : State.reset.reserved = 0 := by
  simp [State.reserved, State.reset_job]

/-- Settles O4. -/
theorem resetStateValues : Obligations.ResetStateValues := by
  have slots : State.reset.freeSlots.length = 8 := by rw [State.reset_freeSlots]; rfl
  have store : State.reset.unreserved = 768 := by rw [State.unreserved, State.reset_reserved]; rfl
  have peers : ∀ n : Station, State.reset.peer n = Peer.unknown := fun n => by
    simp [State.peer, State.reset, RollUnit.afterReset]
  have generations : ∀ n : Slot, State.reset.jobs.generations[n] = 0 := fun n => by
    simp [State.reset, JobTable.afterReset]
  have entries : ∀ i : Fin 32, State.reset.ring.entries[i] = { descriptor := none, mark := true } := fun i => by
    simp [State.reset, Ring.cleared]
  have counts : ∀ i : Fin 21, State.reset.port.counts[i] = 0 := fun i => by simp [State.reset, Port.afterReset]
  have screened : State.reset.screener.store = List.range 768 := by
    simp only [State.reset, Screener.cleared, Config.screenedBuffers]
  exact ⟨rfl, rfl, State.reset_at, rfl, rfl, peers, rfl, rfl, rfl, rfl, rfl, rfl,
    fun n => ⟨State.reset_job n, generations n⟩, rfl, store, slots, rfl, rfl, rfl, entries, rfl, rfl, rfl, rfl, rfl, rfl,
    rfl, screened, rfl, rfl, rfl, rfl, rfl, rfl, rfl, rfl, rfl, rfl, rfl, rfl, rfl, counts⟩

/-- Settles O60: the state after reset is one that RESET itself leaves. -/
theorem resetIsLawful : Obligations.ResetIsLawful := by
  have places : State.reset.link.placesHold := fun p q hq => by simp [State.reset_at p] at hq
  have fits : State.reset.reservationFits := by rw [State.reservationFits, State.reset_reserved]; exact Nat.zero_le _
  have lawful : State.reset.lawful := (State.lawfulBut_none _).mp (State.resetPart_lawful State.reset)
  exact ⟨⟨Mem.WF.nil, Mem.WF.nil, Mem.WF.nil, Mem.WF.nil⟩, places, ⟨Nat.zero_le _, List.nodup_nil⟩, fits,
    State.resetPart_linkPassive State.reset, lawful⟩

end Sys2Proof.Machine
end

section
/-! PROOF of O11: the fold over the ten places keeps the first eligible message of those it has seen. -/

namespace Sys2Proof.Machine

/-- `q` comes first of the two, or they stand level (R3). -/
def Queued.leads (q x : Queued) : Prop :=
  x.msg.rank ≤ q.msg.rank ∧ (x.msg.rank = q.msg.rank → q.age ≤ x.age)

theorem Queued.leads.refl (q : Queued) : q.leads q := ⟨Nat.le_refl _, fun _ => Nat.le_refl _⟩

theorem Queued.leads.trans {q x y : Queued} (h : q.leads x) (k : x.leads y) : q.leads y := by
  obtain ⟨h1, h2⟩ := h
  obtain ⟨k1, k2⟩ := k
  exact ⟨k1.trans h1, fun e => (h2 (by omega)).trans (k2 (by omega))⟩

theorem Queued.leads_of_before {q x : Queued} (h : q.before x = true) : q.leads x := by
  simp only [Queued.before, Bool.or_eq_true, Bool.and_eq_true, decide_eq_true_eq] at h
  unfold Queued.leads
  omega

theorem Queued.leads_of_not_before {q x : Queued} (h : ¬ x.before q = true) : q.leads x := by
  simp only [Queued.before, Bool.or_eq_true, Bool.and_eq_true, decide_eq_true_eq] at h
  unfold Queued.leads
  omega

/-- The message of a place can be the candidate: it is queued, with no withdrawal pending (R3). -/
def Link.eligible (l : Link) (p : Place) (q : Queued) : Prop := l.at p = some q ∧ q.withdrawal = false

/-- `best` is the place of the first eligible message of the places seen, or none where there is none. -/
def Link.firstOf (l : Link) (seen : List Place) : Option Place → Prop
  | none => ∀ p ∈ seen, ∀ q, ¬ l.eligible p q
  | some p => ∃ q, l.eligible p q ∧ ∀ r ∈ seen, ∀ x, l.eligible r x → q.leads x

variable {l : Link}

theorem Link.firstOf.skip {seen : List Place} {best : Option Place} (h : l.firstOf seen best) {p : Place}
    (hp : ∀ q, ¬ l.eligible p q) : l.firstOf (p :: seen) best := by
  cases best with
  | none => exact List.forall_mem_cons.mpr ⟨hp, h⟩
  | some b =>
    obtain ⟨q, hq, hl⟩ := h
    exact ⟨q, hq, List.forall_mem_cons.mpr ⟨fun x hx => absurd hx (hp x), hl⟩⟩

/-- One more place seen. -/
theorem Link.firstOf.better {seen : List Place} {best : Option Place} (h : l.firstOf seen best) (p : Place) :
    l.firstOf (p :: seen) (betterPlace l best p) := by
  unfold betterPlace
  cases hp : l.at p with
  | none => exact h.skip fun q hq => by simp [Link.eligible, hp] at hq
  | some q =>
    have only : ∀ x, l.eligible p x → x = q := fun x hx => Option.some.inj (hx.1.symm.trans hp)
    by_cases hw : q.withdrawal = true
    · simp only [hw, if_true]
      exact h.skip fun x hx => by simp [← only x hx, hx.2] at hw
    · have hq : l.eligible p q := ⟨hp, by simpa using hw⟩
      simp only [if_neg hw]
      cases best with
      | none =>
        refine ⟨q, hq, List.forall_mem_cons.mpr ⟨fun x hx => ?_, fun r hr x hx => absurd hx (h r hr x)⟩⟩
        rw [only x hx]
        exact Queued.leads.refl q
      | some b =>
        obtain ⟨r, hr, hl⟩ := h
        simp only [Option.bind_some, hr.1]
        split
        · rename_i hb
          refine ⟨q, hq, List.forall_mem_cons.mpr ⟨fun x hx => ?_, fun y hy x hx => ?_⟩⟩
          · rw [only x hx]
            exact Queued.leads.refl q
          · exact (Queued.leads_of_before hb).trans (hl y hy x hx)
        · rename_i hb
          refine ⟨r, hr, List.forall_mem_cons.mpr ⟨fun x hx => ?_, hl⟩⟩
          rw [only x hx]
          exact Queued.leads_of_not_before hb

theorem Link.firstOf.foldl {seen : List Place} {best : Option Place} (h : l.firstOf seen best) (ps : List Place) :
    l.firstOf (ps.reverse ++ seen) (ps.foldl (betterPlace l) best) := by
  induction ps generalizing seen best with
  | nil => exact h
  | cons p ps ih => simpa using ih (h.better p)

theorem mem_allPlaces (p : Place) : p ∈ allPlaces := by
  cases p <;> simp [allPlaces]

theorem Link.candidate_firstOf (l : Link) : l.firstOf (allPlaces.reverse ++ []) l.candidate :=
  Link.firstOf.foldl (best := none) (fun _ hp => absurd hp List.not_mem_nil) allPlaces

/-- Settles O11. -/
theorem candidateComesFirst : Obligations.CandidateComesFirst := by
  intro l
  have first := l.candidate_firstOf
  have seen : ∀ p, p ∈ allPlaces.reverse ++ [] := fun p => by simpa using mem_allPlaces p
  refine ⟨fun p hp => ?_, fun hn p q hq => ?_⟩
  · rw [hp] at first
    obtain ⟨q, ⟨hq, hw⟩, hl⟩ := first
    exact ⟨q, hq, hw, fun r x hx hxw => hl r (seen r) x ⟨hx, hxw⟩⟩
  · rw [hn] at first
    by_contra hw
    exact first p (seen p) q ⟨hq, by simpa using hw⟩

end Sys2Proof.Machine
end

section
/-! PROOFS of O10 and O12: what an opening takes into contention, and a round that the line leaves won. -/

namespace Sys2Proof.Machine

variable {s : State} {q : Queued}

/-! ## Openings (R3, R4) -/

theorem execOpeningStart_of_open (h : s.link.phase = .waiting ∨ s.link.phase = .round none []) :
    execOpeningStart s = .next s.startOpening := by
  rcases h with h | h <;> simp only [execOpeningStart, h]

theorem State.startOpening_of_none (h : s.link.candidate = none) : s.startOpening = s.setPhase (.round none []) := by
  simp only [State.startOpening, h]

theorem State.startOpening_of_some {p : Place} (h : s.link.candidate = some p) :
    s.startOpening = (s.startCandidate p).setPhase (.round (some p) []) := by
  simp only [State.startOpening, h]

/-- The message of a candidate with the bid of its opening, in progress (R3, R12). -/
def Queued.started (q : Queued) (bid : Nat) : Queued := { q with msg := q.msg.withBid bid, inProgress := true }

/-- A candidate other than a CLAIM is put in progress, and no block acts on it. -/
theorem State.startCandidate_quiet {p : Place} (hq : s.link.at p = some q)
    (hm : ∀ key version bid, q.msg ≠ .claim key version bid) :
    s.startCandidate p = s.setLink (s.link.setPlace p (some (q.started s.bid))) := by
  have started : s.link.start p s.bid = s.link.setPlace p (some (q.started s.bid)) := by
    rw [Link.start, hq]; rfl
  unfold State.startCandidate
  rw [started, Link.message, hq]
  dsimp only
  split
  · rename_i e
    exact absurd (Option.some.inj e) (hm _ _ _)
  · rfl

/-- A CLAIM is put in progress with the bid, and its job's flag is set (R71). -/
theorem State.startCandidate_claim {n : Slot} {key : PlateKey} {version : Nat} {bid : Option Nat}
    (hq : s.link.at (.slot n) = some q) (hm : q.msg = .claim key version bid) :
    s.startCandidate (.slot n) = (s.setLink (s.link.setPlace (.slot n) (some (q.started s.bid)))).claimStarted n := by
  have started : s.link.start (.slot n) s.bid = s.link.setPlace (.slot n) (some (q.started s.bid)) := by
    rw [Link.start, hq]; rfl
  simp only [State.startCandidate, started, Link.message, hq, Option.map_some, hm]

/-- The contention key of the message of a place (R4). -/
theorem State.contentionField_of {p : Place} {rank value : Nat} (hq : s.link.at p = some q) (hr : q.msg.rank = rank)
    (hv : q.msg.value = value) :
    s.contentionField p 0 = rank ∧ s.contentionField p 1 = value ∧ s.contentionField p 2 = s.settings.station.val := by
  unfold State.contentionField
  rw [hq]
  exact ⟨hr, hv, rfl⟩

theorem Queued.started_of_quiet (hm : ∀ key version bid, q.msg ≠ .claim key version bid) (bid : Nat) :
    q.started bid = { q with inProgress := true } := by
  unfold Queued.started Msg.withBid
  cases hq : q.msg <;> simp_all

/-- An opening whose candidate is no CLAIM. -/
theorem exec_openingStart_quiet {p : Place} (h : s.link.phase = .waiting ∨ s.link.phase = .round none [])
    (hc : s.link.candidate = some p) (hq : s.link.at p = some q)
    (hm : ∀ key version bid, q.msg ≠ .claim key version bid) :
    exec .openingStart s = .next
      ((s.setLink (s.link.setPlace p (some { q with inProgress := true }))).setPhase (.round (some p) [])) := by
  rw [exec_openingStart, execOpeningStart_of_open h, State.startOpening_of_some hc, State.startCandidate_quiet hq hm,
    Queued.started_of_quiet hm]

/-- Settles O10. -/
theorem openingStartsCandidate : Obligations.OpeningStartsCandidate := by
  intro s q
  refine ⟨fun h => ?_, fun h => ⟨fun hc => ?_, ?_, ?_, ?_, ?_⟩⟩
  · simp only [exec_linkSynchronised, execLinkSynchronised, h]
    rfl
  · rw [exec_openingStart, execOpeningStart_of_open h, State.startOpening_of_none hc]
    rfl
  · intro n key version outcome damaged first hc hq hm
    exact ⟨exec_openingStart_quiet (p := .slot n) h hc hq (by simp [hm]),
      State.contentionField_of (q := { q with inProgress := true }) (by simp [Link.at]) (by rw [hm]; rfl) (by rw [hm]; rfl)⟩
  · intro n key version bid hc hq hm
    have started : q.started s.bid = { q with msg := .claim key version (some s.bid), inProgress := true } := by
      rw [Queued.started, hm]; rfl
    refine ⟨?_, State.contentionField_of (q := q.started s.bid) (by simp [Link.at, started]) (by rw [started]; rfl)
      (by rw [started]; rfl)⟩
    rw [exec_openingStart, execOpeningStart_of_open h, State.startOpening_of_some hc,
      State.startCandidate_claim (n := n) hq hm, started]
    rfl
  · intro hc hq hm
    have quiet : ∀ key version bid, q.msg ≠ .claim key version bid := by
      rcases hm with hm | ⟨d, hm⟩ <;> simp [hm]
    have key : q.msg.rank = 1 ∧ q.msg.value = 0 := by
      rcases hm with hm | ⟨d, hm⟩ <;> rw [hm] <;> exact ⟨rfl, rfl⟩
    exact ⟨exec_openingStart_quiet (p := .presence) h hc hq quiet,
      State.contentionField_of (q := { q with inProgress := true }) rfl key.1 key.2⟩
  · intro c k x hc hq hm
    exact ⟨exec_openingStart_quiet (p := .roll) h hc hq (by simp [hm]),
      State.contentionField_of (q := { q with inProgress := true }) rfl (by rw [hm]; rfl) (by rw [hm]; rfl)⟩

/-! ## Rounds (R4, R5) -/

theorem longestHold_of_mem {n limit : Nat} (h : (n, limit) ∈ [(0, 4), (1, 64), (2, 16)]) :
    longestHold n = limit ∧ n ≤ 2 := by
  simp only [List.mem_cons, Prod.mk.injEq, List.not_mem_nil, or_false] at h
  rcases h with ⟨rfl, rfl⟩ | ⟨rfl, rfl⟩ | ⟨rfl, rfl⟩ <;> exact ⟨rfl, by omega⟩

/-- The receive state after a won round, as the statements say it (R5). -/
theorem nextPhase_append (c : Option Place) (won : List Nat) (x : Nat) : won.length ≤ 2 →
    nextPhase c (won ++ [x]) =
      match won with
      | [rank, value] =>
        .body (match c with | some p => .sender p | none => .receiver) { rank := rank, value := value, sender := x }
      | _ => .round c (won ++ [x]) := by
  intro h
  match won, h with
  | [], _ => rfl
  | [_], _ => rfl
  | [_, _], _ => rfl

theorem execContentionRoundEnd_of_round {c : Option Place} {won : List Nat} (h : s.link.phase = .round c won)
    (low : Nat) :
    execContentionRoundEnd low s = .next (s.endRound c won (max low (s.ownHold c won.length))) := by
  simp only [execContentionRoundEnd, h]

/-- Settles O12. -/
theorem roundWon : Obligations.RoundWon := by
  intro s c won low limit hp hl h0 hlow hown
  obtain ⟨hold, short⟩ := longestHold_of_mem hl
  have won' : s.endRound c won (max low (s.ownHold c won.length)) = s.setPhase (nextPhase c (won ++ [low - 1])) := by
    have e0 : low ≠ 0 := by omega
    have el : ¬ longestHold won.length < low := by omega
    cases c with
    | some p =>
      have own : s.ownHold (some p) won.length = low := hown p rfl
      rw [own, Nat.max_self, State.endRound, if_neg e0, if_neg el, if_pos own]
    | none =>
      have own : s.ownHold none won.length = 0 := rfl
      rw [own, Nat.max_zero, State.endRound, if_neg e0, if_neg el, if_neg (by rw [own]; omega)]
      rfl
  rw [exec_contentionRoundEnd, execContentionRoundEnd_of_round hp, won', nextPhase_append c won _ short]
  rfl

end Sys2Proof.Machine
end

section
/-! PROOFS of O13 and O14. A round lost or broken and a spoiled window leave a message unsent in the same ways, which
`State.settlesUnsent` says once. -/

namespace Sys2Proof.Machine

variable {s t : State} {l : Link} {p : Place} {q : Queued} {n : Slot}

/-! ## The queue after a message was not sent (R13, R14, R15) -/

theorem Link.unsent_returned (hq : l.at p = some q) (hw : q.withdrawal = false) (hr : q.replacement = none) :
    l.unsent p = l.setPlace p (some { q with inProgress := false }) ∧ l.unsentReport p = .returned := by
  simp [Link.unsent, Link.unsentReport, hq, hw, hr]

theorem Link.unsent_withdrawn (hq : l.at p = some q) (hw : q.withdrawal = true) (hr : q.replacement = none) :
    l.unsent p = l.setPlace p none ∧ l.unsentReport p = .withdrawn := by
  simp [Link.unsent, Link.unsentReport, hq, hw, hr]

theorem Link.unsent_replaced {m : Msg} (hq : l.at p = some q) (hr : q.replacement = some m) :
    l.unsent p = (l.setPlace p none).put p m := by
  simp [Link.unsent, hq, hr]

/-! ## Which block is told -/

theorem State.reportUnsent_roll (s : State) : s.reportUnsent .roll = s.setLink (s.link.unsent .roll) := rfl

theorem State.reportUnsent_presence_returned (h : s.link.unsentReport .presence = .returned) :
    s.reportUnsent .presence = s.setLink (s.link.unsent .presence) := by
  simp only [State.reportUnsent, h]

theorem State.reportUnsent_presence_withdrawn (h : s.link.unsentReport .presence = .withdrawn) :
    s.reportUnsent .presence = (s.setLink (s.link.unsent .presence)).leaveWithdrawn := by
  simp only [State.reportUnsent, h]

theorem State.reportUnsent_done {key : PlateKey} {version : Nat} {o : DoneOutcome} {d : Nat} {f : Option DamageKind}
    (hq : s.link.at (.slot n) = some q) (hm : q.msg = .done key version o d f) :
    s.reportUnsent (.slot n) = s.setLink (s.link.unsent (.slot n)) := by
  simp only [State.reportUnsent, Link.message, hq, Option.map_some, hm]

theorem State.reportUnsent_claim {key : PlateKey} {version : Nat} {bid : Option Nat}
    (hq : s.link.at (.slot n) = some q) (hm : q.msg = .claim key version bid) :
    s.reportUnsent (.slot n) =
      (s.setLink (s.link.unsent (.slot n))).claimUnsent n (s.link.unsentReport (.slot n)) := by
  simp only [State.reportUnsent, Link.message, hq, Option.map_some, hm]

theorem State.leaveWithdrawn_eq (s : State) :
    s.leaveWithdrawn = { s with station :=
      if s.station.resumePending = true then { s.station with state := .active, resumePending := false }
      else s.station } := by
  unfold State.leaveWithdrawn
  split <;> rfl

/-! ## A CLAIM withdrawn (R74, R83) -/

theorem State.contestedAgain_iff (s : State) (j : Job) :
    s.contestedAgain j = true ↔
      ∃ e, s.board.entryFor j.key = some e ∧ e.version = j.version ∧ ∃ d, e.state = .contested d := by
  have contested : ∀ st : EntryState, (match st with | .contested _ => true | _ => false) = true ↔
      ∃ d, st = .contested d := fun st => by cases st <;> simp
  unfold State.contestedAgain
  cases s.board.entryFor j.key with
  | none => simp
  | some e =>
    simp only [Option.any_some, Bool.and_eq_true, decide_eq_true_eq, Option.some.injEq, exists_eq_left']
    exact and_congr_right fun _ => contested e.state

/-- The job whose CLAIM's opening is over, with no withdrawal asked any more. -/
def Job.unclaimed (j : Job) : Job := { j with claimInProgress := false, withdrawal := none }

/-- The answer of Job Control, once the job found is written out. -/
theorem State.claimWithdrawn_of {j : Job} (hj : s.job n = some j) :
    s.claimWithdrawn n =
      match j.withdrawal with
      | none => s.setJob n (some j.unclaimed)
      | some .drop => (s.setJob n (some j.unclaimed)).freeJob n
      | some .window =>
        if s.contestedAgain j then
          (s.setJob n (some j.unclaimed)).setLink (s.link.put (.slot n) (.claim j.key j.version none))
        else (s.setJob n (some j.unclaimed)).freeJob n := by
  unfold State.claimWithdrawn State.modifyJob
  rw [hj]
  rfl

theorem State.claimWithdrawn_requeued {j : Job} (hj : s.job n = some j) (hw : j.withdrawal = some .window)
    (hc : s.contestedAgain j = true) :
    s.claimWithdrawn n =
      (s.setJob n (some j.unclaimed)).setLink (s.link.put (.slot n) (.claim j.key j.version none)) := by
  simp only [State.claimWithdrawn_of hj, hw, hc, if_true]

theorem State.claimWithdrawn_frees {j : Job} (hj : s.job n = some j)
    (h : j.withdrawal = some .drop ∨ (j.withdrawal = some .window ∧ ¬ s.contestedAgain j = true)) :
    s.claimWithdrawn n = (s.setJob n (some j.unclaimed)).freeJob n := by
  rcases h with hw | ⟨hw, hc⟩
  · simp only [State.claimWithdrawn_of hj, hw]
  · simp only [State.claimWithdrawn_of hj, hw, if_neg hc]

theorem State.claimWithdrawn_gone (hj : s.job n = none) : s.claimWithdrawn n = s := by
  simp only [State.claimWithdrawn, hj]

/-- The words of `State.freed` read of the slot's job only its cursor and its bands. -/
theorem State.freed.ofJob {r : State} {j k : Job} (h : s.freed t n) (hs : s.job n = some k) (hr : r.job n = some j)
    (hc : k.cursor = j.cursor) (hb : k.bands = j.bands) (h1 : r.ring = s.ring) (h2 : r.unpacker = s.unpacker)
    (h3 : r.receiver = s.receiver) (h4 : r.damage = s.damage) (h5 : r.screener = s.screener) : r.freed t n := by
  obtain ⟨gone, ⟨ring, pool, work, current⟩, store⟩ := h
  refine ⟨gone, ⟨by rwa [h1], fun x => ?_, ?_, by rwa [h5]⟩, fun x => ?_⟩
  · rw [pool x, hs, hr, h2]
    simp only [Option.some.injEq, exists_eq_left', hc]
  · unfold State.unpackingStopped State.headIsFragmentOf at *
    rwa [h2, h3, h4]
  · rw [store x, hs, hr, h5]
    simp only [Option.some.injEq, exists_eq_left', hb]

/-! ## What becomes of the message and of its block -/

/-- `s` with another queue, and with the receive state and the port as they stand after the opening. -/
def State.after (s : State) (phase : LinkPhase) (port : Port) (l : Link) : State :=
  { s with link := { l with phase := phase }, port := port }

/-- The ends that the message `q` of a place may meet in an opening in which it was not sent; `ends` says of a state
that it is the one the opening leaves. -/
def State.settlesUnsent (s : State) (p : Place) (q : Queued) (phase : LinkPhase) (port : Port) (ends : State → Prop) :
    Prop :=
  let left := s.after phase port
  let back : Queued := { q with inProgress := false }
  (q.withdrawal = false → q.replacement = none →
    (p = .roll → ends (left { s.link with roll := some back })) ∧
    (p = .presence → ends (left { s.link with presence := some back })) ∧
    (∀ n key version outcome damaged first, p = .slot n → q.msg = .done key version outcome damaged first →
      ends (left { s.link with slots := s.link.slots.set n (some back) })) ∧
    (∀ n key version bid, p = .slot n → q.msg = .claim key version bid →
      ends { left { s.link with slots := s.link.slots.set n (some back) } with
        jobs := { s.jobs with
          slots := s.jobs.slots.set n ((s.job n).map fun j => { j with claimInProgress := false }) } })) ∧
  (∀ m, p = .roll → q.replacement = some m →
    ∃ l : Link, Link.puts { s.link with roll := none } l .roll m ∧ ends (left l)) ∧
  (q.withdrawal = true → q.replacement = none →
    (p = .presence → q.msg = .leave →
      ends { left { s.link with presence := none } with
        station := if s.station.resumePending = true then
            { s.station with state := .active, resumePending := false }
          else s.station }) ∧
    (∀ n key version bid j, p = .slot n → q.msg = .claim key version bid → s.job n = some j →
      let contested := ∃ e, s.board.entryFor j.key = some e ∧ e.version = j.version ∧ ∃ d, e.state = .contested d
      let emptied : Link := { s.link with slots := s.link.slots.set n none }
      (j.withdrawal = some .window → contested →
        ∃ l : Link, emptied.puts l (.slot n) (.claim j.key j.version none) ∧
          ends { left l with jobs := { s.jobs with
            slots := s.jobs.slots.set n (some ({ j with claimInProgress := false, withdrawal := none })) } }) ∧
      (j.withdrawal = some .drop ∨ (j.withdrawal = some .window ∧ ¬ contested) →
        ∃ t, ends t ∧ s.freed t n ∧ t.link.slots[n] = none ∧ (∀ m, m ≠ n → t.job m = s.job m) ∧
          t.link.phase = phase ∧ t.port = port ∧ t.board = s.board ∧ t.frame = s.frame ∧
          s.leaveFollows t n (left emptied).link)) ∧
    (∀ n key version bid, p = .slot n → q.msg = .claim key version bid → s.job n = none →
      ends (left { s.link with slots := s.link.slots.set n none })))

theorem Link.at_withPhase (l : Link) (phase : LinkPhase) (p : Place) :
    ({ l with phase := phase } : Link).at p = l.at p := by
  cases p <;> rfl

/-- A job that loses its claim at the end of the opening is freed from the state that the opening leaves. -/
theorem State.freeJob_afterOpening {phase : LinkPhase} {port : Port} {j : Job} (hj : s.job n = some j) (l : Link)
    (hl : l.slots[n] = none) :
    let t := ((s.after phase port l).setJob n (some j.unclaimed)).freeJob n
    s.freed t n ∧ t.link.slots[n] = none ∧ (∀ m, m ≠ n → t.job m = s.job m) ∧ t.link.phase = phase ∧
      t.port = port ∧ t.board = s.board ∧ t.frame = s.frame ∧ s.leaveFollows t n (s.after phase port l).link := by
  intro t
  have hv : ((s.after phase port l).setJob n (some j.unclaimed)).job n = some j.unclaimed := State.job_setJob_same _ _ _
  have other : ∀ m, m ≠ n → ((s.after phase port l).setJob n (some j.unclaimed)).job m = s.job m :=
    fun m hm => State.job_setJob_other _ n m _ hm
  obtain ⟨beside, leave⟩ := State.freeJob_leave hv
  have leave' : s.leaveFollows t n (s.after phase port l).link :=
    leave.congr (fun m hm => (other m hm).symm) rfl rfl rfl
  obtain ⟨jobs, _, _, _, _, _, phase', _, board, _, _, port', frame, _⟩ := beside
  exact ⟨(State.freeJob_freed hv).ofJob hv hj rfl rfl rfl rfl rfl rfl rfl, leave'.slots_none hl,
    fun m hm => (jobs m hm).trans (other m hm), phase', port', board, frame, leave'⟩

/-- Every end of a message not sent is as `State.settlesUnsent` says. -/
theorem State.reportUnsent_settles {phase : LinkPhase} {port : Port} {ends : State → Prop} (hq : s.link.at p = some q)
    (h : ends ((s.after phase port s.link).reportUnsent p)) : s.settlesUnsent p q phase port ends := by
  have at_ : (s.after phase port s.link).link.at p = some q := (Link.at_withPhase _ _ _).trans hq
  generalize hu : s.after phase port s.link = u at h at_
  refine ⟨fun hw hr => ?_, fun m hp hr => ?_, fun hw hr => ?_⟩
  · obtain ⟨queue, report⟩ := Link.unsent_returned at_ hw hr
    refine ⟨?_, ?_, ?_, ?_⟩
    · rintro rfl
      rw [State.reportUnsent_roll, queue] at h
      subst hu
      exact h
    · rintro rfl
      rw [State.reportUnsent_presence_returned report, queue] at h
      subst hu
      exact h
    · rintro n key version outcome damaged first rfl hm
      rw [State.reportUnsent_done at_ hm, queue] at h
      subst hu
      exact h
    · rintro n key version bid rfl hm
      rw [State.reportUnsent_claim at_ hm, queue, report] at h
      subst hu
      exact h
  · subst hp
    rw [State.reportUnsent_roll, Link.unsent_replaced at_ hr] at h
    subst hu
    exact ⟨_, Link.puts_put _ _ _, by rw [State.after, ← Link.put_withPhase]; exact h⟩
  · obtain ⟨queue, report⟩ := Link.unsent_withdrawn at_ hw hr
    refine ⟨?_, ?_, ?_⟩
    · rintro rfl -
      rw [State.reportUnsent_presence_withdrawn report, queue, State.leaveWithdrawn_eq] at h
      subst hu
      exact h
    · rintro n key version bid j rfl hm hj
      rw [State.reportUnsent_claim at_ hm, queue, report] at h
      subst hu
      change ends ((s.after phase port { s.link with slots := s.link.slots.set n none }).claimWithdrawn n) at h
      have live : (s.after phase port { s.link with slots := s.link.slots.set n none }).job n = some j := hj
      refine ⟨fun hc hagain => ?_, fun hc => ?_⟩
      · rw [State.claimWithdrawn_requeued live hc ((State.contestedAgain_iff _ j).mpr hagain)] at h
        exact ⟨_, Link.puts_put _ _ _, by rw [State.after, ← Link.put_withPhase]; exact h⟩
      · rw [State.claimWithdrawn_frees live (hc.imp_right fun ⟨hwin, hnot⟩ =>
          ⟨hwin, fun k => hnot ((State.contestedAgain_iff _ j).mp k)⟩)] at h
        exact ⟨_, h, State.freeJob_afterOpening hj _ (by simp)⟩
    · rintro n key version bid rfl hm hj
      rw [State.reportUnsent_claim at_ hm, queue, report] at h
      subst hu
      change ends ((s.after phase port { s.link with slots := s.link.slots.set n none }).claimWithdrawn n) at h
      have gone : (s.after phase port { s.link with slots := s.link.slots.set n none }).job n = none := hj
      rw [State.claimWithdrawn_gone gone] at h
      exact h

/-! ## Rounds -/

theorem State.endRound_lost {p : Place} {won : List Nat} {low : Nat} (h : s.ownHold (some p) won.length < low)
    (hl : low ≤ longestHold won.length) :
    s.endRound (some p) won low = (s.setPhase (nextPhase none (won ++ [low - 1]))).reportUnsent p := by
  rw [State.endRound, if_neg (by omega), if_neg (by omega), if_neg (by omega)]
  rfl

theorem State.endRound_tooLong {c : Option Place} {won : List Nat} {low : Nat} (h : longestHold won.length < low) :
    s.endRound c won low = s.breakOpening c := by
  rw [State.endRound, if_neg (by omega), if_pos h]

/-- A round that a contender loses, or that is held too long, ends in its message's being settled. -/
theorem State.contender_unsent (s : State) (p : Place) (won : List Nat) (low limit : Nat) (phase : LinkPhase)
    (port : Port) :
    ((s.contentionField p won.length + 1 < low ∧ low ≤ limit ∧ port = s.port ∧
        phase = (match won with
          | [rank, value] => .body .receiver { rank := rank, value := value, sender := low - 1 }
          | _ => .round none (won ++ [low - 1]))) ∨
      (limit < low ∧ port = s.port.counted .spoiled ∧ phase = .waiting)) →
    s.link.phase = .round (some p) won → longestHold won.length = limit → won.length ≤ 2 →
    exec (.contentionRoundEnd low) s = .next ((s.after phase port s.link).reportUnsent p) := by
  intro h hp hl short
  rw [exec_contentionRoundEnd, execContentionRoundEnd_of_round hp]
  rcases h with ⟨hlost, hlow, rfl, hphase⟩ | ⟨hlong, rfl, rfl⟩
  · have own : s.ownHold (some p) won.length = s.contentionField p won.length + 1 := rfl
    rw [Nat.max_eq_left (by omega), State.endRound_lost (by omega) (by omega), nextPhase_append none won _ short,
      hphase]
    rfl
  · rw [State.endRound_tooLong (by omega)]
    rfl

/-- Settles O13: the contender's message is settled as `State.settlesUnsent` says; with no contender only the receive
state and the count change. -/
theorem lostEmptyAndBrokenRounds : Obligations.LostEmptyAndBrokenRounds := by
  refine ⟨fun s p won low limit q phase port hp hl hq h => ?_, fun s won => ⟨fun hp => ?_, fun hp low limit hl h => ?_⟩⟩
  · obtain ⟨hold, short⟩ := longestHold_of_mem hl
    exact State.reportUnsent_settles (ends := fun t => exec (.contentionRoundEnd low) s = .next t) hq
      (State.contender_unsent s p won low limit phase port h hp hold short)
  · rw [exec_contentionRoundEnd, execContentionRoundEnd_of_round hp]
    rfl
  · obtain ⟨hold, -⟩ := longestHold_of_mem hl
    have own : s.ownHold none won.length = 0 := rfl
    rw [exec_contentionRoundEnd, execContentionRoundEnd_of_round hp, own, Nat.max_zero]
    rcases h with hlong | ⟨rfl, hwon⟩
    · rw [State.endRound_tooLong (by omega)]
      rfl
    · rw [State.endRound, if_pos rfl, if_neg hwon]
      rfl

/-! ## The body and the spoil window (R6 to R9) -/

theorem execBodyEnd_of_body {role : LinkRole} {key : WinningKey} (h : s.link.phase = .body role key) (framed : Bool)
    (bytes : List Byte) : execBodyEnd framed bytes s = .next (s.endBody role key framed bytes) := by
  simp only [execBodyEnd, h]

theorem execSpoilWindowEnd_of_spoil {role : LinkRole} {hold : Bool} {heard : Option (Station × Msg)}
    (h : s.link.phase = .spoil role hold heard) (low : Bool) :
    execSpoilWindowEnd low s = .next (s.endWindow role hold heard low) := by
  simp only [execSpoilWindowEnd, h]

/-- The counts of a spoiled opening (R17). -/
theorem State.countSpoiled_eq (s : State) (hold : Bool) :
    s.countSpoiled hold =
      { s with port :=
        if hold = true then (s.port.counted .spoiled).counted .spoiledHere else s.port.counted .spoiled } := by
  unfold State.countSpoiled
  cases hold <;> rfl

/-- A spoiled opening: counted, and a sender's message is settled. -/
theorem State.endWindow_spoiled {role : LinkRole} {hold low : Bool} {heard : Option (Station × Msg)} {port : Port}
    (hport : port = if hold = true then (s.port.counted .spoiled).counted .spoiledHere else s.port.counted .spoiled)
    (h : (low || hold) = true) :
    s.endWindow role hold heard low =
      match role with
      | .sender p => (s.after .waiting port s.link).reportUnsent p
      | .receiver | .abandoned => s.after .waiting port s.link := by
  unfold State.endWindow
  rw [if_pos h, hport]
  unfold State.endSpoiled
  rw [State.countSpoiled_eq]
  cases role <;> rfl

/-- Settles O14. -/
theorem bodyEndAndSpoiledWindow : Obligations.BodyEndAndSpoiledWindow := by
  refine ⟨fun s key framed bytes => ⟨fun hp => ?_, fun p q hp hq => ?_, fun hp => ?_⟩,
    fun s hold low heard port hport => ⟨fun hp hl => ?_, fun hp => ?_, fun p q hp hq hl => ?_⟩⟩
  · rw [exec_bodyEnd, execBodyEnd_of_body hp]
    rfl
  · rw [exec_bodyEnd, execBodyEnd_of_body hp]
    simp only [State.endBody, State.readbackHeld, Link.message, hq, Option.map_some, Option.any_some]
    rfl
  · rw [exec_bodyEnd, execBodyEnd_of_body hp]
    rfl
  · rcases hp with hp | hp <;>
      rw [exec_spoilWindowEnd, execSpoilWindowEnd_of_spoil hp, State.endWindow_spoiled hport hl] <;> rfl
  · simp only [exec_spoilWindowEnd, execSpoilWindowEnd, hp, State.countSpoiled_eq]
    rfl
  · refine State.reportUnsent_settles (phase := .waiting) (port := port)
      (ends := fun t => exec (.spoilWindowEnd low) s = .next t) hq ?_
    rw [exec_spoilWindowEnd, execSpoilWindowEnd_of_spoil hp, State.endWindow_spoiled hport hl]

end Sys2Proof.Machine
end

section
/-! PROOFS of O16, O17 and O18: an accepted message of this station's own, and one that bears its number. -/

namespace Sys2Proof.Machine

variable {s : State} {q : Queued}

/-! ## An own message accepted (R9, R16, R32) -/

/-- The state an accepted message of this station's leaves before it is handed over: it has left the queue, SENT has
risen and the isolation timer has restarted. -/
def State.sentFrom (s : State) (l : Link) : State :=
  { s with
    link := { l with phase := .waiting }
    port := s.port.counted .sent
    roll := { s.roll with
      isolationTimer := some (s.now + s.settings.silenceLimit * s.settings.rollPeriod) } }

/-- The message of the place leaves the queue, as its Roll Unit and its block are told. -/
theorem exec_spoilWindowEnd_sent {p : Place} {hold : Option (Station × Msg)}
    (h : s.link.phase = .spoil (.sender p) false hold)
    (hq : s.link.at p = some q) :
    exec (.spoilWindowEnd false) s = .next
      ((((s.setLink { s.link.sent p with phase := .waiting }).raise .sent).ownSent q.msg).handOverOwn p q.msg) := by
  rw [exec_spoilWindowEnd, execSpoilWindowEnd_of_spoil h]
  simp only [State.endWindow, State.acceptOwn, Link.message, hq, Option.map_some]
  rfl

theorem Link.sent_alone {l : Link} {p : Place} (hq : l.at p = some q) (hr : q.replacement = none) :
    l.sent p = l.setPlace p none := by
  simp [Link.sent, hq, hr]

/-- A DONE found on the board in the state of its version which this station owns or owned (R53). -/
theorem State.takeDone_owned {key : PlateKey} {i : Nat} {e : BoardEntry} (sender : Station) (outcome : DoneOutcome)
    (damaged : Nat) (first : Option DamageKind) (hi : s.board.placeOf key = some i) (he : s.board.entries[i]? = some e)
    (ho : e.state = .owned sender ∨ e.state = .orphaned sender) :
    s.takeDone sender key e.version outcome damaged first =
      s.boardDone (s.board.write i { e with state := .done sender outcome damaged first }) key e.version := by
  rcases ho with ho | ho <;> simp [State.takeDone, hi, he, ho]

/-- A DONE below the version of the board's entry (R53). -/
theorem State.takeDone_older {key : PlateKey} {i version : Nat} {e : BoardEntry} (sender : Station)
    (outcome : DoneOutcome) (damaged : Nat) (first : Option DamageKind) (hi : s.board.placeOf key = some i) (he : s.board.entries[i]? = some e)
    (hv : version < e.version) : s.takeDone sender key version outcome damaged first = s := by
  simp [State.takeDone, hi, he, hv, Nat.lt_asymm hv]

theorem State.loseContending_none {key : PlateKey} {version : Nat} (h : s.jobFor key version = none) :
    s.loseContending key version = s := by
  simp only [State.loseContending, h]

/-- The board with a DONE's entry, where no live job has its key and version. -/
theorem State.boardDone_noJob {key : PlateKey} {version : Nat} (b : Board) (h : s.jobFor key version = none) :
    s.boardDone b key version = s.setBoard { b with full := false } :=
  State.loseContending_none ((State.jobFor_congr rfl key version).trans h)

theorem carriesCondition_iff {slot : Nat} (h : slot ≤ 11) :
    carriesCondition slot = true ↔ slot ∈ [0, 2, 4, 6, 8, 10] := by
  unfold carriesCondition
  simp only [beq_iff_eq, List.mem_cons, List.not_mem_nil, or_false]
  omega

/-- The overflow flag after a ROLL was sent (R31). -/
theorem RollUnit.overflowSent_eq (r : RollUnit) {slot : Nat} (h : slot ≤ 11) (item : Half) :
    r.overflowSent slot item = { r with overflow :=
      if slot ∈ [0, 2, 4, 6, 8, 10] ∧ item.getLsbD 6 = true ∧ r.overflowMark = true then false else r.overflow } := by
  unfold RollUnit.overflowSent
  congr 1
  by_cases hc : carriesCondition slot = true
  · rw [hc]
    simp only [(carriesCondition_iff h).mp hc, true_and]
    cases item.getLsbD 6 <;> cases r.overflowMark <;> simp
  · simp [hc, mt (carriesCondition_iff h).mpr hc]

/-- A DONE accepted is handed to the board, its damaged bands added to the total (R16, R149). -/
theorem exec_spoilWindowEnd_done {n : Slot} {heard : Option (Station × Msg)} {key : PlateKey} {version damaged : Nat}
    {outcome : DoneOutcome} {first : Option DamageKind} (h : s.link.phase = .spoil (.sender (.slot n)) false heard)
    (hq : s.link.at (.slot n) = some q) (hm : q.msg = .done key version outcome damaged first)
    (hr : q.replacement = none) :
    exec (.spoilWindowEnd false) s = .next
      (((s.sentFrom (s.link.setPlace (.slot n) none)).addDamageTotal damaged).takeDone s.settings.station key version
        outcome damaged first) := by
  rw [exec_spoilWindowEnd_sent h hq, Link.sent_alone hq hr, hm]
  rfl

/-- Settles O16. -/
theorem ownJoinRollOrDoneAccepted : Obligations.OwnJoinRollOrDoneAccepted := by
  intro s q heard hr
  refine ⟨fun digest hp hq hm => ?_, fun counter slot item hp hq hm hs => ?_,
    fun n key version outcome damaged first i e hp hq hm hj hi he => ?_⟩
  · rw [exec_spoilWindowEnd_sent (p := .presence) hp hq, Link.sent_alone (p := .presence) hq hr, hm]
    rfl
  · rw [exec_spoilWindowEnd_sent (p := .roll) hp hq, Link.sent_alone (p := .roll) hq hr, hm]
    change Host.Outcome.next
      ((s.sentFrom _).setRoll ((s.sentFrom (s.link.setPlace .roll none)).roll.overflowSent slot item)) = _
    rw [RollUnit.overflowSent_eq _ hs]
    rfl
  · rw [exec_spoilWindowEnd_done hp hq hm hr]
    refine ⟨?_, fun hv => ?_⟩
    · rintro rfl ho
      refine ⟨s.board.withStamp, s.board.readiedAs_withStamp, ?_⟩
      rw [State.takeDone_owned (s := (s.sentFrom _).addDamageTotal damaged) _ _ _ _ hi he ho,
        State.boardDone_noJob (s := (s.sentFrom _).addDamageTotal damaged) _
          ((State.jobFor_congr rfl key e.version).trans hj)]
      rfl
    · rw [State.takeDone_older (s := (s.sentFrom _).addDamageTotal damaged) _ _ _ _ hi he hv]
      rfl

/-! ## The blocks cleared (R27, R166) -/

/-- The clearing of a plate writes the Imager alone. -/
theorem State.disposeOfPlate_eq (s : State) (c : Clearing) :
    s.disposeOfPlate c = { s with imager := s.disposed c } := by
  unfold State.disposeOfPlate State.disposed
  cases s.imager.state <;> rfl

/-- The blocks at the values of a clearing, the Imager's plate not yet disposed of (R27). -/
def State.blocksCleared (s : State) : State :=
  { s with
    station := { s.station with resumePending := false }
    link := s.link.emptied
    roll := { s.roll with peers := Vector.replicate 16 Peer.unknown, joinPeriod := none, joinSentAt := none }
    board := Board.cleared
    jobs := { s.jobs with slots := Vector.replicate 8 none, readyCounter := 0 }
    receiver := { s.receiver with holding := [] }
    unpacker := Unpacker.cleared
    ring := Ring.cleared
    screener := Screener.cleared }

theorem State.disposed_blocksCleared (s : State) (c : Clearing) : s.blocksCleared.disposed c = s.disposed c := rfl

theorem State.clearBlocks_eq (s : State) (c : Clearing) :
    s.clearBlocks c = { s.blocksCleared with imager := s.disposed c } := by
  change s.blocksCleared.disposeOfPlate c = _
  rw [State.disposeOfPlate_eq, State.disposed_blocksCleared]

theorem Link.emptied_at (l : Link) (p : Place) : l.emptied.at p = none := by
  cases p <;> simp [Link.emptied, Link.at]

theorem Ring.cleared_emptied : Ring.cleared.emptied :=
  ⟨fun i => by simp [Ring.cleared], rfl, rfl, rfl, rfl⟩

theorem Screener.cleared_eq : Screener.cleared = { current := none, store := List.range 768 } := by
  simp only [Screener.cleared, Config.screenedBuffers]

theorem Vector.replicate_peer (n : Station) : (Vector.replicate 16 Peer.unknown)[n] = Peer.unknown := by simp

/-- What a station that has left keeps of each block (R25). -/
theorem State.detach_eq (s : State) : s.detach =
    { s with
      station := { s.station with state := .detached, resumePending := false }
      link := { s.link.emptied with phase := .passive }
      roll := { s.roll with
        peers := Vector.replicate 16 Peer.unknown, rollTimer := none, isolationTimer := none, joinPeriod := none,
        joinSentAt := none }
      board := Board.cleared
      receiver := Receiver.afterReset
      unpacker := Unpacker.cleared
      ring := Ring.cleared
      screener := Screener.cleared
      port := s.port.latched .drainComplete } := rfl

/-- A LEAVE accepted takes the station out (R23, R25). -/
theorem exec_spoilWindowEnd_leave {heard : Option (Station × Msg)}
    (h : s.link.phase = .spoil (.sender .presence) false heard) (hq : s.link.presence = some q) (hm : q.msg = .leave) :
    exec (.spoilWindowEnd false) s = .next (s.sentFrom (s.link.sent .presence)).detach := by
  rw [exec_spoilWindowEnd_sent (p := .presence) h hq, hm]
  rfl

/-- Settles O17. -/
theorem ownLeaveDetaches : Obligations.OwnLeaveDetaches := by
  intro s q heard hp hq hm
  refine ⟨_, exec_spoilWindowEnd_leave hp hq hm, ?_⟩
  rw [State.detach_eq]
  exact ⟨rfl, rfl, rfl, rfl, Link.emptied_at s.link, rfl, rfl, rfl, Vector.replicate_peer, rfl, rfl, rfl, rfl, rfl,
    rfl, rfl, rfl, rfl, rfl, rfl, rfl, rfl⟩

/-- A message heard from another station, or with this station's number (R10). -/
theorem exec_spoilWindowEnd_heard {n : Station} {m : Msg} (h : s.link.phase = .spoil .receiver false (some (n, m))) :
    exec (.spoilWindowEnd false) s = .next
      (if n = s.settings.station then (s.setPhase .waiting).bar .duplicateNumber
       else ((s.setPhase .waiting).raise .taken).takePeerMessage n m) := by
  rw [exec_spoilWindowEnd, execSpoilWindowEnd_of_spoil h]
  rfl

/-- Settles O18. -/
theorem duplicateNumberBars : Obligations.DuplicateNumberBars := by
  intro s m hp
  refine ⟨_, exec_spoilWindowEnd_heard hp, ?_⟩
  rw [if_pos rfl, State.bar, State.clearForHalt, State.clearBlocks_eq]
  exact ⟨rfl, rfl, rfl, Vector.replicate_job, rfl, rfl, rfl, Vector.replicate_peer, Link.emptied_at s.link, rfl, rfl,
    rfl, rfl, rfl, Screener.cleared_eq, Ring.cleared_emptied, rfl, rfl, rfl, rfl, rfl, rfl, rfl, rfl, rfl⟩

end Sys2Proof.Machine
end

section
/-! PROOFS of O24 and O25: the blocks cleared by a rejoin and by a halt. -/

namespace Sys2Proof.Machine

variable {s t : State}

/-! ## A rejoin (R26, R40) -/

/-- What a rejoin leaves of every block but the port and the receive state (R26, R27). -/
def State.rejoinedAs (s t : State) : Prop :=
  t.station = { s.station with state := .joining, resumePending := false } ∧
  (∀ n, t.job n = none) ∧ t.jobs.generations = s.jobs.generations ∧
  t.jobs.readyCounter = 0 ∧ t.board = { entries := [], full := false, stamp := 0 } ∧
  (∀ n, t.peer n = Peer.unknown) ∧
  (∀ p q, t.link.at p = some q → p = .presence ∧ q.msg = .join (s.loader.digest.getD 0#16)) ∧
  (t.link.at .presence).isSome = true ∧ t.receiver.holding = [] ∧ t.receiver.framing = s.receiver.framing ∧
  t.roll.rollTimer = s.roll.rollTimer ∧ t.roll.counter = s.roll.counter ∧ t.roll.slot = s.roll.slot ∧
  t.roll.isolationTimer = some (s.now + s.settings.silenceLimit * s.settings.rollPeriod) ∧
  t.roll.joinPeriod = none ∧ t.roll.joinSentAt = none ∧
  t.unpacker = { work := .free, pool := List.range 16 } ∧
  t.screener = { current := none, store := List.range 768 } ∧ t.ring.emptied ∧ t.imager = s.disposed .rejoin ∧
  t.damage.total = 0 ∧ t.damage.log = s.damage.log ∧ t.frame = s.frame ∧ t.settings = s.settings

/-- A message requested of the emptied queue is alone in it (R21). -/
theorem Link.emptied_request (l : Link) (m : Msg) :
    l.emptied.request .presence m =
      { l.emptied with
        presence := some { msg := m, age := 0, inProgress := false, withdrawal := false, replacement := none }
        ageCounter := 1 } := by
  have empty : l.emptied.at .presence = none := Link.emptied_at l .presence
  rw [Link.request, empty]
  exact Link.put_of_lt _ _ _ (by decide : (0 : Nat) < 4294967295)

theorem Link.alone_at {l : Link} {q q' : Queued} {p : Place} {m : Msg} (hq : q.msg = m)
    (h : ({ l.emptied with presence := some q, ageCounter := 1 } : Link).at p = some q') :
    p = .presence ∧ q'.msg = m := by
  cases p with
  | presence =>
    cases h
    exact ⟨rfl, hq⟩
  | roll => cases h
  | slot n => simp [Link.at, Link.emptied] at h

/-- The JOIN that a rejoin queues. -/
def State.joinQueued (s : State) : Queued :=
  { msg := .join (s.loader.digest.getD 0#16), age := 0, inProgress := false, withdrawal := false, replacement := none }

/-- A running station's rejoin, each block written out. -/
theorem State.rejoin_eq (h : s.running = true) :
    s.rejoin =
      { s.blocksCleared with
        station := { s.station with state := .joining, resumePending := false }
        link := { s.link.emptied with presence := some s.joinQueued, ageCounter := 1 }
        roll := { s.blocksCleared.roll with
          isolationTimer := some (s.now + s.settings.silenceLimit * s.settings.rollPeriod) }
        damage := { s.damage with total := 0 }
        imager := s.disposed .rejoin
        port := s.port.latched .rejoined } := by
  rw [State.rejoin, if_pos h, State.clearBlocks_eq]
  unfold State.joinQueued
  rw [← Link.emptied_request]
  rfl

theorem State.rejoin_rejoinedAs (h : s.running = true) : s.rejoinedAs s.rejoin := by
  rw [State.rejoin_eq h]
  exact ⟨rfl, Vector.replicate_job, rfl, rfl, rfl, Vector.replicate_peer, fun p q hq => Link.alone_at rfl hq, rfl, rfl,
    rfl, rfl, rfl, rfl, rfl, rfl, rfl, rfl, Screener.cleared_eq, Ring.cleared_emptied, rfl, rfl, rfl, rfl, rfl⟩

theorem State.rejoin_port (h : s.running = true) : s.rejoin.port = s.port.latched .rejoined := by
  rw [State.rejoin_eq h]

theorem State.rejoin_phase (h : s.running = true) : s.rejoin.link.phase = s.link.phase.abandon := by
  rw [State.rejoin_eq h]
  rfl

theorem State.running_of_mem (h : s.station.state ∈ [.joining, .active, .draining]) : s.running = true := by
  simp only [List.mem_cons, List.not_mem_nil, or_false] at h
  unfold State.running
  rcases h with h | h | h <;> rw [h] <;> rfl

/-! ## A ROLL from a peer that is present (R34, R38, R39) -/

theorem State.peer_setPeer (s : State) (n : Station) (p : Peer) : (s.setPeer n p).peer n = p :=
  Vector.getElem_set_self _

theorem State.setPeer_setPeer (s : State) (n : Station) (p q : Peer) : (s.setPeer n p).setPeer n q = s.setPeer n q := by
  simp only [State.setPeer, State.setRoll, Vector.set_set]

/-- The record of a present peer after its ROLL was heard and counted. -/
def State.rollHeard (s : State) (n : Station) (counter : Nat) : Peer :=
  { s.peer n with silence := some s.silenceDeadline, heard := some s.now }.noteCounter counter

theorem State.takePeerMessage_roll {n : Station} (h : (s.peer n).state = .present) (counter slot : Nat) (item : Half) :
    s.takePeerMessage n (.roll counter slot item) =
      (s.setPeer n (s.rollHeard n counter)).takeItem n slot item := by
  have heard : s.heardFrom n =
      s.setPeer n { s.peer n with silence := some s.silenceDeadline, heard := some s.now } := by
    simp only [State.heardFrom, h]
  have known : ¬ (s.peer n).state = .lost := by simp [h]
  simp only [State.takePeerMessage, if_neg known]
  rw [heard, State.takeRoll, State.peer_setPeer, State.setPeer_setPeer]
  rfl

/-- A peer's record with the present map of its ROLL (R38). -/
def Peer.mapped (p : Peer) (item : Half) : Peer := { p with items := { p.items with presentMap := some item } }

/-- A ROLL of a present peer whose map disowns the station: a rejoin, the peer's record written before it. -/
theorem State.takePeerMessage_disowned {n : Station} {counter sent : Nat} {item : Half} (run : s.running = true)
    (present : (s.peer n).state = .present) (joined : (s.peer n).joining = false) (hs : s.roll.joinSentAt = some sent)
    (late : sent + s.settings.rollPeriod < s.now) (hi : item.getLsbD s.settings.station.val = false) :
    ∃ p, s.takePeerMessage n (.roll counter 3 item) = (s.setPeer n p).rejoin := by
  have judged : ∀ u : State, u.takeItem n 3 item =
      if (u.setPeer n ((u.peer n).mapped item)).disowned n item then (u.setPeer n ((u.peer n).mapped item)).rejoin
      else u.setPeer n ((u.peer n).mapped item) := fun u => rfl
  refine ⟨(s.rollHeard n counter).mapped item, ?_⟩
  rw [State.takePeerMessage_roll present, judged, State.peer_setPeer, State.setPeer_setPeer, if_pos]
  unfold State.disowned
  rw [State.peer_setPeer]
  simp only [Bool.and_eq_true, decide_eq_true_eq, Bool.not_eq_true', Option.any_eq_true]
  exact ⟨⟨⟨⟨run, present⟩, joined⟩, sent, hs, late⟩, hi⟩

/-- Settles O24. -/
theorem isolationAndDisowningRejoin : Obligations.IsolationAndDisowningRejoin := by
  intro s hrun
  have run := State.running_of_mem hrun
  refine ⟨fun deadline hd past => ?_, fun n counter item sent hp other present joined hs late hi => ?_⟩
  · have e : exec .isolationTimerExpiry s = .next s.rejoin := by
      simp only [exec_isolationTimerExpiry, execIsolationTimerExpiry, hd, State.advanceTo_reached _ _ past]
    refine ⟨s.rejoin, e, State.rejoin_rejoinedAs run, State.rejoin_port run, ?_⟩
    rw [State.rejoin_phase run]
    cases s.link.phase <;> rfl
  · have e := exec_spoilWindowEnd_heard hp
    rw [if_neg other] at e
    obtain ⟨p, hr⟩ := State.takePeerMessage_disowned (s := (s.setPhase .waiting).raise .taken) (counter := counter) run
      present joined hs late hi
    rw [hr] at e
    exact ⟨_, e, State.rejoin_rejoinedAs (s := ((s.setPhase .waiting).raise .taken).setPeer n p) run,
      State.rejoin_port run, State.rejoin_phase run⟩

end Sys2Proof.Machine
end

section
/-! PROOF of O25: an uncorrectable error, and a halt held during LOADING. -/

namespace Sys2Proof.Machine

variable {s t : State}

/-! ## A halt (R27, R28) -/

/-- The halt of a station, each block written out. -/
theorem State.halt_eq (s : State) :
    s.halt =
      { s.blocksCleared with
        station := { s.station with state := .halted, barredReason := none, resumePending := false }
        link := { s.link.emptied with phase := s.link.phase.abandon.stopped }
        roll := { s.blocksCleared.roll with rollTimer := none, isolationTimer := none }
        receiver := { framing := .hunting, holding := [] }
        imager := s.disposed .halt
        port := s.port.latched .halted } := by
  rw [State.halt, State.clearForHalt, State.clearBlocks_eq]
  rfl

/-- The receive state after a halt, by the opening that it stops (R18). -/
theorem LinkPhase.abandon_stopped (ph : LinkPhase) :
    ph.abandon.stopped = match ph with
      | .body (.sender _) _ | .body .abandoned _ | .spoil (.sender _) _ _ | .spoil .abandoned _ _ | .owed => .owed
      | .passive | .synchronising | .waiting | .round _ _ | .body .receiver _ | .spoil .receiver _ _ => .passive := by
  cases ph with
  | body role key => cases role <;> rfl
  | spoil role hold heard => cases role <;> rfl
  | _ => rfl

/-! ## An uncorrectable error (R42) -/

/-- The station that an uncorrectable error has struck: counted, and a halt held with the first region. -/
def State.struck (s : State) (r : Region) : State :=
  { s with
    port := s.port.counted .uncorrected
    station := { s.station with haltRegion := some (s.station.haltRegion.getD r) } }

theorem State.uncorrectable_eq (s : State) (r : Region) :
    s.uncorrectable r = match s.station.state with
      | .joining | .active | .draining | .detached | .barred => (s.struck r).halt
      | .loading | .halted => s.struck r := by
  unfold State.uncorrectable State.struck
  rw [← Option.or_some]
  rfl

theorem State.uncorrectable_kept (h : s.station.state = .loading ∨ s.station.state = .halted) (r : Region) :
    s.uncorrectable r = s.struck r := by
  rcases h with h | h <;> rw [State.uncorrectable_eq, h]

theorem State.uncorrectable_halts (h : s.station.state ∈ [.joining, .active, .draining, .detached, .barred])
    (r : Region) : s.uncorrectable r = (s.struck r).halt := by
  simp only [List.mem_cons, List.not_mem_nil, or_false] at h
  rcases h with h | h | h | h | h <;> rw [State.uncorrectable_eq, h]

/-! ## A halt held during LOADING (R19, R28) -/

theorem BitVec.or_and_right_self {w : Nat} (a b : BitVec w) : (a ||| b) &&& b = b := by
  ext i
  simp only [BitVec.getElem_and, BitVec.getElem_or]
  cases b[i] <;> simp

theorem BitVec.or_and_of_and {w : Nat} {a b : BitVec w} (h : a &&& b = b) (c : BitVec w) : (a ||| c) &&& b = b := by
  ext i hi
  have bit : (a[i] && b[i]) = b[i] := by rw [← BitVec.getElem_and, h]
  simp only [BitVec.getElem_and, BitVec.getElem_or]
  revert bit
  cases a[i] <;> cases b[i] <;> simp

/-- Loading that ends with a halt held ends in HALTED, whatever the checks gave. -/
theorem State.leaveLoading_held {r : Region} (h : s.station.haltRegion = some r) (result : Option BarredReason) :
    let t := s.leaveLoading result
    t.station.state = .halted ∧ t.station.haltRegion = some r ∧ t.port.latch &&& 0x4000#16 = 0x4000#16 ∧
      (t.link.phase = .passive ∨ t.link.phase = .owed) ∧ t.loader.reason = s.loader.reason := by
  let u := s.setLoader { s.loader with phase := .ended }
  have held : s.leaveLoading result = u.halt.judgeMediaOut := by
    unfold State.leaveLoading
    dsimp only
    rw [if_pos (by simp [State.setLoader, h])]
  have idle := LinkPhase.stopped_idle u.link.phase.abandon
  have latched : (u.port.latched .halted).latch &&& 0x4000#16 = 0x4000#16 :=
    BitVec.or_and_right_self s.port.latch 0x4000#16
  rw [held, State.judgeMediaOut, State.halt_eq]
  split
  · exact ⟨rfl, h, BitVec.or_and_of_and latched _, idle, rfl⟩
  · exact ⟨rfl, h, latched, idle, rfl⟩

theorem execLoadingEnded_of_loading (h : s.station.state = .loading) (hp : s.loader.phase = .loadingBlocks)
    (corrected : Nat) :
    execLoadingEnded corrected s = .next ((s.countCorrected corrected).loadBlocks.leaveLoading none) := by
  unfold execLoadingEnded
  exact congrArg _ (if_pos ⟨h, hp⟩)

theorem execConfigurationReadDone_of_failure (h : s.station.state = .loading) (hp : s.loader.phase = .reading)
    {record : List Byte} {x : BarredReason × Option Nat} (hx : recordFailure record = some x) :
    ∃ l : Loader, l.reason = some x.1 ∧
      execConfigurationReadDone record s = .next ((s.setLoader l).leaveLoading (some x.1)) := by
  refine ⟨{ s.loader with
    validity := .invalid, reason := some x.1, failing := x.2, image := imageOf record, digest := none }, rfl, ?_⟩
  rw [execConfigurationReadDone, if_pos ⟨h, hp⟩, hx]
  rfl

/-- Settles O25. -/
theorem uncorrectableErrorHalts : Obligations.UncorrectableErrorHalts := by
  refine ⟨fun s r => ⟨fun h => ?_, fun h => ?_⟩, fun s r hs hr => ⟨fun hp corrected => ?_, fun hp record x hx => ?_⟩⟩
  · rw [exec_uncorrectableError, execUncorrectableError, State.uncorrectable_kept h]
    rfl
  · refine ⟨(s.struck r).halt, ?_, ?_⟩
    · rw [exec_uncorrectableError, execUncorrectableError, State.uncorrectable_halts h]
    · rw [State.halt_eq]
      exact ⟨rfl, rfl, Vector.replicate_job, rfl, Vector.replicate_peer, Link.emptied_at s.link, rfl,
        LinkPhase.abandon_stopped _, rfl, rfl, rfl, rfl, rfl, rfl, Screener.cleared_eq, Ring.cleared_emptied, rfl, rfl,
        rfl, rfl⟩
  · refine ⟨_, (exec_loadingEnded _ _).trans (execLoadingEnded_of_loading hs hp corrected), ?_⟩
    obtain ⟨halted, region, latch, idle, -⟩ :=
      State.leaveLoading_held (s := (s.countCorrected corrected).loadBlocks) hr none
    exact ⟨halted, region, latch, idle⟩
  · obtain ⟨l, reason, e⟩ := execConfigurationReadDone_of_failure hs hp hx
    obtain ⟨halted, region, latch, -, kept⟩ := State.leaveLoading_held (s := s.setLoader l) hr (some x.1)
    exact ⟨_, (exec_configurationReadDone _ _).trans e, halted, region, latch, kept.trans reason⟩

end Sys2Proof.Machine
end

section
/-! PROOF of O23: the roll timer, the join period, and the clock that an expiry moves on. -/

namespace Sys2Proof.Machine

variable {s t : State} {deadline : Nat}

/-! ## The expiry of each timer (R21, R29, R35, R40, R50, R102, R155, R160)

Each expiry first moves the clock on to the deadline and is then an effect of the state it finds there. -/

/-- The effect of the roll timer's expiry (R29). -/
def State.rollsOn (s : State) (deadline : Nat) : State :=
  s.queueRoll.setRoll { s.queueRoll.roll with rollTimer := some (deadline + s.queueRoll.settings.rollPeriod) }

theorem exec_rollTimerExpiry_at (h : s.roll.rollTimer = some deadline) :
    exec .rollTimerExpiry s = .next ((s.advanceTo deadline).rollsOn deadline) := by
  rw [exec_rollTimerExpiry, execRollTimerExpiry, h]
  rfl

theorem exec_joinPeriodExpiry_at (h : s.roll.joinPeriod = some deadline) (hs : s.station.state = .joining) :
    exec .joinPeriodExpiry s = .next
      (((s.advanceTo deadline).setRoll { (s.advanceTo deadline).roll with joinPeriod := none }).enter .active) := by
  rw [exec_joinPeriodExpiry, execJoinPeriodExpiry, h]
  exact congrArg Host.Outcome.next (if_pos hs)

theorem exec_isolationTimerExpiry_at (h : s.roll.isolationTimer = some deadline) :
    exec .isolationTimerExpiry s = .next (s.advanceTo deadline).rejoin := by
  rw [exec_isolationTimerExpiry, execIsolationTimerExpiry, h]

theorem exec_silenceTimerExpiry_at {n : Station} (h : (s.peer n).silence = some deadline) :
    exec (.silenceTimerExpiry n) s = .next ((s.advanceTo deadline).loseContact n) := by
  rw [exec_silenceTimerExpiry, execSilenceTimerExpiry, h]

theorem exec_quietTimerExpiry_at {n : Slot} {j : Job} (hj : s.job n = some j) (h : j.quiet = some deadline) :
    exec (.quietTimerExpiry n) s = .next (((s.advanceTo deadline).admitEnd n j .quiet).raise .quietEnds) := by
  simp only [exec_quietTimerExpiry, execQuietTimerExpiry, hj, h]

/-- The effect of a claim window's expiry (R50). -/
def State.becomesUntaken (s : State) (i : Nat) (e : BoardEntry) : State :=
  ((s.setBoard { s.board.write i { e with state := .untaken } with full := false }).latch .untaken).noticeUntaken
    e.key e.version

theorem exec_claimWindowExpiry_at {i : Nat} {e : BoardEntry} (hr : s.running = true)
    (he : s.board.entries[i]? = some e) (h : e.state = .contested deadline) :
    exec (.claimWindowExpiry i) s = .next ((s.advanceTo deadline).becomesUntaken i e) := by
  rw [exec_claimWindowExpiry, execClaimWindowExpiry, if_pos hr, State.windowExpires, he]
  simp only [h]
  rfl

theorem exec_loadTimeout_at (h : s.imager.loadTimer = some deadline) (hs : s.imager.state = .loading) :
    exec .loadTimeout s = .next (((s.advanceTo deadline).recordFault .loadTimeout).endHold true) := by
  rw [exec_loadTimeout, execLoadTimeout, h]
  exact congrArg Host.Outcome.next (if_pos hs)

theorem exec_ejectTimeout_at (h : s.imager.ejectTimer = some deadline) (hs : s.imager.state = .ejecting) :
    exec .ejectTimeout s = .next (((s.advanceTo deadline).recordFault .ejectTimeout).endHold true) := by
  rw [exec_ejectTimeout, execEjectTimeout, h]
  exact congrArg Host.Outcome.next (if_pos hs)

/-! ## A deadline that lies ahead (log 2) -/

/-- The drum watch after the clocks to a deadline, as the statement says it. -/
def DrumWatch.passed (d : DrumWatch) (prescaler n : Nat) : DrumWatch :=
  if d.running then { d with
    counter := d.counter - (d.clocks + n) / prescaler, clocks := (d.clocks + n) % prescaler }
  else d

theorem DrumWatch.count_eq_passed (d : DrumWatch) (prescaler n : Nat) : d.count prescaler n = d.passed prescaler n := by
  unfold DrumWatch.count DrumWatch.passed
  cases h : d.running
  · cases d
    simp_all
  · simp

/-- The state at a deadline that lies ahead. -/
def State.atDeadline (s : State) (deadline : Nat) : State :=
  { s with
    clock := deadline * 100000
    imager := { s.imager with
      drum := s.imager.drum.passed s.settings.prescaler (deadline * 100000 - s.clock) } }

theorem State.advanceTo_ahead (h : s.now < deadline) : s.advanceTo deadline = s.atDeadline deadline := by
  have ahead : s.clock < deadline * Config.clocksPerMs := (Nat.div_lt_iff_lt_mul (by decide)).mp h
  have reach : s.clock + (deadline * Config.clocksPerMs - s.clock) = deadline * Config.clocksPerMs := by omega
  rw [State.advanceTo, if_pos ahead, State.elapse, reach, DrumWatch.count_eq_passed]
  rfl

theorem State.atDeadline_now (s : State) (deadline : Nat) : (s.atDeadline deadline).now = deadline :=
  Nat.mul_div_cancel _ (by decide)

theorem State.atDeadline_advanceTo (s : State) (deadline : Nat) :
    (s.atDeadline deadline).advanceTo deadline = s.atDeadline deadline :=
  State.advanceTo_reached _ _ (Nat.le_of_eq (State.atDeadline_now s deadline).symm)

/-- An expiry whose effect is that of the state at its deadline is the expiry there. -/
theorem exec_atDeadline {c : Instr} {effect : State → State} (ahead : s.now < deadline)
    (here : exec c s = .next (effect (s.advanceTo deadline)))
    (there : exec c (s.atDeadline deadline) = .next (effect ((s.atDeadline deadline).advanceTo deadline))) :
    exec c s = exec c (s.atDeadline deadline) := by
  rw [here, there, State.advanceTo_ahead ahead, State.atDeadline_advanceTo]

/-! ## The obligation -/

/-- A ROLL sent whose replacement takes its place (R13). -/
theorem Link.sent_replaced {l : Link} {p : Place} {q : Queued} {m : Msg} (hq : l.at p = some q)
    (hr : q.replacement = some m) : l.sent p = (l.setPlace p none).put p m := by
  simp [Link.sent, hq, hr]

/-- Settles O23. -/
theorem rollTimerAndJoinPeriod : Obligations.RollTimerAndJoinPeriod := by
  refine ⟨fun s deadline past => ?_, fun s q m heard counter slot item hp hq hm hr => ?_,
    fun s c deadline ahead expires => ?_⟩
  · have reached := State.advanceTo_reached s deadline past
    refine ⟨fun ht idle => ?_, fun q ht hq busy => ?_, fun hj hs => ?_⟩
    · refine ⟨_, Link.puts_put s.link .roll _, ?_⟩
      rw [exec_rollTimerExpiry_at ht, reached, ← Link.request_of_notInProgress _ .roll _ idle]
      rfl
    · have request : ∀ m, s.link.request .roll m = { s.link with roll := some { q with replacement := some m } } :=
        fun m => by
          simp only [Link.request, Link.at, hq, busy]
          rfl
      rw [exec_rollTimerExpiry_at ht, reached, ← request]
      rfl
    · rw [exec_joinPeriodExpiry_at hj hs, reached]
      rfl
  · refine ⟨_, exec_spoilWindowEnd_sent (p := .roll) hp hq, ?_⟩
    rw [hm, Link.sent_replaced (p := .roll) hq hr, ← Link.put_withPhase]
    exact ⟨rfl, Link.puts_put _ _ _⟩
  · refine ⟨State.atDeadline_now s deadline, ?_⟩
    change exec c s = exec c (s.atDeadline deadline)
    rcases expires with ⟨rfl, h⟩ | ⟨rfl, h, hs⟩ | ⟨rfl, h⟩ | ⟨n, rfl, h⟩ | ⟨n, j, rfl, hj, h⟩ | ⟨i, e, rfl, hr, he, h⟩ |
      ⟨rfl, h, hs⟩ | ⟨rfl, h, hs⟩
    · exact exec_atDeadline (effect := fun u => u.rollsOn deadline) ahead (exec_rollTimerExpiry_at h)
        (exec_rollTimerExpiry_at (s := s.atDeadline deadline) h)
    · exact exec_atDeadline (effect := fun u => (u.setRoll { u.roll with joinPeriod := none }).enter .active) ahead
        (exec_joinPeriodExpiry_at h hs) (exec_joinPeriodExpiry_at (s := s.atDeadline deadline) h hs)
    · exact exec_atDeadline (effect := State.rejoin) ahead (exec_isolationTimerExpiry_at h)
        (exec_isolationTimerExpiry_at (s := s.atDeadline deadline) h)
    · exact exec_atDeadline (effect := fun u => u.loseContact n) ahead (exec_silenceTimerExpiry_at h)
        (exec_silenceTimerExpiry_at (s := s.atDeadline deadline) h)
    · exact exec_atDeadline (effect := fun u => (u.admitEnd n j .quiet).raise .quietEnds) ahead
        (exec_quietTimerExpiry_at hj h) (exec_quietTimerExpiry_at (s := s.atDeadline deadline) hj h)
    · exact exec_atDeadline (effect := fun u => u.becomesUntaken i e) ahead (exec_claimWindowExpiry_at hr he h)
        (exec_claimWindowExpiry_at (s := s.atDeadline deadline) hr he h)
    · exact exec_atDeadline (effect := fun u => (u.recordFault .loadTimeout).endHold true) ahead
        (exec_loadTimeout_at h hs) (exec_loadTimeout_at (s := s.atDeadline deadline) h hs)
    · exact exec_atDeadline (effect := fun u => (u.recordFault .ejectTimeout).endHold true) ahead
        (exec_ejectTimeout_at h hs) (exec_ejectTimeout_at (s := s.atDeadline deadline) h hs)

end Sys2Proof.Machine
end

section
/-! PROOF of O28: a claim window expires, and the CONTENDING job of its version loses its claim. -/

namespace Sys2Proof.Machine

variable {s : State} {n : Slot} {j : Job} {e : BoardEntry} {i : Nat}

/-- The board whose entry the expiry of its claim window made UNTAKEN (R50, R57). -/
def Board.untaken (b : Board) (i : Nat) (e : BoardEntry) : Board :=
  { entries := b.withStamp.entries.set i { e with state := .untaken, stamp := b.withStamp.stamp }, full := false,
    stamp := b.withStamp.stamp + 1 }

/-- The state in which Job Control hears of an entry that became UNTAKEN. -/
def State.untakenLatched (s : State) (i : Nat) (e : BoardEntry) : State :=
  { s with board := s.board.untaken i e, port := s.port.latched .untaken }

theorem State.becomesUntaken_eq (s : State) (i : Nat) (e : BoardEntry) :
    s.becomesUntaken i e = (s.untakenLatched i e).noticeUntaken e.key e.version := rfl

/-! ## What Job Control does with the notice (R74) -/

theorem State.noticeUntaken_none {key : PlateKey} {version : Nat} (h : s.jobFor key version = none) :
    s.noticeUntaken key version = s := by
  simp only [State.noticeUntaken, h]

/-- A CONTENDING job whose CLAIM is queued loses it. -/
theorem State.noticeUntaken_queued {key : PlateKey} {version : Nat} (h : s.jobFor key version = some n)
    (hj : s.job n = some j) (hc : j.standing = .contending) (hq : j.claimInProgress = false) :
    s.noticeUntaken key version = s.loseClaim n := by
  simp only [State.noticeUntaken, h, hj, hc, hq, if_true, Bool.false_eq_true, if_false]

/-- A CONTENDING job whose CLAIM is in progress is asked to withdraw it. -/
theorem State.noticeUntaken_inProgress {key : PlateKey} {version : Nat} (h : s.jobFor key version = some n)
    (hj : s.job n = some j) (hc : j.standing = .contending) (hp : j.claimInProgress = true) :
    s.noticeUntaken key version =
      (s.withdrawClaim n).setJob n (some { j with withdrawal := some (j.withdrawal.getD .window) }) := by
  have live : (s.withdrawClaim n).job n = some j := hj
  simp only [State.noticeUntaken, h, hj, hc, hp, if_true, State.modifyJob, live, Option.map_some, Option.or_some]

/-- Settles O28. -/
theorem claimWindowExpires : Obligations.ClaimWindowExpires := by
  intro s i deadline e hr he hs past
  have expiry : exec (.claimWindowExpiry i) s = .next ((s.untakenLatched i e).noticeUntaken e.key e.version) := by
    rw [exec_claimWindowExpiry_at hr he hs, State.advanceTo_reached _ _ past, State.becomesUntaken_eq]
  refine ⟨s.board.withStamp, s.board.readiedAs_withStamp, fun hj => ?_, fun n j hn hj hc hq hp => ?_,
    fun n j q hn hj hc hq hp busy => ?_⟩
  · rw [expiry, State.noticeUntaken_none (s := s.untakenLatched i e) ((State.jobFor_congr rfl _ _).trans hj)]
    rfl
  · have live : (s.untakenLatched i e).jobFor e.key e.version = some n := (State.jobFor_congr rfl _ _).trans hn
    rw [State.noticeUntaken_queued live hj hc hq] at expiry
    obtain ⟨freed, beside, leave⟩ := State.loseClaim_ends (s := s.untakenLatched i e) (n := n) hj
    rw [Link.withdraw_queued (s.untakenLatched i e).link n hp] at leave
    have follows := leave.congr (r := s) (fun _ _ => rfl) rfl rfl rfl
    obtain ⟨jobs, generations, _, _, _, _, _, _, board, _, _, port, frame, _⟩ := beside
    exact ⟨_, expiry, board, port, freed.ofSame rfl rfl rfl rfl rfl rfl, follows.slots_none (by simp), jobs, generations,
      frame, follows⟩
  · have live : (s.untakenLatched i e).jobFor e.key e.version = some n := (State.jobFor_congr rfl _ _).trans hn
    rw [expiry, State.noticeUntaken_inProgress live hj hc hq, State.withdrawClaim,
      Link.withdraw_inProgress (s.untakenLatched i e).link n hp busy]
    rfl

end Sys2Proof.Machine
end

section
/-! PROOF of O43: the finish of the Screener's current band, by what its slot holds. -/

namespace Sys2Proof.Machine

variable {s t : State} {n : Slot} {j : Job} {c : CurrentBand} {corrected : Nat}

/-! ## The finish by what the slot holds (R130) -/

/-- The Screener idle, and the band buffer of its band returned. -/
def State.leaveBand (s : State) (c : CurrentBand) : State :=
  (s.setScreener { s.screener with current := none }).returnBuffer c.buffer

/-- The pool with a band buffer, if there is one, back in it (R106). -/
def Unpacker.poolWith (u : Unpacker) (b : Option Nat) : List Nat := (b.map (insertSorted u.pool)).getD u.pool

theorem Unpacker.mem_poolWith (u : Unpacker) (b : Option Nat) (x : Nat) :
    x ∈ u.poolWith b ↔ b = some x ∨ x ∈ u.pool := by
  unfold Unpacker.poolWith
  cases b with
  | none => simp
  | some y => simp [eq_comm]

theorem State.leaveBand_eq (s : State) (c : CurrentBand) :
    s.leaveBand c =
      { s with
        screener := { s.screener with current := none }
        unpacker := { s.unpacker with pool := s.unpacker.poolWith c.buffer } } := rfl

/-- The slot's job has the band in SCREENING: it is recorded. -/
theorem State.finishBand_recorded (hj : s.job c.slot = some j) (hg : j.generation = c.generation)
    (hst : j.stage = .receiving ∨ j.stage = .closing) (hb : (j.band c.band).state = .screening) :
    s.finishBand c = (s.leaveBand c).recordScreened c := by
  have live : (s.leaveBand c).job c.slot = some j := hj
  unfold State.finishBand
  rw [← State.leaveBand]
  dsimp only
  rw [live]
  dsimp only
  rw [if_pos hg]
  rcases hst with hst | hst <;> rw [hst] <;> exact if_pos hb

/-- The slot's job has not the band in SCREENING, or is another job: the screened buffer returns. -/
theorem State.finishBand_discarded
    (h : ∀ j, s.job c.slot = some j → j.generation ≠ c.generation ∨
      ((j.stage = .receiving ∨ j.stage = .closing) ∧ (j.band c.band).state ≠ .screening)) :
    s.finishBand c = (s.leaveBand c).returnScreened c.screened := by
  unfold State.finishBand
  have same : (s.leaveBand c).job c.slot = s.job c.slot := rfl
  rw [← State.leaveBand]
  dsimp only
  rw [same]
  cases hj : s.job c.slot with
  | none => rfl
  | some j =>
    dsimp only
    by_cases hg : j.generation = c.generation
    · obtain ⟨hst, hb⟩ := (h j hj).resolve_left (not_not.mpr hg)
      rw [if_pos hg]
      rcases hst with hst | hst <;> rw [hst] <;> exact if_neg hb
    · exact if_neg hg

/-- The slot's job is in CANCELLING: its cancellation is complete. -/
theorem State.finishBand_cancelled {r : CancelReason} (hj : s.job c.slot = some j) (hg : j.generation = c.generation)
    (hst : j.stage = .cancelling r) :
    s.finishBand c = ((s.leaveBand c).returnScreened c.screened).endJob c.slot r.outcome := by
  have live : (s.leaveBand c).job c.slot = some j := hj
  unfold State.finishBand
  rw [← State.leaveBand]
  dsimp only
  rw [live]
  dsimp only
  rw [if_pos hg, hst]

/-! ## A band recorded (R137, R77) -/

theorem State.modifyJob_of (hj : s.job n = some j) (f : Job → Job) : s.modifyJob n f = s.setJob n (some (f j)) := by
  rw [State.modifyJob, hj]
  rfl

/-- A job that receives, or that is in CLOSING with no assessment due, is not assessed. -/
theorem State.recordScreened_waits (hj : s.job c.slot = some j)
    (hst : j.stage = .receiving ∨
      (j.stage = .closing ∧ (j.standing = .contending ∨ j.screenedCount + 1 ≠ j.bands.length))) :
    s.recordScreened c = s.setJob c.slot (some { j with
      bands := j.bands.modify c.band fun e => { e with state := .screened c.screened }
      screenedCount := j.screenedCount + 1 }) := by
  rw [State.recordScreened, State.modifyJob_of hj, State.assessIfComplete, State.job_setJob_same, if_neg]
  · rfl
  · simp only [Option.any_some, Job.assessable, Job.modifyBand, Job.bandCount, List.length_modify, decide_eq_true_eq]
    rintro ⟨closing, owned, full⟩
    rcases hst with hst | ⟨-, hst | hst⟩
    · simp [hst] at closing
    · simp [hst] at owned
    · exact hst full

/-! ## The obligation -/

/-- `s` with the lines of a band written and the correctable errors counted (R41, R130). -/
def State.linesWritten (s : State) (corrected : Nat) (screened : Mem) : State :=
  { s with port := s.port.countedBy .corrected corrected, frame := { s.frame with screened := screened } }

theorem exec_bandFinished_current (hc : s.screener.current = some c) (corrected : Nat) :
    ∃ screened, exec (.bandFinished corrected) s = .next ((s.linesWritten corrected screened).finishBand c) := by
  have current : (s.countCorrected corrected).screener.current = some c := hc
  refine ⟨((s.countCorrected corrected).writeScreened c).frame.screened, ?_⟩
  rw [exec_bandFinished, execBandFinished, current]
  rfl

/-- The end of a job is as it was for a state with the same job table, data path, station and queue. -/
theorem State.endsWithDone.ofSame {r : State} {o : DoneOutcome} (h : s.endsWithDone t n j o) (hj : r.jobs = s.jobs)
    (h1 : r.ring = s.ring) (h2 : r.unpacker = s.unpacker) (h3 : r.receiver = s.receiver) (h4 : r.damage = s.damage)
    (h5 : r.screener = s.screener) (hs : r.station = s.station) (hl : r.link = s.link) : r.endsWithDone t n j o := by
  obtain ⟨freed, l, puts, follows⟩ := h
  have job : ∀ m, r.job m = s.job m := fun m => by rw [State.job, State.job, hj]
  exact ⟨freed.ofSame (job n) h1 h2 (by rw [h3]) h4 h5, l, hl ▸ puts, follows.congr (fun m _ => job m) hs rfl rfl⟩

/-- Settles O43. -/
theorem bandFinishedByItsJob : Obligations.BandFinishedByItsJob := by
  intro s corrected c hc
  obtain ⟨screened, finish⟩ := exec_bandFinished_current hc corrected
  have pool := s.unpacker.mem_poolWith c.buffer
  refine ⟨fun j hj hg hb hst => ?_, fun h => ?_, fun j r hj hg hst => ?_⟩
  · rw [State.finishBand_recorded (s := s.linesWritten corrected screened) hj hg (hst.imp_right And.left) hb,
      State.recordScreened_waits (s := (s.linesWritten corrected screened).leaveBand c) hj hst,
      State.leaveBand_eq] at finish
    exact ⟨_, finish, rfl, rfl, rfl, pool, rfl, rfl, rfl⟩
  · rw [State.finishBand_discarded (s := s.linesWritten corrected screened) h, State.leaveBand_eq] at finish
    exact ⟨_, finish, rfl, rfl, fun x => mem_insertSorted, pool, rfl⟩
  · rw [State.finishBand_cancelled (s := s.linesWritten corrected screened) hj hg hst] at finish
    obtain ⟨ends, beside⟩ := State.endJob_endsWithDone (n := c.slot)
      (s := ((s.linesWritten corrected screened).leaveBand c).returnScreened c.screened) hj r.outcome
    have done := ends.ofSame (r := { s with
      unpacker := { s.unpacker with pool := s.unpacker.poolWith c.buffer }
      screener := { current := none, store := insertSorted s.screener.store c.screened } })
      rfl rfl rfl rfl rfl rfl rfl rfl
    refine ⟨_, _, _, finish, pool, fun x => mem_insertSorted, ?_, beside.1⟩
    cases r <;> exact done

end Sys2Proof.Machine
end

section
/-! The coding of bytes, keys and the fields of a body: each decoder inverts its encoder, and gives nothing else. -/

namespace Sys2Proof.Machine

/-! ## Bytes -/

theorem byteOf_of_toNat {n : Nat} {b : Byte} (h : b.toNat = n) : b = byteOf n :=
  BitVec.eq_of_toNat_eq (by rw [byteOf_toNat _ (h ▸ b.isLt), h])

theorem byte_eq_byteOf_iff {b : Byte} {n : Nat} (h : n < 256) : b = byteOf n ↔ b.toNat = n :=
  ⟨fun e => by rw [e, byteOf_toNat n h], byteOf_of_toNat⟩

/-- A word's two bytes make the word. -/
theorem half_bytes (h : Half) : half (byteOf (h.toNat / 256)) (byteOf h.toNat) = h := by
  have lt := h.isLt
  apply BitVec.eq_of_toNat_eq
  simp only [half, nat16, byteOf, BitVec.toNat_ofNat]
  omega

/-- Two bytes are those of the word that they make. -/
theorem bytes16_half (hi lo : Byte) : bytes16 (half hi lo).toNat = [hi, lo] := by
  have h1 := hi.isLt
  have h2 := lo.isLt
  have value : (half hi lo).toNat = hi.toNat * 256 + lo.toNat := by
    simp only [half, nat16, BitVec.toNat_ofNat]
    omega
  have high : byteOf ((half hi lo).toNat / 256) = hi := (byteOf_of_toNat (by rw [value]; omega)).symm
  have low : byteOf (half hi lo).toNat = lo := by
    apply BitVec.eq_of_toNat_eq
    simp only [byteOf, BitVec.toNat_ofNat, value]
    omega
  rw [bytes16, high, low]

/-! ## Codes (R182) -/

theorem Sep.code_le (s : Sep) : s.code ≤ 3 := by cases s <;> decide

theorem Sep.ofCode_eq_some {n : Nat} {s : Sep} : Sep.ofCode n = some s ↔ n = s.code := by
  constructor
  · intro h
    unfold Sep.ofCode at h
    split at h <;> cases h <;> rfl
  · rintro rfl
    cases s <;> rfl

theorem Sep.ofCode_eq_none {n : Nat} : Sep.ofCode n = none ↔ 3 < n := by
  match n with
  | 0 | 1 | 2 | 3 => simp [Sep.ofCode]
  | n + 4 => simp [Sep.ofCode]

theorem DamageKind.ofCode_eq_some {n : Nat} {k : DamageKind} : DamageKind.ofCode n = some k ↔ n = k.code := by
  constructor
  · intro h
    unfold DamageKind.ofCode at h
    split at h <;> cases h <;> rfl
  · rintro rfl
    cases k <;> rfl

theorem DamageKind.ofCode_eq_none {n : Nat} : DamageKind.ofCode n = none ↔ n ∉ [1, 2, 3, 4, 5] := by
  match n with
  | 0 | 1 | 2 | 3 | 4 | 5 => simp [DamageKind.ofCode]
  | n + 6 => simp [DamageKind.ofCode]

theorem DoneOutcome.ofCode_eq_some {n : Nat} {o : DoneOutcome} : DoneOutcome.ofCode n = some o ↔ n = o.code := by
  constructor
  · intro h
    unfold DoneOutcome.ofCode at h
    split at h <;> cases h <;> rfl
  · rintro rfl
    cases o <;> rfl

theorem DoneOutcome.ofCode_eq_none {n : Nat} : DoneOutcome.ofCode n = none ↔ n ∉ [1, 2, 3, 4, 5] := by
  match n with
  | 0 | 1 | 2 | 3 | 4 | 5 => simp [DoneOutcome.ofCode]
  | n + 6 => simp [DoneOutcome.ofCode]

theorem DamageKind.code_pos (k : DamageKind) : 1 ≤ k.code ∧ k.code ≤ 5 := by cases k <;> decide

theorem DoneOutcome.code_pos (o : DoneOutcome) : 1 ≤ o.code ∧ o.code ≤ 5 := by cases o <;> decide

theorem kindCode_le (f : Option DamageKind) : kindCode f ≤ 5 := by
  cases f with
  | none => decide
  | some k => exact k.code_pos.2

/-- A first damage kind is taken where it is present exactly when a band is damaged (R7). -/
theorem firstKindOf_eq_some {damaged code : Nat} {f : Option DamageKind} :
    firstKindOf damaged code = some f ↔ (f.isSome = true ↔ 1 ≤ damaged) ∧ code = kindCode f := by
  unfold firstKindOf
  rcases Nat.eq_zero_or_pos damaged with rfl | pos
  · cases f with
    | none => simp [kindCode]
    | some k => simp
  · have some_band : 1 ≤ damaged := pos
    rw [if_neg (by omega)]
    cases f with
    | none => simp [some_band]
    | some k => simp [DamageKind.ofCode_eq_some, kindCode, some_band]

theorem firstKindOf_eq_none {damaged code : Nat} :
    firstKindOf damaged code = none ↔ (damaged = 0 ∧ code ≠ 0) ∨ (1 ≤ damaged ∧ code ∉ [1, 2, 3, 4, 5]) := by
  unfold firstKindOf
  rcases Nat.eq_zero_or_pos damaged with rfl | pos
  · simp
  · have some_band : 1 ≤ damaged := pos
    have not_zero : damaged ≠ 0 := by omega
    rw [if_neg not_zero, Option.map_eq_none_iff, DamageKind.ofCode_eq_none]
    simp only [not_zero, some_band, false_and, true_and, false_or]

/-! ## Plate keys (R182) -/

/-- Three bytes decode to a key exactly where it lies in its range and they are its bytes. -/
theorem decodeKey_eq_some {b0 b1 b2 : Byte} {k : PlateKey} :
    decodeKey b0 b1 b2 = some k ↔ k.inRange ∧ [b0, b1, b2] = k.encode := by
  have h0 := b0.isLt
  have h2 := b2.isLt
  have code := k.sep.code_le
  simp only [decodeKey, Option.bind_eq_some_iff, Sep.ofCode_eq_some, Option.ite_none_right_eq_some, Option.some.injEq,
    PlateKey.encode, PlateKey.inRange, List.cons.injEq, and_true]
  constructor
  · rintro ⟨sep, hs, hr, rfl⟩
    dsimp only at *
    exact ⟨by omega, byteOf_of_toNat (by omega), byteOf_of_toNat rfl, byteOf_of_toNat rfl⟩
  · rintro ⟨hr, e0, e1, e2⟩
    rw [byte_eq_byteOf_iff (by omega)] at e0 e1 e2
    refine ⟨k.sep, by omega, by omega, ?_⟩
    have title : b0.toNat / 16 = k.title := by omega
    rw [title, e1, e2]

theorem decodeKey_eq_none {b0 b1 b2 : Byte} :
    decodeKey b0 b1 b2 = none ↔ 3 < b0.toNat % 16 ∨ 63 < b1.toNat ∨ b2.toNat = 0 := by
  have judged : ∀ sep : Sep, (if b1.toNat ≤ 63 ∧ 1 ≤ b2.toNat then
      some ({ title := b0.toNat / 16, edition := b1.toNat, page := b2.toNat, sep := sep } : PlateKey) else none) = none ↔
      63 < b1.toNat ∨ b2.toNat = 0 := fun sep => by
    rw [ite_eq_right_iff]
    simp only [reduceCtorEq, imp_false]
    omega
  rw [← Sep.ofCode_eq_none, decodeKey]
  cases Sep.ofCode (b0.toNat % 16) with
  | none => simp
  | some sep => simp [judged]

end Sys2Proof.Machine
end

section
/-! PROOF of O26: a good PLATE HEADER for a key that the board does not hold. -/

namespace Sys2Proof.Machine

variable {s : State}

/-! ## The words of the statement -/

theorem Board.placeOf_eq_none {b : Board} {key : PlateKey} : b.placeOf key = none ↔ ∀ e ∈ b.entries, e.key ≠ key := by
  simp [Board.placeOf]

theorem Board.placeOf_eq_some {b : Board} {key : PlateKey} {i : Nat} (h : b.placeOf key = some i) :
    ∃ e, b.entries[i]? = some e ∧ e.key = key := by
  obtain ⟨lt, hk, -⟩ := List.findIdx?_eq_some_iff_getElem.mp h
  exact ⟨_, List.getElem?_eq_getElem lt, of_decide_eq_true hk⟩

theorem Board.entryFor_eq (b : Board) (key : PlateKey) :
    b.entryFor key = (b.placeOf key).bind fun i => b.entries[i]? := by
  unfold Board.entryFor Board.placeOf
  induction b.entries with
  | nil => rfl
  | cons e es ih =>
    by_cases h : e.key = key
    · simp [h, List.findIdx?_cons]
    · simp only [List.find?_cons, h, decide_false, ih, List.findIdx?_cons, Bool.false_eq_true, if_false,
        Option.bind_map]
      rfl

theorem State.freeSlots_eq (s : State) :
    s.freeSlots = (List.finRange 8).filter fun n => decide (s.job n = none ∧ s.link.slots[n] = none) := by
  unfold State.freeSlots allSlots
  refine List.filter_congr fun n _ => ?_
  rw [State.slotFree, Bool.eq_iff_iff]
  simp

/-! ## A PLATE HEADER with every field in its range (R90, R183) -/

theorem judgeHeader_plate {key : PlateKey} {version size screen rank : Nat}
    (h : (Header.plate key version size screen rank).inRange) :
    judgeHeader (Header.plate key version size screen rank).encode = some (.plate key version size screen rank) := by
  obtain ⟨hk, hv, hsize, hscreen, hrank⟩ := h
  have decoded : decodeKey (byteOf (key.title * 16 + key.sep.code)) (byteOf key.edition) (byteOf key.page) = some key :=
    decodeKey_eq_some.mpr ⟨hk, rfl⟩
  have version_byte := byteOf_toNat version (by omega)
  have class_byte := byteOf_toNat (size * 16 + screen) (by omega)
  have rank_byte := byteOf_toNat rank (by omega)
  have size_nibble : (size * 16 + screen) / 16 = size := by omega
  have screen_nibble : (size * 16 + screen) % 16 = screen := by omega
  rw [judgeHeader, Header.encode, checked_append, if_pos rfl]
  simp only [headerFields, PlateKey.encode, byteAt, List.cons_append, List.nil_append, List.getD_cons_zero,
    List.getD_cons_succ, if_true, decoded, Option.bind_some, version_byte, class_byte, rank_byte, size_nibble,
    screen_nibble]
  exact if_pos ⟨hsize, hscreen, hrank⟩

/-- The header fed after its start marker is handed to the board. -/
theorem exec_plateHeader_good {key : PlateKey} {version size screen rank : Nat}
    (h : (Header.plate key version size screen rank).inRange) (hr : s.running = true)
    (hf : s.receiver.framing = .header []) :
    exec (.plateHeader (Header.plate key version size screen rank).encode) s = .next
      ((s.setFraming .hunting).takeHeader key version size screen rank) := by
  rw [exec_plateHeader, execPlateHeader, State.feed, if_pos hr, feed_header s _ hf rfl, State.wholeHeader,
    judgeHeader_plate h]

/-- A key that the board does not hold, while a place is empty, is recorded CONTESTED (R43, R47). -/
theorem State.takeHeader_new {key : PlateKey} {version size screen rank : Nat} (hk : s.board.placeOf key = none)
    (hl : s.board.entries.length < 512) :
    s.takeHeader key version size screen rank =
      (s.setBoard (s.board.append (s.contestedEntry key version size rank))).noticeContested key version size screen
        rank := by
  have recorded : s.board.record (s.contestedEntry key version size rank) =
      some (s.board.append (s.contestedEntry key version size rank)) := if_pos hl
  simp only [State.takeHeader, hk, recorded]

/-- Settles O26. -/
theorem plateHeaderContests : Obligations.PlateHeaderContests := by
  refine ⟨fun b key => ⟨Board.placeOf_eq_none, fun i => Board.placeOf_eq_some, Board.entryFor_eq b key⟩,
    fun s => ⟨State.freeSlots_eq s, rfl⟩, fun s key version size screen rank h hr hf hk hl => ?_⟩
  have e := exec_plateHeader_good h hr hf
  rw [State.takeHeader_new (s := s.setFraming .hunting) hk hl] at e
  exact ⟨s.board.withStamp, _, s.board.readiedAs_withStamp, e, State.noticeContested_judges _ _ _ _ _ _⟩

end Sys2Proof.Machine
end

section
/-! PROOF of O15: a body decodes to the message that was sent, and nothing else decodes. -/

namespace Sys2Proof.Machine

variable {bs rest : List Byte} {m : Msg} {sender : Station} {b c x y z v k0 k1 k2 : Byte}

/-! ## The length of a body and its nibble check (R184, R188) -/

theorem bodyLength_eq_some {kind : Byte} {n : Nat} :
    bodyLength kind = some n ↔ (kind.toNat, n) ∈ [(0x11, 5), (0x12, 3), (0x13, 6), (0x14, 8), (0x15, 10)] := by
  unfold bodyLength
  simp only [← BitVec.toNat_inj, BitVec.toNat_ofNat, List.mem_cons, List.not_mem_nil, or_false, Prod.mk.injEq]
  norm_num
  split_ifs <;> simp_all [eq_comm]

theorem checked_iff : checked bs = true ↔ bs.getLast? = some (nibbleCheck bs.dropLast) := by
  simp [checked]

/-- A list that passes the nibble check ends with it. -/
theorem eq_append_nibbleCheck (h : checked bs = true) : bs = bs.dropLast ++ [nibbleCheck bs.dropLast] := by
  have last := checked_iff.mp h
  have ne : bs ≠ [] := by
    rintro rfl
    simp at last
  rw [List.getLast?_eq_some_getLast ne, Option.some.injEq] at last
  rw [← last, List.dropLast_concat_getLast]

/-! ## The kind of a message (R184) -/

theorem Msg.kindByte_eq_join : m.kindByte = 0x11#8 ↔ ∃ digest, m = .join digest := by
  cases m <;> simp [Msg.kindByte]

theorem Msg.kindByte_eq_leave : m.kindByte = 0x12#8 ↔ m = .leave := by
  cases m <;> simp [Msg.kindByte]

theorem Msg.kindByte_eq_roll : m.kindByte = 0x13#8 ↔ ∃ counter slot item, m = .roll counter slot item := by
  cases m <;> simp [Msg.kindByte]

theorem Msg.kindByte_eq_claim : m.kindByte = 0x14#8 ↔ ∃ key version bid, m = .claim key version bid := by
  cases m <;> simp [Msg.kindByte]

theorem Msg.kindByte_eq_done :
    m.kindByte = 0x15#8 ↔ ∃ key version outcome damaged first, m = .done key version outcome damaged first := by
  cases m <;> simp [Msg.kindByte]

/-! ## The fields of each kind (R7) -/

/-- The bytes `rest` after the kind and the sender are the fields of `m`, each in its range. -/
def Msg.heldBy (m : Msg) (kind : Byte) (rest : List Byte) : Prop := m.inRange ∧ m.kindByte = kind ∧ m.fields = rest

theorem bodyFields_join : bodyFields [0x11#8, b, x, y, c] = some m ↔ m.heldBy 0x11#8 [x, y] := by
  have judged : bodyFields [0x11#8, b, x, y, c] = some (.join (half x y)) := rfl
  rw [judged, Option.some.injEq]
  constructor
  · rintro rfl
    exact ⟨trivial, rfl, bytes16_half x y⟩
  · rintro ⟨-, hk, hf⟩
    obtain ⟨digest, rfl⟩ := Msg.kindByte_eq_join.mp hk
    obtain ⟨rfl, rfl⟩ : byteOf (digest.toNat / 256) = x ∧ byteOf digest.toNat = y := by
      simpa [Msg.fields, bytes16] using hf
    rw [half_bytes]

theorem bodyFields_leave : bodyFields [0x12#8, b, c] = some m ↔ m.heldBy 0x12#8 [] := by
  have judged : bodyFields [0x12#8, b, c] = some .leave := rfl
  rw [judged, Option.some.injEq, eq_comm]
  refine ⟨?_, fun ⟨_, hk, _⟩ => Msg.kindByte_eq_leave.mp hk⟩
  rintro rfl
  exact ⟨trivial, rfl, rfl⟩

theorem bodyFields_roll : bodyFields [0x13#8, b, x, y, z, c] = some m ↔ m.heldBy 0x13#8 [x, y, z] := by
  have lt := x.isLt
  have judged : bodyFields [0x13#8, b, x, y, z, c] =
      if x.toNat % 16 ≤ 11 then some (.roll (x.toNat / 16) (x.toNat % 16) (half y z)) else none := rfl
  rw [judged, Option.ite_none_right_eq_some, Option.some.injEq]
  constructor
  · rintro ⟨hs, rfl⟩
    have nibbles : byteOf (x.toNat / 16 * 16 + x.toNat % 16) = x := (byteOf_of_toNat (by omega)).symm
    exact ⟨⟨by omega, hs⟩, rfl, by rw [Msg.fields, nibbles, bytes16_half]⟩
  · rintro ⟨hr, hk, hf⟩
    obtain ⟨counter, slot, item, rfl⟩ := Msg.kindByte_eq_roll.mp hk
    obtain ⟨hc, hs⟩ : counter ≤ 15 ∧ slot ≤ 11 := hr
    obtain ⟨rfl, rfl, rfl⟩ : byteOf (counter * 16 + slot) = x ∧ byteOf (item.toNat / 256) = y ∧ byteOf item.toNat = z := by
      simpa [Msg.fields, bytes16] using hf
    have low : (counter * 16 + slot) % 16 = slot := by omega
    have high : (counter * 16 + slot) / 16 = counter := by omega
    rw [byteOf_toNat _ (by omega), half_bytes, low, high]
    exact ⟨hs, rfl⟩

theorem bodyFields_claim :
    bodyFields [0x14#8, b, k0, k1, k2, v, x, c] = some m ↔ m.heldBy 0x14#8 [k0, k1, k2, v, x] := by
  have judged : bodyFields [0x14#8, b, k0, k1, k2, v, x, c] =
      (decodeKey k0 k1 k2).bind fun key =>
        if x.toNat ≤ 63 then some (.claim key v.toNat (some x.toNat)) else none := rfl
  rw [judged, Option.bind_eq_some_iff]
  simp only [Option.ite_none_right_eq_some, Option.some.injEq]
  constructor
  · rintro ⟨key, hk, hb, rfl⟩
    obtain ⟨range, bytes⟩ := decodeKey_eq_some.mp hk
    refine ⟨⟨range, Nat.le_of_lt_succ v.isLt, _, rfl, hb⟩, rfl, ?_⟩
    rw [Msg.fields, ← bytes, Option.getD_some, ← byteOf_of_toNat (b := v) rfl, ← byteOf_of_toNat (b := x) rfl]
    rfl
  · rintro ⟨hr, hk, hf⟩
    obtain ⟨key, version, bid, rfl⟩ := Msg.kindByte_eq_claim.mp hk
    obtain ⟨range, hv, bid, rfl, hb⟩ := hr
    obtain ⟨e0, e1, e2, rfl, rfl⟩ : byteOf (key.title * 16 + key.sep.code) = k0 ∧ byteOf key.edition = k1 ∧
        byteOf key.page = k2 ∧ byteOf version = v ∧ byteOf bid = x := by
      simpa [Msg.fields, PlateKey.encode] using hf
    refine ⟨key, decodeKey_eq_some.mpr ⟨range, by rw [PlateKey.encode, e0, e1, e2]⟩, ?_⟩
    rw [byteOf_toNat bid (by omega), byteOf_toNat version (by omega)]
    exact ⟨hb, rfl⟩

theorem bodyFields_done :
    bodyFields [0x15#8, b, k0, k1, k2, v, x, y, z, c] = some m ↔ m.heldBy 0x15#8 [k0, k1, k2, v, x, y, z] := by
  have judged : bodyFields [0x15#8, b, k0, k1, k2, v, x, y, z, c] =
      (decodeKey k0 k1 k2).bind fun key => (DoneOutcome.ofCode x.toNat).bind fun outcome =>
        if y.toNat ≤ 96 then
          (firstKindOf y.toNat z.toNat).map fun first => .done key v.toNat outcome y.toNat first
        else none := rfl
  rw [judged]
  simp only [Option.bind_eq_some_iff, Option.ite_none_right_eq_some, Option.map_eq_some_iff, DoneOutcome.ofCode_eq_some,
    firstKindOf_eq_some]
  constructor
  · rintro ⟨key, hk, outcome, ho, hd, first, ⟨hp, hf⟩, rfl⟩
    obtain ⟨range, bytes⟩ := decodeKey_eq_some.mp hk
    refine ⟨⟨range, Nat.le_of_lt_succ v.isLt, hd, hp⟩, rfl, ?_⟩
    rw [Msg.fields, ← bytes, ← byteOf_of_toNat (b := v) rfl, ← byteOf_of_toNat ho, ← byteOf_of_toNat (b := y) rfl,
      ← byteOf_of_toNat hf]
    rfl
  · rintro ⟨hr, hk, hf⟩
    obtain ⟨key, version, outcome, damaged, first, rfl⟩ := Msg.kindByte_eq_done.mp hk
    obtain ⟨range, hv, hd, hp⟩ := hr
    obtain ⟨e0, e1, e2, rfl, rfl, rfl, rfl⟩ : byteOf (key.title * 16 + key.sep.code) = k0 ∧ byteOf key.edition = k1 ∧
        byteOf key.page = k2 ∧ byteOf version = v ∧ byteOf outcome.code = x ∧ byteOf damaged = y ∧
        byteOf (kindCode first) = z := by
      simpa [Msg.fields, PlateKey.encode] using hf
    have code := outcome.code_pos
    have kind := kindCode_le first
    refine ⟨key, decodeKey_eq_some.mpr ⟨range, by rw [PlateKey.encode, e0, e1, e2]⟩, outcome, ?_⟩
    rw [byteOf_toNat damaged (by omega), byteOf_toNat version (by omega), byteOf_toNat outcome.code (by omega),
      byteOf_toNat (kindCode first) (by omega)]
    exact ⟨rfl, hd, first, ⟨hp, rfl⟩, rfl⟩

end Sys2Proof.Machine
end

section
/-! PROOF of O15: what a receiver judges good, and what bad. -/

namespace Sys2Proof.Machine

variable {bs rest : List Byte} {m : Msg} {sender : Station} {kind b c : Byte} {key : WinningKey} {framed : Bool}

/-! ## Good bodies (R7) -/

/-- The fields of a body of its kind's length are those of a message exactly where it holds its bytes. -/
theorem bodyFields_eq_some (hl : bodyLength kind = some (rest.length + 3)) :
    bodyFields (kind :: b :: rest ++ [c]) = some m ↔ m.heldBy kind rest := by
  simp only [bodyLength_eq_some, List.mem_cons, List.not_mem_nil, or_false, Prod.mk.injEq] at hl
  rcases hl with ⟨hk, hlen⟩ | ⟨hk, hlen⟩ | ⟨hk, hlen⟩ | ⟨hk, hlen⟩ | ⟨hk, hlen⟩ <;> obtain rfl := byteOf_of_toNat hk
  · match rest, hlen with
    | [x, y], _ => exact bodyFields_join
  · match rest, hlen with
    | [], _ => exact bodyFields_leave
  · match rest, hlen with
    | [x, y, z], _ => exact bodyFields_roll
  · match rest, hlen with
    | [k0, k1, k2, v, x], _ => exact bodyFields_claim
  · match rest, hlen with
    | [k0, k1, k2, v, x, y, z], _ => exact bodyFields_done

/-- A body of its kind's length that passes its nibble check. -/
theorem exists_parts (hl : bodyLength (byteAt bs 0) = some bs.length) (hc : checked bs = true) :
    ∃ kind b rest, bs = kind :: b :: rest ++ [nibbleCheck (kind :: b :: rest)] ∧
      bodyLength kind = some (rest.length + 3) := by
  have sealed := eq_append_nibbleCheck hc
  generalize hd : bs.dropLast = front at sealed
  subst sealed
  have long : 3 ≤ front.length + 1 := by
    simp only [bodyLength_eq_some, List.mem_cons, List.not_mem_nil, or_false, Prod.mk.injEq, List.length_append,
      List.length_cons, List.length_nil] at hl
    omega
  match front, long with
  | kind :: b :: rest, _ =>
    refine ⟨kind, b, rest, rfl, ?_⟩
    rw [← show byteAt (kind :: b :: rest ++ [nibbleCheck (kind :: b :: rest)]) 0 = kind from rfl, hl]
    simp

theorem bodyLength_encodeBody (sender : Station) (m : Msg) :
    bodyLength (byteAt (encodeBody sender m) 0) = some (encodeBody sender m).length := by
  cases m <;> rfl

/-- The judgement of a body whose framing, length and nibble check are right. -/
theorem judgeBody_of (hl : bodyLength (byteAt bs 0) = some bs.length) (hc : checked bs = true) :
    judgeBody key true bs = (bodyFields bs).bind fun m =>
      if h : (byteAt bs 1).toNat < 16 then
        if m.rank = key.rank ∧ m.value = key.value ∧ (byteAt bs 1).toNat = key.sender then
          some (⟨(byteAt bs 1).toNat, h⟩, m)
        else none
      else none := by
  rw [judgeBody, if_pos (by simp [hl, hc])]

theorem conditions_of_judgeBody {x : Station × Msg} (h : judgeBody key framed bs = some x) :
    framed = true ∧ bodyLength (byteAt bs 0) = some bs.length ∧ checked bs = true := by
  unfold judgeBody at h
  split at h
  · rename_i hc
    simpa [and_assoc] using hc
  · cases h

/-- A receiver takes exactly the body that the sender of the winning key sends. -/
theorem judgeBody_eq_some :
    judgeBody key framed bs = some (sender, m) ↔
      framed = true ∧ m.inRange ∧ bs = encodeBody sender m ∧ key = m.contentionKey sender := by
  constructor
  · intro h
    obtain ⟨rfl, hl, hc⟩ := conditions_of_judgeBody h
    rw [judgeBody_of hl hc, Option.bind_eq_some_iff] at h
    obtain ⟨m', hm, h⟩ := h
    obtain ⟨kind, b, rest, rfl, len⟩ := exists_parts hl hc
    split at h
    · simp only [Option.ite_none_right_eq_some, Option.some.injEq, Prod.mk.injEq] at h
      obtain ⟨⟨rank, value, from_⟩, number, rfl⟩ := h
      obtain ⟨range, rfl, rfl⟩ := (bodyFields_eq_some len).mp hm
      have hb : b.toNat = sender.val := congrArg Fin.val number
      obtain rfl := byteOf_of_toNat hb
      refine ⟨rfl, range, rfl, ?_⟩
      rw [Msg.contentionKey, rank, value, hb.symm.trans from_]
    · cases h
  · rintro ⟨rfl, range, rfl, rfl⟩
    have byte : (byteAt (encodeBody sender m) 1).toNat = sender.val := byteOf_toNat _ (by omega)
    have fields : bodyFields (encodeBody sender m) = some m :=
      (bodyFields_eq_some (by cases m <;> rfl)).mpr ⟨range, rfl, rfl⟩
    rw [judgeBody_of (bodyLength_encodeBody sender m) (checked_append _), fields]
    simp only [Option.bind_some, byte]
    rw [dif_pos sender.isLt, if_pos ⟨rfl, rfl, rfl⟩]

/-! ## Bad bodies (R7) -/

/-- A field of the body lies out of its range, by the kind that its first byte names. -/
def badFields (byte : Nat → Nat) : Prop :=
  (byte 0 = 0x13 ∧ 11 < byte 2 % 16) ∨
  ((byte 0 = 0x14 ∨ byte 0 = 0x15) ∧ (3 < byte 2 % 16 ∨ 63 < byte 3 ∨ byte 4 = 0)) ∨
  (byte 0 = 0x14 ∧ 63 < byte 6) ∨
  (byte 0 = 0x15 ∧
    (byte 6 ∉ [1, 2, 3, 4, 5] ∨ 96 < byte 7 ∨ (byte 7 = 0 ∧ byte 8 ≠ 0) ∨ (1 ≤ byte 7 ∧ byte 8 ∉ [1, 2, 3, 4, 5])))

theorem Option.bind_eq_none_of {α β : Type} {o : Option α} {f : α → Option β} {p : Prop} (h : ∀ a, f a = none ↔ p) :
    o.bind f = none ↔ o = none ∨ p := by
  cases o with
  | none => simp
  | some a => simp [h]

theorem bodyFields_claim_eq_none (h : byteAt bs 0 = 0x14#8) :
    bodyFields bs = none ↔
      decodeKey (byteAt bs 2) (byteAt bs 3) (byteAt bs 4) = none ∨ 63 < (byteAt bs 6).toNat := by
  have judged : bodyFields bs = (decodeKey (byteAt bs 2) (byteAt bs 3) (byteAt bs 4)).bind fun key =>
      if (byteAt bs 6).toNat ≤ 63 then some (.claim key (byteAt bs 5).toNat (some (byteAt bs 6).toNat)) else none := by
    unfold bodyFields
    rw [h]
    rfl
  rw [judged]
  exact Option.bind_eq_none_of fun key => by simp

theorem bodyFields_done_eq_none (h : byteAt bs 0 = 0x15#8) :
    bodyFields bs = none ↔
      decodeKey (byteAt bs 2) (byteAt bs 3) (byteAt bs 4) = none ∨ DoneOutcome.ofCode (byteAt bs 6).toNat = none ∨
        96 < (byteAt bs 7).toNat ∨ firstKindOf (byteAt bs 7).toNat (byteAt bs 8).toNat = none := by
  have judged : bodyFields bs = (decodeKey (byteAt bs 2) (byteAt bs 3) (byteAt bs 4)).bind fun key =>
      (DoneOutcome.ofCode (byteAt bs 6).toNat).bind fun outcome =>
        if (byteAt bs 7).toNat ≤ 96 then
          (firstKindOf (byteAt bs 7).toNat (byteAt bs 8).toNat).map fun first =>
            .done key (byteAt bs 5).toNat outcome (byteAt bs 7).toNat first
        else none := by
    unfold bodyFields
    rw [h]
    rfl
  rw [judged]
  refine Option.bind_eq_none_of fun key => Option.bind_eq_none_of fun outcome => ?_
  by_cases hd : (byteAt bs 7).toNat ≤ 96
  · rw [if_pos hd, Option.map_eq_none_iff, or_iff_right (by omega)]
  · rw [if_neg hd]
    simp only [true_iff]
    omega

theorem bodyFields_eq_none (hl : bodyLength (byteAt bs 0) = some bs.length) :
    bodyFields bs = none ↔ badFields fun i => (byteAt bs i).toNat := by
  simp only [bodyLength_eq_some, List.mem_cons, List.not_mem_nil, or_false, Prod.mk.injEq] at hl
  unfold badFields
  dsimp only
  rcases hl with ⟨hk, -⟩ | ⟨hk, -⟩ | ⟨hk, -⟩ | ⟨hk, -⟩ | ⟨hk, -⟩ <;> have hb := byteOf_of_toNat hk
  · simp [bodyFields, hb, byteOf]
  · simp [bodyFields, hb, byteOf]
  · simp [bodyFields, hb, byteOf]
  · rw [bodyFields_claim_eq_none hb, decodeKey_eq_none, hk]
    simp only [Nat.reduceEqDiff, false_and, true_and, false_or, or_false]
  · rw [bodyFields_done_eq_none hb, decodeKey_eq_none, DoneOutcome.ofCode_eq_none, firstKindOf_eq_none, hk]
    simp only [Nat.reduceEqDiff, false_and, or_true, true_and, false_or]

/-- The contention key that a body of its kind wins with, from its bytes. -/
theorem bodyFields_key (hl : bodyLength (byteAt bs 0) = some bs.length) (hc : checked bs = true)
    (hm : bodyFields bs = some m) :
    m.rank = (if (byteAt bs 0).toNat = 0x15 then 3 else if (byteAt bs 0).toNat = 0x14 then 2
      else if (byteAt bs 0).toNat = 0x13 then 0 else 1) ∧
    m.value = if (byteAt bs 0).toNat = 0x14 then (byteAt bs 6).toNat else 0 := by
  obtain ⟨kind, b, rest, rfl, len⟩ := exists_parts hl hc
  obtain ⟨range, rfl, rfl⟩ := (bodyFields_eq_some len).mp hm
  cases m with
  | claim key version bid =>
    obtain ⟨-, -, bid, rfl, hb⟩ := range
    refine ⟨rfl, (byteOf_toNat bid (by omega)).symm⟩
  | _ => exact ⟨rfl, rfl⟩

/-- What a receiver finds bad: the framing, the length, the nibble check, the sender, a field, or the key. -/
theorem judgeBody_eq_none :
    judgeBody key framed bs = none ↔
      framed = false ∨ bodyLength (byteAt bs 0) ≠ some bs.length ∨ ¬ checked bs = true ∨ 15 < (byteAt bs 1).toNat ∨
      badFields (fun i => (byteAt bs i).toNat) ∨
      key.rank ≠ (if (byteAt bs 0).toNat = 0x15 then 3 else if (byteAt bs 0).toNat = 0x14 then 2
        else if (byteAt bs 0).toNat = 0x13 then 0 else 1) ∨
      key.value ≠ (if (byteAt bs 0).toNat = 0x14 then (byteAt bs 6).toNat else 0) ∨
      key.sender ≠ (byteAt bs 1).toNat := by
  by_cases whole : framed = true ∧ bodyLength (byteAt bs 0) = some bs.length ∧ checked bs = true
  · obtain ⟨rfl, hl, hc⟩ := whole
    simp only [hl, hc, ne_eq, not_true_eq_false, Bool.true_eq_false, false_or]
    rw [← bodyFields_eq_none hl, judgeBody_of hl hc]
    cases hm : bodyFields bs with
    | none => simp
    | some m =>
      obtain ⟨rank, value⟩ := bodyFields_key hl hc hm
      rw [← rank, ← value, Option.bind_some]
      by_cases lt : (byteAt bs 1).toNat < 16
      · rw [dif_pos lt, ite_eq_right_iff]
        simp only [reduceCtorEq, imp_false, false_or]
        omega
      · rw [dif_neg lt]
        simp only [true_iff]
        omega
  · have bad : judgeBody key framed bs = none := by
      by_contra h
      obtain ⟨x, hx⟩ := Option.ne_none_iff_exists'.mp h
      exact whole (conditions_of_judgeBody hx)
    simp only [bad, true_iff]
    rw [not_and_or, not_and_or, Bool.not_eq_true] at whole
    tauto

/-- Settles O15. -/
theorem bodyRoundTrip : Obligations.BodyRoundTrip := by
  refine ⟨fun m sender range => judgeBody_eq_some.mpr ⟨rfl, range, rfl, rfl⟩,
    fun key framed bytes sender m h => judgeBody_eq_some.mp h, fun key framed bytes => ?_,
    fun sender digest item counter slot version bid damaged key outcome first => ⟨rfl, rfl, rfl, rfl, ?_⟩⟩
  · dsimp only
    rw [judgeBody_eq_none, Ne, bodyLength_eq_some, checked_iff]
    simp only [badFields, or_assoc]
  · cases first <;> rfl

end Sys2Proof.Machine
end

section
/-! PROOFS of O7 and O8: a record that fails a check, and the end of a valid load. -/

namespace Sys2Proof.Machine

variable {s : State}

/-! ## Leaving LOADING (R19, R174) -/

@[simp] theorem State.disposed_mediaOut (s : State) (c : Clearing) : (s.disposed c).mediaOut = s.imager.mediaOut := by
  unfold State.disposed
  cases s.imager.state <;> rfl

theorem State.judgeMediaOut_eq (s : State) :
    s.judgeMediaOut = { s with port := { s.port with
      latch := s.port.latch ||| (if s.imager.mediaOut then 1#16 <<< Cause.mediaOut.bit else 0#16) } } := by
  unfold State.judgeMediaOut
  split
  · rfl
  · rw [BitVec.or_zero]

/-- The entry to BARRED, each block written out (R20). -/
theorem State.bar_eq (s : State) (r : BarredReason) :
    s.bar r =
      { s.blocksCleared with
        station := { s.station with state := .barred, barredReason := some r, resumePending := false }
        link := { s.link.emptied with phase := s.link.phase.abandon.stopped }
        roll := { s.blocksCleared.roll with rollTimer := none, isolationTimer := none }
        receiver := { framing := .hunting, holding := [] }
        imager := s.disposed .halt
        port := s.port.latched .barred } := by
  rw [State.bar, State.clearForHalt, State.clearBlocks_eq]
  rfl

/-- With no halt held an invalid record bars the station. -/
theorem State.leaveLoading_invalid (h : s.station.haltRegion = none) (r : BarredReason) :
    s.leaveLoading (some r) = ((s.setLoader { s.loader with phase := .ended }).bar r).judgeMediaOut := by
  unfold State.leaveLoading
  dsimp only
  rw [if_neg (by simp [h])]

/-- With no halt held a valid record lets the station join. -/
theorem State.leaveLoading_valid (h : s.station.haltRegion = none) :
    s.leaveLoading none = (s.setLoader { s.loader with phase := .ended }).startJoining.judgeMediaOut := by
  unfold State.leaveLoading
  dsimp only
  rw [if_neg (by simp [h])]

/-- What the loader keeps of a record that fails a check (R169, R171). -/
def State.loaderInvalid (s : State) (image : Mem) (reason : BarredReason) (failing : Option Nat) : Loader :=
  { s.loader with
    validity := .invalid, reason := some reason, failing := failing, image := image, digest := none }

theorem execConfigurationReadDone_invalid (hs : s.station.state = .loading) (hp : s.loader.phase = .reading)
    {record : List Byte} {reason : BarredReason} {failing : Option Nat}
    (hx : recordFailure record = some (reason, failing)) :
    execConfigurationReadDone record s =
      .next ((s.setLoader (s.loaderInvalid (imageOf record) reason failing)).leaveLoading (some reason)) := by
  rw [execConfigurationReadDone, if_pos ⟨hs, hp⟩, hx]
  rfl

/-- Settles O7. -/
theorem invalidRecordBars : Obligations.InvalidRecordBars := by
  intro record s reason failing hs hp hr hx
  refine ⟨_, (exec_configurationReadDone _ _).trans (execConfigurationReadDone_invalid hs hp hx), ?_⟩
  generalize imageOf record = image
  rw [State.leaveLoading_invalid (s := s.setLoader (s.loaderInvalid image reason failing)) hr,
    State.judgeMediaOut_eq, State.bar_eq, State.disposed_mediaOut]
  exact ⟨rfl, rfl, rfl, rfl, rfl, rfl, rfl, rfl, rfl, rfl, rfl, LinkPhase.stopped_idle _⟩

theorem Link.request_empty {l : Link} (h : l.presence = none) (m : Msg) :
    l.request .presence m = l.put .presence m :=
  Link.request_of_notInProgress l .presence m fun q hq => by simp [Link.at, h] at hq

/-- A JOIN or LEAVE requested of an empty presence place stands there, not in progress. -/
theorem Link.request_presence_none {l : Link} (h : l.presence = none) (m : Msg) :
    ∃ q, (l.request .presence m).presence = some q ∧ q.msg = m ∧ q.inProgress = false := by
  rw [Link.request_empty h]
  exact ⟨_, Link.at_put_same l .presence m, rfl, rfl⟩

/-- The entry to JOINING from LOADING or DETACHED, each block written out (R2, R21, R29, R162). -/
theorem State.startJoining_eq (s : State) :
    s.startJoining =
      { s with
        station := { s.station with state := .joining }
        link := { s.link.request .presence (.join (s.loader.digest.getD 0#16)) with phase := .synchronising }
        roll := { s.roll with
          rollTimer := some (s.now + s.settings.rollPeriod)
          isolationTimer := some (s.now + s.settings.silenceLimit * s.settings.rollPeriod)
          joinPeriod := none, joinSentAt := none }
        damage := { s.damage with total := 0 }
        imager := { s.imager with
          seenInactive := if s.imager.state = .fault then !s.imager.headReady else s.imager.seenInactive } } := rfl

/-- Settles O8. -/
theorem loadingEndedJoins : Obligations.LoadingEndedJoins := by
  intro corrected s hs hp hr hq
  refine ⟨_, (exec_loadingEnded _ _).trans (execLoadingEnded_of_loading hs hp corrected), ?_⟩
  obtain ⟨q, join⟩ := Link.request_presence_none hq (.join (s.loader.digest.getD 0#16))
  rw [State.leaveLoading_valid (s := (s.countCorrected corrected).loadBlocks) hr, State.judgeMediaOut_eq,
    State.startJoining_eq]
  refine ⟨rfl, rfl, ⟨q, join⟩, rfl, rfl, rfl, rfl, rfl, rfl, rfl, rfl, rfl, rfl, fun out => ?_, fun out => ?_, rfl, rfl,
    rfl⟩
  · change s.port.latch ||| (if s.imager.mediaOut then _ else _) = _
    rw [if_pos out]
    rfl
  · change s.port.latch ||| (if s.imager.mediaOut then _ else _) = _
    rw [if_neg (by simp [out]), BitVec.or_zero]

end Sys2Proof.Machine
end

section
/-! PROOF of O22: the item of every roll slot. -/

namespace Sys2Proof.Machine

variable {s : State}

/-! ## Flags (R31, R186) -/

theorem flagWord_testBit (fs : List Bool) (i : Nat) : (flagWord fs).testBit i = fs.getD i false := by
  induction fs generalizing i with
  | nil => simp [flagWord]
  | cons f fs ih =>
    rw [flagWord]
    cases i with
    | zero => cases f <;> simp
    | succ i =>
      have half : ((if f then 1 else 0) + 2 * flagWord fs) / 2 = flagWord fs := by
        split <;> omega
      rw [Nat.testBit_succ, half, ih, List.getD_cons_succ]

/-- Bit `i` of a word of at most 16 flags is the `i`-th flag. -/
theorem flagWord_getLsbD {fs : List Bool} (h : fs.length ≤ 16) (i : Nat) :
    (BitVec.ofNat 16 (flagWord fs)).getLsbD i = fs.getD i false := by
  rw [BitVec.getLsbD_ofNat, flagWord_testBit]
  by_cases lt : i < 16
  · simp [lt]
  · rw [List.getD_eq_default _ _ (by omega)]
    simp

/-! ## The figures (R30, R31, R66) -/

theorem State.jobsFull_eq (s : State) : s.jobsFull = decide (s.freeSlots.length = 0) := by
  rw [State.jobsFull, Bool.eq_iff_iff]
  simp

/-- A number lies below the most bands exactly when it lies below the bands of some supported class. -/
theorem Settings.lt_mostBands {c : Settings} {n : Nat} :
    n < c.mostBands ↔ ∃ k ∈ c.classes, k.supported = true ∧ n < bandsOfHeight k.height := by
  have fold (ks : List SizeClass) (m : Nat) :
      n < ks.foldl (fun m k => if k.supported then max m (bandsOfHeight k.height) else m) m ↔
        n < m ∨ ∃ k ∈ ks, k.supported = true ∧ n < bandsOfHeight k.height := by
    induction ks generalizing m with
    | nil => simp
    | cons k ks ih =>
      rw [List.foldl_cons, ih]
      by_cases h : k.supported = true <;> simp [h, or_assoc]
  rw [Settings.mostBands, fold]
  simp

theorem State.platesHeld_eq (s : State) : s.platesHeld =
    ((List.finRange 8).filter fun n => decide ((s.job n).map (·.stage) = some .held)).length := by
  rw [State.platesHeld]
  refine congrArg List.length (List.filter_congr fun n _ => ?_)
  cases s.job n <;> simp

/-- Settles O22. -/
theorem rollItemOfEachSlot : Obligations.RollItemOfEachSlot := by
  intro s unreserved free
  have hfree : s.freeSlots.length = free := congrArg List.length s.freeSlots_eq
  have hstore : s.unreserved = unreserved := rfl
  refine ⟨fun k hk => ?_, ?_, fun n => ?_, rfl, ?_, rfl, fun d hd => ?_⟩
  · have item : s.rollItem k = BitVec.ofNat 16 s.conditionCode := by
      simp only [List.mem_cons, List.not_mem_nil, or_false] at hk
      obtain rfl | rfl | rfl | rfl | rfl | rfl := hk <;> rfl
    rw [item, State.conditionCode]
    simp only [flagWord_getLsbD (fs := [_, _, _, _, _, _, _, _]) (Nat.le_add_left 8 8)]
    refine ⟨rfl, rfl, ?_, ?_, rfl, rfl, rfl, rfl, fun i hi => List.getD_eq_default _ _ hi⟩
    · exact s.jobsFull_eq.trans (by rw [hfree])
    · change s.storeLow = true ↔ _
      rw [State.storeLow, decide_eq_true_iff, hstore, Settings.lt_mostBands]
      rfl
  · rw [← hfree, ← hstore]
    rfl
  · change (BitVec.ofNat 16 s.presentMap).getLsbD n.val = _
    rw [State.presentMap, flagWord_getLsbD (by simp), List.getD_eq_getElem _ _ (by simp), List.getElem_map,
      List.getElem_finRange]
    rfl
  · rw [← State.platesHeld_eq]
    rfl
  · simp [State.rollItem, hd]

end Sys2Proof.Machine
end

section
/-! PROOF of O48: INDEX by the drum watch, and a swath completed. -/

namespace Sys2Proof.Machine

variable {s : State}

/-! ## The drum watch (R157) -/

/-- A running drum watch counts the ticks of an INDEX whole, whatever the clocks of the tick in course. -/
theorem State.elapse_drumCounter (run : s.imager.drum.running = true) (hc : s.imager.drum.clocks < s.settings.prescaler)
    (ticks : Nat) :
    (s.elapse (ticks * s.settings.prescaler)).imager.drum.counter = s.imager.drum.counter - ticks := by
  have whole : (s.imager.drum.clocks + ticks * s.settings.prescaler) / s.settings.prescaler = ticks := by
    rw [Nat.add_mul_div_right _ _ (by omega), Nat.div_eq_of_lt hc, Nat.zero_add]
  change (if s.imager.drum.running then _ else _) = _
  rw [if_pos run, whole]

/-- An INDEX no later than the counter's 0 is judged at its own clock. -/
theorem State.takeIndex_onTime {ticks : Nat}
    (due : ticks * s.settings.prescaler + s.imager.drum.clocks ≤ s.imager.drum.counter * s.settings.prescaler)
    (h : s.imager.drum.counter ≠ 0) :
    s.takeIndex ticks = (s.elapse (ticks * s.settings.prescaler)).judgeIndex := by
  refine if_neg ?_
  rw [State.drumClocks]
  omega

/-- An INDEX after the counter's 0 finds the plate DRUM LATE from that 0. -/
theorem State.takeIndex_late (hc : s.imager.drum.clocks < s.settings.prescaler) {ticks : Nat}
    (late : s.imager.drum.counter * s.settings.prescaler < ticks * s.settings.prescaler + s.imager.drum.clocks ∨
      s.imager.drum.counter = 0) :
    s.takeIndex ticks = s.drumExpires.elapse (ticks * s.settings.prescaler - s.drumClocks) := by
  refine if_pos ?_
  rw [State.drumClocks]
  by_cases zero : s.imager.drum.counter = 0
  · exact .inl zero
  · have := Nat.le_mul_of_pos_left s.settings.prescaler (Nat.pos_of_ne_zero zero)
    omega

/-- The counter's 0 comes no later than an INDEX that it precedes. -/
theorem State.drumClocks_le {ticks : Nat}
    (late : s.imager.drum.counter * s.settings.prescaler < ticks * s.settings.prescaler + s.imager.drum.clocks ∨
      s.imager.drum.counter = 0) :
    s.drumClocks ≤ ticks * s.settings.prescaler := by
  unfold State.drumClocks
  rcases late with late | zero
  · omega
  · simp [zero]

theorem State.indexEarly_iff :
    s.indexEarly = true ↔ s.imager.swathInOutput = true ∨
      (s.imager.drum.indexSeen = true ∧ s.settings.windowMax - s.settings.windowMin < s.imager.drum.counter) := by
  simp [State.indexEarly]

/-! ## The swath that goes out (R156) -/

theorem Band.screenedBuffer_of {b : Band} {buffer : Nat} (h : b.state = .screened buffer) :
    b.screenedBuffer = some buffer := by
  rw [Band.screenedBuffer, h]

theorem State.swathOf_of {n buffer : Nat} {h : HeldJob} {j : Job} (hh : s.imager.held = some h)
    (hj : s.job h.slot = some j) (hb : (j.band (n / 8)).state = .screened buffer) :
    s.swathOf n = some (swathBits s.frame.screened buffer n (s.settings.sizeClass j.sizeClass).width) := by
  rw [State.swathOf, hh, Option.bind_some, hj, Option.bind_some, Band.screenedBuffer_of hb, Option.map_some]

/-! ## A swath completed (R156, R164) -/

/-- The Imager with its swath completed and the number of the next one. -/
def State.swathDone (s : State) (n : Nat) : State :=
  s.setImager { s.imager with swathInOutput := false, swathData := none, nextSwath := some n }

theorem State.completeSwath_eq (s : State) :
    s.completeSwath =
      if s.imager.pendingCancel.isSome then (s.swathDone (s.imager.nextSwath.getD 0 + 1)).issueEject .scrap
      else if s.imager.plate.map PlateGeometry.swathCount = some (s.imager.nextSwath.getD 0 + 1) then
        (s.swathDone (s.imager.nextSwath.getD 0 + 1)).issueEject .good
      else s.swathDone (s.imager.nextSwath.getD 0 + 1) := rfl

theorem State.completeSwath_cancelled {r : CancelReason} (hc : s.imager.pendingCancel = some r) :
    s.completeSwath = (s.swathDone (s.imager.nextSwath.getD 0 + 1)).issueEject .scrap :=
  if_pos (Option.isSome_of_eq_some hc)

theorem State.completeSwath_of {n : Nat} {g : PlateGeometry} (hn : s.imager.nextSwath = some n)
    (hg : s.imager.plate = some g) (hc : s.imager.pendingCancel = none) :
    s.completeSwath =
      if g.swathCount = n + 1 then (s.swathDone (n + 1)).issueEject .good else s.swathDone (n + 1) := by
  rw [State.completeSwath_eq, hn, hg, hc, Option.getD_some]
  simp

/-! ## The commands -/

theorem exec_index_imaging (h : s.imager.state = .imaging) (ticks corrected : Nat) :
    exec (.index ticks corrected) s = .next ((s.countCorrected corrected).takeIndex ticks) :=
  congrArg _ (if_pos h)

theorem exec_swathComplete_output (h : s.imager.state = .imaging) (ho : s.imager.swathInOutput = true)
    (corrected : Nat) :
    exec (.swathComplete corrected) s = .next (s.countCorrected corrected).completeSwath :=
  congrArg _ (if_pos ⟨h, ho⟩)

/-- The station after an INDEX on time, with the swath that goes out. -/
def State.swathOut (s : State) (ticks corrected : Nat) (data : Option (List (List Bool))) : State :=
  { s with
    clock := s.clock + ticks * s.settings.prescaler
    port := s.port.countedBy .corrected corrected
    imager := { s.imager with
      swathInOutput := true, swathData := data
      drum := { running := true, counter := s.settings.windowMax, clocks := 0, indexSeen := true } } }

/-- Settles O48. -/
theorem indexAndSwathComplete : Obligations.IndexAndSwathComplete := by
  refine ⟨fun s ticks corrected hs run hc => ⟨fun due h0 early n h j buffer hn hh hj hb => ?_,
    fun fault clocks => ?_⟩, fun s corrected n g hs ho hn hg => ⟨fun hc last => ?_, fun hc last => ?_, fun r hc => ?_⟩,
    fun s ticks corrected hs => ?_⟩
  · rw [exec_index_imaging hs, State.takeIndex_onTime (s := s.countCorrected corrected) due h0, State.judgeIndex,
      if_neg fun e => early ?_, State.outputSwath]
    · have swath := State.swathOf_of (s := (s.countCorrected corrected).elapse (ticks * s.settings.prescaler)) hh hj hb
      have data : s.imager.nextSwath.bind
          ((s.countCorrected corrected).elapse (ticks * s.settings.prescaler)).swathOf = _ :=
        (congrArg (Option.bind · _) hn).trans swath
      exact congrArg (fun d => Host.Outcome.next (s.swathOut ticks corrected d)) data
    · have e := State.indexEarly_iff.mp e
      rwa [State.elapse_drumCounter (s := s.countCorrected corrected) run hc] at e
  · rintro (⟨due, h0, early, rfl, rfl⟩ | ⟨late, rfl, rfl⟩)
    · refine ⟨_, exec_index_imaging hs ticks corrected, ?_⟩
      rw [State.takeIndex_onTime (s := s.countCorrected corrected) due h0, State.judgeIndex,
        if_pos (State.indexEarly_iff.mpr ?_)]
      · exact ⟨rfl, rfl, rfl, rfl, rfl, rfl, rfl, rfl, rfl, rfl, rfl, rfl⟩
      · rwa [State.elapse_drumCounter (s := s.countCorrected corrected) run hc]
    · refine ⟨_, exec_index_imaging hs ticks corrected, ?_⟩
      have clock : s.clock + s.drumClocks + (ticks * s.settings.prescaler - s.drumClocks) =
          s.clock + ticks * s.settings.prescaler := by
        have := State.drumClocks_le late
        omega
      rw [State.takeIndex_late (s := s.countCorrected corrected) hc late]
      exact ⟨rfl, rfl, rfl, rfl, rfl, rfl, rfl, rfl, rfl, clock, rfl, rfl⟩
  · rw [exec_swathComplete_output hs ho, State.completeSwath_of (s := s.countCorrected corrected) hn hg hc,
      if_neg (Ne.symm last)]
    rfl
  · rw [exec_swathComplete_output hs ho, State.completeSwath_of (s := s.countCorrected corrected) hn hg hc,
      if_pos last.symm]
    rfl
  · rw [exec_swathComplete_output hs ho, State.completeSwath_cancelled (s := s.countCorrected corrected) hc]
    rfl
  · exact congrArg _ (if_neg hs)

end Sys2Proof.Machine
end

section
/-! Commands of the Maintenance Port: a command byte with all its data bytes is executed in the step (R175, R176). -/

namespace Sys2Proof.Machine

variable {s : State} {code : Byte} {data : List Byte}

/-- The station while the port executes a command: the input byte and the response are empty, READY is clear. -/
def State.busyPort (s : State) : State :=
  { s with
    port := { s.port with inputByte := none, command := none, response := [], ready := false, refused := false } }

/-- The station while the port awaits data bytes of a command. -/
def State.awaiting (s : State) (code : Byte) (got : List Byte) : State :=
  s.busyPort.setPort { s.busyPort.port with command := some { code := code, got := got } }

theorem State.takeDataByte_awaiting (got : List Byte) (b : Byte) :
    (s.awaiting code got).takeDataByte b =
      if got.length + 1 < (commandData code).getD 0 then s.awaiting code (got ++ [b])
      else s.busyPort.execute code (got ++ [b]) := by
  have length : (got ++ [b]).length = got.length + 1 := List.length_append
  rw [← length]
  rfl

/-- The last of its data bytes executes a command. -/
theorem State.foldl_takeDataByte (got : List Byte) (b : Byte) (data : List Byte)
    (h : commandData code = some (got.length + 1 + data.length)) :
    (b :: data).foldl State.takeDataByte (s.awaiting code got) = s.busyPort.execute code (got ++ b :: data) := by
  induction data generalizing got b with
  | nil =>
    rw [List.foldl_cons, State.takeDataByte_awaiting, h, Option.getD_some, if_neg (by simp), List.foldl_nil]
  | cons c data ih =>
    rw [List.foldl_cons, State.takeDataByte_awaiting, h, Option.getD_some, if_pos (by simp),
      ih (got ++ [b]) c (by rw [h]; simp; omega), List.append_assoc, List.singleton_append]

/-- A command that the port can take, with as many data bytes as it takes, is executed. -/
theorem State.portCommand_execute (h : s.opensTo code) (hn : commandData code = some data.length) :
    s.portCommand code data = s.busyPort.execute code data := by
  obtain ⟨takes, outside⟩ := h
  have admits : s.clearInput.beginCommand.admitsCommand code = true :=
    (Bool.or_eq_true _ _).mpr (.inl (decide_eq_true outside))
  have opened : s.clearInput.takeCommandByte code =
      if data.length = 0 then s.busyPort.execute code [] else s.awaiting code [] := by
    unfold State.takeCommandByte
    simp only [hn, admits]
    rfl
  rw [State.portCommand, if_pos (by exact decide_eq_true takes), opened]
  cases data with
  | nil => rfl
  | cons b data => exact State.foldl_takeDataByte [] b data (by rw [hn]; simp; omega)

theorem State.busyPort_answer (response : List Byte) : s.busyPort.answer response = s.answered response := rfl

theorem State.busyPort_refuse : s.busyPort.refuse = s.turnedAway := rfl

/-- A command about a slot that the part does not have is refused. -/
theorem State.onSlot_refused {b : Byte} (h : 8 ≤ b.toNat) (f : Slot → State) : s.busyPort.onSlot b f = s.turnedAway :=
  dif_neg (Nat.not_lt.mpr h)

theorem State.onSlot_of_lt {b : Byte} (h : b.toNat < 8) (f : Slot → State) : s.onSlot b f = f ⟨b.toNat, h⟩ :=
  dif_pos h

end Sys2Proof.Machine
end

section
/-! PROOF of O54: the reads of one job, board place or peer. -/

namespace Sys2Proof.Machine

variable {s : State} {a b c : Byte}

/-! ## READ JOB and READ BAND MAP (R64, R177) -/

theorem exec_readJob_opens (h : s.opensTo 0x10#8) :
    exec (.readJob [a]) s = .next (s.busyPort.onSlot a fun n => s.busyPort.answer (s.jobResponse n)) :=
  congrArg _ (State.portCommand_execute h rfl)

theorem State.doneQueued_iff (s : State) (n : Slot) :
    s.doneQueued n = true ↔ ∃ q key version outcome damaged first,
      s.link.slots[n] = some q ∧ q.msg = .done key version outcome damaged first := by
  unfold State.doneQueued
  cases hq : s.link.slots[n] with
  | none => simp
  | some q => cases hm : q.msg <;> simp [hm]

theorem Stage.readyOrder_bytes (st : Stage) :
    opt32 st.readyOrder = match st with
      | .ready order => 0x01#8 :: bytes32 order
      | _ => List.replicate 5 0x00#8 := by
  have absent : opt32 none = List.replicate 5 0x00#8 := rfl
  cases st with
  | ready order => rfl
  | _ => exact absent

theorem Stage.cancelReason_bytes (st : Stage) :
    opt8 (st.cancelReason.map CancelReason.code) = match st with
      | .cancelling .superseded => [0x01#8, 0x00#8]
      | .cancelling .dropped => [0x01#8, 0x01#8]
      | _ => List.replicate 2 0x00#8 := by
  cases st with
  | cancelling r => cases r <;> rfl
  | _ => rfl

theorem withdrawal_bytes (w : Option WithdrawalCause) :
    opt8 (w.map WithdrawalCause.code) = match w with
      | some .window => [0x01#8, 0x00#8]
      | some .drop => [0x01#8, 0x01#8]
      | none => List.replicate 2 0x00#8 := by
  cases w with
  | none => rfl
  | some w => cases w <;> rfl

theorem Band.mapBytes_eq (b : Band) :
    b.mapBytes = match b.state with
      | .awaited => byteOf (kindCode b.kind) :: [0xFF#8, 0xFF#8]
      | .decoding => byteOf (16 + kindCode b.kind) :: [0xFF#8, 0xFF#8]
      | .queued => byteOf (32 + kindCode b.kind) :: [0xFF#8, 0xFF#8]
      | .screening => byteOf (48 + kindCode b.kind) :: [0xFF#8, 0xFF#8]
      | .screened n => byteOf (64 + kindCode b.kind) :: bytes16 n := by
  unfold Band.mapBytes
  cases b.state with
  | awaited => simp [BandState.code, bytes16, byteOf, Config.max16]
  | decoding => rfl
  | queued => rfl
  | screening => rfl
  | screened n => rfl

theorem exec_readBandMap_opens (h : s.opensTo 0x11#8) :
    exec (.readBandMap [a, b]) s = .next (s.busyPort.onSlot a fun n =>
      if b.toNat ≤ 95 then s.busyPort.answer (s.bandMapResponse n b.toNat) else s.busyPort.refuse) :=
  congrArg _ (State.portCommand_execute h rfl)

/-! ## READ DAMAGE (R142, R177) -/

theorem exec_readDamage_opens (h : s.opensTo 0x12#8) :
    exec (.readDamage [a, b]) s = .next (s.busyPort.onSlot a fun n =>
      if b.toNat ≤ 1 then s.busyPort.answer (s.damageResponse n b.toNat) else s.busyPort.refuse) :=
  congrArg _ (State.portCommand_execute h rfl)

/-- The nibble of a band in page 1 of READ DAMAGE. -/
def kindAt (bands : List Band) (i : Nat) : Nat := kindCode (bands[i]?.bind fun x => x.kind)

theorem kindNibbles_eq (bands : List Band) :
    kindNibbles bands = (List.range ((bands.length + 1) / 2)).map fun i =>
      byteOf (kindAt bands (2 * i) * 16 + kindAt bands (2 * i + 1)) := by
  induction bands using kindNibbles.induct with
  | case1 => rfl
  | case2 b => simp [kindNibbles, kindAt, kindCode]
  | case3 b c rest ih =>
    have length : ((b :: c :: rest).length + 1) / 2 = (rest.length + 1) / 2 + 1 := by simp; omega
    rw [kindNibbles, ih, length, List.range_succ_eq_map, List.map_cons, List.map_map]
    rfl

/-! ## READ BOARD and FIND BOARD (R43, R60) -/

theorem exec_readBoard_opens (h : s.opensTo 0x18#8) :
    exec (.readBoard [a, b]) s = .next
      (if nat16 a b < 512 then s.busyPort.answer (s.boardResponse (nat16 a b)) else s.busyPort.refuse) :=
  congrArg _ (State.portCommand_execute h rfl)

theorem exec_findBoard_opens (h : s.opensTo 0x19#8) :
    exec (.findBoard [a, b, c]) s = .next
      (if a.toNat ≤ 4 ∧ nat16 b c < 512 then s.busyPort.answer (s.findResponse a.toNat (nat16 b c))
       else s.busyPort.refuse) :=
  congrArg _ (State.portCommand_execute h rfl)

theorem exec_readPeer_opens (h : s.opensTo 0x1C#8) :
    exec (.readPeer [a]) s = .next
      (if h : a.toNat < 16 then s.busyPort.answer (s.peerResponse ⟨a.toNat, h⟩) else s.busyPort.refuse) :=
  congrArg _ (State.portCommand_execute h rfl)


theorem optTime_none : optTime none = List.replicate 5 0x00#8 := by decide

theorem opt8_none : opt8 none = List.replicate 2 0x00#8 := by decide

theorem optTime_heard (heard : Option Nat) (now : Nat) :
    optTime (heard.map fun t => now - t) = match heard with
      | some t => 0x01#8 :: bytes32 (min (now - t) 4294967295)
      | none => List.replicate 5 0x00#8 := by
  cases heard with
  | none => exact optTime_none
  | some t => rfl

theorem admissionBytes_eq (x : Option AdmissionCursor) :
    admissionBytes x = match x with
      | some x => [0x01#8, byteOf x.band, byteOf x.part, flagByte x.last]
      | none => List.replicate 4 0x00#8 := by
  cases x <;> rfl

theorem firstDamageBytes_eq (f : Option FirstDamage) :
    firstDamageBytes f = match f with
      | none => List.replicate 26 0x00#8
      | some f =>
        [0x01#8, byteOf f.kind.code, byteOf f.band, flagByte f.part.isSome, byteOf (f.part.getD 0),
            flagByte f.capture.isSome]
          ++ f.capture.getD (List.replicate 10 0x00#8) ++ bytes16 f.counts.check ++ bytes16 f.counts.fill
          ++ bytes16 f.counts.overflow ++ bytes16 f.counts.gap ++ bytes16 f.counts.format := by
  cases f with
  | none => rfl
  | some f => simp [firstDamageBytes, opt8, flagByte]

theorem itemBytes_eq (o : Option Half) :
    itemBytes o = flagByte o.isSome :: bytes16 ((o.map BitVec.toNat).getD 0) := by
  cases o <;> rfl

/-- FIND BOARD looks for the lowest place from the start place on whose entry is in the state of the code. -/
theorem Board.find_eq_some {bd : Board} {code start p : Nat} {e : BoardEntry}
    (found : bd.entries[p]? = some e ∧ start ≤ p ∧ e.state.code = code)
    (least : ∀ q d, bd.entries[q]? = some d ∧ start ≤ q ∧ d.state.code = code → p ≤ q) :
    bd.find code start = some p := by
  obtain ⟨he, hs, hc⟩ := found
  have lt := (List.getElem?_eq_some_iff.mp he).1
  rw [Board.find, List.find?_range_eq_some]
  refine ⟨by simp [hs, he, hc], List.mem_range.mpr lt, fun q hq => ?_⟩
  rw [Bool.not_eq_true', Bool.eq_false_iff]
  intro hit
  simp only [Bool.and_eq_true, decide_eq_true_eq, Option.any_eq_true] at hit
  obtain ⟨hsq, d, hd, hcd⟩ := hit
  exact absurd (least q d ⟨hd, hsq, hcd⟩) (by omega)

theorem Board.find_eq_none {bd : Board} {code start : Nat}
    (h : ∀ p e, ¬ (bd.entries[p]? = some e ∧ start ≤ p ∧ e.state.code = code)) : bd.find code start = none := by
  rw [Board.find, List.find?_eq_none]
  intro q _ hit
  simp only [Bool.and_eq_true, decide_eq_true_eq, Option.any_eq_true] at hit
  obtain ⟨hsq, d, hd, hcd⟩ := hit
  exact h q d ⟨hd, hsq, hcd⟩

/-- Settles O54. -/
theorem readsOfOneThing : Obligations.ReadsOfOneThing := by
  intro s a b c zeros time entry
  have entry_eq (e : BoardEntry) : e.bytes s.now = entry e := by
    obtain ⟨key, version, state, info, stamp⟩ := e
    cases state <;> cases info <;>
      simp only [BoardEntry.bytes, EntryState.owner, EntryState.deadline, EntryState.result, Option.map_none,
        Option.bind_none, optTime_none, opt8_none] <;> rfl
  refine ⟨fun opens => ⟨fun h => ?_, fun h queued hq => ?_⟩, fun opens => ?_,
    fun opens => ⟨fun h => ?_, fun h => ⟨fun hj hb => ?_, fun j hj => ⟨fun hb => ?_, fun hb => ?_⟩⟩⟩, fun opens => ?_,
    fun opens => ⟨fun out => ?_, fun ha hb => ⟨fun h => ?_, fun p e hp least => ?_⟩⟩,
    fun opens => ⟨fun h => ?_, fun h => ?_⟩⟩
  · rw [exec_readJob_opens opens, State.onSlot_refused h]
  · have done : s.doneQueued ⟨a.toNat, h⟩ = queued := Bool.eq_iff_iff.mpr ((s.doneQueued_iff _).trans hq.symm)
    rw [exec_readJob_opens opens, State.onSlot_of_lt h, State.busyPort_answer, State.jobResponse, done]
    refine ⟨fun hj => ?_, fun j hj => ?_⟩
    · rw [hj]
      rfl
    · rw [hj]
      dsimp only
      rw [Job.bytes, Stage.readyOrder_bytes, Stage.cancelReason_bytes, withdrawal_bytes, admissionBytes_eq]
      simp only [List.append_assoc]
      rfl
  · rw [exec_readBandMap_opens opens]
    by_cases h : a.toNat < 8
    · by_cases hb : b.toNat ≤ 95
      · rw [State.onSlot_of_lt h, if_pos hb, dif_pos ⟨h, hb⟩, State.busyPort_answer, State.bandMapResponse,
          funext Band.mapBytes_eq]
        rfl
      · rw [State.onSlot_of_lt h, if_neg hb, dif_neg (fun k => hb k.2), State.busyPort_refuse]
    · rw [State.onSlot_refused (Nat.not_lt.mp h), dif_neg (fun k => h k.1)]
  · rw [exec_readDamage_opens opens]
    by_cases ha : a.toNat < 8
    · rw [State.onSlot_of_lt ha, if_neg (by omega), State.busyPort_refuse]
    · rw [State.onSlot_refused (Nat.not_lt.mp ha)]
  · rw [exec_readDamage_opens opens, State.onSlot_of_lt h, if_pos hb, State.busyPort_answer, State.damageResponse, hj]
  · rw [exec_readDamage_opens opens, State.onSlot_of_lt h, if_pos (by omega), State.busyPort_answer,
      State.damageResponse, hj]
    dsimp only
    rw [if_pos hb]
    exact congrArg (fun damage => Host.Outcome.next
      (s.answered ([byteOf j.verdict.code, byteOf j.damagedCount] ++ damage))) (firstDamageBytes_eq j.firstDamage)
  · rw [exec_readDamage_opens opens, State.onSlot_of_lt h, if_pos (by omega), State.busyPort_answer,
      State.damageResponse, hj]
    dsimp only
    rw [if_neg (by omega), kindNibbles_eq]
    rfl
  · rw [exec_readBoard_opens opens, State.busyPort_answer, State.busyPort_refuse, State.boardResponse]
    cases s.board.entries[nat16 a b]? with
    | none => rfl
    | some e =>
      rw [entryBytes, entry_eq]
      rfl
  · rw [exec_findBoard_opens opens, if_neg (by omega), State.busyPort_refuse]
  · rw [exec_findBoard_opens opens, if_pos ⟨ha, hb⟩, State.busyPort_answer, State.findResponse, Board.find_eq_none h]
    rfl
  · rw [exec_findBoard_opens opens, if_pos ⟨ha, hb⟩, State.busyPort_answer, State.findResponse,
      Board.find_eq_some hp least, Option.bind_some, hp.1, entryBytes, entry_eq]
    rfl
  · rw [exec_readPeer_opens opens, dif_neg (by omega), State.busyPort_refuse]
  · rw [exec_readPeer_opens opens, dif_pos h, State.busyPort_answer, State.peerResponse,
      optTime_heard]
    simp only [itemBytes_eq, List.append_assoc]
    rfl

end Sys2Proof.Machine
end

section
/-! PROOF of O32: a fragment that fails a check is dropped and marks its band. -/

namespace Sys2Proof.Machine

variable {s : State} {key : PlateKey} {version band part length : Nat} {last : Bool}

/-! ## A FRAGMENT header with every field in its range (R90, R183) -/

/-- The two bytes of a length give it back. -/
theorem nat16_bytes {n : Nat} (h : n < 65536) : nat16 (byteOf (n / 256)) (byteOf n) = n := by
  have low : (byteOf n).toNat = n % 256 := BitVec.toNat_ofNat _ _
  rw [nat16, byteOf_toNat (n / 256) (by omega), low]
  omega

/-- The part byte holds the part number and, in bit 7, the last-part flag. -/
theorem partByte (hp : part ≤ 15) :
    (byteOf ((if last then 128 else 0) + part)).toNat % 128 = part ∧
    (byteOf ((if last then 128 else 0) + part)).getLsbD 7 = last := by
  have bound : ∀ (b : Bool) (p : Fin 16), (byteOf ((if b then 128 else 0) + p.val)).toNat % 128 = p.val ∧
      (byteOf ((if b then 128 else 0) + p.val)).getLsbD 7 = b := by decide
  exact bound last ⟨part, by omega⟩

theorem judgeHeader_fragment (h : (Header.fragment key version band part last length).inRange) :
    judgeHeader (Header.fragment key version band part last length).encode =
      some (.fragment key version band part last length) := by
  obtain ⟨hk, hv, hb, hp, hl⟩ := h
  have decoded : decodeKey (byteOf (key.title * 16 + key.sep.code)) (byteOf key.edition) (byteOf key.page) = some key :=
    decodeKey_eq_some.mpr ⟨hk, rfl⟩
  have version_byte := byteOf_toNat version (by omega)
  have band_byte := byteOf_toNat band (by omega)
  obtain ⟨part_bits, last_bit⟩ := partByte (last := last) hp
  have length_bytes := nat16_bytes (n := length) (by omega)
  rw [judgeHeader, Header.encode, checked_append, if_pos rfl]
  simp only [headerFields, PlateKey.encode, byteAt, List.cons_append, List.nil_append, List.getD_cons_zero,
    List.getD_cons_succ, if_true, decoded, Option.bind_some, version_byte, band_byte, part_bits, last_bit, length_bytes]
  rw [if_neg (by decide)]
  exact if_pos ⟨hb, hp, hl⟩

theorem payloadBytes_fragment (h : length ≤ 4096) :
    payloadBytes (Header.fragment key version band part last length).encode = length + 2 :=
  congrArg (· + 2) (nat16_bytes (n := length) (by omega))

/-- The fragment that a whole record, or a record cut short, brings. -/
def State.arrived (s : State) (h : Header) (band part : Nat) (last : Bool) (length : Nat) (got : List Byte)
    (cut : Bool) : Arrived :=
  { header := h.encode, band := band, part := part, last := last, payload := got.take length
    crc := s.crcBytes length got, cut := cut }

theorem State.completeFragment_of (h : (Header.fragment key version band part last length).inRange) (got : List Byte)
    (cut : Bool) :
    s.completeFragment (Header.fragment key version band part last length).encode got cut =
      ((if cut then s.setFreeCount (s.freeCount + 2) else s).setFraming .hunting).takeArrived key version
        (s.arrived (.fragment key version band part last length) band part last length got cut) := by
  rw [State.completeFragment, headerFields_of_judgeHeader (judgeHeader_fragment h)]
  rfl

/-! ## Attribution and the admission cursor (R92 to R94) -/

/-- A fragment that the job takes: in RECEIVING with its end not admitted, of a band of the plate, past the cursor. -/
theorem State.takeArrived_taken {n : Slot} {j : Job} {a : Arrived} (hf : s.jobFor key version = some n)
    (hj : s.job n = some j) (hs : j.stage = .receiving) (he : j.endAdmitted = false) (hb : a.band < j.bands.length)
    (hc : ∀ c, j.admission = some c → c.band < a.band ∨ (c.band = a.band ∧ c.part < a.part ∧ c.last = false)) :
    s.takeArrived key version a = s.checkFragment n j a := by
  have takes : j.takesRecords = true := by simp [Job.takesRecords, hs, he]
  have past : j.isDuplicate a.band a.part = false := by
    unfold Job.isDuplicate
    cases hadm : j.admission with
    | none => rfl
    | some c =>
      obtain lt | ⟨eq, lt, notLast⟩ := hc c hadm
      · simp; omega
      · simp [notLast]; omega
  rw [State.takeArrived, hf]
  simp only [hj]
  rw [State.judgeArrived, if_neg (by simp [takes]), if_neg (show ¬ j.bandCount ≤ a.band from Nat.not_le.mpr hb),
    if_neg (by simp [past])]

/-! ## A fragment dropped (R95 to R97, R140 to R142) -/

/-- The first-damage record after a mark by a fragment: created by the first mark, its count raised by each. -/
theorem firstDamageAfter_eq (old : Option FirstDamage) (kind : DamageKind) (capture : Option (List Byte)) :
    firstDamageAfter old band kind (some part) capture = match old with
      | some r => { r with counts := r.counts.raise kind }
      | none => { kind := kind, band := band, part := some part, capture := capture,
                  counts := KindCounts.zero.raise kind } := by
  cases old <;> rfl

/-- The job of a dropped fragment: the cursor at the fragment, its band marked. -/
def Job.dropped (j : Job) (a : Arrived) (kind : DamageKind) : Job :=
  { j with admission := some { band := a.band, part := a.part, last := a.last } }.mark a.band kind (some a.part)
    (some a.capture)

theorem Job.dropped_eq (j : Job) (a : Arrived) (kind : DamageKind) :
    j.dropped a kind =
      { j with
        admission := some { band := a.band, part := a.part, last := a.last }
        bands := j.bands.modify a.band fun b => { b with kind := some (b.kind.getD kind) }
        damagedCount := if (j.band a.band).kind = none then j.damagedCount + 1 else j.damagedCount
        firstDamage := some (match j.firstDamage with
          | some r => { r with counts := r.counts.raise kind }
          | none => { kind := kind, band := a.band, part := some a.part, capture := some a.capture,
                      counts := KindCounts.zero.raise kind }) } := by
  have kinds (o : Option DamageKind) : o.or (some kind) = some (o.getD kind) := by cases o <;> rfl
  rw [Job.dropped, Job.mark, firstDamageAfter_eq]
  simp only [kinds, Option.isNone_iff_eq_none]
  rfl

theorem State.setJob_setJob (s : State) (n : Slot) (j k : Option Job) : (s.setJob n j).setJob n k = s.setJob n k := by
  simp [State.setJob, State.setJobs]

theorem State.moveCursor_dropMarked {n : Slot} {j : Job} (hj : s.job n = some j) (hs : j.stage = .receiving)
    (a : Arrived) (kind : DamageKind) :
    (s.moveCursor n a).dropMarked n a kind = s.setJob n (some (j.dropped a kind)) := by
  rw [State.moveCursor, State.modifyJob_of hj, State.dropMarked, State.markDamage,
    State.modifyJob_of (State.job_setJob_same _ _ _), State.setJob_setJob]
  exact congrArg (fun k => s.setJob n (some k)) (if_pos hs)

/-- What a check that fails comes to: the band marked, and for a full holding queue the overflow noted. -/
theorem State.checkFragment_dropped {n : Slot} {j : Job} (hj : s.job n = some j) (hs : j.stage = .receiving)
    {a : Arrived} {kind : DamageKind}
    (h : (kind = .check ∧ a.failsCrc = true) ∨
      (kind = .fill ∧ a.failsCrc = false ∧ ∃ f ∈ s.settings.fills, f.matches a.payload = true) ∨
      (kind = .overflow ∧ a.failsCrc = false ∧ (∀ f ∈ s.settings.fills, f.matches a.payload = false) ∧
        8192 ≤ (s.receiver.holding.filter HoldingRecord.isFragment).length)) :
    s.checkFragment n j a =
      { s.setJob n (some (j.dropped a kind)) with
        port := if kind = .overflow then s.port.latched .holdingOverflow else s.port
        roll := if kind = .overflow then { s.roll with overflow := true, overflowMark := false } else s.roll } := by
  rw [State.checkFragment, State.moveCursor_dropMarked hj hs, State.moveCursor_dropMarked hj hs,
    State.moveCursor_dropMarked hj hs]
  obtain ⟨rfl, crc⟩ | ⟨rfl, crc, fill⟩ | ⟨rfl, crc, noFill, full⟩ := h
  · rw [if_pos crc]
    rfl
  · rw [if_neg (by simp [crc]),
      if_pos (show ((s.moveCursor n a).settings.fills.any fun f => f.matches a.payload) = true from
      List.any_eq_true.mpr fill)]
    rfl
  · have noMatch : ¬ ((s.moveCursor n a).settings.fills.any fun f => f.matches a.payload) = true :=
      fun e => by
        obtain ⟨f, hf, hm⟩ := List.any_eq_true.mp e
        exact absurd hm (by simp [noFill f hf])
    rw [if_neg (by simp [crc]), if_neg noMatch,
      if_pos (show (s.moveCursor n a).receiver.isFull = true from decide_eq_true full)]
    rfl

/-! ## Fill patterns (R96) -/

theorem FillPattern.masked_getElem (f : FillPattern) {payload : List Byte} (h : 64 ≤ payload.length) {i k : Nat}
    (hi : i < 8) (hk : k < 8) :
    (f.masked payload)[8 * i + k]? =
      if (f.mask.getD i 0x00#8).getLsbD k = true then payload[8 * i + k]? else some 0x00#8 := by
  have byte : (8 * i + k) / 8 = i ∧ (8 * i + k) % 8 = k := by omega
  have inside : 8 * i + k < payload.length := by omega
  rw [FillPattern.masked, List.getElem?_map, List.getElem?_range (by omega), Option.map_some, byte.1, byte.2,
    List.getElem?_eq_getElem inside, byteAt, byteAt, List.getD_eq_getElem _ _ inside]
  split <;> rfl

/-- The masked payload is the only list of 64 bytes with its bytes. -/
theorem FillPattern.eq_masked (f : FillPattern) {payload kept : List Byte} (h : 64 ≤ payload.length)
    (hl : kept.length = 64)
    (hb : ∀ i k, i < 8 → k < 8 → kept[8 * i + k]? =
      if (f.mask.getD i 0x00#8).getLsbD k = true then payload[8 * i + k]? else some 0x00#8) :
    kept = f.masked payload := by
  refine List.ext_getElem? fun m => ?_
  by_cases lt : m < 64
  · have split := Nat.div_add_mod m 8
    rw [← split, hb _ _ (by omega) (by omega), f.masked_getElem h (by omega) (by omega)]
  · rw [List.getElem?_eq_none (by omega), List.getElem?_eq_none (by simp [FillPattern.masked]; omega)]

theorem FillPattern.matches_iff (f : FillPattern) (payload : List Byte) :
    f.matches payload = true ↔ f.enabled = true ∧ 64 ≤ payload.length ∧ crc16 (f.masked payload) = f.crc := by
  simp [FillPattern.matches, and_assoc]

/-! ## The commands (R89) -/

/-- The payload and the CRC bytes of a whole fragment. -/
theorem State.arrived_whole (s : State) (h : Header) (payload : List Byte) (hi lo : Byte) :
    s.arrived h band part last payload.length (payload ++ [hi, lo]) false =
      { header := h.encode, band := band, part := part, last := last, payload := payload, crc := [hi, lo],
        cut := false } := by
  simp [State.arrived, State.crcBytes]

theorem exec_fragment_whole {payload : List Byte} {hi lo : Byte}
    (h : (Header.fragment key version band part last payload.length).inRange) (run : s.running = true)
    (framing : s.receiver.framing = .header []) :
    exec (.fragment ((Header.fragment key version band part last payload.length).encode ++ payload ++ [hi, lo])) s =
      .next ((s.setFraming .hunting).takeArrived key version
        { header := (Header.fragment key version band part last payload.length).encode, band := band, part := part,
          last := last, payload := payload, crc := [hi, lo], cut := false }) := by
  have body : (payload ++ [hi, lo]).length =
      payloadBytes (Header.fragment key version band part last payload.length).encode := by
    obtain ⟨-, -, -, -, long⟩ := h
    rw [payloadBytes_fragment long, List.length_append]
    rfl
  rw [exec_fragment, execFragment, State.feed, if_pos run, List.append_assoc,
    feed_fragment s _ _ key version band part payload.length last framing rfl (judgeHeader_fragment h) body,
    State.completeFragment_of h, State.arrived_whole]
  rfl

/-- Bytes that leave a payload short are collected. -/
theorem feed_payload_short (header : List Byte) (rest got : List Byte)
    (h : got.length + rest.length < payloadBytes header) :
    rest.foldl State.feedByte (s.setFraming (.payload header got)) = s.setFraming (.payload header (got ++ rest)) := by
  induction rest generalizing got with
  | nil => simp
  | cons b rest ih =>
    have short : (got ++ [b]).length < payloadBytes header := by
      simp only [List.length_cons, List.length_append, List.length_nil] at h ⊢
      omega
    have step : (s.setFraming (.payload header got)).feedByte b = s.setFraming (.payload header (got ++ [b])) :=
      if_pos short
    rw [List.foldl_cons, step, ih (got ++ [b]) (by simp only [List.length_cons, List.length_append, List.length_nil] at h ⊢; omega),
      List.append_assoc, List.singleton_append]

theorem exec_startMarker_cut {got bytes : List Byte}
    (h : (Header.fragment key version band part last length).inRange) (run : s.running = true)
    (framing : s.receiver.framing = .payload (Header.fragment key version band part last length).encode got)
    (short : got.length + bytes.length < length + 2) :
    exec (.startMarker bytes) s = .next
      ((((s.setFreeCount (s.freeCount + 2)).setFraming .hunting).takeArrived key version
        (s.arrived (.fragment key version band part last length) band part last length (got ++ bytes) true)).setFraming
          (.header [])) := by
  obtain ⟨-, -, -, -, long⟩ := id h
  have fed : s.feed bytes =
      s.setFraming (.payload (Header.fragment key version band part last length).encode (got ++ bytes)) := by
    rw [State.feed, if_pos run]
    conv_lhs => rw [← State.setFraming_self s _ framing]
    exact feed_payload_short _ _ _ (by rwa [payloadBytes_fragment long])
  rw [exec_startMarker, execStartMarker, if_pos run, fed, State.cutShort]
  simp only [State.setFraming_framing, State.completeFragment_of h]
  rfl

/-- A CRC byte that arrived before the cut is captured. -/
theorem State.crcBytes_arrived {got : List Byte} (short : got.length < length + 2) (i : Nat) (x : Byte)
    (h : got[length + i]? = some x) : (s.crcBytes length got)[i]? = some x := by
  have inside := (List.getElem?_eq_some_iff.mp h).1
  obtain rfl : i = 0 := by omega
  simp [State.crcBytes, List.getD_eq_getElem?_getD, show got[length]? = some x from h]

/-- The CRC check of a fragment that arrived whole (R95). -/
theorem Arrived.failsCrc_whole (header payload : List Byte) (hi lo : Byte) :
    Arrived.failsCrc { header := header, band := band, part := part, last := last, payload := payload, crc := [hi, lo],
                       cut := false } = decide (crc16 payload ≠ half hi lo) := rfl

/-- Settles O32. -/
theorem droppedFragmentMarksItsBand : Obligations.DroppedFragmentMarksItsBand := by
  refine ⟨fun s key version band part last payload hi lo n j kind range run framing hf hj hs he hb hc fails => ?_,
    fun s key version band part last length got bytes n j range run framing short hf hj hs he hb hc => ?_,
    fun f payload => ?_⟩
  · intro up
    rw [exec_fragment_whole range run framing, State.takeArrived_taken (s := s.setFraming .hunting) hf hj hs he hb hc,
      State.checkFragment_dropped (s := s.setFraming .hunting) (kind := kind) hj hs, Job.dropped_eq]
    · obtain ⟨rfl, -⟩ | ⟨rfl, -⟩ | ⟨rfl, -⟩ := fails <;> rfl
    · simp only [Arrived.failsCrc_whole, decide_eq_true_eq, decide_eq_false_iff_not, ne_eq, Decidable.not_not]
      exact fails
  · refine ⟨s.crcBytes length (got ++ bytes), rfl,
      State.crcBytes_arrived (by rwa [List.length_append]), ?_⟩
    rw [exec_startMarker_cut range run framing short,
      State.takeArrived_taken (s := (s.setFreeCount (s.freeCount + 2)).setFraming .hunting) hf hj hs he hb hc,
      State.checkFragment_dropped (s := (s.setFreeCount (s.freeCount + 2)).setFraming .hunting) (kind := .check) hj hs
        (.inl ⟨rfl, rfl⟩), Job.dropped_eq]
    rfl
  · rw [FillPattern.matches_iff]
    refine and_congr_right fun _ => and_congr_right fun long => ⟨fun crc => ?_, ?_⟩
    · exact ⟨f.masked payload, by simp [FillPattern.masked], crc, fun i k hi hk => f.masked_getElem long hi hk⟩
    · rintro ⟨kept, hl, crc, hb⟩
      rwa [← f.eq_masked long hl hb]

end Sys2Proof.Machine
end

section
/-! PROOF of O19: a peer's record at each of its messages and at its silence. -/

namespace Sys2Proof.Machine

variable {s t : State} {n : Slot} {peer : Station}

/-! ## Orphaning (R54) -/

/-- What an entry shows besides its stamp. -/
def BoardEntry.face (e : BoardEntry) : PlateKey × Nat × EntryState × Option HeaderInfo :=
  (e.key, e.version, e.state, e.info)

/-- An entry of the peer becomes ORPHANED, another stands. -/
def orphanedFace (peer : Station) (x : PlateKey × Nat × EntryState × Option HeaderInfo) :
    PlateKey × Nat × EntryState × Option HeaderInfo :=
  (x.1, x.2.1, if x.2.2.1 = .owned peer then .orphaned peer else x.2.2.1, x.2.2.2)

theorem Board.withStamp_faces (b : Board) : b.withStamp.entries.map BoardEntry.face = b.entries.map BoardEntry.face := by
  unfold Board.withStamp
  split
  · rfl
  · simp only [List.map_map]
    rfl

theorem Board.orphanAt_faces (peer : Station) (b : Board) (i : Nat) :
    (b.orphanAt peer i).entries.map BoardEntry.face = (b.entries.map BoardEntry.face).modify i (orphanedFace peer) := by
  have same (e : BoardEntry) (h : e.state ≠ .owned peer) : orphanedFace peer e.face = e.face := by
    simp [orphanedFace, BoardEntry.face, h]
  unfold Board.orphanAt
  rw [List.modify_eq_set_getElem?, List.getElem?_map]
  cases he : b.entries[i]? with
  | none => rfl
  | some e =>
    by_cases hp : e.state = .owned peer
    · have face : BoardEntry.face { e with state := .orphaned peer, stamp := b.withStamp.stamp } =
          orphanedFace peer e.face := by simp [orphanedFace, BoardEntry.face, hp]
      simp only [hp, if_true, Board.write_eq, List.map_set, Board.withStamp_faces, face]
      rfl
    · have kept : (b.entries.map BoardEntry.face)[i]? = some (orphanedFace peer e.face) := by
        rw [List.getElem?_map, he, same e hp]
        rfl
      simp only [hp, if_false]
      obtain ⟨lt, here⟩ := List.getElem?_eq_some_iff.mp kept
      change _ = (b.entries.map BoardEntry.face).set i (orphanedFace peer e.face)
      rw [← here, List.set_getElem_self lt]

/-- A change made at every place of a list in order is made of every member. -/
theorem List.foldl_range_modify {α : Type} (f : α → α) (l : List α) :
    (List.range l.length).foldl (fun l i => l.modify i f) l = l.map f := by
  have upTo (k i : Nat) : ((List.range k).foldl (fun l i => l.modify i f) l)[i]? =
      if i < k then l[i]?.map f else l[i]? := by
    induction k with
    | zero => simp
    | succ k ih =>
      rw [List.range_succ, List.foldl_append, List.foldl_cons, List.foldl_nil, List.getElem?_modify, ih]
      by_cases eq : k = i
      · simp [eq]
      · simp only [eq, if_false, id_map']
        by_cases lt : i < k
        · simp [lt, Nat.lt_succ_of_lt lt]
        · have : ¬ i < k + 1 := by omega
          simp [lt, this]
  refine List.ext_getElem? fun i => ?_
  rw [upTo, List.getElem?_map]
  split
  · rfl
  · rw [List.getElem?_eq_none (by omega)]
    rfl

theorem Board.orphaned_faces (peer : Station) (b : Board) :
    ((List.range b.entries.length).foldl (Board.orphanAt peer) b).entries.map BoardEntry.face =
      (b.entries.map BoardEntry.face).map (orphanedFace peer) := by
  have steps (l : List Nat) (b : Board) : (l.foldl (Board.orphanAt peer) b).entries.map BoardEntry.face =
      l.foldl (fun l i => l.modify i (orphanedFace peer)) (b.entries.map BoardEntry.face) := by
    induction l generalizing b with
    | nil => rfl
    | cons i l ih => rw [List.foldl_cons, List.foldl_cons, ih, Board.orphanAt_faces]
  rw [steps, ← List.foldl_range_modify, List.length_map]

theorem Board.ownedBy_eq_zero {b : Board} : b.ownedBy peer = 0 ↔ ¬ ∃ e ∈ b.entries, e.state = .owned peer := by
  simp [Board.ownedBy]

/-- Orphaning writes the board and the port alone: every entry of the peer becomes ORPHANED, and ORPHANED is latched if
there was one. -/
theorem State.orphan_eq (s : State) (peer : Station) :
    ∃ b : Board, s.orphan peer =
        { s with
          board := b
          port := if ∃ e ∈ s.board.entries, e.state = .owned peer then s.port.latched .orphaned else s.port } ∧
      b.entries.map BoardEntry.face = (s.board.entries.map BoardEntry.face).map (orphanedFace peer) := by
  by_cases h : ∃ e ∈ s.board.entries, e.state = .owned peer
  · refine ⟨{ (List.range s.board.entries.length).foldl (Board.orphanAt peer) s.board with full := false }, ?_,
      Board.orphaned_faces peer s.board⟩
    rw [State.orphan, if_neg (fun z => Board.ownedBy_eq_zero.mp z h), if_pos h]
    rfl
  · refine ⟨s.board, ?_, ?_⟩
    · rw [State.orphan, if_pos (Board.ownedBy_eq_zero.mpr h), if_neg h]
    · rw [List.map_map]
      refine List.map_congr_left fun e he => ?_
      have other : e.state ≠ .owned peer := fun k => h ⟨e, he, k⟩
      simp [orphanedFace, BoardEntry.face, other]

/-! ## The board and Job Control leave the peer records and clear no latched cause -/

/-- The Roll Unit and the port. -/
def State.rollPort (s : State) : RollUnit × Port := (s.roll, s.port)

theorem State.besides.rollPort (h : s.besides t n) : t.rollPort = s.rollPort := by
  obtain ⟨-, -, -, -, -, -, -, roll, -, -, -, port, -⟩ := h
  exact Prod.ext roll port

theorem State.freeJob_rollPort (s : State) (n : Slot) : (s.freeJob n).rollPort = s.rollPort := by
  cases hj : s.job n with
  | none => rw [State.freeJob, hj]
  | some j => exact (State.freeJob_leave hj).1.rollPort

theorem State.loseClaim_rollPort (s : State) (n : Slot) : (s.loseClaim n).rollPort = s.rollPort :=
  State.freeJob_rollPort _ n

theorem State.imagerCancel_rollPort (s : State) (r : CancelReason) : (s.imagerCancel r).rollPort = s.rollPort := by
  unfold State.imagerCancel
  split
  · dsimp only
    split <;> rfl
  · rfl

theorem State.cancelOwned_rollPort (s : State) (n : Slot) (r : CancelReason) :
    (s.cancelOwned n r).rollPort = s.rollPort := by
  cases hj : s.job n with
  | none => rw [State.cancelOwned, hj]; rfl
  | some j =>
    rw [State.cancelOwned, hj, Option.map_some]
    cases j.stage with
    | imaging => exact State.imagerCancel_rollPort s r
    | cancelling _ => rfl
    | _ => exact (State.enterCancelling_ends hj r).1.rollPort

theorem State.supersedeJob_rollPort (s : State) (n : Slot) : (s.supersedeJob n).rollPort = s.rollPort := by
  unfold State.supersedeJob
  split
  · exact State.loseClaim_rollPort s n
  · exact State.cancelOwned_rollPort s n .superseded
  · rfl

theorem State.noticeSuperseded_rollPort (s : State) (key : PlateKey) (version : Nat) :
    (s.noticeSuperseded key version).rollPort = s.rollPort := by
  refine List.foldlRecOn (motive := fun t : State => t.rollPort = s.rollPort) allSlots _ rfl fun t ht n _ => ?_
  split
  · exact (State.supersedeJob_rollPort t n).trans ht
  · exact ht

theorem State.loseContending_rollPort (s : State) (key : PlateKey) (version : Nat) :
    (s.loseContending key version).rollPort = s.rollPort := by
  unfold State.loseContending
  split
  · rfl
  · split
    · exact State.loseClaim_rollPort s _
    · rfl

/-- The Roll Unit stands, and what was latched stays so. -/
def State.keepsHeard (s t : State) : Prop :=
  t.roll = s.roll ∧ ∀ m, s.port.latch &&& m = m → t.port.latch &&& m = m

theorem State.keepsHeard_of (h : t.rollPort = s.rollPort) : s.keepsHeard t := by
  obtain ⟨roll, port⟩ := Prod.mk.inj h
  exact ⟨roll, fun m hm => by rwa [port]⟩

theorem State.boardHasNoRoom_keepsHeard (s : State) : s.keepsHeard s.boardHasNoRoom :=
  ⟨rfl, fun _ hm => BitVec.or_and_of_and hm _⟩

theorem State.noticeOwned_rollPort (s : State) (key : PlateKey) (version : Nat) (owner : Station) :
    (s.noticeOwned key version owner).rollPort = s.rollPort := by
  unfold State.noticeOwned
  split
  · rfl
  · exact State.loseContending_rollPort s key version

theorem State.takeClaim_keepsHeard (s : State) (key : PlateKey) (version : Nat) :
    s.keepsHeard (s.takeClaim peer key version none) := by
  have told (t : State) (h : t.rollPort = s.rollPort) (b : Board) :
      s.keepsHeard ((t.setBoard b).noticeOwned key version peer) :=
    State.keepsHeard_of ((State.noticeOwned_rollPort _ key version peer).trans h)
  unfold State.takeClaim
  dsimp only
  split
  · split
    · exact told s rfl _
    · exact s.boardHasNoRoom_keepsHeard
  · split
    · exact State.keepsHeard_of rfl
    · split
      · exact told _ (s.noticeSuperseded_rollPort key version) _
      · split
        · exact State.keepsHeard_of rfl
        · split
          · exact told s rfl _
          · exact told s rfl _
          · exact told s rfl _
          · exact ⟨rfl, fun _ hm => hm⟩
          · exact ⟨rfl, fun _ hm => hm⟩

theorem State.takeDone_keepsHeard (s : State) (key : PlateKey) (version : Nat) (outcome : DoneOutcome) (damaged : Nat)
    (first : Option DamageKind) : s.keepsHeard (s.takeDone peer key version outcome damaged first) := by
  have told (t : State) (h : s.keepsHeard t) (b : Board) : s.keepsHeard (t.boardDone b key version) := by
    obtain ⟨roll, port⟩ := Prod.mk.inj (State.loseContending_rollPort (t.setBoard { b with full := false }) key version)
    exact ⟨roll.trans h.1, fun m hm => by rw [State.boardDone, State.noticeDone, port]; exact h.2 m hm⟩
  have refl : s.keepsHeard s := State.keepsHeard_of rfl
  have anomaly : s.keepsHeard s.boardAnomaly := ⟨rfl, fun _ hm => hm⟩
  unfold State.takeDone
  dsimp only
  split
  · split
    · exact told s refl _
    · exact s.boardHasNoRoom_keepsHeard
  · split
    · exact refl
    · split
      · exact told _ (State.keepsHeard_of (s.noticeSuperseded_rollPort key version)) _
      · split
        · exact refl
        · split
          · exact told _ anomaly _
          · exact told _ anomaly _
          · split
            · exact told s refl _
            · exact anomaly
          · split
            · exact told s refl _
            · exact anomaly
          · exact anomaly

/-! ## Records (R33, R34, R38) -/

theorem State.peer_setPeer_other (s : State) {k : Station} (h : k ≠ peer) (p : Peer) :
    (s.setPeer peer p).peer k = s.peer k :=
  Vector.getElem_set_ne peer.isLt k.isLt fun e => h (Fin.ext e.symm)

/-- A present peer whose record already has the marks of this moment is heard without a change. -/
theorem State.heardFrom_fresh (h : (s.peer peer).state = .present) (hs : (s.peer peer).silence = some s.silenceDeadline)
    (hm : (s.peer peer).heard = some s.now) : s.heardFrom peer = s.setPeer peer (s.peer peer) := by
  simp only [State.heardFrom, h, ← hs, ← hm]
  rw [← h]

/-- A digest stored and judged, the record at hand. -/
theorem State.judgeDigest_eq (s : State) (n : Station) (d : Half) :
    s.judgeDigest n d =
      { s.setPeer n { s.peer n with
          items := { (s.peer n).items with digest := some d }, digestMismatch := decide (s.loader.digest ≠ some d) } with
        port := if s.loader.digest ≠ some d ∧ (s.peer n).digestMismatch = false then s.port.latched .digestMismatch
          else s.port } := by
  unfold State.judgeDigest
  by_cases h : s.loader.digest ≠ some d ∧ (s.peer n).digestMismatch = false
  · rw [if_pos h]
    exact if_pos (by simp [h.1, h.2])
  · rw [if_neg h]
    refine if_neg fun e => h ?_
    simpa using e

/-- A digest judged where none was found to differ before. -/
theorem State.judgeDigest_fresh (h : (s.peer peer).digestMismatch = false) (d : Half) :
    s.judgeDigest peer d =
      { s.setPeer peer { s.peer peer with
          items := { (s.peer peer).items with digest := some d }, digestMismatch := decide (s.loader.digest ≠ some d) } with
        port := if s.loader.digest ≠ some d then s.port.latched .digestMismatch else s.port } := by
  rw [State.judgeDigest_eq]
  by_cases differs : s.loader.digest ≠ some d
  · rw [if_pos differs, if_pos ⟨differs, h⟩]
  · rw [if_neg differs, if_neg (fun e => differs e.1)]

/-- A message other than JOIN and LEAVE leaves a peer that is heard PRESENT, with the marks of this moment. -/
def State.heardAs (s t : State) (n : Station) : Prop :=
  (t.peer n).state = (s.peer n).state ∧ (t.peer n).silence = (s.peer n).silence ∧ (t.peer n).heard = (s.peer n).heard ∧
  (∀ k, k ≠ n → t.peer k = s.peer k) ∧ ∀ m, s.port.latch &&& m = m → t.port.latch &&& m = m

theorem State.keepsHeard.heardAs (h : s.keepsHeard t) (n : Station) : s.heardAs t n := by
  have peers (k : Station) : t.peer k = s.peer k := State.peer_congr h.1 k
  exact ⟨by rw [peers], by rw [peers], by rw [peers], fun k _ => peers k, h.2⟩

theorem State.heardAs.setPeer {p : Peer} (h : p.state = (s.peer peer).state) (hs : p.silence = (s.peer peer).silence)
    (hm : p.heard = (s.peer peer).heard) : s.heardAs (s.setPeer peer p) peer := by
  refine ⟨?_, ?_, ?_, fun k hk => s.peer_setPeer_other hk p, fun _ hm => hm⟩ <;> rwa [State.peer_setPeer]

theorem State.heardAs.trans {u : State} (h : s.heardAs t peer) (k : t.heardAs u peer) : s.heardAs u peer := by
  obtain ⟨state, silence, mark, others, latch⟩ := h
  obtain ⟨state', silence', mark', others', latch'⟩ := k
  exact ⟨state'.trans state, silence'.trans silence, mark'.trans mark, fun m hm => (others' m hm).trans (others m hm),
    fun m hm => latch' m (latch m hm)⟩

theorem State.judgeDigest_heardAs (s : State) (d : Half) : s.heardAs (s.judgeDigest peer d) peer := by
  have stored := State.heardAs.setPeer (s := s) (peer := peer)
    (p := { s.peer peer with
      items := { (s.peer peer).items with digest := some d }, digestMismatch := decide (s.loader.digest ≠ some d) })
    rfl rfl rfl
  obtain ⟨state, silence, mark, others, latch⟩ := stored
  rw [State.judgeDigest_eq]
  refine ⟨state, silence, mark, others, fun m hm => ?_⟩
  dsimp only
  split
  · exact BitVec.or_and_of_and hm _
  · exact hm

/-- An item of a peer whose joining flag is set disowns no one. -/
theorem State.takeItem_heardAs (h : (s.peer peer).joining = true) (slot : Nat) (item : Half) :
    s.heardAs (s.takeItem peer slot item) peer := by
  unfold State.takeItem
  dsimp only
  split
  case h_2 =>
    rw [if_neg (by simp [State.disowned, State.peer_setPeer, h])]
    exact State.heardAs.setPeer rfl rfl rfl
  case h_6 => exact s.judgeDigest_heardAs item
  all_goals exact State.heardAs.setPeer rfl rfl rfl

theorem State.takeRoll_heardAs (h : (s.peer peer).joining = true) (counter slot : Nat) (item : Half) :
    s.heardAs (s.takeRoll peer counter slot item) peer := by
  have noted := State.heardAs.setPeer (s := s) (peer := peer) (p := (s.peer peer).noteCounter counter) rfl rfl rfl
  exact noted.trans (State.takeItem_heardAs (by rw [State.peer_setPeer]; exact h) slot item)

/-! ## The messages of a peer (R34 to R38) -/

/-- The record of a peer heard for the first time (R33). -/
def State.refreshed (s : State) : Peer :=
  { Peer.unknown with
    state := .present, joining := true
    silence := some (s.now + s.settings.silenceLimit * s.settings.rollPeriod), heard := some s.now }

/-- The station that has heard a peer for the first time. -/
def State.joinedBy (s : State) (n : Station) : State :=
  { s with roll := { s.roll with peers := s.roll.peers.set n s.refreshed }, port := s.port.latched .peerJoined }

theorem State.heardFrom_absent (h : (s.peer peer).state = .absent) : s.heardFrom peer = s.joinedBy peer := by
  simp only [State.heardFrom, h]
  rfl

theorem State.joinedBy_peer (s : State) (n : Station) : (s.joinedBy n).peer n = s.refreshed :=
  State.peer_setPeer (s.latch .peerJoined) n s.refreshed

theorem State.joinedBy_setPeer (s : State) (n : Station) (p : Peer) :
    (s.joinedBy n).setPeer n p = (s.latch .peerJoined).setPeer n p :=
  State.setPeer_setPeer (s.latch .peerJoined) n s.refreshed p

theorem State.heardFrom_joinedBy (s : State) (n : Station) : (s.joinedBy n).heardFrom n = s.joinedBy n := by
  have fresh := State.joinedBy_peer s n
  rw [State.heardFrom_fresh (by rw [fresh]; rfl) (by rw [fresh]; rfl) (by rw [fresh]; rfl), fresh]
  exact State.setPeer_setPeer (s.latch .peerJoined) n s.refreshed s.refreshed

/-- A message other than JOIN and LEAVE, from a peer that is not LOST, is taken by what it leaves of the record first. -/
theorem State.takePeerMessage_heard {u : State} {m : Msg} (hl : m ≠ .leave) (hj : ∀ d, m ≠ .join d)
    (hs : (s.peer peer).state ≠ .lost) (hu : (u.peer peer).state ≠ .lost) (e : s.heardFrom peer = u.heardFrom peer) :
    s.takePeerMessage peer m = u.takePeerMessage peer m := by
  cases m with
  | join d => exact absurd rfl (hj d)
  | leave => exact absurd rfl hl
  | _ => simp only [State.takePeerMessage, if_neg hs, if_neg hu, e]

/-- What a message of a peer heard for the first time leaves of its record, once it is handed on. -/
theorem State.takePeerMessage_joinedBy {m : Msg} (hl : m ≠ .leave) (hj : ∀ d, m ≠ .join d) :
    (s.joinedBy peer).heardAs ((s.joinedBy peer).takePeerMessage peer m) peer := by
  have known : ((s.joinedBy peer).peer peer).state ≠ .lost := by rw [State.joinedBy_peer]; simp [State.refreshed]
  have joining : ((s.joinedBy peer).peer peer).joining = true := by rw [State.joinedBy_peer]; rfl
  cases m with
  | join d => exact absurd rfl (hj d)
  | leave => exact absurd rfl hl
  | roll counter slot item =>
    simp only [State.takePeerMessage, if_neg known, State.heardFrom_joinedBy]
    exact State.takeRoll_heardAs joining counter slot item
  | claim key version bid =>
    simp only [State.takePeerMessage, if_neg known, State.heardFrom_joinedBy]
    exact (State.takeClaim_keepsHeard _ key version).heardAs peer
  | done key version outcome damaged first =>
    simp only [State.takePeerMessage, if_neg known, State.heardFrom_joinedBy]
    exact (State.takeDone_keepsHeard _ key version outcome damaged first).heardAs peer

theorem State.takeJoin_refreshed (s : State) (h : (s.peer peer).state ≠ .present) (d : Half) :
    s.takeJoin peer d = (s.joinedBy peer).judgeDigest peer d := by
  rw [State.takeJoin, if_neg h]
  rfl

theorem State.takeJoin_restart (h : (s.peer peer).state = .present) (d : Half) :
    s.takeJoin peer d = ((s.orphan peer).joinedBy peer).judgeDigest peer d := by
  rw [State.takeJoin, if_pos h]
  rfl

/-- A record with the item of a ROLL stored as its slot gives (R30, R38). -/
def Peer.withItem (p : Peer) (slot : Nat) (item : Half) (digest : Option Half) (owned : Nat) : Peer :=
  match slot with
  | 1 => { p with items := { p.items with bid := some item } }
  | 3 => { p with items := { p.items with presentMap := some item } }
  | 5 => { p with
      items := { p.items with platesOwned := some item }
      ownedMismatch := if item.toNat = owned then p.ownedMismatch else min (p.ownedMismatch + 1) 255 }
  | 7 => { p with items := { p.items with platesHeld := some item } }
  | 9 => { p with items := { p.items with damageTotal := some item } }
  | 11 => { p with
      items := { p.items with digest := some item }
      digestMismatch := decide (digest ≠ some item) }
  | _ => { p with items := { p.items with condition := some item }, joining := item.getLsbD 0 }

/-- An item that disowns no one is stored; a digest that is the first to differ is latched. -/
theorem State.takeItem_stored {slot : Nat} (h : slot ≤ 11) {item : Half}
    (kept : slot = 3 → (s.setPeer peer { s.peer peer with
      items := { (s.peer peer).items with presentMap := some item } }).disowned peer item = false) :
    s.takeItem peer slot item =
      { s.setPeer peer ((s.peer peer).withItem slot item s.loader.digest (s.board.ownedBy peer)) with
        port := if slot = 11 ∧ s.loader.digest ≠ some item ∧ (s.peer peer).digestMismatch = false
          then s.port.latched .digestMismatch else s.port } := by
  by_cases digest : slot = 11
  · subst digest
    change s.judgeDigest peer item = _
    rw [State.judgeDigest_eq]
    simp only [true_and]
    rfl
  · rw [if_neg fun e => digest e.1]
    by_cases map : slot = 3
    · subst map
      exact if_neg (by simp [kept])
    · obtain rfl | rfl | rfl | rfl | rfl | rfl | rfl | rfl | rfl | rfl : slot = 0 ∨ slot = 1 ∨ slot = 2 ∨ slot = 4 ∨
          slot = 5 ∨ slot = 6 ∨ slot = 7 ∨ slot = 8 ∨ slot = 9 ∨ slot = 10 := by omega
      all_goals rfl

/-- The station that takes an accepted message of another: the window is over, and TAKEN rises (R10, R17). -/
def State.taking (s : State) : State :=
  { s with link := { s.link with phase := .waiting }, port := s.port.counted .taken }

theorem exec_spoilWindowEnd_taken {m : Msg} (h : s.link.phase = .spoil .receiver false (some (peer, m)))
    (other : peer ≠ s.settings.station) :
    exec (.spoilWindowEnd false) s = .next (s.taking.takePeerMessage peer m) := by
  rw [exec_spoilWindowEnd_heard h, if_neg other]
  rfl

/-- Settles O19. -/
theorem peerRecordFollowsItsPeer : Obligations.PeerRecordFollowsItsPeer := by
  refine ⟨fun s n m hp other unheard => ?_, fun s n hp other present => ?_, fun s n d hp other present => ?_,
    fun s n counter slot item hp other present hslot kept => ?_, fun s n deadline hd past => ?_⟩
  · refine ⟨fun d hm => ?_, fun absent hm => ?_, fun absent hl hj => ?_⟩
    · subst hm
      rw [exec_spoilWindowEnd_taken hp other, State.takePeerMessage, State.takeJoin_refreshed s.taking unheard,
        State.judgeDigest_fresh (by rw [State.joinedBy_peer]; rfl), State.joinedBy_setPeer, State.joinedBy_peer]
      rfl
    · subst hm
      rw [exec_spoilWindowEnd_taken hp other, State.takePeerMessage, if_neg (by exact unheard)]
      rfl
    · refine ⟨_, exec_spoilWindowEnd_taken hp other, ?_⟩
      have absent' : (s.taking.peer n).state = .absent := absent
      have first := State.takePeerMessage_heard (s := s.taking) (u := s.taking.joinedBy n) (peer := n) hl hj
        (by rw [absent']; decide)
        (by rw [State.joinedBy_peer]; simp [State.refreshed])
        (by rw [State.heardFrom_absent absent', State.heardFrom_joinedBy])
      obtain ⟨state, silence, mark, others, latch⟩ := State.takePeerMessage_joinedBy (s := s.taking) (peer := n) hl hj
      rw [first]
      refine ⟨exec_spoilWindowEnd_taken (s := s.joinedBy n) hp other, ?_, ?_, ?_, fun k hk => ?_, ?_⟩
      · rw [state, State.joinedBy_peer]; rfl
      · rw [silence, State.joinedBy_peer]; rfl
      · rw [mark, State.joinedBy_peer]; rfl
      · rw [others k hk]; exact State.peer_setPeer_other (s.taking.latch .peerJoined) hk _
      · exact latch _ (BitVec.or_and_right_self s.port.latch 0x0020#16)
  · refine ⟨_, exec_spoilWindowEnd_taken hp other, ?_⟩
    obtain ⟨b, orphaned, faces⟩ := (s.taking.setPeer n Peer.unknown).orphan_eq n
    rw [State.takePeerMessage, if_pos (by exact present), State.takeLeave, orphaned]
    refine ⟨State.peer_setPeer s.taking n Peer.unknown, fun m hm => State.peer_setPeer_other s.taking hm _,
      faces.trans (List.map_map ..), rfl, rfl, rfl, rfl, rfl⟩
  · intro orphanedPort judged
    refine ⟨_, exec_spoilWindowEnd_taken hp other, ?_⟩
    obtain ⟨b, orphaned, faces⟩ := s.taking.orphan_eq n
    rw [State.takePeerMessage, State.takeJoin_restart (s := s.taking) present,
      State.judgeDigest_fresh (by rw [State.joinedBy_peer]; rfl),
      State.joinedBy_setPeer, State.joinedBy_peer, orphaned]
    refine ⟨State.peer_setPeer s.taking n _, fun m hm => State.peer_setPeer_other s.taking hm _,
      faces.trans (List.map_map ..), rfl, rfl, rfl, rfl, rfl⟩
  · intro heard owned record
    rw [exec_spoilWindowEnd_taken hp other,
      State.takePeerMessage_roll (s := s.taking) (n := n) present counter slot item,
      State.takeItem_stored hslot, State.peer_setPeer, State.setPeer_setPeer]
    · rfl
    · intro map
      rw [State.disowned, Bool.eq_false_iff]
      intro disowns
      simp only [State.peer_setPeer, Bool.and_eq_true, decide_eq_true_eq, Bool.not_eq_true', Option.any_eq_true] at disowns
      obtain ⟨⟨⟨-, joined⟩, sent, hs, late⟩, bit⟩ := disowns
      obtain named | joining | unsent | ⟨sent', hs', early⟩ := kept map
      · exact Bool.false_ne_true (bit.symm.trans named)
      · exact Bool.false_ne_true (joined.symm.trans joining)
      · exact Option.some_ne_none sent (hs.symm.trans unsent)
      · obtain rfl : sent = sent' := Option.some.inj (hs.symm.trans hs')
        exact absurd late (Nat.not_lt.mpr early)
  · refine ⟨_, exec_silenceTimerExpiry_at hd, ?_⟩
    obtain ⟨b, orphaned, faces⟩ :=
      ((s.setPeer n { s.peer n with state := .lost, silence := none }).latch .peerLost).orphan_eq n
    rw [State.advanceTo_reached s deadline past, State.loseContact, orphaned]
    exact ⟨State.peer_setPeer s n _, fun m hm => State.peer_setPeer_other s hm _, faces.trans (List.map_map ..), rfl, rfl,
      rfl, rfl, rfl⟩

end Sys2Proof.Machine
end

section
/-! PROOF of O56: RELEASE, DROP, DRAIN, RESUME and RESET STATION. -/

namespace Sys2Proof.Machine

variable {s t : State} {n : Slot} {j : Job} {a : Byte}

/-! ## The commands executed (R176, R179) -/

theorem State.act_true (s effect : State) : s.act true effect = effect.answer [] := if_pos rfl

theorem State.act_false (s effect : State) : s.act false effect = s.refuse := if_neg Bool.false_ne_true

theorem exec_release_opens (h : s.opensTo 0x30#8) :
    exec (.release [a]) s = .next (s.busyPort.onSlot a fun n =>
      s.busyPort.act ((s.job n).any fun j => decide (j.stage = .held))
        ((s.busyPort.modifyJob n fun j => { j with verdict := .released }).enterReady n)) :=
  congrArg _ (State.portCommand_execute h rfl)

theorem exec_drop_opens (h : s.opensTo 0x31#8) :
    exec (.drop [a]) s = .next (s.busyPort.onSlot a fun n =>
      s.busyPort.act (s.job n).isSome (s.busyPort.dropJob n)) :=
  congrArg _ (State.portCommand_execute h rfl)

theorem exec_drain_opens (h : s.opensTo 0x32#8) :
    exec .drain s = .next (s.busyPort.act (decide (s.station.state = .active)) s.busyPort.drain) :=
  congrArg _ (State.portCommand_execute (data := []) h rfl)

theorem exec_resume_opens (h : s.opensTo 0x33#8) : exec .resume s = .next s.busyPort.runResume :=
  congrArg _ (State.portCommand_execute (data := []) h rfl)

theorem exec_resetStation_opens (h : s.opensTo 0x3F#8) : exec .resetStation s = .next s.busyPort.resetPart :=
  congrArg _ (State.portCommand_execute (data := []) h rfl)

/-! ## RELEASE (R78, R84) -/

/-- An Imager that is not IDLE, or that has MEDIA OUT asserted, takes no plate. -/
theorem State.mayChoose_false (h : s.imager.state ≠ .idle ∨ s.imager.mediaOut = true) : s.mayChoose = false := by
  unfold State.mayChoose
  obtain busy | out := h
  · simp [busy]
  · simp [out]

theorem State.arbitrate_of_not (h : s.mayChoose = false) : s.arbitrate = s := if_neg (by simp [h])

/-- A job that is not READY enters READY where the Imager takes no plate. -/
theorem State.enterReady_waits {k : Job} (hj : s.job n = some j) (hr : ∀ o, j.stage ≠ .ready o)
    (kr : ∀ o, k.stage ≠ .ready o) (h : s.mayChoose = false) :
    ∃ jobs, s.jobs.readies jobs n k ∧ (s.setJob n (some k)).enterReady n = s.setJobs jobs := by
  obtain ⟨jobs, readies, e⟩ := State.enterReady_readies hj hr kr
  exact ⟨jobs, readies, e.trans (State.arbitrate_of_not (s := s.setJobs jobs) h)⟩

/-! ## DROP (R80, R83) -/

theorem JobTable.ext_of {x y : JobTable} (h : x.slots = y.slots) (hg : x.generations = y.generations)
    (hr : x.readyCounter = y.readyCounter) : x = y := by
  cases x
  cases y
  cases h
  cases hg
  cases hr
  rfl

/-- The job table, where only one slot's job has changed. -/
theorem State.besides.jobs_eq {k : Option Job} (h : s.besides t n) (hk : t.job n = k) :
    t.jobs = { s.jobs with slots := s.jobs.slots.set n k } := by
  obtain ⟨others, generations, readyCounter, -⟩ := h
  have slots : t.jobs.slots = s.jobs.slots.set n k := by
    refine Vector.ext fun i hi => ?_
    by_cases eq : i = n.val
    · subst eq
      rw [Vector.getElem_set_self]
      exact hk
    · rw [Vector.getElem_set_ne _ _ (Ne.symm eq)]
      exact others ⟨i, hi⟩ fun e => eq (congrArg Fin.val e)
  exact JobTable.ext_of slots generations readyCounter

/-- The Imager's cancel of the plate in hand (R164). -/
theorem State.imagerCancel_eq (hp : s.imager.pendingCancel = none)
    (hs : s.imager.state = .loading ∨ s.imager.state = .ejecting ∨ s.imager.state = .imaging) (r : CancelReason) :
    s.imagerCancel r = { s with
      imager := if s.imager.state = .imaging ∧ s.imager.swathInOutput = false
        then { s.ejecting .scrap with pendingCancel := some r } else { s.imager with pendingCancel := some r } } := by
  have busy : s.imager.state.busy = true := by obtain h | h | h := hs <;> rw [h] <;> rfl
  rw [State.imagerCancel, if_pos (by simp [busy, hp])]
  dsimp only
  split
  · rw [if_pos (by assumption)]
    rfl
  · rw [if_neg (by assumption)]
    rfl

theorem State.imagerCancel_held (hp : s.imager.pendingCancel ≠ none) (r : CancelReason) : s.imagerCancel r = s :=
  if_neg (by simp [hp])

theorem State.dropJob_owned (hj : s.job n = some j) (h : j.standing = .owned) :
    s.dropJob n = s.cancelOwned n .dropped := by
  simp only [State.dropJob, hj, h]

theorem State.dropJob_contending (hj : s.job n = some j) (h : j.standing = .contending) :
    s.dropJob n =
      if j.claimInProgress then (s.withdrawClaim n).modifyJob n fun j => { j with withdrawal := some .drop }
      else s.loseClaim n := by
  simp only [State.dropJob, hj, h]

theorem State.dropJob_queued (hj : s.job n = some j) (h : j.standing = .contending) (hc : j.claimInProgress = false) :
    s.dropJob n = s.loseClaim n := by
  rw [State.dropJob_contending hj h, if_neg (by simp [hc])]

theorem State.dropJob_inProgress (hj : s.job n = some j) (h : j.standing = .contending)
    (hc : j.claimInProgress = true) :
    s.dropJob n = (s.withdrawClaim n).setJob n (some { j with withdrawal := some .drop }) := by
  rw [State.dropJob_contending hj h, if_pos hc]
  exact State.modifyJob_of (s := s.withdrawClaim n) hj _

theorem State.cancelOwned_imaging (hj : s.job n = some j) (h : j.stage = .imaging) (r : CancelReason) :
    s.cancelOwned n r = s.imagerCancel r := by
  simp only [State.cancelOwned, hj, Option.map_some, h]

theorem State.cancelOwned_cancelling {reason : CancelReason} (hj : s.job n = some j) (h : j.stage = .cancelling reason)
    (r : CancelReason) : s.cancelOwned n r = s := by
  simp only [State.cancelOwned, hj, Option.map_some, h]

/-- A command whose effect leaves the port answers with an empty response. -/
theorem State.besides.answer_port (h : s.busyPort.besides t n) : (t.answer []).port = (s.answered []).port := by
  obtain ⟨-, -, -, -, -, -, -, -, -, -, -, port, -⟩ := h
  rw [State.answer, port]
  rfl

theorem Slot.mk_val (h : a.toNat < 8) : (⟨a.toNat, h⟩ : Slot).val = a.toNat := rfl

/-! ## DRAIN and RESUME (R22 to R24) -/

theorem State.tableEmptied_live (h : ∃ n, s.job n ≠ none) : s.tableEmptied = s := by
  obtain ⟨n, live⟩ := h
  exact if_neg fun e => live ((State.anyJob_false_iff s).mp e.1 n)

theorem State.tableEmptied_empty (h : ∀ n, s.job n = none) (hs : s.station.state = .draining) :
    s.tableEmptied = s.queueLeave :=
  if_pos ⟨(State.anyJob_false_iff s).mpr h, hs⟩

theorem State.resumeDraining_none (hp : s.link.presence = none) : s.resumeDraining = s.enter .active := by
  simp only [State.resumeDraining, hp]

/-- A LEAVE in the presence place is withdrawn by RESUME, or asked to withdraw with the resume pending (R14, R24). -/
theorem State.resumeDraining_leave {q : Queued} (hp : s.link.presence = some q) (hq : q.msg = .leave) :
    s.resumeDraining =
      if q.inProgress then
        (s.setLink { s.link with presence := some { q with withdrawal := true } }).setStation
          { s.station with resumePending := true }
      else (s.setLink { s.link with presence := none }).enter .active := by
  have withdrawn : s.link.withdraw .presence = if q.inProgress
      then { s.link with presence := some { q with withdrawal := true } } else { s.link with presence := none } := by
    simp only [Link.withdraw, Link.at, hp]
    rfl
  simp only [State.resumeDraining, hp, if_pos hq, withdrawn]
  split
  · rfl
  · rfl

theorem State.runResume_draining (h : s.station.state = .draining) : s.runResume = s.resumeDraining.answer [] := by
  rw [State.runResume, h]
  rfl

theorem State.runResume_detached (h : s.station.state = .detached) : s.runResume = s.startJoining.answer [] := by
  rw [State.runResume, h]
  rfl

theorem State.runResume_refused (h : s.station.state ∈ [.barred, .joining, .active, .halted]) :
    s.runResume = s.refuse := by
  unfold State.runResume
  split <;> simp_all

/-- Settles O56. -/
theorem actionCommands : Obligations.ActionCommands := by
  intro s
  refine ⟨fun a opens h => ⟨fun j hj held idle => ?_, fun none_held => ?_⟩, fun a h => ⟨fun opens => ?_, fun opens => ?_⟩,
    fun a opens h => ⟨fun hj => ?_, fun j hj => ?_⟩, fun opens => ⟨fun active live => ?_, fun active empty hp => ?_,
    fun other => ?_⟩, fun opens => ⟨fun draining => ⟨fun hp => ?_, fun q hp hq => ⟨fun queued => ?_, fun busy => ?_⟩⟩,
    fun detached => ?_, fun detached hp digest hd => ?_, fun other => ?_⟩, fun opens => ?_⟩
  · have waits : s.busyPort.mayChoose = false := State.mayChoose_false idle
    obtain ⟨jobs, ⟨r, readied, e⟩, ready⟩ := State.enterReady_waits (s := s.busyPort)
      (k := { j with verdict := .released }) hj (by simp [held]) (by simp [held]) waits
    refine ⟨r, readied, ?_⟩
    rw [exec_release_opens opens, State.onSlot_of_lt h, hj, Option.any_some, decide_eq_true held, State.act_true,
      State.modifyJob_of (s := s.busyPort) hj, ready, e]
    rfl
  · have no : ((s.job ⟨a.toNat, h⟩).any fun j => decide (j.stage = .held)) = false := by
      cases hj : s.job ⟨a.toNat, h⟩ with
      | none => rfl
      | some j => exact decide_eq_false (none_held j hj)
    rw [exec_release_opens opens, State.onSlot_of_lt h, no, State.act_false, State.busyPort_refuse]
  · rw [exec_release_opens opens, State.onSlot_refused h]
  · rw [exec_drop_opens opens, State.onSlot_refused h]
  · rw [exec_drop_opens opens, State.onSlot_of_lt h, hj]
    rfl
  · intro with'
    have dropped : exec (.drop [a]) s = .next ((s.busyPort.dropJob ⟨a.toNat, h⟩).answer []) := by
      rw [exec_drop_opens opens, State.onSlot_of_lt h, hj, Option.isSome_some, State.act_true]
    rw [dropped]
    refine ⟨fun contending queued link => ?_, fun q contending claimed hq progress => ?_,
      fun owned => ⟨fun stage => ⟨fun away => ?_, fun c hc slot generation => ?_⟩, fun imaging hs => ⟨fun hp => ?_,
      fun hp => ?_⟩, fun reason cancelling => ?_⟩⟩
    · refine ⟨_, rfl, ?_⟩
      obtain ⟨freed, beside, leave⟩ := State.loseClaim_ends (s := s.busyPort) hj
      rw [Link.withdraw_queued s.busyPort.link _ link] at leave
      rw [State.dropJob_queued (s := s.busyPort) hj contending queued]
      exact ⟨beside.answer_port, freed, State.leaveFollows.slots_none leave (Vector.getElem_set_self _), beside.1, leave⟩
    · rw [State.dropJob_inProgress (s := s.busyPort) hj contending claimed, State.withdrawClaim,
        Link.withdraw_inProgress s.busyPort.link _ hq progress]
      rfl
    · refine ⟨_, rfl, ?_⟩
      rw [State.dropJob_owned (s := s.busyPort) hj owned, State.cancelOwned_enters (s := s.busyPort) hj _ stage]
      obtain ⟨beside, -, ends⟩ := State.enterCancelling_ends (s := s.busyPort) hj .dropped
      exact ⟨beside.answer_port, ends (State.screenerHolds_false (s := s.busyPort) hj away), beside.1⟩
    · refine ⟨_, rfl, ?_⟩
      rw [State.dropJob_owned (s := s.busyPort) hj owned, State.cancelOwned_enters (s := s.busyPort) hj _ stage]
      obtain ⟨beside, waits, -⟩ := State.enterCancelling_ends (s := s.busyPort) hj .dropped
      have holds := (State.screenerHolds_iff (s := s.busyPort) hj).mpr ⟨c, hc, slot, generation⟩
      obtain ⟨ceased, screener⟩ := (s.busyPort.enterCancelling_ceased ⟨a.toNat, h⟩ .dropped).1 holds
      obtain ⟨job, link⟩ := waits holds
      exact ⟨beside.answer_port, beside.jobs_eq job, ceased, link, screener⟩
    · rw [State.dropJob_owned (s := s.busyPort) hj owned, State.cancelOwned_imaging (s := s.busyPort) hj imaging,
        State.imagerCancel_held (s := s.busyPort) hp]
      rfl
    · rw [State.dropJob_owned (s := s.busyPort) hj owned, State.cancelOwned_imaging (s := s.busyPort) hj imaging,
        State.imagerCancel_eq (s := s.busyPort) hp hs]
      rfl
    · rw [State.dropJob_owned (s := s.busyPort) hj owned, State.cancelOwned_cancelling (s := s.busyPort) hj cancelling]
      rfl
  · rw [exec_drain_opens opens, decide_eq_true active, State.act_true, State.drain,
      State.tableEmptied_live (s := s.busyPort.enter .draining) live]
    rfl
  · refine ⟨_, s.link.puts_put .presence .leave, ?_⟩
    rw [exec_drain_opens opens, decide_eq_true active, State.act_true, State.drain,
      State.tableEmptied_empty (s := s.busyPort.enter .draining) empty rfl, State.queueLeave,
      Link.request_empty (l := (s.busyPort.enter .draining).link) hp]
    rfl
  · rw [exec_drain_opens opens, decide_eq_false other, State.act_false, State.busyPort_refuse]
  · rw [exec_resume_opens opens, State.runResume_draining (s := s.busyPort) draining,
      State.resumeDraining_none (s := s.busyPort) hp]
    rfl
  · rw [exec_resume_opens opens, State.runResume_draining (s := s.busyPort) draining,
      State.resumeDraining_leave (s := s.busyPort) hp hq, if_neg (by simp [queued])]
    rfl
  · rw [exec_resume_opens opens, State.runResume_draining (s := s.busyPort) draining,
      State.resumeDraining_leave (s := s.busyPort) hp hq, if_pos busy]
    rfl
  · refine ⟨_, exec_resume_opens opens, ?_⟩
    rw [State.runResume_detached (s := s.busyPort) detached]
    exact ⟨rfl, rfl, rfl, rfl⟩
  · refine ⟨_, Link.puts_put _ .presence (.join digest), ?_⟩
    rw [exec_resume_opens opens, State.runResume_detached (s := s.busyPort) detached, State.startJoining_eq,
      Link.request_empty (l := s.busyPort.link) hp,
      Link.put_withPhase s.link .presence (.join digest) .synchronising]
    have known : s.busyPort.loader.digest.getD 0#16 = digest := congrArg (Option.getD · 0#16) hd
    rw [known]
    rfl
  · rw [exec_resume_opens opens, State.runResume_refused (s := s.busyPort) other, State.busyPort_refuse]
  · rw [exec_resetStation_opens opens]
    rfl

end Sys2Proof.Machine
end

section
/-! PROOF of O51: the end of a hold and of a disposal. -/

namespace Sys2Proof.Machine

variable {s t u : State} {n : Slot} {j k : Job}

/-! ## A retry (R78, R79) -/

/-- A change of a job that keeps its stage leaves the ready orders. -/
theorem JobTable.orders_setSame {t : JobTable} (hj : t.slots[n] = some j) (hk : k.stage = j.stage) :
    ({ t with slots := t.slots.set n (some k) } : JobTable).orders = t.orders := by
  refine List.filterMap_congr fun m _ => ?_
  by_cases e : m = n
  · subst e
    have written : ((t.slots.set m (some k))[m] : Option Job) = some k := Vector.getElem_set_self _
    change Option.bind ((t.slots.set m (some k))[m] : Option Job) _ = _
    rw [written, hj, Option.bind_some, Option.bind_some, hk]
  · have other : ((t.slots.set n (some k))[m] : Option Job) = t.slots[m] :=
      Vector.getElem_set_ne n.isLt m.isLt fun h => e (Fin.ext h.symm)
    change Option.bind ((t.slots.set n (some k))[m] : Option Job) _ = _
    rw [other]

/-- A change of a job that keeps its stage stands beside the renumbering, but for the job's own order. -/
theorem JobTable.withOrder_setSame {t : JobTable} (hj : t.slots[n] = some j) (hk : k.stage = j.stage) :
    ∃ stage, ({ t with slots := t.slots.set n (some k) } : JobTable).withOrder =
      { t.withOrder with slots := t.withOrder.slots.set n (some { k with stage := stage }) } := by
  unfold JobTable.withOrder
  rw [JobTable.orders_setSame hj hk]
  by_cases h : t.readyCounter < Config.max32
  · exact ⟨k.stage, by rw [if_pos h, if_pos h]⟩
  · exact ⟨k.stage.renumbered t.orders, by rw [if_neg h, if_neg h]; simp [Vector.map_set]⟩

/-- A job whose record keeps its stage enters READY: it takes the next ready order, and the arbiter may choose. -/
theorem State.enterReady_same (hj : s.job n = some j) (hk : k.stage = j.stage) :
    ∃ jobs, s.jobs.readies jobs n k ∧ (s.setJob n (some k)).enterReady n = (s.setJobs jobs).arbitrate := by
  obtain ⟨stage, order⟩ := JobTable.withOrder_setSame (t := s.jobs) hj hk
  refine ⟨_, ⟨_, s.jobs.readiedAs_withOrder, rfl⟩, ?_⟩
  unfold State.enterReady State.setJob State.setJobs
  dsimp only
  rw [order]
  congr 1
  simp [State.modifyJob, State.setJob, State.setJobs, State.job]

/-- A retry by an Imager that still holds the plate. -/
theorem State.imagerEnding_retry (hj : s.job n = some j) (busy : s.imager.state.busy = true) :
    ∃ jobs, s.jobs.readies jobs n { j with retries := j.retries + 1 } ∧ s.imagerEnding n .retry = s.setJobs jobs := by
  obtain ⟨jobs, readies, e⟩ := State.enterReady_same (k := { j with retries := j.retries + 1 }) hj rfl
  refine ⟨jobs, readies, ?_⟩
  rw [State.imagerEnding, State.modifyJob_of hj, e]
  exact State.arbitrate_busy busy

/-! ## The endings of a hold (R79, R82, R161) -/

theorem State.imagerEnding_plateEnded (hj : s.job n = some j) :
    s.imagerEnding n .plateEnded = s.endJob n (if j.damagedCount = 0 then .clean else .tinted) := by
  rw [State.imagerEnding, hj]
  rfl

theorem State.imagerEnding_cancelled (hj : s.job n = some j) (r : CancelReason)
    (away : ∀ c, s.screener.current = some c → c.slot = n → c.generation ≠ j.generation) :
    s.endsWithDone (s.imagerEnding n (.cancelled r)) n j r.outcome ∧ s.besides (s.imagerEnding n (.cancelled r)) n := by
  obtain ⟨beside, -, ends⟩ := State.enterCancelling_ends hj r
  exact ⟨ends (State.screenerHolds_false hj away), beside⟩

/-- The count of a disposition (R167). -/
def Disposition.count : Disposition → Count
  | .good => .imaged
  | .scrap => .scrapped
  | .returned => .returned

theorem State.countEject_of {d : Disposition} (h : s.imager.disposition = some d) : s.countEject = s.raise d.count := by
  rw [State.countEject, h]
  cases d <;> rfl

theorem State.countEject_none (h : s.imager.disposition = none) : s.countEject = s := by
  rw [State.countEject, h]

theorem State.reportEnding_of {h : HeldJob} (hh : s.imager.held = some h) (hj : s.job h.slot = some j) :
    s.reportEnding = s.imagerEnding h.slot (s.endingOf j) := by
  simp only [State.reportEnding, hh, hj]

theorem State.reportEnding_none (hh : s.imager.held = none) : s.reportEnding = s := by
  simp only [State.reportEnding, hh]

theorem State.endingOf_good (h : s.imager.disposition = some .good) : s.endingOf j = .plateEnded := if_pos h

theorem State.endingOf_cancelled {r : CancelReason} (h : s.imager.disposition ≠ some .good)
    (hc : s.imager.pendingCancel = some r) : s.endingOf j = .cancelled r := by
  rw [State.endingOf, if_neg h, hc]

theorem State.endingOf_scrap (h : s.imager.disposition ≠ some .good) (hc : s.imager.pendingCancel = none) :
    s.endingOf j = if j.retries < s.settings.retryLimit then .retry else .wasted := by
  rw [State.endingOf, if_neg h, hc]

/-! ## The Imager after the hold (R153, R161, R162) -/

/-- The end of a hold that a fault ends. -/
theorem State.endHold_fault {timeout : Bool}
    (h : timeout = true ∨ s.countEject.reportEnding.imager.pendingFault ≠ none) :
    s.endHold timeout = s.countEject.reportEnding.enterFault := by
  refine if_pos ?_
  rcases h with rfl | h
  · rfl
  · simp [Option.isSome_iff_ne_none.mpr h]

theorem State.endHold_idle (h : s.countEject.reportEnding.imager.pendingFault = none) :
    s.endHold false = s.countEject.reportEnding.enterIdle := by
  refine if_neg ?_
  simp [h]

/-- The choice of the arbiter: nothing changes, or the Imager takes a READY job. -/
theorem State.arbitrate_cases (s : State) :
    s.arbitrate = s ∨ ∃ m k o, s.job m = some k ∧ k.stage = .ready o ∧ s.imager.mediaOut = false ∧ s.running = true ∧
      s.arbitrate = s.takePlate m k := by
  unfold State.arbitrate
  by_cases may : s.mayChoose = true
  · rw [if_pos may]
    cases hm : s.chosenReady with
    | none => exact .inl rfl
    | some m =>
      obtain ⟨k, o, hk, ho⟩ := State.chosenReady_ready hm
      simp only [State.mayChoose, Bool.and_eq_true, Bool.not_eq_true'] at may
      obtain ⟨⟨-, run⟩, out⟩ := may
      refine .inr ⟨m, k, o, hk, ho, out, run, ?_⟩
      simp only [hk]
  · exact .inl (if_neg may)

/-- The words of a DONE read the data path, the station and the link of what it leaves. -/
theorem State.endsWithDone.congr {outcome : DoneOutcome} (h : s.endsWithDone t n j outcome) (hj : u.job n = t.job n)
    (hr : u.ring = t.ring) (hu : u.unpacker = t.unpacker) (hh : u.receiver = t.receiver) (hd : u.damage = t.damage)
    (hs : u.screener = t.screener) (hst : u.station = t.station) (hl : u.link = t.link) :
    s.endsWithDone u n j outcome := by
  obtain ⟨freed, l, puts, leave⟩ := h
  exact ⟨freed.congr hj hr hu (by rw [hh]) hd hs, l, puts, leave.congr (fun _ _ => rfl) rfl hst hl⟩

/-- `v` is what the report of an ending leaves of a hold in `u`: the held job ends with its DONE, the Imager stands. -/
def State.holdEnds (u v : State) (n : Slot) (j : Job) (outcome : DoneOutcome) (port : Port) : Prop :=
  u.endsWithDone v n j outcome ∧ (∀ m, m ≠ n → v.job m = u.job m) ∧ v.imager = u.imager ∧ v.port = port

/-- `v` is what the report of an ending leaves of a hold in `u`: the held job is READY for a retry, the Imager stands. -/
def State.holdRetries (u v : State) (n : Slot) (j : Job) (port : Port) : Prop :=
  u.jobs.readies v.jobs n { j with retries := j.retries + 1 } ∧ v.link = u.link ∧ v.imager = u.imager ∧ v.port = port

/-- Where the Imager is after the end of a hold with no fault: IDLE, or LOADING another job's plate. -/
def State.leftBy (s t : State) (n : Slot) : Prop :=
  ((t.imager.state = .idle ∧ t.imager.held = none) ∨
    (t.imager.state = .loading ∧ ∃ x, t.imager.held = some x ∧ x.slot ≠ n)) ∧
  ((s.imager.mediaOut = true ∨ ∀ m k o, m ≠ n → s.job m = some k → k.stage ≠ .ready o) →
    t.imager.state = .idle ∧ t.imager.held = none)

theorem State.countEject_eq (s : State) : s.countEject = { s with port := s.countEject.port } := by
  unfold State.countEject
  split <;> rfl

/-- The report of a hold's end, from the state in which the eject is counted. -/
theorem State.ending_reported {h : HeldJob} (hh : u.imager.held = some h) (hj : u.job h.slot = some j) :
    u.countEject.reportEnding = u.countEject.imagerEnding h.slot (u.endingOf j) := by
  rw [State.countEject_eq]
  exact State.reportEnding_of (s := { u with port := u.countEject.port }) hh hj

theorem State.holdEnds_of {outcome : DoneOutcome} {port : Port}
    (ends : ({ u with port := port } : State).endsWithDone t n j outcome ∧
      ({ u with port := port } : State).besides t n) :
    u.holdEnds t n j outcome port := by
  obtain ⟨done, others, -, -, -, -, -, -, -, -, -, imager, port, -⟩ := ends
  exact ⟨done, others, imager, port⟩

theorem State.holdEnds_good {h : HeldJob} (hh : u.imager.held = some h) (hj : u.job h.slot = some j)
    (hd : u.imager.disposition = some .good) :
    u.holdEnds u.countEject.reportEnding h.slot j (if j.damagedCount = 0 then .clean else .tinted)
      u.countEject.port := by
  rw [State.ending_reported hh hj, State.endingOf_good hd, State.countEject_eq,
    State.imagerEnding_plateEnded (s := { u with port := u.countEject.port }) hj]
  exact State.holdEnds_of (State.endJob_endsWithDone (s := { u with port := u.countEject.port }) hj _)

theorem State.holdEnds_cancelled {h : HeldJob} (hh : u.imager.held = some h) (hj : u.job h.slot = some j)
    {r : CancelReason} (hd : u.imager.disposition ≠ some .good) (hc : u.imager.pendingCancel = some r)
    (away : ∀ c, u.screener.current = some c → c.slot = h.slot → c.generation ≠ j.generation) :
    u.holdEnds u.countEject.reportEnding h.slot j r.outcome u.countEject.port := by
  rw [State.ending_reported hh hj, State.endingOf_cancelled hd hc, State.countEject_eq]
  exact State.holdEnds_of (State.imagerEnding_cancelled (s := { u with port := u.countEject.port }) hj r away)

theorem State.holdEnds_wasted {h : HeldJob} (hh : u.imager.held = some h) (hj : u.job h.slot = some j)
    (hd : u.imager.disposition ≠ some .good) (hc : u.imager.pendingCancel = none)
    (limit : u.settings.retryLimit ≤ j.retries) :
    u.holdEnds u.countEject.reportEnding h.slot j .wasted (u.countEject.port.latched .wasted) := by
  rw [State.ending_reported hh hj, State.endingOf_scrap hd hc, if_neg (Nat.not_lt.mpr limit), State.countEject_eq]
  obtain ⟨done, others, imager, port⟩ :=
    State.holdEnds_of (State.endJob_endsWithDone (s := { u with port := u.countEject.port }) hj .wasted)
  exact ⟨done, others, imager, congrArg (Port.latched · .wasted) port⟩

theorem State.holdRetries_of {h : HeldJob} (hh : u.imager.held = some h) (hj : u.job h.slot = some j)
    (hd : u.imager.disposition ≠ some .good) (hc : u.imager.pendingCancel = none)
    (limit : j.retries < u.settings.retryLimit) (busy : u.imager.state.busy = true) :
    u.holdRetries u.countEject.reportEnding h.slot j u.countEject.port := by
  rw [State.ending_reported hh hj, State.endingOf_scrap hd hc, if_pos limit, State.countEject_eq]
  obtain ⟨jobs, readies, e⟩ := State.imagerEnding_retry (s := { u with port := u.countEject.port }) hj busy
  rw [e]
  exact ⟨readies, rfl, rfl, rfl⟩

/-- Entry to FAULT after the held job has ended. -/
theorem State.holdEnds.fault {outcome : DoneOutcome} {port : Port} (h : u.holdEnds t n j outcome port) :
    u.endsWithDone t.enterFault n j outcome ∧ t.enterFault.port = port.latched .headFault := by
  obtain ⟨ends, -, -, hp⟩ := h
  exact ⟨ends.congr rfl rfl rfl rfl rfl rfl rfl rfl, congrArg (Port.latched · .headFault) hp⟩

/-- Entry to IDLE after the held job has ended: the arbiter may take the plate of another job. -/
theorem State.holdEnds.idle {outcome : DoneOutcome} {port : Port} (h : u.holdEnds t n j outcome port) :
    u.endsWithDone t.enterIdle n j outcome ∧ u.leftBy t.enterIdle n ∧ t.enterIdle.port = port := by
  obtain ⟨ends, others, imager, hp⟩ := h
  have gone : t.job n = none := ends.1.1
  let w := t.setImager (t.imager.released .idle)
  obtain e | ⟨m, k, o, hk, ready, out, -, e⟩ := w.arbitrate_cases
  · rw [State.enterIdle, e]
    exact ⟨ends.congr rfl rfl rfl rfl rfl rfl rfl rfl, ⟨.inl ⟨rfl, rfl⟩, fun _ => ⟨rfl, rfl⟩⟩, hp⟩
  · have other : m ≠ n := fun eq => by
      subst eq
      exact Option.some_ne_none k (hk.symm.trans gone)
    rw [State.enterIdle, e]
    refine ⟨ends.congr (State.job_modifyJob_other w m n _ (Ne.symm other)) rfl rfl rfl rfl rfl rfl rfl,
      ⟨.inr ⟨rfl, _, rfl, other⟩, fun none_ready => ?_⟩, hp⟩
    rcases none_ready with mediaOut | none_ready
    · exact absurd ((congrArg Imager.mediaOut imager).trans mediaOut)
        (by rw [show t.imager.mediaOut = false from out]; simp)
    · exact absurd ready (none_ready m k o other ((others m other).symm.trans hk))

/-! ## EJECTED and the timeouts of a hold (R158, R160, R161) -/

theorem exec_ejected_ejecting (hs : s.imager.state = .ejecting) : exec .ejected s = .next (s.endHold false) :=
  congrArg Host.Outcome.next (if_pos hs)

variable {outcome : DoneOutcome} {port : Port}

/-- EJECTED where no fault is pending. -/
theorem State.holdEnds.ejected_idle (h : s.holdEnds s.countEject.reportEnding n j outcome port)
    (hs : s.imager.state = .ejecting) (hf : s.imager.pendingFault = none) :
    exec .ejected s = .next s.countEject.reportEnding.enterIdle := by
  obtain ⟨-, -, imager, -⟩ := h
  rw [exec_ejected_ejecting hs, State.endHold_idle ((congrArg Imager.pendingFault imager).trans hf)]

/-- EJECTED with a fault pending. -/
theorem exec_ejected_fault (imager : s.countEject.reportEnding.imager = s.imager)
    (hs : s.imager.state = .ejecting) (hf : s.imager.pendingFault ≠ none) :
    exec .ejected s = .next s.countEject.reportEnding.enterFault := by
  rw [exec_ejected_ejecting hs,
    State.endHold_fault (.inr fun e => hf ((congrArg Imager.pendingFault imager).symm.trans e))]

theorem exec_ejectTimeout_reached {deadline : Nat} (past : deadline ≤ s.now) (h : s.imager.ejectTimer = some deadline)
    (hs : s.imager.state = .ejecting) :
    exec .ejectTimeout s = .next (s.recordFault .ejectTimeout).countEject.reportEnding.enterFault := by
  rw [exec_ejectTimeout_at h hs, State.advanceTo_reached s deadline past, State.endHold_fault (.inl rfl)]

theorem exec_loadTimeout_reached {deadline : Nat} (past : deadline ≤ s.now) (h : s.imager.loadTimer = some deadline)
    (hs : s.imager.state = .loading) :
    exec .loadTimeout s = .next (s.recordFault .loadTimeout).countEject.reportEnding.enterFault := by
  rw [exec_loadTimeout_at h hs, State.advanceTo_reached s deadline past, State.endHold_fault (.inl rfl)]

/-- Both ways in which EJECTED ends a hold with a DONE. -/
theorem State.holdEnds.ejected (h : s.holdEnds s.countEject.reportEnding n j outcome port)
    (hs : s.imager.state = .ejecting) :
    ∃ t : State, exec .ejected s = .next t ∧ s.endsWithDone t n j outcome ∧
      (s.imager.pendingFault = none → s.leftBy t n ∧ t.port = port) ∧
      (s.imager.pendingFault ≠ none →
        (t.imager.state = .fault ∧ t.imager.held = none) ∧ t.port = port.latched .headFault) := by
  by_cases hf : s.imager.pendingFault = none
  · obtain ⟨ends, left, hp⟩ := h.idle
    exact ⟨_, h.ejected_idle hs hf, ends, fun _ => ⟨left, hp⟩, fun fault => absurd hf fault⟩
  · obtain ⟨ends, hp⟩ := h.fault
    exact ⟨_, exec_ejected_fault h.2.2.1 hs hf, ends, fun idle => absurd idle hf, fun _ => ⟨⟨rfl, rfl⟩, hp⟩⟩

/-- The retry of a hold that ends in FAULT. -/
theorem State.holdRetries.fault (h : u.holdRetries t n j port) :
    (u.jobs.readies t.enterFault.jobs n { j with retries := j.retries + 1 } ∧ t.enterFault.link = u.link) ∧
      t.enterFault.port = port.latched .headFault := by
  obtain ⟨readies, link, -, hp⟩ := h
  exact ⟨⟨readies, link⟩, congrArg (Port.latched · .headFault) hp⟩

/-- The count of a held job's scrap or return, cancelled. -/
theorem Disposition.cancelled_count {d : Disposition} {count : Count}
    (h : (d = .scrap ∧ count = Count.scrapped) ∨ (d = .returned ∧ count = Count.returned)) :
    d ≠ .good ∧ d.count = count := by
  rcases h with ⟨rfl, rfl⟩ | ⟨rfl, rfl⟩ <;> exact ⟨Disposition.noConfusion, rfl⟩

/-- EJECTED or an eject timeout that scraps the plate of a job with no cancel pending: the job is readied for a retry, or
ends as wasted. -/
theorem State.scrapReported {h : HeldJob} (hh : u.imager.held = some h) (hj : u.job h.slot = some j)
    (hd : u.imager.disposition ≠ some .good) (hc : u.imager.pendingCancel = none) (busy : u.imager.state.busy = true)
    (hp : u.countEject.port = port) :
    u.countEject.reportEnding.imager = u.imager ∧
      (j.retries < u.settings.retryLimit → u.holdRetries u.countEject.reportEnding h.slot j port) ∧
      (u.settings.retryLimit ≤ j.retries →
        u.holdEnds u.countEject.reportEnding h.slot j .wasted (port.latched .wasted)) := by
  subst hp
  have retried := State.holdRetries_of (u := u) hh hj hd hc
  have wasted := State.holdEnds_wasted (u := u) hh hj hd hc
  refine ⟨?_, fun below => retried below busy, wasted⟩
  rcases Nat.lt_or_ge j.retries u.settings.retryLimit with below | limit
  · exact (retried below busy).2.2.1
  · exact (wasted limit).2.2.1

/-- A fault ends the hold of a job with no cancel pending. -/
theorem State.scrapFaulted {h : HeldJob} (hh : u.imager.held = some h) (hj : u.job h.slot = some j)
    (hd : u.imager.disposition ≠ some .good) (hc : u.imager.pendingCancel = none) (busy : u.imager.state.busy = true)
    (hp : u.countEject.port = port) :
    let t := u.countEject.reportEnding
    (j.retries < u.settings.retryLimit →
      (u.jobs.readies t.enterFault.jobs h.slot { j with retries := j.retries + 1 } ∧ t.enterFault.link = u.link) ∧
        t.enterFault.port = port.latched .headFault) ∧
    (u.settings.retryLimit ≤ j.retries →
      u.endsWithDone t.enterFault h.slot j .wasted ∧
        t.enterFault.port = (port.latched .wasted).latched .headFault) := by
  obtain ⟨-, retried, wasted⟩ := State.scrapReported hh hj hd hc busy hp
  exact ⟨fun below => (retried below).fault, fun limit => (wasted limit).fault⟩

theorem State.countEject_port {d : Disposition} (h : s.imager.disposition = some d) :
    s.countEject.port = s.port.counted d.count := by
  rw [State.countEject_of h]
  rfl

theorem State.countEject_port_none (h : s.imager.disposition = none) : s.countEject.port = s.port := by
  rw [State.countEject_none h]

/-! ## The end of a disposal (R166) -/

/-- With no job READY, the output stopped or the media out, the arbiter chooses nothing. -/
theorem State.arbitrate_nothing (h : s.running = false ∨ s.imager.mediaOut = true ∨
    ∀ m k o, s.job m = some k → k.stage ≠ .ready o) : s.arbitrate = s := by
  obtain e | ⟨m, k, o, hk, ready, out, run, -⟩ := s.arbitrate_cases
  · exact e
  · rcases h with stopped | mediaOut | none_ready
    · exact absurd (run.symm.trans stopped) Bool.noConfusion
    · exact absurd (mediaOut.symm.trans out) Bool.noConfusion
    · exact absurd ready (none_ready m k o hk)

theorem State.disposal_reported (hh : u.imager.held = none) : u.countEject.reportEnding = u.countEject := by
  refine State.reportEnding_none ?_
  rw [State.countEject_eq]
  exact hh

/-- `t` is what the end of a disposal in `s` leaves, with the Imager in `state`. -/
def State.disposalEnds (s t : State) (state : ImagerState) : Prop :=
  t.imager.state = state ∧ t.imager.held = none ∧ t.imager.disposal = none ∧ t.imager.pendingFault = none ∧
    t.imager.ejectLine = none ∧ t.imager.plateRequest = none ∧ t.jobs = s.jobs ∧ t.link = s.link

theorem State.disposal_faulted (hh : u.imager.held = none) (hp : u.countEject.port = port) :
    u.disposalEnds u.countEject.reportEnding.enterFault .fault ∧
      u.countEject.reportEnding.enterFault.port = port.latched .headFault := by
  subst hp
  rw [State.disposal_reported hh]
  obtain ⟨p, e⟩ : ∃ p, u.countEject = { u with port := p } := ⟨_, State.countEject_eq u⟩
  rw [e]
  exact ⟨⟨rfl, rfl, rfl, rfl, rfl, rfl, rfl, rfl⟩, rfl⟩

theorem State.disposal_idle (hh : u.imager.held = none) (hp : u.countEject.port = port)
    (quiet : u.running = false ∨ u.imager.mediaOut = true ∨ ∀ m k o, u.job m = some k → k.stage ≠ .ready o) :
    u.disposalEnds u.countEject.reportEnding.enterIdle .idle ∧ u.countEject.reportEnding.enterIdle.port = port := by
  subst hp
  rw [State.disposal_reported hh]
  obtain ⟨p, e⟩ : ∃ p, u.countEject = { u with port := p } := ⟨_, State.countEject_eq u⟩
  rw [e]
  let w : State := { u with port := p }
  rw [State.enterIdle, State.arbitrate_nothing (s := w.setImager (w.imager.released .idle)) quiet]
  exact ⟨⟨rfl, rfl, rfl, rfl, rfl, rfl, rfl, rfl⟩, rfl⟩

/-- EJECTED is ignored where no eject is awaited. -/
theorem exec_ejected_ignored (h : s.imager.state ≠ .ejecting) :
    exec .ejected s = .next (if s.running = true then { s with port := s.port.counted .lineIgnored } else s) :=
  congrArg Host.Outcome.next (if_neg h)

/-- Settles O51. -/
theorem ejectEndsTheHold : Obligations.EjectEndsTheHold := by
  refine ⟨fun s h j run hh hj => ⟨?_, ?_, ?_, ?_⟩, fun s hh => ⟨?_, ?_⟩, fun s hs => exec_ejected_ignored hs⟩
  · intro hs hd
    have ends := State.holdEnds_good (u := s) hh hj hd
    rw [State.countEject_port hd] at ends
    exact ends.ejected hs
  · intro hs hd hc hf
    have notGood : s.imager.disposition ≠ some .good := by simp [hd]
    have busy : s.imager.state.busy = true := by rw [hs]; rfl
    obtain ⟨imager, -⟩ := State.scrapReported hh hj notGood hc busy rfl
    exact ⟨_, exec_ejected_fault imager hs hf, ⟨rfl, rfl⟩,
      State.scrapFaulted hh hj notGood hc busy (State.countEject_port hd)⟩
  · intro reason hc away outcome
    have spelled : reason.outcome = outcome := by cases reason <;> rfl
    refine ⟨fun d count hs hd counts => ?_, fun deadline past hs timer hd => ?_⟩
    · obtain ⟨notGood, counted⟩ := Disposition.cancelled_count counts
      have notGood : s.imager.disposition ≠ some .good := fun e => notGood (Option.some.inj (hd.symm.trans e))
      refine ⟨?_, fun deadline past timer => ?_⟩
      · have ends := State.holdEnds_cancelled (u := s) hh hj notGood hc away
        rw [State.countEject_port hd, counted, spelled] at ends
        exact ends.ejected hs
      · have ends := State.holdEnds_cancelled (u := s.recordFault .ejectTimeout) hh hj notGood hc away
        rw [State.countEject_port (s := s.recordFault .ejectTimeout) hd, counted, spelled] at ends
        have lastFault := congrArg Imager.lastFault ends.2.2.1
        obtain ⟨done, hp⟩ := ends.fault
        exact ⟨_, exec_ejectTimeout_reached past timer hs, ⟨rfl, rfl⟩, rfl, lastFault, done, hp⟩
    · have ends := State.holdEnds_cancelled (u := s.recordFault .loadTimeout) hh hj
        (fun e => Option.some_ne_none _ (e.symm.trans hd)) hc away
      rw [State.countEject_port_none (s := s.recordFault .loadTimeout) hd, spelled] at ends
      obtain ⟨done, hp⟩ := ends.fault
      exact ⟨_, exec_loadTimeout_reached past timer hs, done, ⟨rfl, rfl⟩, hp⟩
  · intro deadline past
    refine ⟨fun hs timer hd hc => ?_, fun hs timer hd hc => ?_, fun hs timer hd => ?_⟩
    · have notGood : (s.recordFault .loadTimeout).imager.disposition ≠ some .good := fun e =>
        Option.some_ne_none _ (e.symm.trans hd)
      have busy : (s.recordFault .loadTimeout).imager.state.busy = true := congrArg ImagerState.busy hs
      obtain ⟨imager, -⟩ := State.scrapReported (u := s.recordFault .loadTimeout) hh hj notGood hc busy rfl
      exact ⟨_, exec_loadTimeout_reached past timer hs, ⟨rfl, rfl⟩, rfl, congrArg Imager.lastFault imager,
        State.scrapFaulted (u := s.recordFault .loadTimeout) hh hj notGood hc busy (State.countEject_port_none hd)⟩
    · have notGood : (s.recordFault .ejectTimeout).imager.disposition ≠ some .good := fun e =>
        Disposition.noConfusion (Option.some.inj (hd.symm.trans e))
      have busy : (s.recordFault .ejectTimeout).imager.state.busy = true := congrArg ImagerState.busy hs
      obtain ⟨imager, -⟩ := State.scrapReported (u := s.recordFault .ejectTimeout) hh hj notGood hc busy rfl
      exact ⟨_, exec_ejectTimeout_reached past timer hs, ⟨rfl, rfl⟩, rfl, congrArg Imager.lastFault imager,
        State.scrapFaulted (u := s.recordFault .ejectTimeout) hh hj notGood hc busy
          (State.countEject_port (s := s.recordFault .ejectTimeout) hd)⟩
    · have ends := State.holdEnds_good (u := s.recordFault .ejectTimeout) hh hj hd
      rw [State.countEject_port (s := s.recordFault .ejectTimeout) hd] at ends
      have lastFault := congrArg Imager.lastFault ends.2.2.1
      obtain ⟨done, hp⟩ := ends.fault
      exact ⟨_, exec_ejectTimeout_reached past timer hs, ⟨rfl, rfl⟩, rfl, lastFault, done, hp⟩
  · intro d count hd counts hs
    have counted : d.count = count := by
      cases d <;> simp at counts <;> exact counts.symm
    subst counted
    have reported : s.countEject.reportEnding.imager = s.imager := by
      rw [State.disposal_reported hh, State.countEject_eq]
    refine ⟨fun hf => ?_, fun hf quiet => ?_, fun deadline timer past => ?_⟩
    · exact ⟨_, exec_ejected_fault reported hs hf, State.disposal_faulted hh (State.countEject_port hd)⟩
    · refine ⟨_, ?_, State.disposal_idle hh (State.countEject_port hd) quiet⟩
      rw [exec_ejected_ejecting hs, State.endHold_idle ((congrArg Imager.pendingFault reported).trans hf)]
    · exact ⟨_, exec_ejectTimeout_reached past timer hs, State.disposal_faulted (u := s.recordFault .ejectTimeout) hh
        (State.countEject_port (s := s.recordFault .ejectTimeout) hd)⟩
  · intro deadline hs hd timer past
    exact ⟨_, exec_loadTimeout_reached past timer hs, State.disposal_faulted (u := s.recordFault .loadTimeout) hh
      (State.countEject_port_none (s := s.recordFault .loadTimeout) hd)⟩

end Sys2Proof.Machine
end

section
/-! PROOF of O27: the eviction of the board's entries, and a good PLATE HEADER against a board. -/

namespace Sys2Proof.Machine

/-! ## The eviction candidate (R56) -/

/-- The place of an entry's state in the order of eviction, 3 where it is never evicted (R56). -/
def EntryState.sort (x : EntryState) : Nat := match x with
  | .done _ _ _ _ => 0
  | .untaken => 1
  | .orphaned _ => 2
  | .contested _ | .owned _ => 3

theorem EntryState.evictable_iff {x : EntryState} {m : Nat} (hm : m ≤ 2) : x.evictable m = true ↔ x.sort = m := by
  cases x <;> simp [EntryState.evictable, EntryState.sort] <;> omega

variable {entries : List BoardEntry} {b : Board} {i m : Nat} {e : BoardEntry}

/-- One place passed in the search for the oldest entry of a sort keeps that the place found is of the sort. -/
theorem olderPlace_evictable {best : Option Nat}
    (h : ∀ j, best = some j → ∃ d, entries[j]? = some d ∧ d.state.evictable m = true) (x : Nat) :
    ∀ j, olderPlace entries m best x = some j → ∃ d, entries[j]? = some d ∧ d.state.evictable m = true := by
  intro j hj
  unfold olderPlace at hj
  split at hj
  · exact h j hj
  · next d hd =>
    split at hj
    · next hev =>
      split at hj
      · cases hj
        exact ⟨d, hd, hev⟩
      · split at hj
        · cases hj
          exact ⟨d, hd, hev⟩
        · exact h j hj
    · exact h j hj

/-- The oldest entry of its sort is taken when the search comes to it. -/
theorem olderPlace_at {best : Option Nat} (he : entries[i]? = some e) (hev : e.state.evictable m = true)
    (oldest : ∀ k d, entries[k]? = some d → k ≠ i → d.state.evictable m = true → e.stamp < d.stamp)
    (h : ∀ j, best = some j → ∃ d, entries[j]? = some d ∧ d.state.evictable m = true) :
    olderPlace entries m best i = some i := by
  simp only [olderPlace, he, hev, if_true]
  cases best with
  | none => rfl
  | some j =>
    obtain ⟨d, hd, hdev⟩ := h j rfl
    simp only [Option.bind_some, hd]
    by_cases eq : j = i
    · rw [eq, ite_self]
    · rw [if_pos (oldest j d hd eq hdev)]

/-- The oldest entry of its sort, once taken, stays. -/
theorem olderPlace_stays (he : entries[i]? = some e)
    (oldest : ∀ k d, entries[k]? = some d → k ≠ i → d.state.evictable m = true → e.stamp < d.stamp) {x : Nat}
    (hx : x ≠ i) : olderPlace entries m (some i) x = some i := by
  unfold olderPlace
  split
  · rfl
  · next d hd =>
    split
    · next hev =>
      simp only [Option.bind_some, he]
      exact if_neg (Nat.not_lt.mpr (oldest x d hd hx hev).le)
    · rfl

theorem foldl_olderPlace (he : entries[i]? = some e) (hev : e.state.evictable m = true)
    (oldest : ∀ k d, entries[k]? = some d → k ≠ i → d.state.evictable m = true → e.stamp < d.stamp)
    (places : List Nat) : ∀ best : Option Nat,
      (∀ j, best = some j → ∃ d, entries[j]? = some d ∧ d.state.evictable m = true) → best = some i ∨ i ∈ places →
      places.foldl (olderPlace entries m) best = some i := by
  induction places with
  | nil =>
    intro best _ found
    exact found.resolve_right List.not_mem_nil
  | cons x places ih =>
    intro best valid found
    rw [List.foldl_cons]
    refine ih _ (olderPlace_evictable valid x) ?_
    by_cases hx : x = i
    · subst hx
      exact .inl (olderPlace_at he hev oldest valid)
    · rcases found with rfl | found
      · exact .inl (olderPlace_stays he oldest hx)
      · exact .inr ((List.mem_cons.mp found).resolve_left (Ne.symm hx))

theorem Board.oldest_eq (he : b.entries[i]? = some e) (hm : m ≤ 2) (hs : e.state.sort = m)
    (oldest : ∀ k d, b.entries[k]? = some d → k ≠ i → d.state.sort = m → e.stamp < d.stamp) : b.oldest m = some i := by
  refine foldl_olderPlace he ((EntryState.evictable_iff hm).mpr hs)
    (fun k d hd hk hev => oldest k d hd hk ((EntryState.evictable_iff hm).mp hev)) _ none
    (fun j hj => nomatch hj) (.inr ?_)
  exact List.mem_range.mpr (List.getElem?_eq_some_iff.mp he).1

theorem Board.oldest_none (hm : m ≤ 2) (h : ∀ d ∈ b.entries, d.state.sort ≠ m) : b.oldest m = none := by
  unfold Board.oldest
  generalize List.range b.entries.length = places
  induction places with
  | nil => rfl
  | cons x places ih =>
    rw [List.foldl_cons]
    have passed : olderPlace b.entries m none x = none := by
      unfold olderPlace
      split
      · rfl
      · next d hd => exact if_neg fun hev => h d (List.mem_of_getElem? hd) ((EntryState.evictable_iff hm).mp hev)
    rw [passed]
    exact ih

/-- The entry in place `i` goes before every other in the order of eviction (R56). -/
def Board.evictsFirst (b : Board) (i : Nat) (e : BoardEntry) : Prop :=
  b.entries[i]? = some e ∧ e.state.sort ≤ 2 ∧
    ∀ k d, b.entries[k]? = some d → k ≠ i →
      e.state.sort < d.state.sort ∨ (e.state.sort = d.state.sort ∧ e.stamp < d.stamp)

theorem Board.evictsFirst.candidate (h : b.evictsFirst i e) : b.evictionCandidate = some i := by
  obtain ⟨he, hs, first⟩ := h
  have oldest : b.oldest e.state.sort = some i := by
    refine Board.oldest_eq he hs rfl fun k d hd hk same => ?_
    rcases first k d hd hk with lower | ⟨-, older⟩
    · exact absurd same.symm lower.ne
    · exact older
  have lower_none : ∀ m, m < e.state.sort → b.oldest m = none := fun m hm => by
    refine Board.oldest_none (by omega) fun d hd same => ?_
    obtain ⟨k, hk⟩ := List.getElem?_of_mem hd
    by_cases eq : k = i
    · rw [eq, he] at hk
      cases hk
      omega
    · rcases first k d hk eq with lt | ⟨eq, -⟩ <;> omega
  unfold Board.evictionCandidate
  match hn : e.state.sort, hs with
  | 0, _ => rw [← hn, oldest, Option.some_or]
  | 1, _ => rw [lower_none 0 (by omega), Option.none_or, ← hn, oldest, Option.some_or]
  | 2, _ => rw [lower_none 0 (by omega), lower_none 1 (by omega), Option.none_or, Option.none_or, ← hn, oldest]

theorem Board.evictionCandidate_none (h : ∀ d ∈ b.entries, d.state.sort = 3) : b.evictionCandidate = none := by
  have none_of : ∀ m, m ≤ 2 → b.oldest m = none := fun m hm =>
    Board.oldest_none hm fun d hd => by rw [h d hd]; omega
  rw [Board.evictionCandidate, none_of 0 (by omega), none_of 1 (by omega), none_of 2 (by omega)]
  rfl

/-! ## A new entry on a full board (R56, R57) -/

theorem Board.record_evicts {new : BoardEntry} (full : 512 ≤ b.entries.length) (h : b.evictsFirst i e) :
    b.record new = some (b.write i new) := by
  rw [Board.record, if_neg (Nat.not_lt.mpr full : ¬ b.entries.length < Config.boardPlaces), h.candidate,
    Option.map_some]

theorem Board.record_noRoom {new : BoardEntry} (full : 512 ≤ b.entries.length)
    (h : ∀ d ∈ b.entries, d.state.sort = 3) : b.record new = none := by
  rw [Board.record, if_neg (Nat.not_lt.mpr full : ¬ b.entries.length < Config.boardPlaces),
    Board.evictionCandidate_none h, Option.map_none]

/-! ## A good PLATE HEADER (R47, R48) -/

variable {s : State} {key : PlateKey} {version size screen rank : Nat} {old : BoardEntry}

theorem State.takeHeader_record (hk : s.board.placeOf key = none)
    (hb : s.board.record (s.contestedEntry key version size rank) = some b) :
    s.takeHeader key version size screen rank =
      (s.setBoard b).noticeContested key version size screen rank := by
  simp only [State.takeHeader, hk, hb]

theorem State.takeHeader_noRoom (hk : s.board.placeOf key = none)
    (hb : s.board.record (s.contestedEntry key version size rank) = none) :
    s.takeHeader key version size screen rank = s.boardHasNoRoom := by
  simp only [State.takeHeader, hk, hb]

theorem State.takeHeader_supersedes (hk : s.board.placeOf key = some i) (ho : s.board.entries[i]? = some old)
    (hv : old.version < version) :
    s.takeHeader key version size screen rank =
      ((s.noticeSuperseded key version).setBoard
        (s.board.write i (s.contestedEntry key version size rank))).noticeContested key version size screen rank := by
  simp only [State.takeHeader, hk, ho, if_pos hv, (State.noticeSuperseded_board s key version).1]

/-- A header of the board's version, or of a lower one, is ignored unless the entry is UNTAKEN or ORPHANED. -/
theorem State.takeHeader_ignored (hk : s.board.placeOf key = some i) (ho : s.board.entries[i]? = some old)
    (h : version < old.version ∨ (version = old.version ∧ old.state ≠ .untaken ∧ ∀ n, old.state ≠ .orphaned n)) :
    s.takeHeader key version size screen rank = s.raise .headersIgnored := by
  simp only [State.takeHeader, hk, ho]
  rcases h with lower | ⟨rfl, notUntaken, notOrphaned⟩
  · rw [if_neg (by omega), if_pos lower]
  · rw [if_neg (lt_irrefl _), if_neg (lt_irrefl _)]
    split
    · next e => exact absurd e notUntaken
    · next n e => exact absurd e (notOrphaned n)
    · rfl
    · rfl
    · rfl

theorem State.takeHeader_anew (hk : s.board.placeOf key = some i) (ho : s.board.entries[i]? = some old)
    (hv : version = old.version) (h : old.state = .untaken ∨ ∃ n, old.state = .orphaned n) :
    s.takeHeader key version size screen rank =
      (s.setBoard (s.board.write i (s.contestedEntry key version size rank))).noticeContested key version size screen
        rank := by
  simp only [State.takeHeader, hk, ho]
  rw [if_neg (by omega), if_neg (by omega)]
  rcases h with e | ⟨n, e⟩ <;> rw [e]

/-- Settles O27. -/
theorem plateHeaderAgainstTheBoard : Obligations.PlateHeaderAgainstTheBoard := by
  intro s key version size screen rank h hr hf
  refine ⟨s.board.withStamp, s.board.readiedAs_withStamp, ?_⟩
  intro c hunting contested judged
  have run : exec c s = .next ((s.setFraming .hunting).takeHeader key version size screen rank) :=
    exec_plateHeader_good h hr hf
  have judges : ∀ u : State, (s.setFraming .hunting).takeHeader key version size screen rank =
      u.noticeContested key version size screen rank → judged u := fun u e => by
    refine ⟨_, run, ?_⟩
    rw [e]
    exact State.noticeContested_judges _ _ _ _ _ _
  refine ⟨fun i e hk he => ⟨fun old => ?_, ?_, fun n j hv hj hjk hjv others => ?_⟩, ?_⟩
  · rw [run, State.takeHeader_ignored (s := s.setFraming .hunting) hk he old]
    rfl
  · rintro (⟨hv, old⟩ | ⟨hv, outlast⟩)
    · exact judges (contested i) (State.takeHeader_anew (s := s.setFraming .hunting) hk he hv old)
    · refine judges (contested i) ?_
      rw [State.takeHeader_supersedes (s := s.setFraming .hunting) hk he hv,
        State.noticeSuperseded_of_outlasts (s := s.setFraming .hunting) outlast]
      rfl
  · refine ⟨((s.setFraming .hunting).supersedeJob n).setBoard (contested i).board,
      (State.supersedeJob_superseded (s := s.setFraming .hunting) hj).setBoard _, judges _ ?_⟩
    rw [State.takeHeader_supersedes (s := s.setFraming .hunting) hk he hv,
      State.noticeSuperseded_one (s := s.setFraming .hunting) hj hjk hjv others]
    rfl
  · intro hk full sort
    refine ⟨fun i e he hs first => ?_, fun kept => ?_⟩
    · have sorted : s.board.evictsFirst i e := ⟨he, hs, first⟩
      exact judges (contested i)
        (State.takeHeader_record (s := s.setFraming .hunting) hk (Board.record_evicts full sorted))
    · have none_goes : ∀ d ∈ s.board.entries, d.state.sort = 3 := kept
      rw [run, State.takeHeader_noRoom (s := s.setFraming .hunting) hk (Board.record_noRoom full none_goes)]
      rfl

end Sys2Proof.Machine
end

section
/-! The order of the bands at the Unpacker: a band that ends damaged before the record at the head is judged. -/

namespace Sys2Proof.Machine

variable {s : State} {n : Slot} {j : Job} {b o : Nat}

/-! ## The marks of a band that ends damaged (R118, R120, R141, R142) -/

/-- The job one of whose bands is to end damaged: the band carries its kind, else GAP, and is not QUEUED yet. -/
def Job.gapMarked (j : Job) (b : Nat) : Job :=
  { j.gapEnded b with bands := j.bands.modify b fun e => { e with kind := some (e.kind.getD .gap) } }

theorem Job.band_eq_getElem (h : b < j.bands.length) : j.band b = j.bands[b] := by
  simp [Job.band, h]

/-- A change of a band that leaves the band as it is. -/
theorem Job.modify_band_self {f : Band → Band} (h : b < j.bands.length → f (j.band b) = j.band b) :
    j.bands.modify b f = j.bands := by
  refine List.ext_getElem? fun a => ?_
  rw [List.getElem?_modify]
  split
  · next e =>
    subst e
    by_cases hb : b < j.bands.length
    · have same := h hb
      rw [Job.band_eq_getElem hb] at same
      rw [List.getElem?_eq_getElem hb, Option.map_eq_map, Option.map_some, same]
    · simp [hb]
  · rw [Option.map_eq_map, Option.map_id']

theorem Job.modify_band_congr {f g : Band → Band} (h : f (j.band b) = g (j.band b)) :
    j.bands.modify b f = j.bands.modify b g := by
  refine List.ext_getElem? fun a => ?_
  rw [List.getElem?_modify, List.getElem?_modify]
  split
  · next e =>
    subst e
    by_cases hb : b < j.bands.length
    · rw [Job.band_eq_getElem hb] at h
      rw [List.getElem?_eq_getElem hb, Option.map_eq_map, Option.map_eq_map, Option.map_some, Option.map_some, h]
    · simp [hb]
  · rfl

/-- The GAP mark of a band with no kind, and the end of its cursor. -/
theorem Job.mark_gap (h : (j.band b).kind = none) :
    { j.mark b .gap none none with cursor := UnpackCursor.empty } = j.gapMarked b := by
  have kinds : ∀ e : Band, ({ e with kind := e.kind.or (some .gap) } : Band) =
      { e with kind := some (e.kind.getD .gap) } := fun e => by
    cases hk : e.kind <;> rfl
  simp only [Job.mark, Job.gapMarked, Job.gapEnded, h, Option.isNone_none, if_true, kinds]
  cases j.firstDamage <;> rfl

/-- A band that carries a kind keeps its marks; its cursor ends. -/
theorem Job.gapMarked_of_kind (h : (j.band b).kind ≠ none) :
    { j with cursor := UnpackCursor.empty } = j.gapMarked b := by
  have kept : j.bands.modify b (fun e => { e with kind := some (e.kind.getD .gap) }) = j.bands := by
    refine Job.modify_band_self fun _ => ?_
    obtain ⟨k, hk⟩ := Option.ne_none_iff_exists'.mp h
    simp only [hk, Option.getD_some]
    rw [← hk]
  simp only [Job.gapMarked, Job.gapEnded, if_neg h, kept]
  rfl

theorem Job.band_gapEnded (j : Job) (o a : Nat) :
    (j.gapEnded o).band a =
      if a = o ∧ o < j.bands.length then { state := .queued, kind := some ((j.band a).kind.getD .gap) }
      else j.band a :=
  j.band_modifyBand o (fun e => { state := .queued, kind := some (e.kind.getD .gap) }) a

theorem Job.band_gapEnded_other {a : Nat} (h : a ≠ o) : (j.gapEnded o).band a = j.band a := by
  rw [Job.band_gapEnded, if_neg fun e => h e.1]

theorem Job.band_gapEnded_self (h : o < j.bands.length) : ((j.gapEnded o).band o).state = .queued := by
  rw [Job.band_gapEnded, if_pos ⟨rfl, h⟩]

theorem Job.length_gapEnded (j : Job) (o : Nat) : (j.gapEnded o).bands.length = j.bands.length := by
  simp [Job.gapEnded]

/-! ## A band ended damaged (R117) -/

/-- The station whose job `j` has a band marked as ended damaged, its descriptor not placed yet. -/
def State.gapHeld (s : State) (n : Slot) (j : Job) (b : Nat) (work : UnpackWork) : State :=
  { s with
    unpacker := { work := work, pool := s.unpacker.poolWith j.cursor.buffer }
    jobs := { s.jobs with slots := s.jobs.slots.set n (some (j.gapMarked b)) } }

/-- The station whose job `j` has a band ended damaged, its descriptor in the ring. -/
def State.gapPlaced (s : State) (n : Slot) (j : Job) (b : Nat) : State :=
  { s with
    unpacker := { s.unpacker with pool := s.unpacker.poolWith j.cursor.buffer }
    ring := s.ring.withDamaged n b
    jobs := { s.jobs with slots := s.jobs.slots.set n (some (j.gapEnded b)) } }

theorem State.job_gapPlaced (s : State) (n : Slot) (j : Job) (b : Nat) :
    (s.gapPlaced n j b).job n = some (j.gapEnded b) :=
  State.job_setJob_same s n _

theorem State.job_gapPlaced_other {m : Slot} (h : m ≠ n) : (s.gapPlaced n j b).job m = s.job m :=
  State.job_setJob_other s n m _ h

/-- The job's band is marked, its cursor ends, and the damaged descriptor goes to the ring. -/
theorem State.endAsGap_eq (hj : s.job n = some j) (hr : j.stage = .receiving) (hb : b < j.bands.length)
    (taken : Option DamageKind) :
    s.endAsGap n b taken =
      (s.gapHeld n j b s.unpacker.work).offerDescriptor { slot := n, band := b, buffer := none, void := false }
        (.judgeOn taken) := by
  by_cases hk : (j.band b).kind = none
  · have reported : s.reportGap n b = s.setJob n (some (j.mark b .gap none none)) := by
      rw [State.reportGap, hj, Option.any_some, hk, Option.isNone_none, if_pos rfl, State.markDamage,
        State.modifyJob_of hj, if_pos hr]
    have marked : (((j.mark b .gap none none).band b).kind).isSome = true := by
      have e : (j.mark b .gap none none).band b =
          (j.modifyBand b fun e => { e with kind := e.kind.or (some .gap) }).band b := rfl
      rw [e, Job.band_modifyBand, if_pos ⟨rfl, hb⟩, hk]
      rfl
    rw [State.endAsGap, reported, State.endBand, State.job_setJob_same]
    dsimp only
    rw [if_pos marked, State.modifyJob_of (s := (s.setJob n _).returnBuffer _) (State.job_setJob_same s n _),
      Job.mark_gap hk]
    congr 1
    exact State.setJob_setJob (s.returnBuffer j.cursor.buffer) n (some (j.mark b .gap none none)) _
  · have reported : s.reportGap n b = s := by
      rw [State.reportGap, hj, Option.any_some, if_neg]
      simpa using hk
    rw [State.endAsGap, reported, State.endBand, hj]
    dsimp only
    rw [if_pos (Option.isSome_iff_ne_none.mpr hk), State.modifyJob_of (s := s.returnBuffer j.cursor.buffer) hj,
      Job.gapMarked_of_kind hk]
    rfl

theorem State.endAsGap_room (hj : s.job n = some j) (hr : j.stage = .receiving) (hb : b < j.bands.length)
    (room : s.ring.isFull = false) (taken : Option DamageKind) : s.endAsGap n b taken = s.gapPlaced n j b := by
  have held : (s.gapHeld n j b s.unpacker.work).job n = some (j.gapMarked b) := State.job_setJob_same s n _
  have queued : (j.gapMarked b).placed { slot := n, band := b, buffer := none, void := false } = j.gapEnded b := by
    simp only [Job.placed, Job.gapMarked, Job.modifyBand, List.modify_modify_eq]
    rfl
  rw [State.endAsGap_eq hj hr hb, State.offerDescriptor,
    if_neg (by rw [show (s.gapHeld n j b s.unpacker.work).ring = s.ring from rfl, room]; exact Bool.false_ne_true),
    State.placeDescriptor]
  have placed := State.modifyJob_of (s := (s.gapHeld n j b s.unpacker.work).setRing (s.ring.withDamaged n b)) held
    fun j => j.placed { slot := n, band := b, buffer := none, void := false }
  rw [queued] at placed
  refine placed.trans ?_
  exact State.setJob_setJob { s with
    unpacker := { s.unpacker with pool := s.unpacker.poolWith j.cursor.buffer }
    ring := s.ring.withDamaged n b } n (some (j.gapMarked b)) (some (j.gapEnded b))

theorem State.endAsGap_full (hj : s.job n = some j) (hr : j.stage = .receiving) (hb : b < j.bands.length)
    (full : s.ring.isFull = true) (taken : Option DamageKind) :
    s.endAsGap n b taken =
      s.gapHeld n j b (.waitRing { slot := n, band := b, buffer := none, void := false } (.judgeOn taken)) := by
  rw [State.endAsGap_eq hj hr hb, State.offerDescriptor,
    if_pos (show (s.gapHeld n j b s.unpacker.work).ring.isFull = true from full)]
  rfl

/-! ## The order of the bands (R109, R118) -/

theorem State.endIfAwaited_passes {taken : Option DamageKind} {a : Nat}
    (h : s.unpacker.waitsForRing = true ∨ ∃ j, s.job n = some j ∧ (j.band a).state ≠ .awaited) :
    State.endIfAwaited n taken s a = s := by
  refine if_neg ?_
  rcases h with waits | ⟨j, hj, ended⟩
  · simp [waits]
  · simp [hj, ended]

theorem State.endIfAwaited_ends {taken : Option DamageKind} {a : Nat} (hw : s.unpacker.waitsForRing = false)
    (hj : s.job n = some j) (ha : (j.band a).state = .awaited) :
    State.endIfAwaited n taken s a = s.endAsGap n a taken := by
  refine if_pos ?_
  simp [hw, hj, ha]

/-- The second step passes bands that have ended, and every band where the Unpacker waits. -/
theorem State.foldl_endIfAwaited_passes {taken : Option DamageKind} (bands : List Nat)
    (h : s.unpacker.waitsForRing = true ∨ ∃ j, s.job n = some j ∧ ∀ a ∈ bands, (j.band a).state ≠ .awaited) :
    bands.foldl (State.endIfAwaited n taken) s = s := by
  induction bands with
  | nil => rfl
  | cons a bands ih =>
    have passes : State.endIfAwaited n taken s a = s := by
      rcases h with waits | ⟨j, hj, ended⟩
      · exact State.endIfAwaited_passes (.inl waits)
      · exact State.endIfAwaited_passes (.inr ⟨j, hj, ended a List.mem_cons_self⟩)
    rw [List.foldl_cons, passes]
    exact ih (h.imp_right fun ⟨j, hj, ended⟩ => ⟨j, hj, fun x hx => ended x (List.mem_cons_of_mem a hx)⟩)

/-- With every band below it past AWAITED and no current band below it, nothing ends before a band. -/
theorem State.orderBands_none {taken : Option DamageKind} (hj : s.job n = some j)
    (current : ∀ c, j.cursor.current = some c → b ≤ c) (ended : ∀ a, a < b → (j.band a).state ≠ .awaited) :
    s.orderBands n b taken = s := by
  have first : s.endCurrentBelow n b taken = s := by
    rw [State.endCurrentBelow, State.currentBand, hj, Option.bind_some]
    split
    · next c hc => exact if_neg (Nat.not_lt.mpr (current c hc))
    · rfl
  rw [State.orderBands, first]
  exact State.foldl_endIfAwaited_passes _ (.inr ⟨j, hj, fun a ha => ended a (List.mem_range.mp ha)⟩)

theorem range_split (h : o < b) : ∃ after, List.range b = List.range o ++ o :: after := by
  obtain ⟨k, rfl⟩ : ∃ k, b = o + (k + 1) := ⟨b - o - 1, by omega⟩
  exact ⟨_, by rw [List.range_add, List.range_succ_eq_map, List.map_cons, Nat.add_zero]⟩

/-- The order of the bands begins with the first that it ends, and then passes the bands up to it. -/
theorem State.orderBands_first {taken : Option DamageKind} (hj : s.job n = some j) (first : j.endsFirst o b)
    (hw : s.unpacker.waitsForRing = false)
    (ended : (s.endAsGap n o taken).unpacker.waitsForRing = true ∨
      ∃ k, (s.endAsGap n o taken).job n = some k ∧
        (j.cursor.current = none → ∀ a, a ≤ o → (k.band a).state ≠ .awaited)) :
    s.orderBands n b taken = (List.range b).foldl (State.endIfAwaited n taken) (s.endAsGap n o taken) := by
  obtain ⟨below, current | ⟨idle, -, awaited, lowest⟩⟩ := first
  · have ends : s.endCurrentBelow n b taken = s.endAsGap n o taken := by
      rw [State.endCurrentBelow, State.currentBand, hj, Option.bind_some, current]
      exact if_pos below
    rw [State.orderBands, ends]
  · have stays : s.endCurrentBelow n b taken = s := by
      rw [State.endCurrentBelow, State.currentBand, hj, Option.bind_some, idle]
    have passed : ∀ bands : List Nat, (∀ a ∈ bands, a ≤ o) →
        bands.foldl (State.endIfAwaited n taken) (s.endAsGap n o taken) = s.endAsGap n o taken := fun bands upTo =>
      State.foldl_endIfAwaited_passes bands
        (ended.imp_right fun ⟨k, hk, past⟩ => ⟨k, hk, fun a ha => past idle a (upTo a ha)⟩)
    obtain ⟨after, split⟩ := range_split below
    have before : ∀ a ∈ List.range o, a < o := fun a => List.mem_range.mp
    rw [State.orderBands, stays, split, List.foldl_append, List.foldl_append,
      State.foldl_endIfAwaited_passes _ (.inr ⟨j, hj, fun a ha => lowest a (before a ha)⟩),
      passed _ fun a ha => (before a ha).le, List.foldl_cons, List.foldl_cons,
      State.endIfAwaited_ends hw hj awaited]
    congr 1
    exact (passed [o] fun a ha => (List.mem_singleton.mp ha).le).symm

/-- With room in the ring the first band ends, and the record is judged on. -/
theorem State.orderBands_room {taken : Option DamageKind} (hj : s.job n = some j) (hr : j.stage = .receiving)
    (first : j.endsFirst o b) (hb : b ≤ j.bands.length) (hw : s.unpacker.waitsForRing = false)
    (room : s.ring.isFull = false) : s.orderBands n b taken = (s.gapPlaced n j o).orderBands n b taken := by
  have within : o < j.bands.length := Nat.lt_of_lt_of_le first.1 hb
  have ends := State.endAsGap_room hj hr within room taken
  have ended : j.cursor.current = none → ∀ a, a ≤ o → ((j.gapEnded o).band a).state ≠ .awaited := fun idle a ha => by
    obtain ⟨-, current | ⟨-, -, -, lowest⟩⟩ := first
    · exact absurd (idle.symm.trans current) nofun
    · rcases Nat.lt_or_eq_of_le ha with lt | rfl
      · rw [Job.band_gapEnded_other lt.ne]
        exact lowest a lt
      · rw [Job.band_gapEnded_self within]
        exact BandState.noConfusion
  have stays : (s.gapPlaced n j o).endCurrentBelow n b taken = s.gapPlaced n j o := by
    rw [State.endCurrentBelow, State.currentBand, State.job_gapPlaced, Option.bind_some]
    rfl
  rw [State.orderBands_first hj first hw (.inr ⟨_, by rw [ends]; exact State.job_gapPlaced s n j o, ended⟩), ends,
    State.orderBands, stays]

/-- With no room in the ring the Unpacker waits with the first band's descriptor. -/
theorem State.orderBands_full {taken : Option DamageKind} (hj : s.job n = some j) (hr : j.stage = .receiving)
    (first : j.endsFirst o b) (hb : b ≤ j.bands.length) (hw : s.unpacker.waitsForRing = false)
    (full : s.ring.isFull = true) :
    s.orderBands n b taken =
      s.gapHeld n j o (.waitRing { slot := n, band := o, buffer := none, void := false } (.judgeOn taken)) := by
  have ends := State.endAsGap_full hj hr (Nat.lt_of_lt_of_le first.1 hb) full taken
  rw [State.orderBands_first hj first hw (.inl (by rw [ends]; rfl)), ends]
  exact State.foldl_endIfAwaited_passes _ (.inl rfl)

end Sys2Proof.Machine
end

section
/-! PROOF of O35 and O36: stale records, end markers and fragments at the head of the holding queue. -/

namespace Sys2Proof.Machine

variable {s u : State} {c : Instr} {corrected : Nat} {r : HoldingRecord} {rest : List HoldingRecord}
  {n : Slot} {j : Job} {b o part : Nat} {taken : Option DamageKind}

/-! ## The head record taken (R108, R112) -/

/-- The Unpacker takes the head record by `c`: it is free, or its wait for a buffer ends. -/
def State.takesHead (s : State) (c : Instr) (corrected : Nat) : Prop :=
  (s.unpacker.work = .free ∧ c = .takeHeadRecord corrected) ∨
    (s.unpacker.work = .waitBuffer ∧ c = .takeHeadAnew corrected)

/-- The station when it takes the head record: the correctable errors are counted and the Unpacker is free. -/
def State.takingHead (s : State) (corrected : Nat) : State :=
  { s with
    port := s.port.countedBy .corrected corrected
    unpacker := { s.unpacker with work := .free } }

theorem exec_takesHead (h : s.takesHead c corrected) : exec c s = .next (s.takingHead corrected).takeHead := by
  rcases h with ⟨free, rfl⟩ | ⟨waits, rfl⟩
  · have same : s.countCorrected corrected = s.takingHead corrected := by
      unfold State.takingHead
      rw [← free]
      rfl
    rw [exec_takeHeadRecord, execTakeHeadRecord, same]
    rfl
  · have work : (s.countCorrected corrected).unpacker.work = .waitBuffer := waits
    rw [exec_takeHeadAnew, execTakeHeadAnew, work]
    rfl

/-- The head record is not stale: its slot has the job of its generation, in RECEIVING. -/
def State.headOf (s : State) (r : HoldingRecord) (rest : List HoldingRecord) (j : Job) : Prop :=
  s.receiver.holding = r :: rest ∧ s.job r.slot = some j ∧ j.generation = r.generation ∧ j.stage = .receiving

theorem State.takeHead_acts (h : u.headOf r rest j) : u.takeHead = u.actOn r (u.kindFor r) := by
  obtain ⟨hh, hj, hg, hr⟩ := h
  have fresh : u.isStale r = false := by simp [State.isStale, hj, hg, hr]
  simp [State.takeHead, hh, fresh]

theorem State.takeHead_stale (hh : u.receiver.holding = r :: rest)
    (h : ∀ j, u.job r.slot = some j → j.generation ≠ r.generation ∨ j.stage ≠ .receiving) :
    u.takeHead = u.dropStale := by
  have stale : u.isStale r = true := by
    unfold State.isStale
    cases hj : u.job r.slot with
    | none => rfl
    | some j => simpa [imp_iff_not_or] using h j hj
  simp [State.takeHead, hh, stale]

theorem exec_headFragment {last : Bool} {payload capture : List Byte} (take : s.takesHead c corrected)
    (head : s.headOf r rest j) (body : r.body = .fragment b part last payload capture) :
    exec c s = .next ((s.takingHead corrected).judgeFragment r.slot b part (j.band b).kind) := by
  obtain ⟨-, hj, -, -⟩ := id head
  have kind : (s.takingHead corrected).kindFor r = (j.band b).kind := by
    rw [State.kindFor, body]
    change (s.job r.slot).bind _ = _
    rw [hj, Option.bind_some]
  rw [exec_takesHead take, State.takeHead_acts (u := s.takingHead corrected) head, kind, State.actOn, body]

theorem exec_headEndMarker {origin : EndOrigin} (take : s.takesHead c corrected) (head : s.headOf r rest j)
    (body : r.body = .endMarker origin) : exec c s = .next ((s.takingHead corrected).judgeEnd r.slot) := by
  rw [exec_takesHead take, State.takeHead_acts (u := s.takingHead corrected) head, State.actOn, body]

/-! ## The bands in order before the record (R109, R118) -/

theorem State.judgeFragment_room (hj : u.job n = some j) (hr : j.stage = .receiving) (first : j.endsFirst o b)
    (hb : b ≤ j.bands.length) (free : u.unpacker.work = .free) (room : u.ring.isFull = false) :
    u.judgeFragment n b part taken = (u.gapPlaced n j o).judgeFragment n b part taken := by
  rw [State.judgeFragment, State.orderBands_room hj hr first hb (by rw [Unpacker.waitsForRing, free]) room]
  rfl

theorem State.judgeFragment_full (hj : u.job n = some j) (hr : j.stage = .receiving) (first : j.endsFirst o b)
    (hb : b ≤ j.bands.length) (free : u.unpacker.work = .free) (full : u.ring.isFull = true) :
    u.judgeFragment n b part taken =
      u.gapHeld n j o (.waitRing { slot := n, band := o, buffer := none, void := false } (.judgeOn taken)) := by
  rw [State.judgeFragment, State.orderBands_full hj hr first hb (by rw [Unpacker.waitsForRing, free]) full]
  exact if_pos rfl

theorem State.judgeFragment_ordered (hj : u.job n = some j) (current : ∀ c, j.cursor.current = some c → b ≤ c)
    (ended : ∀ a, a < b → (j.band a).state ≠ .awaited) (free : u.unpacker.work = .free) :
    u.judgeFragment n b part taken = u.judgeBand n b part taken := by
  rw [State.judgeFragment, State.orderBands_none hj current ended]
  exact if_neg (by rw [Unpacker.waitsForRing, free]; exact Bool.false_ne_true)

theorem State.bandCount_getD (hj : u.job n = some j) : ((u.job n).map Job.bandCount).getD 0 = j.bands.length := by
  rw [hj]
  rfl

theorem State.judgeEnd_room (hj : u.job n = some j) (hr : j.stage = .receiving) (first : j.endsFirst o j.bands.length)
    (free : u.unpacker.work = .free) (room : u.ring.isFull = false) :
    u.judgeEnd n = (u.gapPlaced n j o).judgeEnd n := by
  rw [State.judgeEnd, State.judgeEnd, State.bandCount_getD hj, State.bandCount_getD (u.job_gapPlaced n j o),
    Job.length_gapEnded,
    State.orderBands_room hj hr first le_rfl (by rw [Unpacker.waitsForRing, free]) room]

theorem State.judgeEnd_full (hj : u.job n = some j) (hr : j.stage = .receiving) (first : j.endsFirst o j.bands.length)
    (free : u.unpacker.work = .free) (full : u.ring.isFull = true) :
    u.judgeEnd n =
      u.gapHeld n j o (.waitRing { slot := n, band := o, buffer := none, void := false } (.judgeOn none)) := by
  rw [State.judgeEnd, State.bandCount_getD hj,
    State.orderBands_full hj hr first le_rfl (by rw [Unpacker.waitsForRing, free]) full]
  exact if_pos rfl

theorem State.judgeEnd_ordered (hj : u.job n = some j) (idle : j.cursor.current = none)
    (ended : ∀ a, a < j.bands.length → (j.band a).state ≠ .awaited) (free : u.unpacker.work = .free) :
    u.judgeEnd n = u.processEnd n := by
  have current : ∀ c, j.cursor.current = some c → j.bands.length ≤ c := fun c hc => nomatch idle.symm.trans hc
  rw [State.judgeEnd, State.bandCount_getD hj, State.orderBands_none hj current ended]
  exact if_neg (by rw [Unpacker.waitsForRing, free]; exact Bool.false_ne_true)

/-! ## The pool as a set (R106) -/

theorem Unpacker.poolWith_rises {p : Unpacker} (h : p.pool.Pairwise (· < ·)) (x : Option Nat) :
    (p.poolWith x).Pairwise (· < ·) := by
  cases x with
  | none => exact h
  | some y => exact insertSorted_rises h y

/-- A rising list of the pool's buffers and the cursor's is the pool with the cursor's buffer. -/
theorem Unpacker.eq_poolWith {p : Unpacker} {x : Option Nat} {pool : List Nat} (h : p.pool.Pairwise (· < ·))
    (hp : pool.Pairwise (· < ·)) (same : ∀ y, y ∈ pool ↔ x = some y ∨ y ∈ p.pool) : pool = p.poolWith x :=
  List.Perm.eq_of_pairwise (fun _ _ _ _ lt gt => absurd (lt.trans gt) (lt_irrefl _)) hp (p.poolWith_rises h x)
    ((List.perm_ext_iff_of_nodup (hp.imp ne_of_lt) ((p.poolWith_rises h x).imp ne_of_lt)).mpr fun y =>
      (same y).trans (p.mem_poolWith x y).symm)

/-! ## The head record finished (R77, R118) -/

theorem State.finishHead_of (hh : u.receiver.holding = r :: rest) :
    u.finishHead =
      { u with
        receiver := { u.receiver with holding := rest }
        unpacker := { u.unpacker with work := .free } } := by
  rw [State.finishHead, hh]
  rfl

/-- The job with its end marker processed. -/
def Job.withEnd (j : Job) : Job := { j with endProcessed := true, stage := .closing }

/-- The station with the marker gone and the slot's job in CLOSING. -/
def State.endProcessed (u : State) (n : Slot) (j : Job) (rest : List HoldingRecord) : State :=
  { u with
    receiver := { u.receiver with holding := rest }
    unpacker := { u.unpacker with work := .free }
    jobs := { u.jobs with slots := u.jobs.slots.set n (some j.withEnd) } }

theorem State.processEnd_eq (hh : u.receiver.holding = r :: rest) (hj : u.job n = some j) :
    u.processEnd n = (u.endProcessed n j rest).assessIfComplete n := by
  rw [State.processEnd, State.modifyJob_of hj, State.finishHead_of (u := u.setJob n _) hh]
  rfl

theorem State.processEnd_waits (hh : u.receiver.holding = r :: rest) (hj : u.job n = some j)
    (h : j.standing = .contending ∨ j.screenedCount ≠ j.bands.length) :
    u.processEnd n = u.endProcessed n j rest := by
  have job : (u.endProcessed n j rest).job n = some j.withEnd := State.job_setJob_same u n _
  rw [State.processEnd_eq hh hj, State.assessIfComplete, job, Option.any_some, if_neg]
  simp only [Job.assessable, Job.withEnd, Job.bandCount, decide_eq_true_eq, true_and, not_and]
  rintro owned full
  rcases h with contending | short
  · exact Standing.noConfusion (contending.symm.trans owned)
  · exact short full

theorem State.processEnd_assessed {v : Verdict} (hh : u.receiver.holding = r :: rest) (hj : u.job n = some j)
    (owned : j.standing = .owned) (full : j.screenedCount = j.bands.length) (verdict : j.hasVerdict u.settings v)
    (busy : v = .clean ∨ v = .withinTint → u.imager.state ≠ .idle ∨ u.imager.mediaOut = true) :
    (u.endProcessed n j rest).assessed (u.processEnd n) n j.withEnd v := by
  have job : (u.endProcessed n j rest).job n = some j.withEnd := State.job_setJob_same u n _
  have assessable : j.withEnd.assessable = true := decide_eq_true ⟨rfl, owned, full⟩
  rw [State.processEnd_eq hh hj, State.assessIfComplete, job, Option.any_some, if_pos assessable]
  exact State.assessJob_assessed job nofun verdict
    fun ready => State.mayChoose_false (s := u.endProcessed n j rest) (busy ready)

/-- With the last band ended, and the assessment not due, the marker leaves. -/
theorem State.judgeEnd_last (hh : u.receiver.holding = r :: rest) (hj : u.job n = some j) (hr : j.stage = .receiving)
    (first : j.endsFirst b j.bands.length) (others : ∀ a, a < j.bands.length → a ≠ b → (j.band a).state ≠ .awaited)
    (free : u.unpacker.work = .free) (room : u.ring.isFull = false) (short : j.screenedCount ≠ j.bands.length) :
    u.judgeEnd n = (u.gapPlaced n j b).endProcessed n (j.gapEnded b) rest := by
  have ended : ∀ a, a < (j.gapEnded b).bands.length → ((j.gapEnded b).band a).state ≠ .awaited := fun a ha => by
    rw [Job.length_gapEnded] at ha
    by_cases eq : a = b
    · rw [eq, Job.band_gapEnded_self first.1]
      exact BandState.noConfusion
    · rw [Job.band_gapEnded_other eq]
      exact others a ha eq
  rw [State.judgeEnd_room hj hr first free room,
    State.judgeEnd_ordered (u := u.gapPlaced n j b) (u.job_gapPlaced n j b) rfl ended free,
    State.processEnd_waits (u := u.gapPlaced n j b) hh (u.job_gapPlaced n j b)]
  rw [Job.length_gapEnded]
  exact .inr short

/-- The only open band is the first that the order of an end marker ends. -/
theorem Job.endsFirst_only (hb : b < j.bands.length)
    (others : ∀ a, a < j.bands.length → a ≠ b → (j.band a).state ≠ .awaited)
    (h : (j.cursor.current = some b ∧ (j.band b).state = .decoding) ∨
      (j.cursor.current = none ∧ j.cursor.buffer = none ∧ (j.band b).state = .awaited)) :
    j.endsFirst b j.bands.length := by
  refine ⟨hb, h.imp And.left ?_⟩
  rintro ⟨idle, empty, awaited⟩
  exact ⟨idle, empty, awaited, fun a ha => others a (ha.trans hb) ha.ne⟩

/-- Settles O35. -/
theorem staleRecordsAndEndMarkers : Obligations.StaleRecordsAndEndMarkers := by
  intro s corrected r rest c hh take finished
  refine ⟨fun stale => ?_, fun origin j body hj hg hr => ?_⟩
  · rw [exec_takesHead take, State.takeHead_stale (u := s.takingHead corrected) hh stale, State.dropStale,
      State.finishHead_of (u := s.takingHead corrected) hh]
    rfl
  have head : s.headOf r rest j := ⟨hh, hj, hg, hr⟩
  have run := exec_headEndMarker take head body
  refine ⟨fun ended idle => ⟨fun waits => ?_, fun v owned full verdict busy => ?_⟩,
    fun o pool first rises poolRises same => ⟨fun room => ?_, fun full => ?_⟩,
    fun b hb others current => ⟨fun room short => ?_, fun full => ?_⟩⟩
  · rw [run, State.judgeEnd_ordered (u := s.takingHead corrected) hj idle ended rfl,
      State.processEnd_waits (u := s.takingHead corrected) hh hj waits]
    rfl
  · rw [State.judgeEnd_ordered (u := s.takingHead corrected) hj idle ended rfl] at run
    exact ⟨_, run, State.processEnd_assessed (u := s.takingHead corrected) hh hj owned full verdict busy⟩
  · rw [Unpacker.eq_poolWith rises poolRises same, run,
      State.judgeEnd_room (u := s.takingHead corrected) hj hr first rfl room]
    exact (exec_headEndMarker (s := s.gapPlaced r.slot j o) take ⟨hh, s.job_gapPlaced r.slot j o, hg, hr⟩ body).symm
  · rw [Unpacker.eq_poolWith rises poolRises same, run,
      State.judgeEnd_full (u := s.takingHead corrected) hj hr first rfl full]
    rfl
  · rw [State.judgeEnd_last (u := s.takingHead corrected) hh hj hr (Job.endsFirst_only hb others current) others rfl
      room short] at run
    refine ⟨_, _, run, State.job_setJob_same _ _ _, fun n hn => ?_, rfl, rfl, rfl, rfl, rfl,
      Unpacker.mem_poolWith _ _, rfl, rfl, rfl, rfl, rfl⟩
    exact (State.job_setJob_other (s.gapPlaced r.slot j b) r.slot n _ hn).trans (s.job_gapPlaced_other hn)
  · rw [State.judgeEnd_full (u := s.takingHead corrected) hj hr (Job.endsFirst_only hb others current) rfl full] at run
    exact ⟨_, _, run, State.job_setJob_same s _ _, hr, rfl, rfl, rfl, rfl⟩

/-! ## A fragment judged against its band (R110 to R112) -/

theorem State.judgeBand_discards (hj : u.job n = some j)
    (h : ((j.band b).state = .awaited ∧ taken ≠ none) ∨ (j.band b).state = .queued ∨ (j.band b).state = .screening ∨
      ∃ x, (j.band b).state = .screened x) :
    u.judgeBand n b part taken = u.discardHead := by
  rw [State.judgeBand, hj]
  dsimp only
  rcases h with ⟨e, marked⟩ | e | e | ⟨x, e⟩ <;> rw [e]
  exact if_pos (Option.isSome_iff_ne_none.mpr marked)

theorem State.judgeBand_decodes (hj : u.job n = some j) (decoding : (j.band b).state = .decoding) (clean : taken = none)
    (next : part = j.cursor.nextPart) : u.judgeBand n b part taken = u.setWork .decoding := by
  rw [State.judgeBand, hj]
  dsimp only
  rw [decoding]
  refine if_neg ?_
  simp [clean, next]

theorem State.judgeBand_begins (hj : u.job n = some j) (awaited : (j.band b).state = .awaited) (clean : taken = none)
    (zero : part = 0) : u.judgeBand n b part taken = u.beginBand n b := by
  rw [State.judgeBand, hj]
  dsimp only
  rw [awaited, clean, zero]
  rfl

/-- A part out of its turn, and any part of a current band that carries a kind, ends the band. -/
theorem State.judgeBand_ends (hj : u.job n = some j)
    (h : ((j.band b).state = .decoding ∧ (taken ≠ none ∨ part ≠ j.cursor.nextPart)) ∨
      ((j.band b).state = .awaited ∧ taken = none ∧ 0 < part)) :
    u.judgeBand n b part taken = u.endAndDiscard n b taken := by
  rw [State.judgeBand, hj]
  dsimp only
  rcases h with ⟨e, ends⟩ | ⟨e, clean, above⟩ <;> rw [e]
  · exact if_pos (ends.imp_left Option.isSome_iff_ne_none.mpr)
  · dsimp only
    rw [if_neg (by simp [clean]), if_neg (by omega)]

/-- The station when band `b` of the slot's job has begun in a buffer (R112). -/
def State.bandBegun (u : State) (n : Slot) (j : Job) (b x : Nat) (pool : List Nat) : State :=
  { u with
    unpacker := { work := .decoding, pool := pool }
    jobs := { u.jobs with slots := u.jobs.slots.set n (some { j with
      bands := j.bands.modify b fun e => { e with state := .decoding }
      cursor := { current := some b, nextPart := 0, pixels := 0, buffer := some x } }) } }

theorem State.beginBand_of {x : Nat} {pool : List Nat} (hj : u.job n = some j) (hp : u.unpacker.pool = x :: pool) :
    u.beginBand n b = u.bandBegun n j b x pool := by
  simp only [State.beginBand, hp]
  exact State.modifyJob_of (s := u.setUnpacker { work := .decoding, pool := pool }) hj _

theorem State.beginBand_waits (hp : u.unpacker.pool = []) : u.beginBand n b = u.setWork .waitBuffer := by
  simp only [State.beginBand, hp]

theorem State.endAndDiscard_room (hj : u.job n = some j) (hr : j.stage = .receiving) (hb : b < j.bands.length)
    (free : u.unpacker.work = .free) (room : u.ring.isFull = false) :
    u.endAndDiscard n b taken = (u.gapPlaced n j b).discardHead := by
  rw [State.endAndDiscard, State.endAsGap_room hj hr hb room]
  refine if_neg ?_
  rw [show (u.gapPlaced n j b).unpacker.waitsForRing = u.unpacker.waitsForRing from rfl, Unpacker.waitsForRing, free]
  exact Bool.false_ne_true

theorem State.endAndDiscard_full (hj : u.job n = some j) (hr : j.stage = .receiving) (hb : b < j.bands.length)
    (full : u.ring.isFull = true) :
    u.endAndDiscard n b taken =
      u.gapHeld n j b (.waitRing { slot := n, band := b, buffer := none, void := false } (.judgeOn taken)) := by
  rw [State.endAndDiscard, State.endAsGap_full hj hr hb full]
  exact if_pos rfl

theorem State.discardHead_of (hh : u.receiver.holding = r :: rest) :
    u.discardHead =
      { u with
        port := u.port.counted .partsDiscarded
        receiver := { u.receiver with holding := rest }
        unpacker := { u.unpacker with work := .free } } := by
  rw [State.discardHead, State.finishHead_of (u := u.raise .partsDiscarded) hh]
  rfl

/-! ## The current band ended for the band that follows it (R109, R112) -/

/-- Two changes of a band's table entry that give the same, where the band carries no kind. -/
theorem Job.gapEnded_bands (h : (j.band o).kind = none) :
    (j.gapEnded o).bands = j.bands.modify o fun _ => { state := .queued, kind := some .gap } :=
  Job.modify_band_congr (by rw [h]; rfl)

/-- The lowest buffer of the pool, with the cursor's own in it. -/
theorem Unpacker.poolWith_some (p : Unpacker) (x : Nat) (h : p.pool.Pairwise (· < ·)) :
    ∃ y rest, p.poolWith (some x) = y :: rest ∧ (y = x ∨ y ∈ p.pool) ∧ (∀ z, z = x ∨ z ∈ p.pool → y ≤ z) ∧
      (∀ z, z ∈ rest → z = x ∨ z ∈ p.pool) ∧ y ∉ rest := by
  have mem : ∀ z, z ∈ p.poolWith (some x) ↔ z = x ∨ z ∈ p.pool := fun z => mem_insertSorted
  have rises := p.poolWith_rises h (some x)
  cases hp : p.poolWith (some x) with
  | nil => exact absurd (hp ▸ (mem x).mpr (.inl rfl)) List.not_mem_nil
  | cons y rest =>
    simp only [hp, List.mem_cons] at mem
    rw [hp, List.pairwise_cons] at rises
    obtain ⟨lowest, -⟩ := rises
    refine ⟨y, rest, rfl, (mem y).mp (.inl rfl), fun z hz => ?_, fun z hz => (mem z).mp (.inr hz),
      fun hy => lt_irrefl y (lowest y hy)⟩
    rcases (mem z).mpr hz with rfl | hz
    · exact le_rfl
    · exact (lowest z hz).le

theorem Job.band_within {st : BandState} (h : (j.band b).state = st) (hq : st ≠ .queued) : b < j.bands.length := by
  have found := Job.band_at h hq
  simpa using (List.getElem?_eq_some_iff.mp found).1

/-- A fragment whose band ends damaged, with room for the band's descriptor. -/
theorem State.endAndDiscard_run (hh : u.receiver.holding = r :: rest) (hj : u.job n = some j)
    (hr : j.stage = .receiving) (hb : b < j.bands.length) (free : u.unpacker.work = .free)
    (room : u.ring.isFull = false) (taken : Option DamageKind) :
    u.endAndDiscard n b taken = { u.gapPlaced n j b with
      port := u.port.counted .partsDiscarded
      receiver := { u.receiver with holding := rest }
      unpacker := { work := .free, pool := u.unpacker.poolWith j.cursor.buffer } } := by
  rw [State.endAndDiscard_room hj hr hb free room, State.discardHead_of (u := u.gapPlaced n j b) hh]
  rfl

/-- The first GAP of a job. -/
theorem Job.gapEnded_firstDamage (first : j.firstDamage = none) (clean : (j.band b).kind = none) :
    ∃ f, (j.gapEnded b).firstDamage = some f ∧ f.kind = .gap ∧ f.band = b ∧ f.part = none ∧ f.capture = none := by
  simp [Job.gapEnded, first, clean]

/-- Settles O36. -/
theorem fragmentAtTheHead : Obligations.FragmentAtTheHead := by
  intro s corrected r rest j b part last payload capture c hh body hj hg hr hb take counted discarded empty
  have head : s.headOf r rest j := ⟨hh, hj, hg, hr⟩
  have run := exec_headFragment take head body
  have judged : (∀ c, j.cursor.current = some c → b ≤ c) → (∀ a, a < b → (j.band a).state ≠ .awaited) →
      exec c s = .next ((s.takingHead corrected).judgeBand r.slot b part (j.band b).kind) := fun current ended => by
    rw [run, State.judgeFragment_ordered (u := s.takingHead corrected) hj current ended rfl]
  have none_below : j.cursor.current = none → ∀ c, j.cursor.current = some c → b ≤ c :=
    fun idle c hc => nomatch idle.symm.trans hc
  have own_below : j.cursor.current = some b → ∀ c, j.cursor.current = some c → b ≤ c :=
    fun own c hc => (Option.some.inj (own.symm.trans hc)).le
  refine ⟨fun o pool first rises poolRises same => ⟨fun room => ?_, fun full => ?_⟩,
    fun ended => ⟨fun idle awaited zero => ⟨fun x pool hp => ?_, fun hp => ?_⟩,
      fun d x current below decoding clean hx awaited zero room rises => ?_,
      fun current decoding clean next => ?_, fun ends => ?_, fun idle gone => ?_⟩⟩
  · have other : b ≠ o := first.1.ne'
    have turn := exec_headFragment (s := s.gapPlaced r.slot j o) take ⟨hh, s.job_gapPlaced r.slot j o, hg, hr⟩ body
    rw [Job.band_gapEnded_other other] at turn
    rw [Unpacker.eq_poolWith rises poolRises same, run,
      State.judgeFragment_room (u := s.takingHead corrected) hj hr first hb.le rfl room]
    exact turn.symm
  · rw [Unpacker.eq_poolWith rises poolRises same, run,
      State.judgeFragment_full (u := s.takingHead corrected) hj hr first hb.le rfl full]
    rfl
  · rw [judged (none_below idle) ended, State.judgeBand_begins (u := s.takingHead corrected) hj (by rw [awaited])
      (by rw [awaited]) zero, State.beginBand_of (u := s.takingHead corrected) hj hp]
    rfl
  · rw [judged (none_below idle) ended, State.judgeBand_begins (u := s.takingHead corrected) hj (by rw [awaited])
      (by rw [awaited]) zero, State.beginBand_waits (u := s.takingHead corrected) hp]
    rfl
  · have first : j.endsFirst d b := ⟨below, .inl current⟩
    have within : d < j.bands.length := below.trans hb
    obtain ⟨y, pool, hp, own, least, left, taken⟩ := s.unpacker.poolWith_some x rises
    have after : ∀ a, a < b → ((j.gapEnded d).band a).state ≠ .awaited := fun a ha => by
      by_cases eq : a = d
      · rw [eq, Job.band_gapEnded_self within]
        exact BandState.noConfusion
      · rw [Job.band_gapEnded_other eq]
        exact ended a ha
    let v := (s.takingHead corrected).gapPlaced r.slot j d
    have hv : v.job r.slot = some (j.gapEnded d) := State.job_gapPlaced _ _ _ _
    have same : (j.gapEnded d).band b = j.band b := Job.band_gapEnded_other below.ne'
    have hp : v.unpacker.pool = y :: pool := by
      rw [← hp, ← hx]
      rfl
    rw [State.judgeFragment_room (u := s.takingHead corrected) hj hr first hb.le rfl room,
      State.judgeFragment_ordered (u := v) hv nofun after rfl,
      State.judgeBand_begins (u := v) hv (by rw [same, awaited]) (by rw [awaited]) zero,
      State.beginBand_of (u := v) hv hp] at run
    refine ⟨_, _, y, run, State.job_setJob_same v _ _, ?_, ?_, rfl, own, least, left, taken, rfl, rfl, rfl, rfl⟩
    · exact congrArg (List.modify · b _) (Job.gapEnded_bands clean)
    · exact if_pos clean
  · rw [judged (own_below current) ended,
      State.judgeBand_decodes (u := s.takingHead corrected) hj decoding clean next]
    rfl
  · have current : ∀ c, j.cursor.current = some c → b ≤ c := by
      rcases ends with ⟨own, -⟩ | ⟨idle, -⟩
      · exact own_below own
      · exact none_below idle
    have turn := judged current ended
    rw [State.judgeBand_ends (u := s.takingHead corrected) hj] at turn
    · refine ⟨fun room => ?_, fun full => ?_⟩
      · rw [State.endAndDiscard_run (u := s.takingHead corrected) hh hj hr hb rfl room] at turn
        exact ⟨_, _, turn, s.job_gapPlaced r.slot j b, fun m hm => s.job_gapPlaced_other hm, rfl, rfl,
          Job.gapEnded_firstDamage, fun marked => if_neg marked, rfl, hr, s.unpacker.mem_poolWith j.cursor.buffer, rfl,
          rfl, rfl, rfl, rfl⟩
      · rw [State.endAndDiscard_full (u := s.takingHead corrected) hj hr hb full] at turn
        exact ⟨_, turn, rfl, rfl, rfl, rfl⟩
    · rcases ends with ⟨-, decoding, why⟩ | ⟨-, -, awaited, above⟩
      · exact .inl ⟨decoding, why⟩
      · exact .inr ⟨by rw [awaited], by rw [awaited], above⟩
  · rw [judged (none_below idle) ended, State.judgeBand_discards (u := s.takingHead corrected) hj gone,
      State.discardHead_of (u := s.takingHead corrected) hh]
    rfl

end Sys2Proof.Machine
end

section
/-! What the board makes of an accepted CLAIM or DONE, one rule per case. -/

namespace Sys2Proof.Machine

variable {s t : State} {b : Board} {n sender : Station} {key : PlateKey} {version i : Nat} {old : BoardEntry}
  {own : Option Slot}

/-! ## Boards that an entry enters (R43, R45, R56) -/

theorem Board.withStamp_full (b : Board) : b.withStamp.full = b.full := by
  unfold Board.withStamp
  split <;> rfl

/-- The board with an entry in its state in place `i`, over the board as it gives out the stamp. -/
def Board.entered (b : Board) (i : Nat) (e : BoardEntry) (full : Bool) : Board :=
  { entries := b.withStamp.entries.set i { e with stamp := b.withStamp.stamp }, full := full,
    stamp := b.withStamp.stamp + 1 }

theorem Board.write_entered (b : Board) (i : Nat) (e : BoardEntry) : b.write i e = b.entered i e b.full := by
  rw [Board.write_eq, Board.entered, ← b.withStamp_full]

/-- The board with an entry in its lowest empty place. -/
def Board.extended (b : Board) (e : BoardEntry) (full : Bool) : Board :=
  { entries := b.withStamp.entries ++ [{ e with stamp := b.withStamp.stamp }], full := full,
    stamp := b.withStamp.stamp + 1 }

theorem Board.append_extended (b : Board) (e : BoardEntry) : b.append e = b.extended e b.full := by
  rw [Board.append, Board.extended, ← b.withStamp_full]

theorem Board.record_appends {e : BoardEntry} (room : b.entries.length < 512) :
    b.record e = some (b.extended e b.full) := by
  rw [← Board.append_extended]
  exact if_pos room

theorem Board.record_enters {e : BoardEntry} (full : 512 ≤ b.entries.length) (first : b.evictsFirst i old) :
    b.record e = some (b.entered i e b.full) := by
  rw [Board.record_evicts full first, Board.write_entered]

/-! ## A CLAIM (R51, R52) -/

/-- The entry that a CLAIM for a new version makes. -/
def BoardEntry.claimedBy (sender : Station) (key : PlateKey) (version : Nat) : BoardEntry :=
  { key := key, version := version, state := .owned sender, info := none, stamp := 0 }

/-- The station after it was told of a CLAIM that the board took. -/
def State.claimTold (s : State) (sender : Station) (key : PlateKey) (version : Nat) (own : Option Slot) : State :=
  (s.noticeOwned key version sender).reportClaim own key version .ownedHere

theorem State.takeClaim_record (hk : s.board.placeOf key = none)
    (hb : s.board.record (.claimedBy sender key version) = some b) :
    s.takeClaim sender key version own = (s.setBoard b).claimTold sender key version own := by
  unfold BoardEntry.claimedBy at hb
  simp only [State.takeClaim, hk, hb]
  rfl

theorem State.takeClaim_noRoom (hk : s.board.placeOf key = none)
    (hb : s.board.record (.claimedBy sender key version) = none) :
    s.takeClaim sender key version own = s.boardHasNoRoom.reportClaim own key version .notRecorded := by
  unfold BoardEntry.claimedBy at hb
  simp only [State.takeClaim, hk, hb]

theorem State.takeClaim_supersedes (hk : s.board.placeOf key = some i) (ho : s.board.entries[i]? = some old)
    (hv : old.version < version) :
    s.takeClaim sender key version own =
      ((s.noticeSuperseded key version).setBoard
        (s.board.entered i (.claimedBy sender key version) s.board.full)).claimTold sender key version own := by
  rw [← Board.write_entered]
  simp only [State.takeClaim, hk, ho, if_pos hv, (State.noticeSuperseded_board s key version).1]
  rfl

theorem State.takeClaim_older (hk : s.board.placeOf key = some i) (ho : s.board.entries[i]? = some old)
    (hv : version < old.version) :
    s.takeClaim sender key version own = s.reportClaim own key version .superseded := by
  simp only [State.takeClaim, hk, ho, if_neg (Nat.lt_asymm hv), if_pos hv]

theorem State.takeClaim_open (hk : s.board.placeOf key = some i) (ho : s.board.entries[i]? = some old)
    (hv : old.version = version)
    (hs : (∃ d, old.state = .contested d) ∨ old.state = .untaken ∨ ∃ o, old.state = .orphaned o) :
    s.takeClaim sender key version own =
      (s.setBoard (s.board.entered i { old with state := .owned sender } s.board.full)).claimTold sender key version
        own := by
  rw [← Board.write_entered]
  subst hv
  simp only [State.takeClaim, hk, ho, if_neg (lt_irrefl _)]
  rcases hs with ⟨d, e⟩ | e | ⟨o, e⟩ <;> rw [e] <;> rfl

theorem State.takeClaim_closed (hk : s.board.placeOf key = some i) (ho : s.board.entries[i]? = some old)
    (hv : old.version = version) (hs : (∃ o, old.state = .owned o) ∨ ∃ o x y z, old.state = .done o x y z) :
    s.takeClaim sender key version own = s.boardAnomaly.reportClaim own key version .alreadyOwned := by
  subst hv
  simp only [State.takeClaim, hk, ho, if_neg (lt_irrefl _)]
  rcases hs with ⟨o, e⟩ | ⟨o, x, y, z, e⟩ <;> rw [e]

/-! ## A DONE (R53) -/

variable {outcome : DoneOutcome} {damaged : Nat} {first : Option DamageKind}

/-- The entry that a DONE for a new version makes. -/
def BoardEntry.doneBy (sender : Station) (key : PlateKey) (version : Nat) (outcome : DoneOutcome) (damaged : Nat)
    (first : Option DamageKind) : BoardEntry :=
  { key := key, version := version, state := .done sender outcome damaged first, info := none, stamp := 0 }

theorem State.takeDone_record (hk : s.board.placeOf key = none)
    (hb : s.board.record (.doneBy sender key version outcome damaged first) = some b) :
    s.takeDone sender key version outcome damaged first = s.boardDone b key version := by
  unfold BoardEntry.doneBy at hb
  simp only [State.takeDone, hk, hb]

theorem State.takeDone_noRoom (hk : s.board.placeOf key = none)
    (hb : s.board.record (.doneBy sender key version outcome damaged first) = none) :
    s.takeDone sender key version outcome damaged first = s.boardHasNoRoom := by
  unfold BoardEntry.doneBy at hb
  simp only [State.takeDone, hk, hb]

theorem State.takeDone_supersedes (hk : s.board.placeOf key = some i) (ho : s.board.entries[i]? = some old)
    (hv : old.version < version) :
    s.takeDone sender key version outcome damaged first =
      (s.noticeSuperseded key version).boardDone
        (s.board.entered i (.doneBy sender key version outcome damaged first) s.board.full) key version := by
  rw [← Board.write_entered]
  simp only [State.takeDone, hk, ho, if_pos hv, (State.noticeSuperseded_board s key version).1]
  rfl

/-- A DONE on an entry of its version that no one owns is taken as a divergence. -/
theorem State.takeDone_unowned (hk : s.board.placeOf key = some i) (ho : s.board.entries[i]? = some old)
    (hv : old.version = version) (hs : old.state = .untaken ∨ ∃ d, old.state = .contested d) :
    s.takeDone sender key version outcome damaged first =
      s.boardAnomaly.boardDone
        (s.board.entered i { old with state := .done sender outcome damaged first } s.board.full) key version := by
  rw [← Board.write_entered]
  subst hv
  simp only [State.takeDone, hk, ho, if_neg (lt_irrefl _)]
  rcases hs with e | ⟨d, e⟩ <;> rw [e]

/-- A DONE on an entry of its version that another station owns or has ended is a divergence. -/
theorem State.takeDone_diverges (hk : s.board.placeOf key = some i) (ho : s.board.entries[i]? = some old)
    (hv : old.version = version)
    (hs : (∃ o, o ≠ sender ∧ (old.state = .owned o ∨ old.state = .orphaned o)) ∨ ∃ o x y z, old.state = .done o x y z) :
    s.takeDone sender key version outcome damaged first = s.boardAnomaly := by
  subst hv
  simp only [State.takeDone, hk, ho, if_neg (lt_irrefl _)]
  rcases hs with ⟨o, other, e | e⟩ | ⟨o, x, y, z, e⟩ <;> rw [e]
  · exact if_neg other
  · exact if_neg other

/-! ## Job Control told of an owner or a completion (R73) -/

/-- No CONTENDING job has the key and version. -/
def State.settled (s : State) (key : PlateKey) (version : Nat) : Prop :=
  ∀ k j, s.job k = some j → j.key = key → j.version = version → j.standing = .owned

theorem State.jobFor_some {k : Slot} (h : s.jobFor key version = some k) :
    ∃ j, s.job k = some j ∧ j.key = key ∧ j.version = version := by
  have found := List.find?_some h
  rw [Option.any_eq_true] at found
  obtain ⟨j, hj, named⟩ := found
  exact ⟨j, hj, of_decide_eq_true named⟩

theorem State.settled.loseContending (h : s.settled key version) : s.loseContending key version = s := by
  unfold State.loseContending
  split
  · rfl
  · next k hk =>
    obtain ⟨j, hj, named, same⟩ := State.jobFor_some hk
    refine if_neg ?_
    rw [hj, Option.any_some, h k j hj named same]
    decide

theorem State.settled.noticeOwned (h : s.settled key version) (owner : Station) :
    s.noticeOwned key version owner = s := by
  unfold State.noticeOwned
  split
  · rfl
  · exact h.loseContending

theorem State.settled.boardDone (h : s.settled key version) (b : Board) :
    s.boardDone b key version = s.setBoard { b with full := false } :=
  State.settled.loseContending (s := s.setBoard { b with full := false }) h

theorem State.loseContending_of {k : Slot} {j : Job} (hk : s.jobFor key version = some k) (hj : s.job k = some j)
    (hc : j.standing = .contending) : s.loseContending key version = s.loseClaim k := by
  simp only [State.loseContending, hk, hj]
  exact if_pos (decide_eq_true hc)

theorem State.imagerCancel_jobs (s : State) (r : CancelReason) : (s.imagerCancel r).jobs = s.jobs := by
  unfold State.imagerCancel
  split
  · dsimp only
    split <;> rfl
  · rfl

/-- A superseded job that is still in its slot has its version. -/
theorem State.supersedeJob_version {k : Slot} {j j' : Job} (hj : s.job k = some j)
    (h : (s.supersedeJob k).job k = some j') : j'.version = j.version := by
  unfold State.supersedeJob at h
  rw [hj, Option.map_some] at h
  cases standing : j.standing with
  | contending =>
    rw [standing] at h
    obtain ⟨⟨gone, -⟩, -⟩ := State.loseClaim_ends hj
    exact absurd (gone.symm.trans h) nofun
  | owned =>
    rw [standing] at h
    have entering : (s.enterCancelling k .superseded).job k = some j' → j'.version = j.version := fun h => by
      obtain ⟨-, waits, ends⟩ := State.enterCancelling_ends hj .superseded
      cases holds : s.screenerHolds k with
      | true => exact Option.some.inj (h.symm.trans (waits holds).1) ▸ rfl
      | false =>
        obtain ⟨⟨gone, -⟩, -⟩ := ends holds
        exact absurd (gone.symm.trans h) nofun
    have same : s.job k = some j' → j'.version = j.version := fun h => Option.some.inj (h.symm.trans hj) ▸ rfl
    simp only [State.cancelOwned, hj, Option.map_some] at h
    cases stage : j.stage with
    | imaging =>
      rw [stage] at h
      exact same (by rwa [State.job, State.imagerCancel_jobs] at h)
    | cancelling r =>
      rw [stage] at h
      exact same h
    | _ =>
      rw [stage] at h
      exact entering h

theorem State.settled.supersedeJob {k : Slot} {j : Job} (h : s.settled key version) (hj : s.job k = some j)
    (hv : j.version < version) : (s.supersedeJob k).settled key version := by
  intro m x hx hkey same
  by_cases eq : m = k
  · subst eq
    have kept := State.supersedeJob_version hj hx
    omega
  · rw [(State.supersedeJob_other s eq).1] at hx
    exact h m x hx hkey same

end Sys2Proof.Machine
end

section
/-! PROOF of O20: a CLAIM or a DONE of a peer, recorded on the board. -/

namespace Sys2Proof.Machine

variable {s : State} {n : Station} {key : PlateKey} {version i : Nat} {old : BoardEntry} {outcome : DoneOutcome}
  {damaged : Nat} {first : Option DamageKind}

/-! ## A message of a peer that is PRESENT (R9, R34) -/

/-- The station that takes a message of a peer, with the peer's silence timer restarted. -/
def State.hearing (s : State) (n : Station) : State :=
  { s with
    link := { s.link with phase := .waiting }
    port := s.port.counted .taken
    roll := { s.roll with
      peers := s.roll.peers.set n ({ s.peer n with
        silence := some (s.now + s.settings.silenceLimit * s.settings.rollPeriod), heard := some s.now }) } }

theorem State.heardFrom_hearing (h : (s.peer n).state = .present) : s.taking.heardFrom n = s.hearing n := by
  have present : (s.taking.peer n).state = .present := h
  rw [State.heardFrom, present]
  rfl

theorem exec_heardClaim {bid : Option Nat}
    (hp : s.link.phase = .spoil .receiver false (some (n, .claim key version bid)))
    (other : n ≠ s.settings.station) (present : (s.peer n).state = .present) :
    exec (.spoilWindowEnd false) s = .next ((s.hearing n).takeClaim n key version none) := by
  rw [exec_spoilWindowEnd_taken hp other, State.takePeerMessage,
    if_neg (by rw [show (s.taking.peer n).state = .present from present]; exact PeerState.noConfusion),
    State.heardFrom_hearing present]

theorem exec_heardDone
    (hp : s.link.phase = .spoil .receiver false (some (n, .done key version outcome damaged first)))
    (other : n ≠ s.settings.station) (present : (s.peer n).state = .present) :
    exec (.spoilWindowEnd false) s = .next ((s.hearing n).takeDone n key version outcome damaged first) := by
  rw [exec_spoilWindowEnd_taken hp other, State.takePeerMessage,
    if_neg (by rw [show (s.taking.peer n).state = .present from present]; exact PeerState.noConfusion),
    State.heardFrom_hearing present]

/-- Of a LOST peer any message but a JOIN is not passed on. -/
theorem State.takePeerMessage_lost {m : Msg} (lost : (s.peer n).state = .lost) (hm : ∀ d, m ≠ .join d) :
    s.takePeerMessage n m = s := by
  cases m with
  | join d => exact absurd rfl (hm d)
  | leave => exact if_neg (by rw [lost]; exact PeerState.noConfusion)
  | roll counter slot item => exact if_pos lost
  | claim key version bid => exact if_pos lost
  | done key version outcome damaged first => exact if_pos lost

/-! ## A CONTENDING job that the message ends (R73) -/

/-- The CONTENDING job loses its queued CLAIM, as the station stood before the message was taken. -/
theorem State.claimLost {u : State} {k : Slot} {j : Job} (hj : u.job k = some j) (jobs : u.jobs = s.jobs)
    (ring : u.ring = s.ring) (unpacker : u.unpacker = s.unpacker) (receiver : u.receiver = s.receiver)
    (damage : u.damage = s.damage) (screener : u.screener = s.screener) (station : u.station = s.station)
    (link : u.link = { s.link with phase := .waiting })
    (queued : ∀ q, s.link.slots[k] = some q → q.inProgress = false) :
    s.freed (u.loseClaim k) k ∧ (u.loseClaim k).link.slots[k] = none ∧
      (∀ y, y ≠ k → (u.loseClaim k).job y = s.job y) ∧ (u.loseClaim k).board = u.board ∧
      s.leaveFollows (u.loseClaim k) k { s.link with slots := s.link.slots.set k none, phase := .waiting } := by
  have job (m : Slot) : s.job m = u.job m := by rw [State.job, State.job, jobs]
  obtain ⟨freed, ⟨others, -, -, -, -, -, -, -, board, -⟩, leave⟩ := State.loseClaim_ends hj
  rw [link, Link.withdraw_queued { s.link with phase := .waiting } k queued] at leave
  have follows := leave.congr (r := s) (fun m _ => job m) station.symm rfl rfl
  exact ⟨freed.ofSame (job k) ring.symm unpacker.symm (by rw [receiver]) damage.symm screener.symm,
    follows.slots_none (by simp), fun y hy => (others y hy).trans (job y).symm, board, follows⟩

/-! ## The messages against the board (R51, R53) -/

/-- A new key recorded: in an empty place, or in the place of the entry that eviction takes first, or not at all. -/
theorem Board.record_spec (b : Board) (e : BoardEntry) :
    (b.entries.length < 512 → b.record e = some (b.extended e b.full)) ∧
      (512 ≤ b.entries.length →
        (∀ i old, b.evictsFirst i old → b.record e = some (b.entered i e b.full)) ∧
          ((∀ d ∈ b.entries, d.state.sort = 3) → b.record e = none)) :=
  ⟨Board.record_appends, fun full => ⟨fun _ _ first => Board.record_enters full first, Board.record_noRoom full⟩⟩

theorem Board.record_full {b c : Board} {e : BoardEntry} (h : b.record e = some c) : c.full = b.full := by
  unfold Board.record at h
  split at h
  · cases h
    rw [Board.append_extended]
    rfl
  · obtain ⟨i, -, rfl⟩ := Option.map_eq_some_iff.mp h
    rw [Board.write_entered]
    rfl

/-- The station told of a CLAIM of a peer that no CONTENDING job is for. -/
theorem State.settled.claimTold (h : s.settled key version) : s.claimTold n key version none = s :=
  h.noticeOwned n

/-- Settles O20. -/
theorem peerClaimOrDoneRecorded : Obligations.PeerClaimOrDoneRecorded := by
  intro s n m hp other heard taken ends becomes sort
  refine ⟨fun present => ⟨s.board.withStamp, s.board.readiedAs_withStamp, ?_⟩, fun lost hm => ?_⟩
  swap
  · have run := exec_spoilWindowEnd_taken hp other
    rw [State.takePeerMessage_lost (s := s.taking) lost hm] at run
    exact run
  intro entered creates supersedes settled
  have claims : ∀ key version bid, m = .claim key version bid → ∀ t,
      (s.hearing n).takeClaim n key version none = t → ends t := fun key version bid hm t ht => by
    subst hm ht
    exact exec_heardClaim hp other present
  have completes : ∀ key version outcome damaged first, m = .done key version outcome damaged first → ∀ t,
      (s.hearing n).takeDone n key version outcome damaged first = t → ends t :=
    fun key version outcome damaged first hm t ht => by
      subst hm ht
      exact exec_heardDone hp other present
  have recorded : ∀ (e : BoardEntry) (full : Bool),
      (∀ b, s.board.record e = some b → becomes taken { b with full := full }) →
      (s.board.record e = none → ends (s.hearing n).boardHasNoRoom) →
      creates { e with stamp := s.board.withStamp.stamp } full := fun e full enters none_goes => by
    obtain ⟨appends, evicts⟩ := s.board.record_spec e
    refine ⟨fun room => enters _ (appends room), fun noRoom => ⟨fun i old ho hs oldest => ?_, fun kept => ?_⟩⟩
    · exact enters _ ((evicts noRoom).1 i old ⟨ho, hs, oldest⟩)
    · exact none_goes ((evicts noRoom).2 kept)
  have superseding : ∀ key version i fresh full, (s.hearing n).settled key version →
      (∀ u : State, u.settled key version → (s.hearing n).noticeSuperseded key version = u →
        ends (u.setBoard (entered i fresh full))) →
      supersedes key version i fresh full := fun key version i fresh full quiet told => by
    refine ⟨fun outlast => told _ quiet (State.noticeSuperseded_of_outlasts (s := s.hearing n) outlast),
      fun k j hj named older others => ?_⟩
    exact ⟨_, told _ (quiet.supersedeJob hj older)
      (State.noticeSuperseded_one (s := s.hearing n) hj named older others),
      (State.supersedeJob_superseded (s := s.hearing n) hj).setBoard _⟩
  refine ⟨?_, ?_, ?_⟩
  · intro key version bid hm quiet fresh
    have quiet : (s.hearing n).settled key version := quiet
    have run := claims key version bid hm
    refine ⟨fun hk => recorded (.claimedBy n key version) s.board.full (fun b hb => ?_) (fun hb => ?_),
      fun i e hk he => ⟨fun hv => superseding _ _ _ _ _ quiet fun u still hu => ?_, fun hv => ?_,
        fun hv => ⟨fun hs => ?_, fun hs => ?_⟩⟩⟩
    · refine run _ ((State.takeClaim_record (s := s.hearing n) hk hb).trans ?_)
      rw [State.settled.claimTold (s := (s.hearing n).setBoard b) quiet, ← Board.record_full hb]
      rfl
    · exact run _ (State.takeClaim_noRoom (s := s.hearing n) hk hb)
    · refine run _ ((State.takeClaim_supersedes (s := s.hearing n) hk he hv).trans ?_)
      rw [hu]
      exact State.settled.claimTold (s := u.setBoard _) still
    · exact run _ (State.takeClaim_older (s := s.hearing n) hk he hv)
    · refine run _ ((State.takeClaim_open (s := s.hearing n) hk he hv hs).trans ?_)
      exact State.settled.claimTold (s := (s.hearing n).setBoard _) quiet
    · exact run _ (State.takeClaim_closed (s := s.hearing n) hk he hv hs)
  · intro key version outcome damaged first hm quiet fresh
    have quiet : (s.hearing n).settled key version := quiet
    have run := completes key version outcome damaged first hm
    refine ⟨fun hk => recorded (.doneBy n key version outcome damaged first) false (fun b hb => ?_) (fun hb => ?_),
      fun i e hk he => ⟨fun hv => superseding _ _ _ _ _ quiet fun u still hu => ?_, fun hv => ?_,
        fun hv => ⟨fun hs => ?_, fun hs => ?_, fun hs => ?_⟩⟩⟩
    · exact run _ ((State.takeDone_record (s := s.hearing n) hk hb).trans (quiet.boardDone b))
    · exact run _ (State.takeDone_noRoom (s := s.hearing n) hk hb)
    · refine run _ ((State.takeDone_supersedes (s := s.hearing n) hk he hv).trans ?_)
      rw [hu]
      exact still.boardDone _
    · exact run _ (State.takeDone_older (s := s.hearing n) n outcome damaged first hk he hv)
    · subst hv
      refine run _ ((State.takeDone_owned (s := s.hearing n) n outcome damaged first hk he hs).trans ?_)
      rw [Board.write_entered]
      exact quiet.boardDone _
    · refine run _ ((State.takeDone_unowned (s := s.hearing n) hk he hv hs).trans ?_)
      exact State.settled.boardDone (s := (s.hearing n).boardAnomaly) quiet _
    · exact run _ (State.takeDone_diverges (s := s.hearing n) hk he hv hs)
  · intro key version x k j i e hm hk hj hc queued hp he hv hs
    have live : ∀ u : State, u.jobs = s.jobs → u.jobFor key version = some k := fun u hu =>
      (State.jobFor_congr hu key version).trans hk
    rcases hm with ⟨bid, hm, rfl⟩ | ⟨outcome, damaged, first, hm, rfl⟩
    · have open' : (∃ d, e.state = .contested d) ∨ e.state = .untaken ∨ ∃ o, e.state = .orphaned o := by
        rcases hs with untaken | contested
        · exact .inr (.inl untaken)
        · exact .inl contested
      let u := (s.hearing n).setBoard (s.board.entered i { e with state := .owned n } s.board.full)
      have told : u.claimTold n key version none = u.loseClaim k :=
        (if_neg other).trans (State.loseContending_of (live u rfl) hj hc)
      obtain ⟨freed, gone, others, board, follows⟩ :=
        State.claimLost (s := s) (u := u) hj rfl rfl rfl rfl rfl rfl rfl rfl queued
      exact ⟨_, claims key version bid hm _
        ((State.takeClaim_open (s := s.hearing n) hp he hv open').trans told), freed, gone, others, congrArg Board.entries board, follows⟩
    · let u := (s.hearing n).boardAnomaly.setBoard
        (s.board.entered i { e with state := .done n outcome damaged first } false)
      have told : u.loseContending key version = u.loseClaim k := State.loseContending_of (live u rfl) hj hc
      obtain ⟨freed, gone, others, board, follows⟩ :=
        State.claimLost (s := s) (u := u) hj rfl rfl rfl rfl rfl rfl rfl rfl queued
      exact ⟨_, completes key version outcome damaged first hm _
        ((State.takeDone_unowned (s := s.hearing n) hp he hv hs).trans told), freed, gone, others,
        congrArg Board.entries board, follows⟩

end Sys2Proof.Machine
end

section
/-! PROOF of O21: this station's own CLAIM, accepted. -/

namespace Sys2Proof.Machine

variable {s t u : State} {n : Slot} {q : Queued} {key : PlateKey} {version : Nat} {bid : Option Nat}
  {heard : Option (Station × Msg)} {j : Job} {board : Board} {sender : Station}

/-! ## The CLAIM handed to the board (R9, R15, R16) -/

/-- The station whose CLAIM has been accepted, before the board takes it. -/
def State.claimSent (s : State) (n : Slot) : State :=
  { s with
    link := { s.link with slots := s.link.slots.set n none, phase := .waiting }
    port := s.port.counted .sent
    roll := { s.roll with
      isolationTimer := some (s.now + s.settings.silenceLimit * s.settings.rollPeriod) } }

theorem exec_spoilWindowEnd_claim (hp : s.link.phase = .spoil (.sender (.slot n)) false heard)
    (hq : s.link.slots[n] = some q) (hm : q.msg = .claim key version bid) (hr : q.replacement = none) :
    exec (.spoilWindowEnd false) s = .next
      (((s.claimSent n).claimReturned n).takeClaim s.settings.station key version (some n)) := by
  rw [exec_spoilWindowEnd_sent (p := .slot n) hp hq, Link.sent_alone (p := .slot n) hq hr, hm]
  rfl

theorem State.modifyJob_none (hj : s.job n = none) (f : Job → Job) : s.modifyJob n f = s := by
  have slots : s.jobs.slots.set n none = s.jobs.slots := by
    have gone : s.jobs.slots[n.val] = none := hj
    rw [← gone, Vector.set_getElem_self]
  rw [State.modifyJob, hj, Option.map_none, State.setJob, slots]
  rfl

/-- The CLAIM's job no longer in progress. -/
theorem State.claimReturned_of (hj : s.job n = some j) :
    s.claimReturned n = s.setJob n (some { j with claimInProgress := false }) :=
  State.modifyJob_of hj _

theorem State.claimReturned_gone (hj : s.job n = none) : s.claimReturned n = s := State.modifyJob_none hj _

theorem State.claimReturned_other {m : Slot} (hm : m ≠ n) : (s.claimReturned n).job m = s.job m :=
  State.job_modifyJob_other s n m _ hm

theorem State.job_claimReturned (hj : s.job n = some j) :
    ((s.claimSent n).claimReturned n).job n = some { j with claimInProgress := false } := by
  rw [State.claimReturned_of (s := s.claimSent n) hj, State.job_setJob_same]

/-! ## The board names this station (R51) -/

/-- The board that a CLAIM makes name its sender, where no job but the slot's is thereby cancelled. -/
def State.claimOwns (s : State) (n : Slot) (sender : Station) (key : PlateKey) (version : Nat) (board : Board) : Prop :=
  let fresh : BoardEntry := .claimedBy sender key version
  (s.board.placeOf key = none ∧ s.board.entries.length < 512 ∧ board = s.board.extended fresh s.board.withStamp.full) ∨
    (∃ i old, s.board.placeOf key = none ∧ 512 ≤ s.board.entries.length ∧ s.board.entries[i]? = some old ∧
      old.state.sort ≤ 2 ∧
      (∀ k d, s.board.entries[k]? = some d → k ≠ i →
        old.state.sort < d.state.sort ∨ (old.state.sort = d.state.sort ∧ old.stamp < d.stamp)) ∧
      board = s.board.entered i fresh s.board.withStamp.full) ∨
    ∃ i e, s.board.placeOf key = some i ∧ s.board.entries[i]? = some e ∧
      ((e.version = version ∧ ((∃ d, e.state = .contested d) ∨ e.state = .untaken ∨ ∃ o, e.state = .orphaned o) ∧
          board = s.board.entered i { e with state := .owned sender } s.board.withStamp.full) ∨
        (e.version < version ∧ (∀ k x, k ≠ n → s.job k = some x → s.outlasts x key version) ∧
          board = s.board.entered i fresh s.board.withStamp.full))

/-- A CLAIM that the board takes, where the slot's own job is not below its version. -/
theorem State.claimOwns.takeClaim {own : Option Slot} (h : s.claimOwns n sender key version board)
    (sameBoard : u.board = s.board) (imager : u.imager = s.imager) (others : ∀ k, k ≠ n → u.job k = s.job k)
    (outlasts : ∀ x, u.job n = some x → u.outlasts x key version) :
    u.takeClaim sender key version own = (u.setBoard board).claimTold sender key version own := by
  rw [State.claimOwns, Board.withStamp_full, ← sameBoard] at h
  rcases h with ⟨hk, room, rfl⟩ | ⟨i, old, hk, full, ho, sorted, oldest, rfl⟩ |
    ⟨i, e, hk, he, ⟨hv, hs, rfl⟩ | ⟨hv, rest, rfl⟩⟩
  · exact State.takeClaim_record hk (Board.record_appends room)
  · exact State.takeClaim_record hk (Board.record_enters full ⟨ho, sorted, oldest⟩)
  · exact State.takeClaim_open hk he hv hs
  · rw [State.takeClaim_supersedes hk he hv, State.noticeSuperseded_of_outlasts]
    intro k x hx
    by_cases eq : k = n
    · subst eq
      exact outlasts x hx
    · rw [others k eq] at hx
      have kept := rest k x eq hx
      unfold State.outlasts at kept ⊢
      rwa [imager]

theorem State.claimTold_own (s : State) : s.claimTold s.settings.station key version (some n) =
    s.claimResult n key version .ownedHere := by
  have mine : s.noticeOwned key version s.settings.station = s := if_pos rfl
  rw [State.claimTold, mine]
  rfl

/-! ## The claim result (R72) -/

theorem State.claimResult_gone (hj : s.job n = none) (r : ClaimResult) : s.claimResult n key version r = s := by
  simp only [State.claimResult, hj]

/-- A job whose CLAIM the board has taken. -/
def Job.nowOwned (j : Job) : Job := { j with standing := .owned, claimInProgress := false, withdrawal := none }

/-- The job is the one that the CLAIM is for. -/
def Job.claims (j : Job) (key : PlateKey) (version : Nat) : Prop :=
  j.key = key ∧ j.version = version ∧ j.standing = .contending

theorem State.claimResult_owned (hj : s.job n = some j) (claims : j.claims key version) :
    s.claimResult n key version .ownedHere =
      if j.withdrawal = some .drop then (s.setJob n (some j.nowOwned)).cancelOwned n .dropped
      else (s.setJob n (some j.nowOwned)).assessIfComplete n := by
  simp only [State.claimResult, hj]
  unfold Job.claims at claims
  rw [if_pos claims, State.modifyJob_of hj]
  rfl

theorem State.claimResult_lost (hj : s.job n = some j) (claims : j.claims key version) {r : ClaimResult}
    (hr : r ≠ .ownedHere) : s.claimResult n key version r = s.freeJob n := by
  simp only [State.claimResult, hj]
  unfold Job.claims at claims
  rw [if_pos claims]
  cases r with
  | ownedHere => exact absurd rfl hr
  | _ => rfl

/-! ## The OWNED job (R72, R77, R83) -/

/-- The station whose job the board names it the owner of. -/
def State.ownedHere (s : State) (n : Slot) (j : Job) (board : Board) : State :=
  { s.claimSent n with
    board := board
    jobs := { s.jobs with slots := s.jobs.slots.set n (some j.nowOwned) } }

/-- The board names this station: the job is OWNED, and is then cancelled or assessed. -/
theorem exec_claimOwned (hp : s.link.phase = .spoil (.sender (.slot n)) false heard)
    (hq : s.link.slots[n] = some q) (hm : q.msg = .claim key version bid) (hr : q.replacement = none)
    (hj : s.job n = some j) (claims : j.claims key version)
    (owns : s.claimOwns n s.settings.station key version board) :
    exec (.spoilWindowEnd false) s = .next
      (if j.withdrawal = some .drop then (s.ownedHere n j board).cancelOwned n .dropped
      else (s.ownedHere n j board).assessIfComplete n) := by
  have returned := State.claimReturned_of (s := s.claimSent n) hj
  have same := State.job_claimReturned hj
  have outlasts : ∀ x, ((s.claimSent n).claimReturned n).job n = some x →
      ((s.claimSent n).claimReturned n).outlasts x key version := fun x hx => by
    cases same.symm.trans hx
    exact .inr (.inl claims.2.1.ge)
  have live : (((s.claimSent n).claimReturned n).setBoard board).job n = some { j with claimInProgress := false } :=
    same
  have owned : (((s.claimSent n).claimReturned n).setBoard board).setJob n
      (some ({ j with claimInProgress := false } : Job).nowOwned) = s.ownedHere n j board := by
    rw [returned]
    exact State.setJob_setJob ((s.claimSent n).setBoard board) n (some { j with claimInProgress := false }) _
  rw [exec_spoilWindowEnd_claim hp hq hm hr,
    owns.takeClaim (u := (s.claimSent n).claimReturned n) rfl rfl
      (fun k hk => State.claimReturned_other (s := s.claimSent n) hk) outlasts]
  have told := State.claimTold_own (n := n) (key := key) (version := version)
    (((s.claimSent n).claimReturned n).setBoard board)
  rw [State.claimResult_owned live claims, owned] at told
  exact congrArg Host.Outcome.next told

/-- A job assessed at once, where the Imager takes no plate (R77). -/
theorem State.assessIfComplete_assessed {v : Verdict} (hj : s.job n = some j) (closing : j.stage = .closing)
    (owned : j.standing = .owned) (full : j.screenedCount = j.bands.length) (verdict : j.hasVerdict s.settings v)
    (busy : v = .clean ∨ v = .withinTint → s.imager.state ≠ .idle ∨ s.imager.mediaOut = true) :
    s.assessed (s.assessIfComplete n) n j v := by
  have assessable : j.assessable = true := decide_eq_true ⟨closing, owned, full⟩
  rw [State.assessIfComplete, hj, Option.any_some, if_pos assessable]
  exact State.assessJob_assessed hj (fun o ready => Stage.noConfusion (closing.symm.trans ready)) verdict
    fun ready => State.mayChoose_false (busy ready)

/-- No assessment is due of a job that receives, or with a band not SCREENED. -/
theorem State.assessIfComplete_waits (hj : s.job n = some j)
    (h : j.stage = .receiving ∨ (j.stage = .closing ∧ j.screenedCount ≠ j.bands.length)) :
    s.assessIfComplete n = s := by
  rw [State.assessIfComplete, hj, Option.any_some, if_neg]
  intro assessable
  obtain ⟨closing, -, full⟩ := of_decide_eq_true assessable
  rcases h with receiving | ⟨-, short⟩
  · exact Stage.noConfusion (receiving.symm.trans closing)
  · exact short full

theorem State.job_ownedHere (s : State) (n : Slot) (j : Job) (board : Board) :
    (s.ownedHere n j board).job n = some j.nowOwned :=
  State.job_setJob_same s n _

/-- The words of `State.workCeased` read of the slot's job only its cursor. -/
theorem State.workCeased.ofJob {r : State} {k : Job} (h : s.workCeased t n) (hs : s.job n = some k)
    (hr : r.job n = some j) (hc : k.cursor = j.cursor) (h1 : r.ring = s.ring) (h2 : r.unpacker = s.unpacker)
    (h3 : r.receiver = s.receiver) (h4 : r.damage = s.damage) (h5 : r.screener = s.screener) : r.workCeased t n := by
  obtain ⟨ring, pool, work, current⟩ := h
  refine ⟨by rwa [h1], fun x => ?_, ?_, by rwa [h5]⟩
  · rw [pool x, hs, hr, h2]
    simp only [Option.some.injEq, exists_eq_left', hc]
  · unfold State.unpackingStopped State.headIsFragmentOf at *
    rwa [h2, h3, h4]

/-- A dropped job with no band in the Screener ends with its DONE, as the job it was before the board took its CLAIM. -/
theorem State.ownedHere_ends (hj : s.job n = some j) (stage : j.stage = .receiving ∨ j.stage = .closing)
    (away : ∀ c, s.screener.current = some c → c.slot = n → c.generation ≠ j.generation) :
    let t := (s.ownedHere n j board).cancelOwned n .dropped
    (s.claimSent n).endsWithDone t n j .dropped ∧ (∀ k, k ≠ n → t.job k = s.job k) ∧ t.board = board ∧
      t.port = s.port.counted .sent := by
  have live := s.job_ownedHere n j board
  have others (k : Slot) (hk : k ≠ n) : (s.ownedHere n j board).job k = s.job k := State.job_setJob_other s n k _ hk
  dsimp only
  rw [State.cancelOwned_enters live _ (stage.imp_right .inl)]
  obtain ⟨⟨jobs, -, -, -, -, -, -, -, sameBoard, -, -, port, -⟩, -, ends⟩ :=
    State.enterCancelling_ends live .dropped
  obtain ⟨freed, l, puts, leave⟩ := ends (State.screenerHolds_false live away)
  exact ⟨⟨freed.ofJob (r := s.claimSent n) live hj rfl rfl rfl rfl rfl rfl rfl, l, puts,
    leave.congr (r := s.claimSent n) (fun m hm => (others m hm).symm) rfl rfl rfl⟩,
    fun k hk => (jobs k hk).trans (others k hk), sameBoard, port⟩

/-- A dropped job with a band in the Screener waits in CANCELLING. -/
theorem State.ownedHere_waits (hj : s.job n = some j) (stage : j.stage = .receiving ∨ j.stage = .closing)
    {c : CurrentBand} (hc : s.screener.current = some c) (hslot : c.slot = n) (hg : c.generation = j.generation) :
    let t := (s.ownedHere n j board).cancelOwned n .dropped
    s.workCeased t n ∧ t.board = board ∧ t.link = (s.claimSent n).link ∧ t.screener = s.screener ∧
      t.jobs = { s.jobs with slots := s.jobs.slots.set n (some (j.cancelledFor .dropped).nowOwned) } := by
  have live := s.job_ownedHere n j board
  dsimp only
  rw [State.cancelOwned_enters live _ (stage.imp_right .inl)]
  have holds : (s.ownedHere n j board).screenerHolds n = true := (State.screenerHolds_iff live).mpr ⟨c, hc, hslot, hg⟩
  obtain ⟨beside, waits, -⟩ := State.enterCancelling_ends live .dropped
  obtain ⟨cancelled, link⟩ := waits holds
  obtain ⟨ceased, screener⟩ := (State.enterCancelling_ceased (s.ownedHere n j board) n .dropped).1 holds
  obtain ⟨-, -, -, -, -, -, -, -, sameBoard, -⟩ := id beside
  refine ⟨ceased.ofJob (r := s) live hj rfl rfl rfl rfl rfl rfl, sameBoard, link, screener, ?_⟩
  rw [beside.jobs_eq cancelled]
  exact congrArg State.jobs (State.setJob_setJob s n (some j.nowOwned) (some (j.cancelledFor .dropped).nowOwned))

/-! ## The CLAIM that comes to nothing (R70, R72) -/

/-- `t` is what the end of a CLAIM leaves, with no DONE: the job is freed. -/
def State.claimFrees (s t : State) (n : Slot) (port : Port) (board : Board) : Prop :=
  s.freed t n ∧ t.link.slots[n] = none ∧ (∀ k, k ≠ n → t.job k = s.job k) ∧ t.board = board ∧ t.port = port ∧
    s.leaveFollows t n (s.claimSent n).link

/-- The station whose CLAIM has come back, its board and its port as the board left them. -/
def State.claimBack (s : State) (n : Slot) (port : Port) (board : Board) : State :=
  { (s.claimSent n).claimReturned n with port := port, board := board }

theorem State.claimFrees_of (hj : s.job n = some j) (port : Port) (board : Board) :
    s.claimFrees ((s.claimBack n port board).freeJob n) n port board := by
  have live : (s.claimBack n port board).job n = some { j with claimInProgress := false } :=
    State.job_claimReturned hj
  have others (k : Slot) (hk : k ≠ n) : (s.claimBack n port board).job k = s.job k :=
    State.claimReturned_other (s := s.claimSent n) hk
  obtain ⟨⟨jobs, -, -, -, -, -, -, -, sameBoard, -, -, samePort, -⟩, leave⟩ := State.freeJob_leave live
  have follows := leave.congr (r := s) (fun m hm => (others m hm).symm) rfl rfl rfl
  exact ⟨(State.freeJob_freed live).ofJob live hj rfl rfl rfl rfl rfl rfl rfl,
    follows.slots_none (by simp [State.claimBack, State.claimReturned, State.modifyJob, State.setJob, State.setJobs,
      State.claimSent]), fun k hk => (jobs k hk).trans (others k hk), sameBoard, samePort, follows⟩

theorem State.reportClaim_lost (hj : s.job n = some j) (claims : j.claims key version)
    (port : Port) (board : Board) {r : ClaimResult} (hr : r ≠ .ownedHere) :
    (s.claimBack n port board).reportClaim (some n) key version r = (s.claimBack n port board).freeJob n :=
  State.claimResult_lost (s := s.claimBack n port board) (State.job_claimReturned hj) claims hr

/-- Settles O21. -/
theorem ownClaimOwnsTheJob : Obligations.OwnClaimOwnsTheJob := by
  intro s n q key version bid heard hp hq hm hr
  refine ⟨s.board.withStamp, s.board.readiedAs_withStamp, ?_⟩
  intro ends sent counted entered fresh open' sort owns
  have owning : ∀ board, owns board → s.claimOwns n s.settings.station key version board := fun board h => h
  have run := exec_spoilWindowEnd_claim hp hq hm hr
  refine ⟨fun j board hj hkey hversion hc hb => ?_, fun j hj hkey hversion hc => ?_, fun gone => ?_⟩
  · have claims : j.claims key version := ⟨hkey, hversion, hc⟩
    have owned := exec_claimOwned hp hq hm hr hj claims (owning board hb)
    have live := s.job_ownedHere n j board
    intro nowOwned jobs
    refine ⟨fun kept => ?_, fun drop stage away => ?_, fun c drop stage hs hslot hg => ?_⟩
    · rw [if_neg kept] at owned
      refine ⟨fun waits => ?_, fun v closing full verdict busy => ?_⟩
      · rw [State.assessIfComplete_waits live waits] at owned
        exact owned
      · exact ⟨_, owned, State.assessIfComplete_assessed live closing rfl full verdict busy⟩
    · rw [if_pos drop] at owned
      exact ⟨_, owned, State.ownedHere_ends hj stage away⟩
    · rw [if_pos drop] at owned
      exact ⟨_, owned, State.ownedHere_waits hj stage hs hslot hg⟩
  · have claims : j.claims key version := ⟨hkey, hversion, hc⟩
    let u := (s.claimSent n).claimReturned n
    have frees (r : ClaimResult) (port : Port) (board : Board) (hr : r ≠ .ownedHere)
        (h : u.takeClaim s.settings.station key version (some n) =
          (s.claimBack n port board).reportClaim (some n) key version r) :
        ∃ t, ends t ∧ s.claimFrees t n port board := by
      rw [h, State.reportClaim_lost hj claims port board hr] at run
      exact ⟨_, run, State.claimFrees_of hj port board⟩
    intro freed
    refine ⟨fun i e hk he hv hs => ?_, fun i e hk he hv => ?_, fun hk full kept => ?_⟩
    · exact frees _ _ _ ClaimResult.noConfusion (State.takeClaim_closed (s := u) hk he hv hs)
    · exact frees _ _ _ ClaimResult.noConfusion (State.takeClaim_older (s := u) hk he hv)
    · have none_goes : ∀ e ∈ u.board.entries, e.state.sort = 3 := fun e he => by
        rcases kept e he with ⟨d, hs⟩ | ⟨o, hs⟩ <;> rw [hs] <;> rfl
      exact frees _ _ _ ClaimResult.noConfusion
        (State.takeClaim_noRoom (s := u) hk (Board.record_noRoom full none_goes))
  · rw [State.claimReturned_gone (s := s.claimSent n) gone] at run
    have noJob : ∀ x, (s.claimSent n).job n = some x → (s.claimSent n).outlasts x key version :=
      fun x hx => nomatch gone.symm.trans hx
    refine ⟨fun i e hk he hv => ?_, fun board hb => ?_⟩
    · rw [State.takeClaim_older (s := s.claimSent n) hk he hv] at run
      have stands : (s.claimSent n).reportClaim (some n) key version .superseded = s.claimSent n :=
        State.claimResult_gone (s := s.claimSent n) (key := key) (version := version) gone .superseded
      rw [stands] at run
      exact run
    · rw [(owning board hb).takeClaim (u := s.claimSent n) rfl rfl (fun _ _ => rfl) noJob] at run
      have told : ((s.claimSent n).setBoard board).claimTold s.settings.station key version (some n) =
          (s.claimSent n).setBoard board :=
        ((s.claimSent n).setBoard board).claimTold_own.trans
          (State.claimResult_gone (s := (s.claimSent n).setBoard board) gone .ownedHere)
      rw [told] at run
      exact run

end Sys2Proof.Machine
end

section
/-! PROOF of O59. The board and the reservation are kept by `exec_holds`. The laws of `State.lawful` are kept by each
operation (the Path files of Laws); here each command is brought to its operation, with what the operation asks of the
state: a station that is not in LOADING, as a Link Controller that is not passive has; an empty presence place; a busy
Imager; an Unpacker that does not wait for ring room. -/

namespace Sys2Proof.Machine

variable {x : Option Slot} {s t : State}

/-! ## What the operations ask of the state -/

theorem State.not_loading_of_running (h : s.running = true) : s.station.state ≠ .loading := fun e => by
  rw [State.running, e] at h
  cases h

/-- In LOADING the Link Controller is passive (R2). -/
theorem State.linkPassive.not_loading (h : s.linkPassive) (hp : s.link.phase ≠ .passive)
    (ho : s.link.phase ≠ .owed) : s.station.state ≠ .loading := State.not_loading_of_running (h.running hp ho)

theorem Unpacker.waitsForRing_of_not {u : Unpacker} (h : ∀ d after, u.work ≠ .waitRing d after) :
    u.waitsForRing = false := by
  unfold Unpacker.waitsForRing
  split
  · rename_i e
    exact absurd e (h _ _)
  all_goals rfl

/-- The passing of time changes nothing but the clock and the drum watch (log 2). -/
theorem State.advanceTo_frame (s : State) (deadline : Nat) :
    (s.advanceTo deadline).link = s.link ∧ (s.advanceTo deadline).jobs = s.jobs ∧
      (s.advanceTo deadline).imager.state = s.imager.state := by
  unfold State.advanceTo
  split <;> exact ⟨rfl, rfl, rfl⟩

/-! ## The expiries that ask for something -/

/-- The join period ends (R21): its JOIN has left the presence place, so ACTIVE begins with an empty one. -/
theorem State.joinPeriodEnds_lawful (h : s.lawfulBut x) {deadline : Nat} (hj : s.roll.joinPeriod = some deadline)
    (hs : s.station.state = .joining) :
    (((s.advanceTo deadline).setRoll { (s.advanceTo deadline).roll with joinPeriod := none }).enter .active).lawfulBut
      x := by
  have empty : (s.advanceTo deadline).link.presence = none := by
    rw [(s.advanceTo_frame deadline).1]
    exact h.presence_empty (fun _ => by simp [hj]) (by simp [hs])
  have stopped : ((s.advanceTo deadline).setRoll { (s.advanceTo deadline).roll with joinPeriod := none }).lawfulBut x :=
    State.setRoll_lawful (State.advanceTo_lawful h deadline) rfl (.inr rfl)
  exact State.enter_lawful (y := { (s.advanceTo deadline).station with state := .active }) stopped empty (by simp)

/-- A load or eject timeout ends the hold of a busy Imager (R155, R160, R161). -/
theorem State.timesOut_lawful (h : s.lawfulBut none) (hb : s.imager.state.busy = true) (deadline : Nat)
    (f : ImagerFault) : (((s.advanceTo deadline).recordFault f).endHold true).lawfulBut none := by
  refine State.endHold_lawful (State.recordFault_lawful (State.advanceTo_lawful h deadline) f) ?_ true
  show (s.advanceTo deadline).imager.state.busy = true
  rw [(s.advanceTo_frame deadline).2.2, hb]

/-- Where the quiet timer runs, no end marker of the job stands in the holding queue yet, so its expiry admits the only
one (R99, R102). -/
theorem State.quietEnds_lawful (h : s.lawfulBut x) {n : Slot} {j : Job} (hj : s.job n = some j) {deadline : Nat}
    (hq : j.quiet = some deadline) :
    (((s.advanceTo deadline).admitEnd n j .quiet).raise .quietEnds).lawfulBut x := by
  refine State.raise_lawful (State.admitEnd_lawful (State.advanceTo_lawful h deadline) ?_ ?_ .quiet) _
  · rw [State.job_congr (s.advanceTo_frame deadline).2.1, hj]
  · simp [hq]

/-! ## Every command -/

/-- Every command keeps the laws of `State.lawful` while the Link Controller is passive where it must be. -/
theorem exec_lawful {c : Instr} (h : s.lawfulBut none) (hp : s.linkPassive) (e : exec c s = .next t) :
    t.lawfulBut none := by
  have counted (corrected : Nat) : (s.countCorrected corrected).lawfulBut none :=
    State.countCorrected_lawful h corrected
  cases c <;> injection e with e <;> subst e
  case reset => exact s.resetPart_lawful
  case configurationReadDone =>
    split
    · rename_i reading
      obtain ⟨loading, _⟩ := reading
      exact State.takeChecks_lawful h loading _ _
    · exact h
  case loadingEnded corrected =>
    split
    · rename_i blocks
      obtain ⟨loading, _⟩ := blocks
      exact State.leaveLoading_lawful (State.loadBlocks_lawful (counted corrected) loading) loading _
    · exact counted corrected
  case linkSynchronised =>
    split
    · exact State.setPhase_lawful h _
    · exact h
  case openingStart =>
    split
    case h_3 => exact h
    all_goals exact State.startOpening_lawful h
  case contentionRoundEnd =>
    split
    · exact State.endRound_lawful h _ _ _
    · exact h
  case bodyEnd =>
    split
    · exact State.endBody_lawful h _ _ _ _
    · exact h
  case spoilWindowEnd =>
    split
    · rename_i window
      exact State.endWindow_lawful h (hp.not_loading (by simp [window]) (by simp [window])) _ _ _ _
    · exact State.countSpoiled_lawful (State.setPhase_lawful h _) _
    · exact h
  case rollTimerExpiry =>
    split
    · exact State.setRoll_lawful (State.queueRoll_lawful (State.advanceTo_lawful h _)) rfl (.inl rfl)
    · exact h
  case joinPeriodExpiry =>
    split
    · rename_i period
      split
      · rename_i joining
        exact State.joinPeriodEnds_lawful h period joining
      · exact h
    · exact h
  case silenceTimerExpiry =>
    split
    · exact State.loseContact_lawful (State.advanceTo_lawful h _) _
    · exact h
  case isolationTimerExpiry =>
    split
    · exact State.rejoin_lawful (State.advanceTo_lawful h _)
    · exact h
  case uncorrectableError => exact State.uncorrectable_lawful h _
  case claimWindowExpiry =>
    split
    · rename_i running
      exact State.windowExpires_lawful h (State.not_loading_of_running running) _
    · exact h
  case startMarker =>
    split
    · exact State.setFraming_lawful (State.cutShort_lawful (State.feed_lawful h _)) _
    · exact h
  case plateHeader | headerFailure | fragment | plateEnd => exact State.feed_lawful h _
  case quietTimerExpiry =>
    split
    · exact h
    · rename_i live
      split
      · exact h
      · rename_i quiet
        exact State.quietEnds_lawful h live quiet
  case takeHeadRecord corrected =>
    split
    case h_1 free => exact State.takeHead_lawful (counted corrected) (Unpacker.waitsForRing_of_not (by simp [free]))
    all_goals exact counted corrected
  case takeHeadAnew corrected =>
    split
    case h_1 waits =>
      have anew := State.setWork_lawful (counted corrected) (Unpacker.waitsForRing_of_not (by simp [waits]))
        (w := .free) (by simp)
      exact State.takeHead_lawful anew rfl
    all_goals exact counted corrected
  case partDecoded corrected =>
    split
    case h_1 decoding =>
      exact State.partDecoded_lawful (counted corrected) (Unpacker.waitsForRing_of_not (by simp [decoding]))
    all_goals exact counted corrected
  case descriptorEntersRing =>
    split
    case h_1 waits =>
      split
      · exact h
      · rename_i room
        exact State.resumeAfterRing_lawful h waits (by simpa using room)
    all_goals exact h
  case screenerTake =>
    split
    · exact h
    · rename_i idle
      split
      · exact h
      · rename_i more
        split
        · rename_i entry
          exact State.takeEntry_lawful h (by simpa using more) entry idle
        · exact h
  case bandFinished corrected =>
    split
    · rename_i current
      exact State.bandFinished_lawful (counted corrected) current
    · exact counted corrected
  case loaded =>
    split
    · exact State.plateLoaded_lawful h
    · exact State.ignoreLine_lawful h
  case loadTimeout | ejectTimeout =>
    split
    · split
      · rename_i holds
        exact State.timesOut_lawful h (by rw [holds]; rfl) _ _
      · exact h
    · exact h
  case index corrected =>
    split
    · exact State.takeIndex_lawful (counted corrected) _
    · exact counted corrected
  case swathComplete corrected =>
    split
    · exact State.completeSwath_lawful (counted corrected)
    · exact counted corrected
  case drumLate =>
    split
    · exact State.drumExpires_lawful h
    · exact h
  case headReadyChange =>
    split
    · exact h
    · exact State.headChanges_lawful h _
  case ejected =>
    split
    · rename_i ejecting
      exact State.endHold_lawful h (by rw [ejecting]; rfl) false
    · exact State.ignoreLine_lawful h
  case mediaOutChange =>
    split
    · exact h
    · exact State.mediaChanges_lawful h _
  case inputByteWrite => exact State.writeInput_lawful h _ _
  case dataByteTaken =>
    split
    · exact State.takeDataByte_lawful (State.setPort_lawful h _) _
    all_goals exact h
  case dataRead => exact State.setPort_lawful h _
  case unknownCommand | readStatus | readAttention | readJob | readBandMap | readDamage | readBoard | findBoard |
      readPeer | readLog | readSetting | readCounters | clearCounters | clearLog | setMask | clearAttention | release |
      drop | drain | resume | resetStation =>
    exact State.portCommand_lawful h _ _

/-- Settles O59: a step is an idle clock or one command; each keeps the three laws of `Holds`, and those of
`State.lawful` from a passive link. -/
theorem boardAndReservationStayLawful : Obligations.BoardAndReservationStayLawful := by
  intro s t h
  cases hp : s.pending with
  | nil =>
    rw [step_idle hp] at h
    injection h with h
    subst h
    obtain ⟨_, board, reservation⟩ := State.elapse_holds (Holds.refl s) 1
    exact ⟨board, reservation, fun _ k => (State.lawfulBut_none _).mp (State.elapse_lawful (k.but none) 1)⟩
  | cons c rest =>
    rw [step_front hp] at h
    obtain ⟨_, board, reservation⟩ := exec_holds h
    exact ⟨board, reservation, fun passive k =>
      (State.lawfulBut_none t).mp (exec_lawful (s := s.setPending rest) (State.setPending_lawful (k.but none) rest)
        passive h)⟩

end Sys2Proof.Machine
end

section
/-! PROOF of O44: the last band of a plate and the assessment that follows it. -/

namespace Sys2Proof.Machine

variable {s : State} {j k : Job} {c : CurrentBand} {g : Settings} {v : Verdict}

/-! ## The verdict (R146) -/

/-- The verdict reads of a job its damaged band count and the kinds of its bands. -/
theorem Job.hasVerdict.congr (h : j.hasVerdict g v) (count : k.damagedCount = j.damagedCount)
    (kinds : k.bands.map Band.kind = j.bands.map Band.kind) : k.hasVerdict g v := by
  have every (P : Option DamageKind → Prop) : (∀ b ∈ k.bands, P b.kind) ↔ ∀ b ∈ j.bands, P b.kind := by
    rw [← List.forall_mem_map (f := Band.kind) (P := P), kinds, List.forall_mem_map]
  have one (P : Option DamageKind → Prop) : (∃ b ∈ k.bands, P b.kind) ↔ ∃ b ∈ j.bands, P b.kind := by
    simpa using not_congr (every fun o => ¬ P o)
  unfold Job.hasVerdict at h ⊢
  rw [count, one fun o => ∃ kind, o = some kind ∧ g.action kind = .hold,
    every fun o => ∀ kind, o = some kind → g.action kind = .tint]
  exact h

/-! ## A band recorded (R137) -/

/-- The job with the Screener's band SCREENED. -/
def Job.withScreened (j : Job) (c : CurrentBand) : Job :=
  { j with
    bands := j.bands.modify c.band fun e => { e with state := .screened c.screened }
    screenedCount := j.screenedCount + 1 }

theorem Job.hasVerdict.withScreened (h : j.hasVerdict g v) (c : CurrentBand) : (j.withScreened c).hasVerdict g v := by
  refine h.congr rfl (List.ext_getElem? fun i => ?_)
  simp only [Job.withScreened, List.getElem?_map, List.getElem?_modify]
  cases j.bands[i]? with
  | none => rfl
  | some b => by_cases e : c.band = i <;> simp [e]

/-- The station with a finished band written and out of the Screener. -/
def State.bandLeft (s : State) (corrected : Nat) (screened : Mem) (c : CurrentBand) : State :=
  (s.linesWritten corrected screened).leaveBand c

/-- A band that its slot's job has in SCREENING is recorded, and the job assessed when it was the last. -/
theorem exec_bandFinished_records (hc : s.screener.current = some c) (hj : s.job c.slot = some j)
    (hg : j.generation = c.generation) (stage : j.stage = .receiving ∨ j.stage = .closing)
    (hb : (j.band c.band).state = .screening) (corrected : Nat) :
    ∃ screened, exec (.bandFinished corrected) s = .next
      (((s.bandLeft corrected screened c).setJob c.slot (some (j.withScreened c))).assessIfComplete c.slot) := by
  obtain ⟨screened, finish⟩ := exec_bandFinished_current hc corrected
  have live : (s.bandLeft corrected screened c).job c.slot = some j := hj
  refine ⟨screened, finish.trans ?_⟩
  rw [State.finishBand_recorded (s := s.linesWritten corrected screened) hj hg stage hb, State.recordScreened]
  exact congrArg (fun u : State => Host.Outcome.next (u.assessIfComplete c.slot)) (State.modifyJob_of live _)

theorem Job.withScreened_full (last : j.screenedCount + 1 = j.bands.length) (c : CurrentBand) :
    (j.withScreened c).screenedCount = (j.withScreened c).bands.length :=
  last.trans (List.length_modify _ _ _).symm

/-- Settles O44: the band is recorded, and its job then meets the three conditions of R77. -/
theorem lastBandAssessesThePlate : Obligations.LastBandAssessesThePlate := by
  intro s corrected c j v hc hj hg closing owned last hb verdict busy
  obtain ⟨screened, run⟩ := exec_bandFinished_records hc hj hg (.inr closing) hb corrected
  exact ⟨_, _, run, State.assessIfComplete_assessed (State.job_setJob_same _ _ _) closing owned
    (Job.withScreened_full last c) (verdict.withScreened c) busy, rfl, rfl, rfl, rfl, rfl⟩

end Sys2Proof.Machine
end

section
/-! PROOF of O45: the dots of a finished band by its output values and its tile, and every other dot as before. -/

namespace Sys2Proof.Machine

variable {s : State} {c : CurrentBand} {p : ScreenJob} {f : FrameMemory} {m : Mem} {l x k : Nat}

/-! ## The pixels of a line (R131, R135) -/

theorem ScreenJob.foldl_pixel_succ (p : ScreenJob) (f : FrameMemory) (l row k : Nat) (q : Mem × Nat) :
    (List.range (k + 1)).foldl (p.pixel f l row) q =
      p.pixel f l row ((List.range k).foldl (p.pixel f l row) q) k := by
  rw [List.range_succ, List.foldl_append]
  rfl

/-- The walker's column after some pixels of a line. -/
theorem ScreenJob.foldl_pixel_column (p : ScreenJob) (f : FrameMemory) (l row k : Nat) (q : Mem × Nat) :
    ((List.range k).foldl (p.pixel f l row) q).2 =
      (List.range k).foldl (fun col _ => (p.settings.tile p.tileNo).nextColumn col) q.2 := by
  induction k with
  | zero => rfl
  | succ k ih =>
    rw [ScreenJob.foldl_pixel_succ, List.range_succ, List.foldl_append, ← ih]
    rfl

theorem ScreenJob.foldl_pixel_wf (h : m.WF) (row col k : Nat) :
    ((List.range k).foldl (p.pixel f l row) (m, col)).1.WF := by
  induction k with
  | zero => exact h
  | succ k ih =>
    rw [ScreenJob.foldl_pixel_succ]
    exact Mem.writeDot_wf ih _ _ _ _

/-- The pixels of a line leave the dots of the other lines. -/
theorem ScreenJob.readDot_foldl_pixel_other (h : m.WF) {row col l' : Nat} (hk : k ≤ Config.linePitch)
    (hx : x < Config.linePitch) (other : l' ≠ l) :
    ((List.range k).foldl (p.pixel f l row) (m, col)).1.readDot p.screened l' x = m.readDot p.screened l' x := by
  induction k with
  | zero => rfl
  | succ k ih =>
    rw [ScreenJob.foldl_pixel_succ]
    exact (Mem.readDot_writeDot_other (ScreenJob.foldl_pixel_wf h row col k) _ _ _ _ _ _ hk hx
      fun same => other same.1).trans (ih (by omega))

/-- A pixel that the walker has come past has the dot that was decided there: the pixels after it leave it. -/
theorem ScreenJob.readDot_foldl_pixel (h : m.WF) {row col : Nat} (hk : k ≤ Config.linePitch) (past : x < k) :
    ((List.range k).foldl (p.pixel f l row) (m, col)).1.readDot p.screened l x =
      decide (threshold f.tiles p.tileNo row
        ((List.range x).foldl (fun col _ => (p.settings.tile p.tileNo).nextColumn col) col) < p.outputAt f l x) := by
  induction k with
  | zero => omega
  | succ k ih =>
    have wf := ScreenJob.foldl_pixel_wf (p := p) (f := f) (l := l) h row col k
    rw [ScreenJob.foldl_pixel_succ]
    by_cases here : x = k
    · subst here
      rw [← p.foldl_pixel_column f l row x (m, col)]
      exact Mem.readDot_writeDot_same wf _ _ _ _
    · exact (Mem.readDot_writeDot_other wf _ _ _ _ _ _ (by omega) (by omega) fun same => here same.2).trans
        (ih (by omega) (by omega))

/-! ## The dots of a line and of a band (R131, R134, R136) -/

/-- The dot of a pixel: its output value is greater than the threshold that R134 gives. -/
def ScreenJob.dot (p : ScreenJob) (f : FrameMemory) (l x : Nat) : Bool :=
  decide ((p.settings.tile p.tileNo).thresholdAt f.tiles p.tileNo (p.band * Config.bandLines + l) x < p.outputAt f l x)

theorem ScreenJob.readDot_line (h : m.WF) (hw : p.width ≤ Config.linePitch)
    (tile : 0 < (p.settings.tile p.tileNo).width) (hx : x < p.width) :
    (p.line f m l).readDot p.screened l x = p.dot f l x := by
  refine (ScreenJob.readDot_foldl_pixel h hw hx).trans ?_
  rw [TileShape.walk _ tile]
  rfl

theorem ScreenJob.write_succ (p : ScreenJob) (f : FrameMemory) (k : Nat) :
    p.write f (k + 1) = p.line f (p.write f k) k := by
  rw [ScreenJob.write, List.range_succ, List.foldl_append]
  rfl

theorem ScreenJob.write_wf (h : f.screened.WF) (k : Nat) : (p.write f k).WF := by
  induction k with
  | zero => exact h
  | succ k ih =>
    rw [ScreenJob.write_succ]
    exact ScreenJob.foldl_pixel_wf ih _ _ _

/-- Every dot that the band has, once its lines are written. -/
theorem ScreenJob.readDot_write_own (h : f.screened.WF) (hw : p.width ≤ Config.linePitch)
    (tile : 0 < (p.settings.tile p.tileNo).width) (hl : l < k) (hx : x < p.width) :
    (p.write f k).readDot p.screened l x = p.dot f l x := by
  induction k with
  | zero => omega
  | succ k ih =>
    rw [ScreenJob.write_succ]
    by_cases here : l = k
    · subst here
      exact ScreenJob.readDot_line (ScreenJob.write_wf h l) hw tile hx
    · exact (ScreenJob.readDot_foldl_pixel_other (ScreenJob.write_wf h k) hw (by omega) here).trans (ih (by omega))

/-! ## The band finished (R130) -/

/-- Whatever becomes of its job, a finished band is written as it stood in the Screener. -/
theorem exec_bandFinished_frame (hc : s.screener.current = some c) (corrected : Nat) :
    ∃ t : State, exec (.bandFinished corrected) s = .next t ∧ t.frame = (s.writeScreened c).frame := by
  obtain ⟨-, -, -, frame⟩ := ((s.countCorrected corrected).writeScreened c).finishBand_keeps c
  have current : (s.countCorrected corrected).screener.current = some c := hc
  refine ⟨_, ?_, frame⟩
  rw [exec_bandFinished, execBandFinished, current]
  rfl

/-- Settles O45: the band's own dots by `readDot_write_own`, every other dot by `readDot_write`. -/
theorem dotsFollowTheTile : Obligations.DotsFollowTheTile := by
  intro s corrected c canonical hc hw
  obtain ⟨-, wf, -, -⟩ := canonical
  intro floor ceiling clamped width lines
  obtain ⟨t, run, frame⟩ := exec_bandFinished_frame hc corrected
  refine ⟨t, run, fun tile l x hl hx => ?_, fun b l x hl hx other => ?_, ?_, ?_⟩
  · rw [frame]
    refine (ScreenJob.readDot_write_own (p := s.screenJob c) wf hw tile hl hx).trans ?_
    unfold ScreenJob.dot ScreenJob.outputAt State.screenJob
    cases c.buffer with
    | none => rfl
    | some b => rfl
  · rw [frame]
    exact (s.screenJob c).readDot_write s.frame wf lines b l x hw (Nat.min_le_left _ _) hl hx other
  · rw [frame]; rfl
  · rw [frame]; rfl

end Sys2Proof.Machine
end

section
/-! PROOF of O50. The arbiter's fold over the slots ends at the READY job that comes before every other; each event of
R153 is brought to the state in which the arbiter chooses. -/

namespace Sys2Proof.Machine

variable {s t w : State} {n m : Slot} {j k : Job} {c : Instr} {v : Verdict}

/-! ## The choice (R153) -/

/-- The job of the slot is READY, of higher rank than every other READY job, or of the same rank with a lower order. -/
def JobTable.first (t : JobTable) (n : Slot) (j : Job) : Prop :=
  ∃ order, t.slots[n] = some j ∧ j.stage = .ready order ∧
    ∀ m k o, m ≠ n → t.slots[m] = some k → k.stage = .ready o → k.rank < j.rank ∨ (k.rank = j.rank ∧ order < o)

theorem State.readyJob_iff {x : Nat × Nat} :
    s.readyJob m = some x ↔ ∃ k, s.job m = some k ∧ k.rank = x.1 ∧ k.stage = .ready x.2 := by
  unfold State.readyJob
  cases s.job m with
  | none => simp
  | some k =>
    cases hk : k.stage with
    | ready o => simp [hk, Prod.ext_iff]
    | _ => simp [hk]

/-- `x` is the rank and the order of the slot's READY job, and comes before those of every other. -/
def State.leadsReady (s : State) (n : Slot) (x : Nat × Nat) : Prop :=
  s.readyJob n = some x ∧
    ∀ m y, m ≠ n → s.readyJob m = some y → y.1 < x.1 ∨ (y.1 = x.1 ∧ x.2 < y.2)

theorem State.leadsReady_of_first (h : s.jobs.first n j) : ∃ order, s.leadsReady n (j.rank, order) := by
  obtain ⟨order, hj, ready, leads⟩ := h
  refine ⟨order, State.readyJob_iff.mpr ⟨j, hj, rfl, ready⟩, fun m y other hy => ?_⟩
  obtain ⟨k, hk, rank, ready⟩ := State.readyJob_iff.mp hy
  exact rank ▸ leads m k y.2 other hk ready

theorem State.leadsReady.betterReady_takes {x : Nat × Nat} (h : s.leadsReady n x) (best : Option Slot) :
    betterReady s best n = some n := by
  obtain ⟨hx, leads⟩ := h
  simp only [betterReady, hx]
  cases hy : best.bind s.readyJob with
  | none => rfl
  | some y =>
    obtain ⟨m, rfl, hm⟩ := Option.bind_eq_some_iff.mp hy
    by_cases same : m = n
    · rw [same]
      exact ite_self _
    · refine if_pos ?_
      have := leads m y same hm
      omega

theorem State.leadsReady.betterReady_keeps {x : Nat × Nat} (h : s.leadsReady n x) (other : m ≠ n) :
    betterReady s (some n) m = some n := by
  obtain ⟨hx, leads⟩ := h
  unfold betterReady
  cases hy : s.readyJob m with
  | none => rfl
  | some y =>
    simp only [Option.bind_some, hx]
    refine if_neg ?_
    have := leads m y other hy
    omega

/-- A fold that meets the leading job, or begins with it, ends with it. -/
theorem State.leadsReady.foldl {x : Nat × Nat} (h : s.leadsReady n x) (slots : List Slot) (best : Option Slot)
    (met : n ∈ slots ∨ best = some n) : slots.foldl (betterReady s) best = some n := by
  induction slots generalizing best with
  | nil => simpa using met
  | cons m slots ih =>
    refine ih _ ?_
    by_cases eq : m = n
    · exact .inr (eq ▸ h.betterReady_takes best)
    · rcases met with met | rfl
      · exact .inl ((List.mem_cons.mp met).resolve_left (Ne.symm eq))
      · exact .inr (h.betterReady_keeps eq)

theorem State.chosenReady_first (h : s.jobs.first n j) : s.chosenReady = some n := by
  obtain ⟨order, leads⟩ := State.leadsReady_of_first h
  exact leads.foldl allSlots none (.inl (List.mem_finRange n))

/-! ## The plate taken (R153, R154) -/

/-- The arbiter may choose in `w`, at the time and by the settings of `s`. -/
def State.choosesIn (s w : State) : Prop :=
  w.imager.state = .idle ∧ w.running = true ∧ w.imager.mediaOut = false ∧ w.now = s.now ∧ w.settings = s.settings

theorem State.choosesIn.arbitrate (h : s.choosesIn w) (first : w.jobs.first n j) : w.arbitrate = w.takePlate n j := by
  obtain ⟨idle, running, out, -, -⟩ := h
  have may : w.mayChoose = true := by simp [State.mayChoose, idle, running, out]
  have live : w.job n = some j := by
    obtain ⟨order, live, -⟩ := first
    exact live
  simp only [State.arbitrate, if_pos may, State.chosenReady_first first, live]

/-- `t` holds the jobs with the slot's job IMAGING, and its Imager is LOADING that job's plate, by the time and the
settings of `s`. -/
def State.plateTaken (s t : State) (jobs : JobTable) (n : Slot) (j : Job) : Prop :=
  t.jobs = { jobs with slots := jobs.slots.set n (some { j with stage := .imaging }) } ∧
  t.imager.state = .loading ∧ t.imager.held = some { slot := n, generation := j.generation } ∧
  t.imager.plate = some { sizeClass := j.sizeClass, bandCount := j.bands.length,
                          swathCount := (s.settings.sizeClass j.sizeClass).height / 32 } ∧
  t.imager.plateRequest = some j.sizeClass ∧
  t.imager.loadTimer = some (s.now + s.settings.loadTimeout * 1000)

theorem State.takePlate_of (hj : s.job n = some j) :
    s.takePlate n j = { s with
      jobs := { s.jobs with slots := s.jobs.slots.set n (some { j with stage := .imaging }) }
      imager := { s.imager with
        state := .loading, held := some { slot := n, generation := j.generation }, plate := some (s.plateOf j),
        plateRequest := some j.sizeClass, loadTimer := some (s.now + s.settings.loadTimeout * 1000) } } := by
  rw [State.takePlate, State.modifyJob_of hj]
  rfl

theorem State.choosesIn.plateTaken (h : s.choosesIn w) (first : w.jobs.first n j) :
    s.plateTaken w.arbitrate w.jobs n j := by
  obtain ⟨-, -, -, now, settings⟩ := id h
  obtain ⟨order, live, -⟩ := id first
  rw [h.arbitrate first, State.takePlate_of live]
  unfold State.plateTaken
  rw [← now, ← settings]
  exact ⟨rfl, rfl, rfl, rfl, rfl, rfl⟩

/-- At the command the arbiter takes the first READY job of the table. -/
def State.takes (s : State) (c : Instr) (jobs : JobTable) : Prop :=
  ∀ n j, jobs.first n j → ∃ t : State, exec c s = .next t ∧ s.plateTaken t jobs n j

/-- A command that ends with the arbiter's choice, but for an answer at the port. -/
theorem State.choosesIn.takes (h : s.choosesIn w) (run : exec c s = .next t) (jobs : t.jobs = w.arbitrate.jobs)
    (imager : t.imager = w.arbitrate.imager) : s.takes c w.jobs := by
  intro n j first
  have taken := h.plateTaken first
  unfold State.plateTaken at taken
  rw [← jobs, ← imager] at taken
  exact ⟨t, run, taken⟩

/-! ## The Imager enters IDLE (R161, R162) -/

theorem exec_mediaBack (running : s.running = true) (out : s.imager.mediaOut = true) :
    exec (.mediaOutChange false) s = .next (s.setImager { s.imager with mediaOut := false }).arbitrate := by
  have changes : ¬ s.imager.mediaOut = false := by simp [out]
  have judged : s.mediaChanges false = (s.setImager { s.imager with mediaOut := false }).arbitrate :=
    if_neg (State.not_loading_of_running running)
  rw [exec_mediaOutChange, execMediaOutChange, if_neg changes, judged]

theorem exec_headBack (running : s.running = true) (fault : s.imager.state = .fault)
    (seen : s.imager.seenInactive = true) (lost : s.imager.headReady = false) :
    exec (.headReadyChange true) s = .next
      (s.setImager { s.imager with headReady := true, state := .idle, seenInactive := false }).arbitrate := by
  have changes : ¬ s.imager.headReady = true := by simp [lost]
  have judged : s.headChanges true = (s.setImager { s.imager with headReady := true }).headBack := if_pos running
  have back : (s.setImager { s.imager with headReady := true }).headBack =
      (s.setImager { s.imager with headReady := true, state := .idle, seenInactive := false }).arbitrate :=
    if_pos ⟨fault, seen⟩
  rw [exec_headReadyChange, execHeadReadyChange, if_neg changes, judged, back]

/-- The end of a hold by a plate ejected GOOD, or by its cancel, leaves everything but the job that was held. -/
theorem State.reportEnding_besides {h : HeldJob} (hh : s.imager.held = some h) (hj : s.job h.slot = some j)
    (ending : s.imager.disposition = some .good ∨
      (s.imager.disposition ≠ some .good ∧ s.imager.pendingCancel ≠ none ∧
        ∀ c, s.screener.current = some c → c.slot = h.slot → c.generation ≠ j.generation)) :
    ({ s with port := s.countEject.port } : State).besides s.countEject.reportEnding h.slot ∧
      s.countEject.reportEnding.job h.slot = none := by
  let u : State := { s with port := s.countEject.port }
  rw [State.ending_reported hh hj, State.countEject_eq]
  rcases ending with good | ⟨notGood, cancel, away⟩
  · obtain ⟨⟨⟨gone, -⟩, -⟩, beside⟩ := State.endJob_endsWithDone (s := u) hj j.goodOutcome
    rw [State.endingOf_good good, State.imagerEnding_plateEnded (s := u) hj]
    exact ⟨beside, gone⟩
  · obtain ⟨reason, cancel⟩ := Option.ne_none_iff_exists'.mp cancel
    obtain ⟨⟨⟨gone, -⟩, -⟩, beside⟩ := State.imagerEnding_cancelled (s := u) hj reason away
    rw [State.endingOf_cancelled notGood cancel]
    exact ⟨beside, gone⟩

/-- EJECTED with no fault pending, where the report of the ending leaves the station, its time and its Imager. -/
theorem State.ejected_takes (running : s.running = true) (out : s.imager.mediaOut = false)
    (ejecting : s.imager.state = .ejecting) (noFault : s.imager.pendingFault = none)
    (imager : s.countEject.reportEnding.imager = s.imager) (station : s.countEject.reportEnding.station = s.station)
    (clock : s.countEject.reportEnding.clock = s.clock)
    (settings : s.countEject.reportEnding.settings = s.settings) :
    s.takes .ejected s.countEject.reportEnding.jobs := by
  have run := exec_ejected_ejecting ejecting
  rw [State.endHold_idle ((congrArg Imager.pendingFault imager).trans noFault)] at run
  refine State.choosesIn.takes
    (w := s.countEject.reportEnding.setImager (s.countEject.reportEnding.imager.released .idle)) ⟨rfl, ?_, ?_, ?_, settings⟩ run rfl rfl
  · exact (congrArg (fun x : StationControl => x.state.running) station).trans running
  · exact (congrArg Imager.mediaOut imager).trans out
  · exact congrArg (· / Config.clocksPerMs) clock

/-! ## A job enters READY (R77, R78, R146, R153) -/

theorem Job.assess_of_hasVerdict {g : Settings} (h : j.hasVerdict g v) (passes : v = .clean ∨ v = .withinTint) :
    j.assess g = v := by
  unfold Job.assess
  rcases h with ⟨none_damaged, rfl⟩ | ⟨damaged, ⟨-, rfl⟩ | ⟨tints, ⟨within, rfl⟩ | ⟨-, rfl⟩⟩⟩
  · exact if_pos none_damaged
  · simp at passes
  · have notHeld : ¬ j.heldForKind g = true := by
      simp only [Job.heldForKind, List.any_eq_true, Option.any_eq_true, decide_eq_true_eq, not_exists, not_and]
      intro b hb kind hk held
      exact DamageAction.noConfusion ((tints b hb kind hk).symm.trans held)
    rw [if_neg (by omega), if_neg notHeld, if_pos within]
  · simp at passes

/-- A job that comes to the three conditions of R77 with a verdict that passes is READY, and the arbiter may choose. -/
theorem State.assessIfComplete_readies (hj : s.job n = some j) (notReady : ∀ o, j.stage ≠ .ready o)
    (closing : k.stage = .closing) (owned : k.standing = .owned) (full : k.screenedCount = k.bands.length)
    (verdict : k.hasVerdict s.settings v) (passes : v = .clean ∨ v = .withinTint) :
    ∃ jobs, s.jobs.readies jobs n { k with verdict := v } ∧
      (s.setJob n (some k)).assessIfComplete n = (s.setJobs jobs).arbitrate := by
  obtain ⟨jobs, readies, ready⟩ := State.enterReady_readies (k := { k with verdict := v }) hj notReady
    (by simp [closing])
  refine ⟨jobs, readies, ?_⟩
  have live : (s.setJob n (some k)).job n = some k := State.job_setJob_same s n _
  have assessable : k.assessable = true := decide_eq_true ⟨closing, owned, full⟩
  have assessed : k.assess (s.setJob n (some k)).settings = v := Job.assess_of_hasVerdict verdict passes
  have imaged : v.ready = true := by rcases passes with rfl | rfl <;> rfl
  rw [State.assessIfComplete, live, Option.any_some, if_pos assessable, State.assessJob, live]
  dsimp only
  rw [assessed, if_pos imaged, State.modifyJob_of live, State.setJob_setJob, ready]

/-- At the command the slot's job enters READY, and the arbiter takes the first READY job. -/
def State.readied (s : State) (c : Instr) (n : Slot) (j : Job) : Prop :=
  ∃ jobs, s.jobs.readies jobs n j ∧ s.takes c jobs

/-- A command that brings a job to the three conditions of R77, with a verdict that passes. -/
theorem State.choosesIn.assessed (h : s.choosesIn w) (jobs : w.jobs = s.jobs)
    (run : exec c s = .next ((w.setJob n (some k)).assessIfComplete n)) (hj : s.job n = some j)
    (notReady : ∀ o, j.stage ≠ .ready o) (closing : k.stage = .closing) (owned : k.standing = .owned)
    (full : k.screenedCount = k.bands.length) (verdict : k.hasVerdict s.settings v)
    (passes : v = .clean ∨ v = .withinTint) : s.readied c n { k with verdict := v } := by
  obtain ⟨-, -, -, -, settings⟩ := id h
  obtain ⟨table, readies, e⟩ := State.assessIfComplete_readies (s := w) ((State.job_congr jobs n).trans hj) notReady
    closing owned full (settings ▸ verdict) passes
  rw [e] at run
  exact ⟨table, jobs ▸ readies, State.choosesIn.takes (w := w.setJobs table) h run rfl rfl⟩

theorem State.release_readied {a : Byte} (ha : a.toNat < 8) (opens : s.opensTo 0x30#8)
    (hj : s.job ⟨a.toNat, ha⟩ = some j) (held : j.stage = .held) (may : s.choosesIn s.busyPort) :
    s.readied (.release [a]) ⟨a.toNat, ha⟩ { j with verdict := .released } := by
  obtain ⟨jobs, readies, ready⟩ := State.enterReady_readies (s := s.busyPort) (k := { j with verdict := .released }) hj
    (by simp [held]) (by simp [held])
  have run : exec (.release [a]) s = .next ((s.busyPort.setJobs jobs).arbitrate.answer []) := by
    rw [exec_release_opens opens, State.onSlot_of_lt ha, hj, Option.any_some, decide_eq_true held, State.act_true,
      State.modifyJob_of (s := s.busyPort) hj, ready]
  exact ⟨jobs, readies, State.choosesIn.takes (w := s.busyPort.setJobs jobs) may run rfl rfl⟩

/-- Settles O50: at each event the arbiter chooses in a state with the time and the settings of `s`. -/
theorem arbiterTakesTheFirstReady : Obligations.ArbiterTakesTheFirstReady := by
  intro s running
  refine ⟨fun n j idle out first => ?_, fun out => ⟨fun fault seen lost => ?_, fun ejecting noFault => ⟨fun hh => ?_,
    fun h j hh hj ending => ?_⟩, fun idle => ?_⟩⟩
  · have may : s.choosesIn (s.setImager { s.imager with mediaOut := false }) := ⟨idle, running, rfl, rfl, rfl⟩
    obtain ⟨order, live, -⟩ := id first
    rw [exec_mediaBack running out, may.arbitrate first,
      State.takePlate_of (s := s.setImager { s.imager with mediaOut := false }) live]
    rfl
  · exact State.choosesIn.takes
      (w := s.setImager { s.imager with headReady := true, state := .idle, seenInactive := false })
      ⟨rfl, running, out, rfl, rfl⟩ (exec_headBack running fault seen lost) rfl rfl
  · have same : s.countEject.reportEnding = { s with port := s.countEject.port } :=
      (State.disposal_reported hh).trans s.countEject_eq
    have takes := State.ejected_takes running out ejecting noFault (by rw [same]) (by rw [same]) (by rw [same])
      (by rw [same])
    rwa [same] at takes
  · obtain ⟨beside, gone⟩ := State.reportEnding_besides hh hj ending
    obtain ⟨-, -, -, station, settings, -, -, -, -, -, imager, -, -, clock, -⟩ := id beside
    have takes := State.ejected_takes running out ejecting noFault imager station clock settings
    rwa [beside.jobs_eq gone] at takes
  · refine ⟨fun a ha j opens hj held => State.release_readied ha opens hj held ⟨idle, running, out, rfl, rfl⟩,
      fun corrected c j v hc hj hg closing owned last hb ⟨verdict, passes⟩ => ?_,
      fun corrected r rest origin j v free hh body hj hg receiving owned noBand full ended ⟨verdict, passes⟩ => ?_,
      fun n q j bid heard i e v phase hq claim alone hj contending kept closing full place he version contested
        ⟨verdict, passes⟩ => ?_⟩
    · obtain ⟨screened, run⟩ := exec_bandFinished_records hc hj hg (.inr closing) hb corrected
      exact State.choosesIn.assessed (s := s) (k := j.withScreened c) (w := s.bandLeft corrected screened c)
        ⟨idle, running, out, rfl, rfl⟩ rfl run hj (by simp [closing]) closing owned
        (Job.withScreened_full last c) (verdict.withScreened c) passes
    · have run := exec_headEndMarker (c := .takeHeadRecord corrected) (.inl ⟨free, rfl⟩) ⟨hh, hj, hg, receiving⟩ body
      rw [State.judgeEnd_ordered (u := s.takingHead corrected) hj noBand ended rfl,
        State.processEnd_eq (u := s.takingHead corrected) hh hj] at run
      exact State.choosesIn.assessed (k := j.withEnd)
        (w := { s.takingHead corrected with receiver := { s.receiver with holding := rest } })
        ⟨idle, running, out, rfl, rfl⟩ rfl run hj (by simp [receiving]) rfl owned full verdict passes
    · have claims : j.claims j.key j.version := ⟨rfl, rfl, contending⟩
      let board := s.board.entered i { e with state := .owned s.settings.station } s.board.withStamp.full
      have run := exec_claimOwned (board := board) phase hq claim alone hj claims
        (.inr (.inr ⟨i, e, place, he, .inl ⟨version, .inl contested, rfl⟩⟩))
      rw [if_neg kept] at run
      exact State.choosesIn.assessed (k := j.nowOwned) (w := { s.claimSent n with board := board })
        ⟨idle, running, out, rfl, rfl⟩ rfl run hj (by simp [closing]) closing rfl full verdict passes

end Sys2Proof.Machine
end

section
/-! Page-line records: the length of a header, a good PLATE END, attribution, and what a record comes to that is of no
job, of a job that takes records no more, of a band beyond the plate, or a duplicate (R90 to R94, R100). -/

namespace Sys2Proof.Machine

variable {s : State} {key : PlateKey} {version band part length : Nat} {last : Bool} {n : Slot} {j : Job} {a : Arrived}
  {kind : Byte}

/-! ## The length of a header, from its kind byte (R183) -/

theorem headerLength_eq_some {n : Nat} :
    headerLength kind = some n ↔
      (kind = 0x01#8 ∧ n = 8) ∨ (kind = 0x02#8 ∧ n = 10) ∨ (kind = 0x03#8 ∧ n = 6) := by
  unfold headerLength
  split_ifs with plate fragment plateEnd
  · simp [plate, eq_comm]
  · simp [fragment, eq_comm]
  · simp [plateEnd, eq_comm]
  · simp [plate, fragment, plateEnd]

theorem headerLength_eq_none :
    headerLength kind = none ↔ kind ≠ 0x01#8 ∧ kind ≠ 0x02#8 ∧ kind ≠ 0x03#8 := by
  unfold headerLength
  split_ifs with plate fragment plateEnd
  · simp [plate]
  · simp [fragment]
  · simp [plateEnd]
  · simp [plate, fragment, plateEnd]

/-! ## A PLATE END header with every field in its range (R90, R183) -/

theorem judgeHeader_plateEnd (h : (Header.plateEnd key version).inRange) :
    judgeHeader (Header.plateEnd key version).encode = some (.plateEnd key version) := by
  obtain ⟨hk, hv⟩ := h
  have decoded : decodeKey (byteOf (key.title * 16 + key.sep.code)) (byteOf key.edition) (byteOf key.page) = some key :=
    decodeKey_eq_some.mpr ⟨hk, rfl⟩
  have version_byte := byteOf_toNat version (by omega)
  rw [judgeHeader, Header.encode, checked_append, if_pos rfl]
  simp only [headerFields, PlateKey.encode, byteAt, List.cons_append, List.nil_append, List.getD_cons_zero,
    List.getD_cons_succ, decoded, Option.map_some, version_byte]
  rfl

theorem exec_plateEnd_good (h : (Header.plateEnd key version).inRange) (run : s.running = true)
    (framing : s.receiver.framing = .header []) :
    exec (.plateEnd (Header.plateEnd key version).encode) s =
      .next ((s.setFraming .hunting).takePlateEnd key version) := by
  rw [exec_plateEnd, execPlateEnd, State.feed, if_pos run, feed_header s _ framing rfl, State.wholeHeader,
    judgeHeader_plateEnd h]

/-! ## Attribution (R92) -/

theorem State.jobFor_eq_none :
    s.jobFor key version = none ↔ ∀ n j, s.job n = some j → ¬ (j.key = key ∧ j.version = version) := by
  simp [State.jobFor, allSlots, Option.any_eq_false]

theorem Job.takesRecords_iff : j.takesRecords = true ↔ j.stage = .receiving ∧ j.endAdmitted = false := by
  simp [Job.takesRecords]

theorem Job.takesRecords_eq_false : j.takesRecords = false ↔ j.stage ≠ .receiving ∨ j.endAdmitted = true := by
  rw [← Bool.not_eq_true, Job.takesRecords_iff, not_and_or, Bool.not_eq_false]

/-! ## A FRAGMENT that is not taken (R92 to R94) -/

theorem State.takeArrived_passedOver (hf : s.jobFor key version = none) :
    s.takeArrived key version a = { s with port := s.port.counted .passedOver } := by
  rw [State.takeArrived, hf]
  rfl

theorem State.takeArrived_of (hf : s.jobFor key version = some n) (hj : s.job n = some j) :
    s.takeArrived key version a = s.judgeArrived n j a := by
  rw [State.takeArrived, hf]
  simp only [hj]

theorem State.judgeArrived_late (late : j.takesRecords = false) :
    s.judgeArrived n j a = { s with damage := { s.damage with log := { s.damage.log with
      late := min (s.damage.log.late + 1) 65535 } } } :=
  if_pos late

theorem State.judgeArrived_beyond (takes : j.takesRecords = true) (beyond : j.bands.length ≤ a.band) :
    s.judgeArrived n j a = s.reportUnattributed (rawHeader a.header) := by
  rw [State.judgeArrived, if_neg (by simp [takes]), if_pos (show j.bandCount ≤ a.band from beyond)]

theorem Job.isDuplicate_of {c : AdmissionCursor} (hc : j.admission = some c)
    (before : band < c.band ∨ (band = c.band ∧ (part ≤ c.part ∨ c.last = true))) : j.isDuplicate band part = true := by
  rw [Job.isDuplicate, hc]
  simpa using before

theorem State.judgeArrived_duplicate (takes : j.takesRecords = true) (within : a.band < j.bands.length)
    (duplicate : j.isDuplicate a.band a.part = true) :
    s.judgeArrived n j a = { s with damage := { s.damage with log := { s.damage.log with
      duplicate := min (s.damage.log.duplicate + 1) 65535 } } } := by
  rw [State.judgeArrived, if_neg (by simp [takes]), if_neg (show ¬ j.bandCount ≤ a.band from Nat.not_le.mpr within),
    if_pos duplicate]
  rfl

/-- The raw header of a FRAGMENT: its ten bytes and six of 00h (R90). -/
theorem rawHeader_fragment :
    rawHeader (Header.fragment key version band part last length).encode =
      (Header.fragment key version band part last length).encode ++ List.replicate 6 0x00#8 := rfl

/-! ## An end of a plate (R92, R100, R102) -/

theorem State.takePlateEnd_passedOver (hf : s.jobFor key version = none) :
    s.takePlateEnd key version = { s with port := s.port.counted .passedOver } := by
  rw [State.takePlateEnd, hf]
  rfl

theorem State.takePlateEnd_of (hf : s.jobFor key version = some n) (hj : s.job n = some j) :
    s.takePlateEnd key version =
      if j.takesRecords then (s.admitEnd n j .plateEnd).raise .admitted else s.reportLate := by
  rw [State.takePlateEnd, hf]
  simp only [hj]

theorem State.admitEnd_eq (hj : s.job n = some j) (origin : EndOrigin) :
    s.admitEnd n j origin =
      { s with
        receiver := { s.receiver with
          holding := s.receiver.holding ++
            [{ slot := n, generation := j.generation, key := j.key, version := j.version, body := .endMarker origin }] }
        jobs := { s.jobs with slots := s.jobs.slots.set n (some { j with endAdmitted := true, quiet := none }) } } := by
  rw [State.admitEnd]
  exact State.modifyJob_of (s := s.append _) hj _

end Sys2Proof.Machine
end

section
/-! PROOFS of O31, O33 and O34: a fragment that is admitted, one that is not taken, and the ends of plates. -/

namespace Sys2Proof.Machine

variable {s : State} {n : Slot} {j : Job} {a : Arrived}

/-! ## A fragment admitted (R95 to R98) -/

/-- The job with its admission cursor at the fragment (R93). -/
def Job.movedTo (j : Job) (a : Arrived) : Job :=
  { j with admission := some { band := a.band, part := a.part, last := a.last } }

theorem State.moveCursor_of (hj : s.job n = some j) : s.moveCursor n a = s.setJob n (some (j.movedTo a)) :=
  State.modifyJob_of hj _

theorem State.admitFragment_of {k : Job} (hk : s.job n = some k) :
    s.admitFragment n j a =
      ((s.append
        { slot := n, generation := j.generation, key := j.key, version := j.version,
          body := .fragment a.band a.part a.last a.payload a.capture }).raise .admitted).setJob n
        (some { k with quiet := some (s.now + s.settings.quietLimit) }) :=
  State.modifyJob_of (s := (s.append _).raise .admitted) hk _

theorem State.admitFragment_moveCursor (hj : s.job n = some j) :
    (s.moveCursor n a).admitFragment n j a =
      { s with
        receiver := { s.receiver with
          holding := s.receiver.holding ++
            [{ slot := n, generation := j.generation, key := j.key, version := j.version,
               body := .fragment a.band a.part a.last a.payload a.capture }] }
        jobs := { s.jobs with
          slots := s.jobs.slots.set n (some { j.movedTo a with quiet := some (s.now + s.settings.quietLimit) }) }
        port := s.port.counted .admitted } := by
  rw [State.moveCursor_of hj, State.admitFragment_of (State.job_setJob_same s n _)]
  exact State.setJob_setJob ((s.append _).raise .admitted) n _ _

/-- A fragment that passes the three checks is admitted. -/
theorem State.checkFragment_admitted (crc : a.failsCrc = false)
    (noFill : ∀ f ∈ s.settings.fills, f.matches a.payload = false)
    (room : (s.receiver.holding.filter HoldingRecord.isFragment).length < 8192) :
    s.checkFragment n j a = (s.moveCursor n a).admitFragment n j a := by
  have noMatch : ¬ ((s.moveCursor n a).settings.fills.any fun f => f.matches a.payload) = true := fun e => by
    obtain ⟨f, hf, hm⟩ := List.any_eq_true.mp e
    exact absurd hm (by simp [noFill f hf])
  have notFull : ¬ (s.moveCursor n a).receiver.isFull = true := fun e =>
    absurd (of_decide_eq_true e) (Nat.not_le.mpr room)
  rw [State.checkFragment, if_neg (by simp [crc]), if_neg noMatch, if_neg notFull]

/-- Settles O31. -/
theorem fragmentAdmitted : Obligations.FragmentAdmitted := by
  intro s key version band part last payload hi lo n j h range run framing hf hj receiving unended within past crc
    noFill room
  rw [exec_fragment_whole range run framing,
    State.takeArrived_taken (s := s.setFraming .hunting) hf hj receiving unended within past,
    State.checkFragment_admitted (s := s.setFraming .hunting),
    State.admitFragment_moveCursor (s := s.setFraming .hunting) hj]
  · rfl
  · simp [Arrived.failsCrc_whole, crc]
  · exact noFill
  · exact room

/-- Settles O33. -/
theorem fragmentNotTaken : Obligations.FragmentNotTaken := by
  refine ⟨fun s key version band part last payload hi lo range run framing => ⟨fun hf => ?_, fun n j hf hj => ?_⟩,
    fun s key version => ⟨State.jobFor_eq_none, fun n => State.jobFor_some⟩⟩
  · rw [exec_fragment_whole range run framing, State.takeArrived_passedOver (s := s.setFraming .hunting) hf]
    rfl
  · rw [exec_fragment_whole range run framing, State.takeArrived_of (s := s.setFraming .hunting) hf hj]
    refine ⟨fun late => ?_, fun receiving unended => ⟨fun beyond => ?_, fun within c hc before => ?_⟩⟩
    · rw [State.judgeArrived_late (Job.takesRecords_eq_false.mpr late)]
      rfl
    · rw [State.judgeArrived_beyond (Job.takesRecords_iff.mpr ⟨receiving, unended⟩) beyond, rawHeader_fragment]
      rfl
    · rw [State.judgeArrived_duplicate (Job.takesRecords_iff.mpr ⟨receiving, unended⟩) within
        (Job.isDuplicate_of hc before)]
      rfl

/-- Settles O34. -/
theorem plateEndAndQuietTimer : Obligations.PlateEndAndQuietTimer := by
  refine fun s => ⟨fun key version range run framing hf => ?_,
    fun n j hj => ⟨fun key version range run framing hf => ⟨fun receiving unended => ?_, fun late => ?_⟩,
      fun deadline hq past => ?_⟩⟩
  · rw [exec_plateEnd_good range run framing, State.takePlateEnd_passedOver (s := s.setFraming .hunting) hf]
    rfl
  · rw [exec_plateEnd_good range run framing, State.takePlateEnd_of (s := s.setFraming .hunting) hf hj,
      if_pos (Job.takesRecords_iff.mpr ⟨receiving, unended⟩), State.admitEnd_eq (s := s.setFraming .hunting) hj]
    rfl
  · rw [exec_plateEnd_good range run framing, State.takePlateEnd_of (s := s.setFraming .hunting) hf hj,
      if_neg (by simp [Job.takesRecords_eq_false.mpr late])]
    rfl
  · rw [exec_quietTimerExpiry_at hj hq, State.advanceTo_reached s deadline past, State.admitEnd_eq hj]
    rfl

end Sys2Proof.Machine
end

section
/-! PROOF of O29: start markers and header failures. -/

namespace Sys2Proof.Machine

variable {s : State} {got bytes : List Byte}

/-- A first byte that names no kind is a header failure. -/
theorem exec_headerFailure_kind {b : Byte} (run : s.running = true) (framing : s.receiver.framing = .header [])
    (unknown : headerLength b = none) : exec (.headerFailure [b]) s = .next (s.headerFails [b]) := by
  have fed : s.feedByte b = s.headerFails [b] := by
    simp only [State.feedByte, framing, State.takeHeaderBytes, List.nil_append, show byteAt [b] 0 = b from rfl, unknown]
  rw [exec_headerFailure, execHeaderFailure, State.feed, if_pos run, List.foldl_cons, fed, List.foldl_nil]

/-- A whole header that is judged bad is a header failure. -/
theorem exec_headerFailure_whole (run : s.running = true) (framing : s.receiver.framing = .header [])
    (whole : headerLength (byteAt bytes 0) = some bytes.length) (bad : judgeHeader bytes = none) :
    exec (.headerFailure bytes) s = .next (s.headerFails bytes) := by
  rw [exec_headerFailure, execHeaderFailure, State.feed, if_pos run, feed_header s _ framing whole,
    State.wholeHeader, bad]

/-- A start marker cuts short what the bytes before it leave in progress, and begins a record. -/
theorem exec_startMarker_fed (run : s.running = true) :
    exec (.startMarker bytes) s = .next (((s.feed bytes).cutShort).setFraming (.header [])) := by
  rw [exec_startMarker, execStartMarker, if_pos run]

/-- Bytes that come while the receiver hunts are ignored. -/
theorem State.feed_hunting (hunting : s.receiver.framing = .hunting) (bytes : List Byte) : s.feed bytes = s := by
  have ignored (b : Byte) : s.feedByte b = s := by rw [State.feedByte, hunting]
  rw [State.feed, List.foldl_fixed' ignored, ite_self]

theorem State.cutShort_hunting (hunting : s.receiver.framing = .hunting) : s.cutShort = s := by
  rw [State.cutShort, hunting]

theorem State.cutShort_header (header : s.receiver.framing = .header got) : s.cutShort = s.headerFails got := by
  rw [State.cutShort, header]

/-- Settles O29. -/
theorem startMarkerAndHeaderFailure : Obligations.StartMarkerAndHeaderFailure := by
  refine fun s run => ⟨fun bytes hunting => ?_, fun got header => ?_,
    fun key version band part last length got bytes range framing short => ⟨fun hf => ?_, fun n j hf hj late => ?_⟩,
    fun b framing not1 not2 not3 => ?_, fun bytes framing whole bad => ?_⟩
  · rw [exec_startMarker_fed run, State.feed_hunting hunting, State.cutShort_hunting hunting]
    rfl
  · have nothing : s.feed [] = s := if_pos run
    rw [exec_startMarker_fed run, nothing, State.cutShort_header header]
    rfl
  · rw [exec_startMarker_cut range run framing short,
      State.takeArrived_passedOver (s := (s.setFreeCount (s.freeCount + 2)).setFraming .hunting) hf]
    rfl
  · rw [exec_startMarker_cut range run framing short,
      State.takeArrived_of (s := (s.setFreeCount (s.freeCount + 2)).setFraming .hunting) hf hj,
      State.judgeArrived_late (Job.takesRecords_eq_false.mpr late)]
    rfl
  · rw [exec_headerFailure_kind run framing (headerLength_eq_none.mpr ⟨not1, not2, not3⟩)]
    rfl
  · rw [exec_headerFailure_whole run framing whole bad]
    rfl

end Sys2Proof.Machine
end

section
/-! PROOF of O30: a header is judged to be the header encoded, and nothing else is taken. -/

namespace Sys2Proof.Machine

variable {bs rest tail : List Byte} {h : Header} {kind k0 k1 k2 v x y z w : Byte}

/-! ## The bytes of a header (R183) -/

/-- The bytes of a header before its nibble check. -/
def Header.front : Header → List Byte
  | .plate key version size screen rank =>
    0x01#8 :: key.encode ++ [byteOf version, byteOf (size * 16 + screen), byteOf rank]
  | .fragment key version band part last length =>
    0x02#8 :: key.encode ++
      [byteOf version, byteOf band, byteOf ((if last then 128 else 0) + part), byteOf (length / 256), byteOf length]
  | .plateEnd key version => 0x03#8 :: key.encode ++ [byteOf version]

theorem Header.encode_eq (h : Header) : h.encode = h.front ++ [nibbleCheck h.front] := by
  cases h <;> rfl

theorem headerLength_encode (h : Header) : headerLength (byteAt h.encode 0) = some h.encode.length := by
  cases h <;> rfl

theorem judgeHeader_encode (range : h.inRange) : judgeHeader h.encode = some h := by
  cases h with
  | plate => exact judgeHeader_plate range
  | fragment => exact judgeHeader_fragment range
  | plateEnd => exact judgeHeader_plateEnd range

/-! ## A header that is taken (R90) -/

/-- The part byte is made of its low seven bits and its top bit. -/
theorem byteOf_part (b : Byte) : byteOf ((if b.getLsbD 7 then 128 else 0) + b.toNat % 128) = b := by
  refine (byteOf_of_toNat ?_).symm
  have lt := b.isLt
  have top : b.getLsbD 7 = decide (128 ≤ b.toNat) := BitVec.msb_eq_decide b
  rw [top]
  split_ifs with high
  · have := of_decide_eq_true high
    omega
  · have := of_decide_eq_false (Bool.eq_false_of_not_eq_true high)
    omega

theorem plate_of_headerFields (hm : headerFields (0x01#8 :: k0 :: k1 :: k2 :: v :: x :: y :: tail) = some h) :
    h.inRange ∧ h.front = [0x01#8, k0, k1, k2, v, x, y] := by
  have judged : headerFields (0x01#8 :: k0 :: k1 :: k2 :: v :: x :: y :: tail) =
      (decodeKey k0 k1 k2).bind fun key =>
        if x.toNat / 16 ≤ 3 ∧ x.toNat % 16 ≤ 3 ∧ y.toNat ≤ 7 then
          some (.plate key v.toNat (x.toNat / 16) (x.toNat % 16) y.toNat) else none := rfl
  rw [judged, Option.bind_eq_some_iff] at hm
  simp only [Option.ite_none_right_eq_some, Option.some.injEq] at hm
  obtain ⟨key, hk, classes, rfl⟩ := hm
  obtain ⟨range, bytes⟩ := decodeKey_eq_some.mp hk
  have nibbles : byteOf (x.toNat / 16 * 16 + x.toNat % 16) = x := (byteOf_of_toNat (by omega)).symm
  refine ⟨⟨range, Nat.le_of_lt_succ v.isLt, classes⟩, ?_⟩
  rw [Header.front, ← bytes, nibbles, ← byteOf_of_toNat (b := v) rfl, ← byteOf_of_toNat (b := y) rfl]
  rfl

theorem fragment_of_headerFields
    (hm : headerFields (0x02#8 :: k0 :: k1 :: k2 :: v :: x :: y :: z :: w :: tail) = some h) :
    h.inRange ∧ h.front = [0x02#8, k0, k1, k2, v, x, y, z, w] := by
  have judged : headerFields (0x02#8 :: k0 :: k1 :: k2 :: v :: x :: y :: z :: w :: tail) =
      (decodeKey k0 k1 k2).bind fun key =>
        if x.toNat ≤ 95 ∧ y.toNat % 128 ≤ 15 ∧ nat16 z w ≤ 4096 then
          some (.fragment key v.toNat x.toNat (y.toNat % 128) (y.getLsbD 7) (nat16 z w)) else none := rfl
  rw [judged, Option.bind_eq_some_iff] at hm
  simp only [Option.ite_none_right_eq_some, Option.some.injEq] at hm
  obtain ⟨key, hk, ranges, rfl⟩ := hm
  obtain ⟨range, bytes⟩ := decodeKey_eq_some.mp hk
  have low := w.isLt
  have high : byteOf (nat16 z w / 256) = z := (byteOf_of_toNat (by rw [nat16]; omega)).symm
  have rest : byteOf (nat16 z w) = w := by
    apply BitVec.eq_of_toNat_eq
    simp only [byteOf, BitVec.toNat_ofNat, nat16]
    omega
  refine ⟨⟨range, Nat.le_of_lt_succ v.isLt, ranges⟩, ?_⟩
  rw [Header.front, ← bytes, byteOf_part, high, rest, ← byteOf_of_toNat (b := v) rfl, ← byteOf_of_toNat (b := x) rfl]
  rfl

theorem plateEnd_of_headerFields (hm : headerFields (0x03#8 :: k0 :: k1 :: k2 :: v :: tail) = some h) :
    h.inRange ∧ h.front = [0x03#8, k0, k1, k2, v] := by
  have judged : headerFields (0x03#8 :: k0 :: k1 :: k2 :: v :: tail) =
      (decodeKey k0 k1 k2).map fun key => .plateEnd key v.toNat := rfl
  rw [judged, Option.map_eq_some_iff] at hm
  obtain ⟨key, hk, rfl⟩ := hm
  obtain ⟨range, bytes⟩ := decodeKey_eq_some.mp hk
  refine ⟨⟨range, Nat.le_of_lt_succ v.isLt⟩, ?_⟩
  rw [Header.front, ← bytes, ← byteOf_of_toNat (b := v) rfl]
  rfl

/-- Of its kind's length only the bytes of a header with every field in its range are taken. -/
theorem eq_front_of_headerFields (hl : headerLength kind = some (rest.length + 2))
    (hm : headerFields (kind :: rest ++ tail) = some h) : h.inRange ∧ h.front = kind :: rest := by
  rcases headerLength_eq_some.mp hl with ⟨rfl, hlen⟩ | ⟨rfl, hlen⟩ | ⟨rfl, hlen⟩
  · match rest, hlen with
    | [k0, k1, k2, v, x, y], _ => exact plate_of_headerFields hm
  · match rest, hlen with
    | [k0, k1, k2, v, x, y, z, w], _ => exact fragment_of_headerFields hm
  · match rest, hlen with
    | [k0, k1, k2, v], _ => exact plateEnd_of_headerFields hm

theorem checked_of_judgeHeader (hm : judgeHeader bs = some h) : checked bs = true := by
  by_contra bad
  rw [judgeHeader, if_neg bad] at hm
  cases hm

theorem eq_encode_of_judgeHeader (hl : headerLength (byteAt bs 0) = some bs.length) (hm : judgeHeader bs = some h) :
    h.inRange ∧ bs = h.encode := by
  have sealed := eq_append_nibbleCheck (checked_of_judgeHeader hm)
  have fields := headerFields_of_judgeHeader hm
  generalize bs.dropLast = front at sealed
  subst sealed
  have long : 2 ≤ front.length + 1 := by
    simp only [headerLength_eq_some, List.length_append, List.length_cons, List.length_nil] at hl
    omega
  match front, long with
  | kind :: rest, _ =>
    have len : headerLength kind = some (rest.length + 2) := by
      rw [← show byteAt (kind :: rest ++ [nibbleCheck (kind :: rest)]) 0 = kind from rfl, hl]
      simp
    obtain ⟨range, front⟩ := eq_front_of_headerFields len fields
    exact ⟨range, by rw [h.encode_eq, front]⟩

/-! ## Headers that fail (R90) -/

theorem headerFields_plate_eq_none (hb : byteAt bs 0 = 0x01#8) :
    headerFields bs = none ↔
      decodeKey (byteAt bs 1) (byteAt bs 2) (byteAt bs 3) = none ∨
        (3 < (byteAt bs 5).toNat / 16 ∨ 3 < (byteAt bs 5).toNat % 16 ∨ 7 < (byteAt bs 6).toNat) := by
  have judged : headerFields bs = (decodeKey (byteAt bs 1) (byteAt bs 2) (byteAt bs 3)).bind fun key =>
      if (byteAt bs 5).toNat / 16 ≤ 3 ∧ (byteAt bs 5).toNat % 16 ≤ 3 ∧ (byteAt bs 6).toNat ≤ 7 then
        some (.plate key (byteAt bs 4).toNat ((byteAt bs 5).toNat / 16) ((byteAt bs 5).toNat % 16) (byteAt bs 6).toNat)
      else none := if_pos hb
  rw [judged]
  exact Option.bind_eq_none_of fun key => by
    simp only [ite_eq_right_iff, reduceCtorEq, imp_false]
    omega

theorem headerFields_fragment_eq_none (hb : byteAt bs 0 = 0x02#8) :
    headerFields bs = none ↔
      decodeKey (byteAt bs 1) (byteAt bs 2) (byteAt bs 3) = none ∨
        (95 < (byteAt bs 5).toNat ∨ 15 < (byteAt bs 6).toNat % 128 ∨ 4096 < nat16 (byteAt bs 7) (byteAt bs 8)) := by
  have judged : headerFields bs = (decodeKey (byteAt bs 1) (byteAt bs 2) (byteAt bs 3)).bind fun key =>
      if (byteAt bs 5).toNat ≤ 95 ∧ (byteAt bs 6).toNat % 128 ≤ 15 ∧ nat16 (byteAt bs 7) (byteAt bs 8) ≤ 4096 then
        some (.fragment key (byteAt bs 4).toNat (byteAt bs 5).toNat ((byteAt bs 6).toNat % 128)
          ((byteAt bs 6).getLsbD 7) (nat16 (byteAt bs 7) (byteAt bs 8)))
      else none := by
    unfold headerFields
    rw [hb]
    rfl
  rw [judged]
  exact Option.bind_eq_none_of fun key => by
    simp only [ite_eq_right_iff, reduceCtorEq, imp_false]
    omega

theorem headerFields_plateEnd_eq_none (hb : byteAt bs 0 = 0x03#8) :
    headerFields bs = none ↔ decodeKey (byteAt bs 1) (byteAt bs 2) (byteAt bs 3) = none := by
  have judged : headerFields bs =
      (decodeKey (byteAt bs 1) (byteAt bs 2) (byteAt bs 3)).map fun key => .plateEnd key (byteAt bs 4).toNat := by
    unfold headerFields
    rw [hb]
    rfl
  rw [judged, Option.map_eq_none_iff]

theorem headerFields_unknown (hb : (byteAt bs 0).toNat ∉ [0x01, 0x02, 0x03]) : headerFields bs = none := by
  simp only [List.mem_cons, List.not_mem_nil, or_false, not_or] at hb
  obtain ⟨not1, not2, not3⟩ := hb
  rw [headerFields, if_neg fun e => not1 (congrArg BitVec.toNat e), if_neg fun e => not2 (congrArg BitVec.toNat e),
    if_neg fun e => not3 (congrArg BitVec.toNat e)]

/-- The fields of a header are refused: its kind, its key, or what its kind holds besides. -/
theorem headerFields_eq_none :
    let byte (i : Nat) : Nat := (byteAt bs i).toNat
    headerFields bs = none ↔
      byte 0 ∉ [0x01, 0x02, 0x03] ∨ 3 < byte 1 % 16 ∨ 63 < byte 2 ∨ byte 3 = 0 ∨
      (byte 0 = 0x01 ∧ (3 < byte 5 / 16 ∨ 3 < byte 5 % 16 ∨ 7 < byte 6)) ∨
      (byte 0 = 0x02 ∧ (95 < byte 5 ∨ 15 < byte 6 % 128 ∨ 4096 < byte 7 * 256 + byte 8)) := by
  dsimp only
  by_cases known : (byteAt bs 0).toNat ∈ [0x01, 0x02, 0x03]
  · simp only [known, not_true_eq_false, false_or]
    simp only [List.mem_cons, List.not_mem_nil, or_false] at known
    rcases known with hk | hk | hk <;> have hb := byteOf_of_toNat hk
    · rw [headerFields_plate_eq_none hb, decodeKey_eq_none, hk]
      simp only [Nat.reduceEqDiff, false_and, true_and, or_false, or_assoc]
    · rw [headerFields_fragment_eq_none hb, decodeKey_eq_none, hk, nat16]
      simp only [Nat.reduceEqDiff, false_and, true_and, false_or, or_assoc]
    · rw [headerFields_plateEnd_eq_none hb, decodeKey_eq_none, hk]
      simp only [Nat.reduceEqDiff, false_and, or_false]
  · simp only [headerFields_unknown known, known, not_false_eq_true, true_or]

theorem judgeHeader_eq_none :
    judgeHeader bs = none ↔ bs.getLast? ≠ some (nibbleCheck bs.dropLast) ∨ headerFields bs = none := by
  rw [judgeHeader, Ne, ← checked_iff]
  by_cases good : checked bs = true
  · simp [good]
  · simp [good]

/-! ## The nibble check (R188) -/

theorem nibbleSums_eq (bs : List Byte) :
    nibbleSums bs =
      (((List.range bs.length).map fun i => (bs.getD i 0x00#8).toNat / 16).sum,
        ((List.range bs.length).map fun i => (bs.getD i 0x00#8).toNat % 16).sum) := by
  induction bs with
  | nil => rfl
  | cons b bs ih =>
    rw [nibbleSums, ih, List.length_cons, List.range_succ_eq_map]
    simp only [List.map_cons, List.map_map, List.sum_cons, List.getD_cons_zero, Function.comp_def, List.getD_cons_succ,
      Nat.add_comm]

theorem nibbleCheck_nibbles (bs : List Byte) :
    (nibbleCheck bs).toNat / 16 = ((nibbleSums bs).1 + (nibbleSums bs).2) % 16 ∧
      (((nibbleCheck bs).toNat % 16 : Nat) : Int) = ((nibbleSums bs).1 - (nibbleSums bs).2 : Int) % 16 := by
  rw [nibbleCheck, byteOf_toNat _ (by omega)]
  omega

/-- Settles O30. -/
theorem headerRoundTrip : Obligations.HeaderRoundTrip := by
  refine ⟨fun h range => ⟨judgeHeader_encode range, headerLength_encode h⟩,
    fun h bytes whole good => eq_encode_of_judgeHeader whole good,
    fun bytes => judgeHeader_eq_none.trans (or_congr_right headerFields_eq_none), fun bytes => ?_,
    fun key version size screen rank band part length last => ⟨rfl, rfl, rfl⟩⟩
  have nibbles := nibbleCheck_nibbles bytes
  rwa [nibbleSums_eq] at nibbles

end Sys2Proof.Machine
end

section
/-! PROOF of O40. The raster positions of a band buffer have rising addresses, so that a pixel's byte stands once it is
written, and what COPY ABOVE reads back is final. -/

namespace Sys2Proof.Machine

variable {r : Run} {buffer width pos n k i p q : Nat} {m : Mem}

/-! ## Raster positions (R107) -/

/-- The address of the byte at a raster position of a band buffer. -/
def rasterAddress (buffer width p : Nat) : Nat := bandAddress buffer (p / width) (p % width)

/-- Lines are apart by at least their width, so addresses rise with the raster position. -/
theorem rasterAddress_lt (positive : 0 < width) (narrow : width ≤ 16384) (h : p < q) :
    rasterAddress buffer width p < rasterAddress buffer width q := by
  have columnP := Nat.mod_lt p positive
  have lines : p / width ≤ q / width := Nat.div_le_div_right h.le
  simp only [rasterAddress, bandAddress, Config.linePitch]
  rcases Nat.lt_or_eq_of_le lines with below | same
  · have : (p / width + 1) * 16384 ≤ q / width * 16384 := Nat.mul_le_mul_right _ below
    omega
  · have wholeP := Nat.div_add_mod p width
    have wholeQ := Nat.div_add_mod q width
    rw [← same] at wholeQ ⊢
    omega

theorem rasterAddress_ne (positive : 0 < width) (narrow : width ≤ 16384) (h : p ≠ q) :
    rasterAddress buffer width p ≠ rasterAddress buffer width q := by
  rcases Nat.lt_or_gt_of_ne h with lt | gt
  · exact (rasterAddress_lt positive narrow lt).ne
  · exact (rasterAddress_lt positive narrow gt).ne'

/-- The pixel of the line above stands one width before. -/
theorem rasterAddress_above (positive : 0 < width) (h : width ≤ p) :
    bandAddress buffer (p / width - 1) (p % width) = rasterAddress buffer width (p - width) := by
  rw [Nat.div_eq_sub_div positive h, Nat.mod_eq_sub_mod h]
  rfl

/-! ## The pixels of a run (R113, R114) -/

theorem Run.write_succ (r : Run) (buffer width pos n : Nat) (m : Mem) :
    r.write buffer width pos (n + 1) m = r.writePixel buffer width pos (r.write buffer width pos n m) n := by
  rw [Run.write, List.range_succ, List.foldl_append]
  rfl

theorem Run.writePixel_eq (r : Run) (buffer width pos i : Nat) (m : Mem) :
    r.writePixel buffer width pos m i =
      m.write (rasterAddress buffer width (pos + i)) (r.tone m buffer ((pos + i) / width) ((pos + i) % width) i) := rfl

theorem Run.write_wf (h : m.WF) (r : Run) (buffer width pos n : Nat) : (r.write buffer width pos n m).WF :=
  Mem.foldl_wf (fun _ _ wf => Mem.write_wf wf _ _) h _

/-- A run leaves every address that is none of its pixels'. -/
theorem Run.read_write_elsewhere (h : m.WF) {a : Nat}
    (other : ∀ i, i < n → a ≠ rasterAddress buffer width (pos + i)) :
    (r.write buffer width pos n m).read a = m.read a := by
  induction n with
  | zero => rfl
  | succ n ih =>
    rw [Run.write_succ, Run.writePixel_eq,
      Mem.read_write_other (Run.write_wf h r buffer width pos n) _ (other n n.lt_succ_self)]
    exact ih fun i hi => other i (hi.trans n.lt_succ_self)

/-- The pixels from `i` on leave the raster positions before them. -/
theorem Run.read_write_passed (h : m.WF) (positive : 0 < width) (narrow : width ≤ 16384) (before : p < pos + i)
    (hi : i ≤ n) :
    (r.write buffer width pos n m).read (rasterAddress buffer width p) =
      (r.write buffer width pos i m).read (rasterAddress buffer width p) := by
  induction n, hi using Nat.le_induction with
  | base => rfl
  | succ n hi ih =>
    rw [Run.write_succ, Run.writePixel_eq, Mem.read_write_other (Run.write_wf h r buffer width pos n) _
      (rasterAddress_ne positive narrow (by omega)), ih]

/-- A pixel's byte is the tone that was found when the run came to it. -/
theorem Run.read_write_pixel (h : m.WF) (positive : 0 < width) (narrow : width ≤ 16384) (hi : i < n) :
    (r.write buffer width pos n m).read (rasterAddress buffer width (pos + i)) =
      r.tone (r.write buffer width pos i m) buffer ((pos + i) / width) ((pos + i) % width) i := by
  rw [Run.read_write_passed h positive narrow (Nat.lt_succ_self (pos + i)) hi, Run.write_succ, Run.writePixel_eq,
    Mem.read_write_same (Run.write_wf h r buffer width pos i)]

/-- What COPY ABOVE reads back for a pixel still stands at the end of the run. -/
theorem Run.read_write_above (h : m.WF) (positive : 0 < width) (narrow : width ≤ 16384) (below : width ≤ pos)
    (hi : i < n) :
    (r.write buffer width pos n m).read (bandAddress buffer ((pos + i) / width - 1) ((pos + i) % width)) =
      (r.write buffer width pos i m).read (bandAddress buffer ((pos + i) / width - 1) ((pos + i) % width)) := by
  rw [rasterAddress_above positive (by omega)]
  exact Run.read_write_passed h positive narrow (by omega) hi.le

/-- Settles O40. -/
theorem runWritesInRasterOrder : Obligations.RunWritesInRasterOrder := by
  intro r buffer width pos n m wf positive narrow below
  refine ⟨fun i hi => ?_, fun a other => Run.read_write_elsewhere wf other, Run.write_wf wf r buffer width pos n⟩
  refine (Run.read_write_pixel wf positive narrow hi).trans ?_
  cases r with
  | blank | solid | toneRun => rfl
  | toneList tones => rfl
  | copyAbove => exact (Run.read_write_above wf positive narrow (below rfl) hi).symm

end Sys2Proof.Machine
end

section
/-! PROOF of O57. Every write to a byte memory keeps its canonical form (Laws/Memory.lean). Four commands write one: the
end of the configuration read the image, the end of loading the tiles, the end of a part the band buffers, and the
finish of a band the screened store. RESET empties the image, and every other command leaves the four memories as they
are (Laws/Keeps.lean). -/

namespace Sys2Proof.Machine

variable {s t : State} {buffer width pos n : Nat} {m : Mem}

theorem Keeps.memoriesCanonical (k : Keeps s t) (h : s.memoriesCanonical) : t.memoriesCanonical := by
  obtain ⟨-, -, loader, frame⟩ := k
  rwa [State.memoriesCanonical, frame, loader]

/-! ## The four writes -/

theorem decodeCodes_wf (buffer width count : Nat) (last : Bool) (fuel : Nat) (payload : List Byte) (pos : Nat)
    (h : m.WF) : (decodeCodes buffer width count last fuel payload pos m).1.WF := by
  induction fuel generalizing payload pos m with
  | zero => cases payload <;> exact h
  | succ fuel ih =>
    cases payload with
    | nil => exact h
    | cons c codes =>
      unfold decodeCodes
      split
      · exact h
      · rename_i r n rest _
        have written := Run.write_wf h r buffer width pos n
        split
        · dsimp only
          split
          · exact written
          · exact ih rest (pos + n) written
        · exact h

theorem State.partDecoded_memoriesCanonical (h : s.memoriesCanonical) : s.partDecoded.memoriesCanonical := by
  unfold State.partDecoded
  split
  · exact h
  · split
    · split
      · obtain ⟨bands, screened, tiles, image⟩ := h
        exact (State.endPart_keeps _ _ _ _ _ _).memoriesCanonical
          ⟨decodeCodes_wf _ _ _ _ _ _ _ bands, screened, tiles, image⟩
      · exact h
    · exact h

theorem State.bandFinished_memoriesCanonical (h : s.memoriesCanonical) (c : CurrentBand) :
    (s.bandFinished c).memoriesCanonical := by
  obtain ⟨bands, screened, tiles, image⟩ := h
  exact (State.finishBand_keeps _ c).memoriesCanonical ⟨bands, ScreenJob.write_wf screened _, tiles, image⟩

theorem State.takeChecks_memoriesCanonical (h : s.memoriesCanonical) (record : List Byte)
    (failure : Option (BarredReason × Option Nat)) : (s.takeChecks (imageOf record) failure).memoriesCanonical := by
  obtain ⟨-, -, frame, image⟩ := s.takeChecks_keeps (imageOf record) failure
  obtain ⟨bands, screened, tiles, -⟩ := h
  rw [State.memoriesCanonical, frame, image]
  exact ⟨bands, screened, tiles, imageOf_wf record⟩

theorem State.loadBlocks_memoriesCanonical (h : s.memoriesCanonical) : s.loadBlocks.memoriesCanonical := by
  obtain ⟨bands, screened, tiles, image⟩ := h
  exact ⟨bands, screened, Mem.foldl_wf (fun _ t wf => loadTile_wf wf t) tiles _, image⟩

theorem State.leaveLoading_memoriesCanonical (h : s.memoriesCanonical) (r : Option BarredReason) :
    (s.leaveLoading r).memoriesCanonical := by
  obtain ⟨-, -, frame, image⟩ := s.leaveLoading_keeps r
  rwa [State.memoriesCanonical, frame, image]

/-! ## The Maintenance Port -/

/-- RESET leaves frame memory as it stands and empties the image (R19, R179). -/
theorem State.resetPart_memoriesCanonical (h : s.memoriesCanonical) : s.resetPart.memoriesCanonical := by
  obtain ⟨bands, screened, tiles, -⟩ := h
  exact ⟨bands, screened, tiles, Mem.WF.nil⟩

theorem State.execute_memoriesCanonical (h : s.memoriesCanonical) (code : Byte) (data : List Byte) :
    (s.execute code data).memoriesCanonical := by
  unfold State.execute
  split
  case h_20 => exact State.resetPart_memoriesCanonical h
  all_goals exact Keeps.memoriesCanonical (by simp [Keeps]) h

theorem State.takeCommandByte_memoriesCanonical (h : s.memoriesCanonical) (code : Byte) :
    (s.takeCommandByte code).memoriesCanonical := by
  have begun : s.beginCommand.memoriesCanonical := s.beginCommand_keeps.memoriesCanonical h
  unfold State.takeCommandByte
  dsimp only
  split
  · exact (State.refuse_keeps _).memoriesCanonical begun
  · split
    · exact (State.refuse_keeps _).memoriesCanonical begun
    · split
      · exact State.execute_memoriesCanonical begun code []
      · exact begun

theorem State.takeDataByte_memoriesCanonical (h : s.memoriesCanonical) (b : Byte) :
    (s.takeDataByte b).memoriesCanonical := by
  unfold State.takeDataByte
  split
  · exact (s.raise_keeps _).memoriesCanonical h
  · dsimp only
    split
    · exact h
    · rename_i c _ _
      exact State.execute_memoriesCanonical (s := s.setPort { s.port with command := none }) h c.code _

theorem State.portCommand_memoriesCanonical (h : s.memoriesCanonical) (code : Byte) (data : List Byte) :
    (s.portCommand code data).memoriesCanonical := by
  unfold State.portCommand
  split
  · exact List.foldlRecOn data _ (State.takeCommandByte_memoriesCanonical (s := s.clearInput) h code)
      fun u hu b _ => State.takeDataByte_memoriesCanonical hu b
  · exact (s.raiseBy_keeps _ _).memoriesCanonical h

/-! ## Every command -/

theorem State.setRoll_keeps (s : State) (r : RollUnit) : Keeps s (s.setRoll r) := ⟨rfl, rfl, rfl, rfl⟩

theorem exec_memoriesCanonical {c : Instr} (h : s.memoriesCanonical) (e : exec c s = .next t) :
    t.memoriesCanonical := by
  have counted (corrected : Nat) : (s.countCorrected corrected).memoriesCanonical :=
    (s.countCorrected_keeps corrected).memoriesCanonical h
  cases c <;> injection e with e <;> subst e
  case reset => exact State.resetPart_memoriesCanonical h
  case configurationReadDone record =>
    split
    · exact State.takeChecks_memoriesCanonical h record _
    · exact h
  case loadingEnded corrected =>
    split
    · exact State.leaveLoading_memoriesCanonical (State.loadBlocks_memoriesCanonical (counted corrected)) _
    · exact counted corrected
  case rollTimerExpiry =>
    split
    · refine Keeps.memoriesCanonical (Keeps.trans ?_ (State.setRoll_keeps _ _)) h
      exact (s.advanceTo_keeps _).trans (State.queueRoll_keeps _)
    · exact h
  case joinPeriodExpiry =>
    split
    · split
      · refine Keeps.memoriesCanonical (Keeps.trans ?_ (State.enter_keeps _ _)) h
        exact (s.advanceTo_keeps _).trans (State.setRoll_keeps _ _)
      · exact h
    · exact h
  case partDecoded corrected =>
    split
    case h_1 => exact State.partDecoded_memoriesCanonical (counted corrected)
    all_goals exact counted corrected
  case bandFinished corrected =>
    split
    · exact State.bandFinished_memoriesCanonical (counted corrected) _
    · exact counted corrected
  case dataByteTaken =>
    split
    · exact State.takeDataByte_memoriesCanonical (s := s.clearInput) h _
    all_goals exact h
  case unknownCommand | readStatus | readAttention | readJob | readBandMap | readDamage | readBoard | findBoard |
      readPeer | readLog | readSetting | readCounters | clearCounters | clearLog | setMask | clearAttention | release |
      drop | drain | resume | resetStation =>
    exact State.portCommand_memoriesCanonical h _ _
  all_goals exact Keeps.memoriesCanonical (by (repeat' split) <;> simp [Keeps]) h

/-- Settles O57: a step is an idle clock, which touches no memory, or one command. -/
theorem memoriesStayCanonical : Obligations.MemoriesStayCanonical := by
  intro s t h e
  cases hp : s.pending with
  | nil =>
    rw [step_idle hp] at e
    injection e with e
    subst e
    exact (s.elapse_keeps 1).memoriesCanonical h
  | cons c rest =>
    rw [step_front hp] at e
    exact exec_memoriesCanonical (s := s.setPending rest) h e

end Sys2Proof.Machine
end

section
/-! PROOF of O42: what the Screener does with the entry at the consumer index. -/

namespace Sys2Proof.Machine

variable {s : State} {d : Descriptor} {j : Job} {x : Nat} {store : List Nat}

theorem Ring.isEmpty_iff (r : Ring) : r.isEmpty = true ↔ r.entries[r.consumer].mark ≠ r.consumerPass := by
  rw [Ring.isEmpty, bne_iff_ne]

/-! ## A descriptor taken (R127, R128) -/

theorem exec_screenerTake_stays (h : (∃ c, s.screener.current = some c) ∨ s.ring.isEmpty = true) :
    exec .screenerTake s = .next s := by
  rw [exec_screenerTake, execScreenerTake]
  cases hc : s.screener.current with
  | some c => rfl
  | none =>
    have empty : s.ring.isEmpty = true := h.resolve_left fun ⟨c, busy⟩ => nomatch hc.symm.trans busy
    dsimp only
    rw [if_pos empty]

theorem exec_screenerTake_entry (idle : s.screener.current = none) (filled : s.ring.isEmpty = false)
    (entry : s.ring.entries[s.ring.consumer].descriptor = some d) :
    exec .screenerTake s = .next (s.takeEntry d) := by
  rw [exec_screenerTake, execScreenerTake, idle]
  dsimp only
  rw [if_neg (by rw [filled]; exact Bool.false_ne_true), entry]

theorem State.takeEntry_void (void : d.void = true) :
    s.takeEntry d = (s.setRing s.ring.advance).returnBuffer d.buffer := if_pos void

theorem State.takeEntry_current (live : d.void = false) (hj : s.job d.slot = some j)
    (first : s.screener.store = x :: store) :
    s.takeEntry d =
      ((s.setRing s.ring.advance).setScreener { current := some (s.currentOf d j x), store := store }).setJob d.slot
        (some (j.modifyBand d.band fun b => { b with state := .screening })) := by
  rw [State.takeEntry, if_neg (by rw [live]; exact Bool.false_ne_true), hj, first]
  exact State.modifyJob_of
    (s := (s.setRing s.ring.advance).setScreener { current := some (s.currentOf d j x), store := store }) hj _

/-- Settles O42. -/
theorem screenerTakesDescriptor : Obligations.ScreenerTakesDescriptor := by
  intro s passed
  refine ⟨s.ring.isEmpty_iff, exec_screenerTake_stays, fun d idle filled entry => ?_⟩
  have run := exec_screenerTake_entry idle filled entry
  refine ⟨fun void => ?_, fun live x store j first hj => ?_⟩
  · rw [State.takeEntry_void void] at run
    exact ⟨_, run, rfl, rfl, rfl, rfl, rfl, s.unpacker.mem_poolWith d.buffer⟩
  · rw [run, State.takeEntry_current live hj first]
    rfl

end Sys2Proof.Machine
end

section
/-! PROOF of O37: the codes of a part, and the end of a part that is short of the count or at it. -/

namespace Sys2Proof.Machine

variable {s u : State} {d : Descriptor} {r : HoldingRecord} {rest : List HoldingRecord} {n : Slot} {j k : Job}
  {b band buffer part corrected p : Nat} {last : Bool} {payload capture : List Byte}

/-! ## The codes of a part (R114, R115) -/

section Codes

variable {width count pos len : Nat} {m : Mem} {run : Run} {left : List Byte}

theorem Run.fits_iff (r : Run) (width count pos len : Nat) :
    r.fits width count pos len = true ↔ (r = .copyAbove → width ≤ pos) ∧ pos + len ≤ count := by
  simp [Run.fits, imp_iff_not_or]

theorem decodeCodes_unread (more : payload ≠ []) (unread : readRun payload = none) :
    decodeCodes buffer width count last payload.length payload pos m = (m, .format) := by
  cases payload with
  | nil => exact absurd rfl more
  | cons c codes => simp only [List.length_cons, decodeCodes, unread]

/-- A run that is read: checked, written, and followed by the codes after it. -/
theorem decodeCodes_read (more : payload ≠ []) (read : readRun payload = some (run, len, left)) :
    decodeCodes buffer width count last payload.length payload pos m =
      if run.fits width count pos len then
        if pos + len = count ∧ last = false then (run.write buffer width pos len m, .format)
        else decodeCodes buffer width count last left.length left (pos + len) (run.write buffer width pos len m)
      else (m, .format) := by
  cases payload with
  | nil => exact absurd rfl more
  | cons c codes =>
    have shorter : left.length ≤ codes.length := Nat.le_of_lt_succ (readRun_shorter read)
    simp only [List.length_cons, decodeCodes, read, decodeCodes_fuel _ _ _ _ _ _ _ _ shorter]

theorem decodeCodes_misfit (more : payload ≠ []) (read : readRun payload = some (run, len, left))
    (h : (run = .copyAbove ∧ pos < width) ∨ count < pos + len) :
    decodeCodes buffer width count last payload.length payload pos m = (m, .format) := by
  rw [decodeCodes_read more read, if_neg]
  rw [Run.fits_iff]
  rintro ⟨below, within⟩
  rcases h with ⟨copies, line0⟩ | past
  · exact absurd (below copies) (Nat.not_le.mpr line0)
  · exact absurd within (Nat.not_le.mpr past)

theorem decodeCodes_early (more : payload ≠ []) (read : readRun payload = some (run, len, left))
    (below : run = .copyAbove → width ≤ pos) (full : pos + len = count) :
    decodeCodes buffer width count false payload.length payload pos m =
      (run.write buffer width pos len m, .format) := by
  rw [decodeCodes_read more read, if_pos ((run.fits_iff _ _ _ _).mpr ⟨below, full.le⟩), if_pos ⟨full, rfl⟩]

theorem decodeCodes_goesOn (more : payload ≠ []) (read : readRun payload = some (run, len, left))
    (below : run = .copyAbove → width ≤ pos) (within : pos + len ≤ count) (h : pos + len < count ∨ last = true) :
    decodeCodes buffer width count last payload.length payload pos m =
      decodeCodes buffer width count last left.length left (pos + len) (run.write buffer width pos len m) := by
  rw [decodeCodes_read more read, if_pos ((run.fits_iff _ _ _ _).mpr ⟨below, within⟩), if_neg]
  rintro ⟨full, notLast⟩
  rcases h with short | closed
  · exact short.ne full
  · exact Bool.false_ne_true (notLast.symm.trans closed)

end Codes

/-! ## The end of a part from the end of its codes (R114, R115) -/

theorem CodesEnd.partEnd_complete (count part : Nat) (last : Bool) :
    (CodesEnd.reached count).partEnd count part last = .complete := if_pos rfl

theorem CodesEnd.partEnd_finished {count : Nat} (short : p ≠ count) (part15 : part ≠ 15) :
    (CodesEnd.reached p).partEnd count part false = .finished p := by
  rw [CodesEnd.partEnd, if_neg short, if_neg (by simpa using part15)]

theorem CodesEnd.partEnd_format {e : CodesEnd} {count : Nat}
    (h : e = .format ∨ ∃ p, e = .reached p ∧ p ≠ count ∧ (last = true ∨ part = 15)) :
    e.partEnd count part last = .format := by
  rcases h with rfl | ⟨p, rfl, short, final⟩
  · rfl
  · rw [CodesEnd.partEnd, if_neg short, if_pos (by simpa using final)]

/-! ## The part decoded (R107, R114) -/

/-- The Unpacker decodes part `part` of band `b`, the current band of its job, into a band buffer. -/
structure State.decodes (s : State) (r : HoldingRecord) (rest : List HoldingRecord) (j : Job)
    (band b buffer part : Nat) (last : Bool) (payload capture : List Byte) : Prop where
  decoding : s.unpacker.work = .decoding
  head : s.receiver.holding = r :: rest
  body : r.body = .fragment band part last payload capture
  job : s.job r.slot = some j
  current : j.cursor.current = some b
  buffer : j.cursor.buffer = some buffer

/-- What the codes of the part decode to. -/
def State.codesOf (s : State) (j : Job) (b buffer : Nat) (last : Bool) (payload : List Byte) : Mem × CodesEnd :=
  decodeCodes buffer (s.plateWidth j) (s.pixelCount j b) last payload.length payload j.cursor.pixels s.frame.bands

/-- The station with the codes of a part written and the correctable errors counted (R41). -/
def State.codesWritten (s : State) (corrected : Nat) (bands : Mem) : State :=
  { s with port := s.port.countedBy .corrected corrected, frame := { s.frame with bands := bands } }

theorem exec_partDecoded_ends {e : PartEnd} (h : s.decodes r rest j band b buffer part last payload capture)
    (ends : (s.codesOf j b buffer last payload).2.partEnd (s.pixelCount j b) part last = e) (corrected : Nat) :
    exec (.partDecoded corrected) s = .next
      ((s.codesWritten corrected (s.codesOf j b buffer last payload).1).endPart r.slot b part capture e) := by
  have work : (s.countCorrected corrected).unpacker.work = .decoding := h.decoding
  have head : (s.countCorrected corrected).receiver.holding = r :: rest := h.head
  have job : (s.countCorrected corrected).job r.slot = some j := h.job
  rw [exec_partDecoded, execPartDecoded, work]
  dsimp only
  rw [State.partDecoded, head]
  dsimp only
  rw [h.body, job]
  dsimp only
  rw [h.current, h.buffer, ← ends]
  rfl

/-! ## A descriptor offered to the ring (R117, R125) -/

theorem State.placeDescriptor_of (hj : s.job d.slot = some j) :
    s.placeDescriptor d = (s.setRing (s.ring.place d)).setJob d.slot (some (j.placed d)) :=
  State.modifyJob_of (s := s.setRing (s.ring.place d)) hj _

theorem State.offerDescriptor_room (hj : s.job d.slot = some j) (room : s.ring.isFull = false) (after : AfterRing) :
    s.offerDescriptor d after = (s.setRing (s.ring.place d)).setJob d.slot (some (j.placed d)) := by
  rw [State.offerDescriptor, if_neg (by rw [room]; exact Bool.false_ne_true), State.placeDescriptor_of hj]

theorem State.offerDescriptor_full (full : s.ring.isFull = true) (d : Descriptor) (after : AfterRing) :
    s.offerDescriptor d after = s.setWork (.waitRing d after) := if_pos full

/-! ## The current band ended with its record (R115 to R117) -/

theorem State.endBand_complete (hj : s.job n = some j) (clean : (j.band b).kind = none) (after : AfterRing) :
    s.endBand n b after =
      (s.setJob n (some { j with cursor := j.cursor.ended })).offerDescriptor
        { slot := n, band := b, buffer := j.cursor.buffer, void := false } after := by
  rw [State.endBand, hj, State.modifyJob_of hj]
  dsimp only
  rw [if_neg (by simp [clean])]

theorem State.endBand_damaged (hj : s.job n = some j) (marked : (j.band b).kind ≠ none) (after : AfterRing) :
    s.endBand n b after =
      ((s.returnBuffer j.cursor.buffer).setJob n (some { j with cursor := UnpackCursor.empty })).offerDescriptor
        { slot := n, band := b, buffer := none, void := false } after := by
  rw [State.endBand, hj]
  dsimp only
  rw [if_pos (Option.isSome_iff_ne_none.mpr marked), State.modifyJob_of (s := s.returnBuffer j.cursor.buffer) hj]

/-- The station when the head record leaves with a change of its job. -/
def State.recordDone (s : State) (n : Slot) (k : Job) (rest : List HoldingRecord) : State :=
  { s with
    receiver := { s.receiver with holding := rest }
    unpacker := { s.unpacker with work := .free }
    jobs := { s.jobs with slots := s.jobs.slots.set n (some k) } }

/-- With room in the ring the record leaves with the band's descriptor. -/
theorem State.endDecoding_room
    (ends : s.endBand n b .recordDone = (u.setJob d.slot (some k)).offerDescriptor d .recordDone)
    (hh : u.receiver.holding = r :: rest) (decoding : u.unpacker.work = .decoding) (room : u.ring.isFull = false) :
    s.endDecoding n b = (u.setRing (u.ring.place d)).recordDone d.slot (k.placed d) rest := by
  have placed : (u.setJob d.slot (some k)).offerDescriptor d .recordDone =
      (u.setRing (u.ring.place d)).setJob d.slot (some (k.placed d)) :=
    (State.offerDescriptor_room (State.job_setJob_same u _ _) room _).trans
      (State.setJob_setJob (u.setRing (u.ring.place d)) d.slot (some k) _)
  have stays : ((u.setRing (u.ring.place d)).setJob d.slot (some (k.placed d))).unpacker.waitsForRing = false := by
    change u.unpacker.waitsForRing = false
    rw [Unpacker.waitsForRing, decoding]
  rw [State.endDecoding, ends, placed]
  rw [stays, if_neg Bool.false_ne_true]
  exact State.finishHead_of (u := (u.setRing (u.ring.place d)).setJob d.slot _) hh

/-- A full ring holds the Unpacker with the band's descriptor. -/
theorem State.endDecoding_full (ends : s.endBand n b .recordDone = u.offerDescriptor d .recordDone)
    (full : u.ring.isFull = true) : s.endDecoding n b = u.setWork (.waitRing d .recordDone) := by
  rw [State.endDecoding, ends, State.offerDescriptor_full full]
  exact if_pos rfl

/-! ## What the end of a part leaves (R114 to R117) -/

theorem State.endPart_finished (hj : s.job n = some j) (hh : s.receiver.holding = r :: rest) :
    s.endPart n b part capture (.finished p) =
      s.recordDone n { j with cursor := { j.cursor with nextPart := j.cursor.nextPart + 1, pixels := p } } rest := by
  rw [State.endPart, State.modifyJob_of hj, State.finishHead_of (u := s.setJob n _) hh]
  rfl

/-- The job whose current band is complete in a buffer, its descriptor not in the ring yet. -/
def Job.decoded (j : Job) (buffer : Nat) : Job := { j with cursor := { UnpackCursor.empty with buffer := some buffer } }

/-- The descriptor of a complete band, with its buffer. -/
def completeBand (n : Slot) (b buffer : Nat) : Descriptor :=
  { slot := n, band := b, buffer := some buffer, void := false }

theorem State.endBand_decoded (hj : s.job n = some j) (clean : (j.band b).kind = none)
    (hb : j.cursor.buffer = some buffer) (after : AfterRing) :
    s.endBand n b after =
      (s.setJob n (some (j.decoded buffer))).offerDescriptor (completeBand n b buffer) after := by
  rw [State.endBand_complete hj clean, UnpackCursor.ended, hb]
  rfl

theorem State.endPart_complete_room (hj : s.job n = some j) (hh : s.receiver.holding = r :: rest)
    (decoding : s.unpacker.work = .decoding) (clean : (j.band b).kind = none) (hb : j.cursor.buffer = some buffer)
    (room : s.ring.isFull = false) :
    s.endPart n b part capture .complete =
      ((s.raise .bandsDecoded).setRing (s.ring.place (completeBand n b buffer))).recordDone n
        ((j.decoded buffer).placed (completeBand n b buffer)) rest :=
  State.endDecoding_room (u := s.raise .bandsDecoded)
    (State.endBand_decoded (s := s.raise .bandsDecoded) hj clean hb .recordDone) hh decoding room

theorem State.endPart_complete_full (hj : s.job n = some j) (clean : (j.band b).kind = none)
    (hb : j.cursor.buffer = some buffer) (full : s.ring.isFull = true) :
    s.endPart n b part capture .complete =
      ((s.raise .bandsDecoded).setJob n (some (j.decoded buffer))).setWork
        (.waitRing (completeBand n b buffer) .recordDone) :=
  State.endDecoding_full (State.endBand_decoded (s := s.raise .bandsDecoded) hj clean hb .recordDone) full

/-- Settles O37. -/
theorem partDecodedGoesOn : Obligations.PartDecodedGoesOn := by
  refine ⟨fun s corrected r rest j band b buffer part last payload capture p decoding hh body hj current hb => ?_,
    fun buffer width count pos last payload m => ?_⟩
  · intro width count d reached
    have decodes : s.decodes r rest j band b buffer part last payload capture := ⟨decoding, hh, body, hj, current, hb⟩
    have ends : (s.codesOf j b buffer last payload).2 = .reached p := reached
    have complete : p = count → (s.codesOf j b buffer last payload).2.partEnd (s.pixelCount j b) part last = .complete :=
      fun full => by rw [ends, full]; exact CodesEnd.partEnd_complete _ _ _
    refine ⟨fun short more part15 => ?_, fun full clean room => ?_, fun full clean noRoom => ?_⟩
    · have finished : (s.codesOf j b buffer last payload).2.partEnd (s.pixelCount j b) part last = .finished p := by
        rw [ends, more]
        exact CodesEnd.partEnd_finished short part15
      rw [exec_partDecoded_ends decodes finished, State.endPart_finished (s := s.codesWritten corrected _) hj hh]
      rfl
    · rw [exec_partDecoded_ends decodes (complete full),
        State.endPart_complete_room (s := s.codesWritten corrected _) hj hh decoding clean hb room]
      rfl
    · rw [exec_partDecoded_ends decodes (complete full),
        State.endPart_complete_full (s := s.codesWritten corrected _) hj clean hb noRoom]
      rfl
  · refine ⟨?_, decodeCodes_unread, fun run len left more read => ⟨decodeCodes_misfit more read, fun below within =>
      ⟨fun full notLast => ?_, decodeCodes_goesOn more read below within⟩⟩⟩
    · rintro rfl
      rfl
    · subst notLast
      exact decodeCodes_early more read below full

end Sys2Proof.Machine
end

section
/-! PROOF of O38: a FORMAT error ends the band damaged, and the codes that cannot be read. -/

namespace Sys2Proof.Machine

variable {s u : State} {d : Descriptor} {r : HoldingRecord} {rest : List HoldingRecord} {n : Slot} {j k : Job}
  {b band buffer part corrected p : Nat} {last : Bool} {payload capture : List Byte}

/-! ## The band and the job with a FORMAT error (R141, R142) -/

/-- The job whose current band ended with a FORMAT error, its descriptor not in the ring yet. -/
def Job.formatEnded (j : Job) (b part : Nat) (capture : List Byte) : Job :=
  { j.mark b .format (some part) (some capture) with cursor := UnpackCursor.empty }

theorem Job.mark_kind (hb : b < j.bands.length) (kind : DamageKind) (part : Option Nat) (capture : Option (List Byte)) :
    ((j.mark b kind part capture).band b).kind = (j.band b).kind.or (some kind) := by
  have marked : (j.mark b kind part capture).band b =
      (j.modifyBand b fun e => { e with kind := e.kind.or (some kind) }).band b := rfl
  rw [marked, Job.band_modifyBand, if_pos ⟨rfl, hb⟩]

theorem Job.formatEnded_bands (j : Job) (b part : Nat) (capture : List Byte) :
    (j.formatEnded b part capture).bands = j.bands.modify b fun e => { e with kind := some (e.kind.getD .format) } := by
  have kinds : ∀ o : Option DamageKind, o.or (some .format) = some (o.getD .format) := fun o => by cases o <;> rfl
  simp only [Job.formatEnded, Job.mark, kinds]

theorem Job.formatEnded_damagedCount (j : Job) (b part : Nat) (capture : List Byte) :
    (j.formatEnded b part capture).damagedCount =
      if (j.band b).kind = none then j.damagedCount + 1 else j.damagedCount := by
  simp only [Job.formatEnded, Job.mark, Option.isNone_iff_eq_none]

theorem Job.formatEnded_firstDamage (j : Job) (b part : Nat) (capture : List Byte) :
    (j.formatEnded b part capture).firstDamage = some (match j.firstDamage with
      | some f => { f with counts := { f.counts with format := min (f.counts.format + 1) 65535 } }
      | none =>
        { kind := .format, band := b, part := some part, capture := some capture
          counts := { check := 0, fill := 0, overflow := 0, gap := 0, format := 1 } }) := by
  simp only [Job.formatEnded, Job.mark]
  cases j.firstDamage <;> rfl

/-! ## The band ended (R117, R120) -/

/-- The descriptor of a damaged band: no buffer. -/
def damagedBand (n : Slot) (b : Nat) : Descriptor := { slot := n, band := b, buffer := none, void := false }

theorem State.endBand_format (hj : s.job n = some j) (hr : j.stage = .receiving) (hb : b < j.bands.length) :
    (s.markDamage n b .format (some part) (some capture)).endBand n b .recordDone =
      ((s.returnBuffer j.cursor.buffer).setJob n (some (j.formatEnded b part capture))).offerDescriptor
        (damagedBand n b) .recordDone := by
  have reported : s.markDamage n b .format (some part) (some capture) =
      s.setJob n (some (j.mark b .format (some part) (some capture))) := by
    rw [State.markDamage, State.modifyJob_of hj, if_pos hr]
  have marked : ((j.mark b .format (some part) (some capture)).band b).kind ≠ none := by
    rw [Job.mark_kind hb]
    simp
  rw [reported, State.endBand_damaged (State.job_setJob_same s n _) marked]
  exact congrArg (State.offerDescriptor · _ _) (State.setJob_setJob (s.returnBuffer j.cursor.buffer) n _ _)

theorem State.endPart_format_room (hj : s.job n = some j) (hr : j.stage = .receiving) (hb : b < j.bands.length)
    (hh : s.receiver.holding = r :: rest) (decoding : s.unpacker.work = .decoding) (room : s.ring.isFull = false) :
    s.endPart n b part capture .format =
      ((s.returnBuffer j.cursor.buffer).setRing (s.ring.withDamaged n b)).recordDone n
        ((j.formatEnded b part capture).placed (damagedBand n b)) rest :=
  State.endDecoding_room (u := s.returnBuffer j.cursor.buffer) (d := damagedBand n b) (State.endBand_format hj hr hb) hh
    decoding room

theorem State.endPart_format_full (hj : s.job n = some j) (hr : j.stage = .receiving) (hb : b < j.bands.length)
    (full : s.ring.isFull = true) :
    s.endPart n b part capture .format =
      ((s.returnBuffer j.cursor.buffer).setWork (.waitRing (damagedBand n b) .recordDone)).setJob n
        (some (j.formatEnded b part capture)) :=
  State.endDecoding_full (State.endBand_format hj hr hb) full

theorem Job.placed_formatEnded_bands (j : Job) (n : Slot) (b part : Nat) (capture : List Byte) :
    ((j.formatEnded b part capture).placed (damagedBand n b)).bands =
      j.bands.modify b fun e => { state := .queued, kind := some (e.kind.getD .format) } := by
  change (j.formatEnded b part capture).bands.modify b _ = _
  rw [Job.formatEnded_bands, List.modify_modify_eq]
  rfl

/-! ## The codes that cannot be read (R113, R115) -/

/-- The length of a run code and the bytes after its length bytes: none where the length cannot be read. -/
def codeLength (c : Byte) (rest : List Byte) : Option (Nat × List Byte) :=
  if c.toNat % 32 = 31 then
    match rest with
    | hi :: lo :: rest => if 32 ≤ nat16 hi lo then some (nat16 hi lo, rest) else none
    | _ => none
  else some (c.toNat % 32 + 1, rest)

/-- The run of a kind and a length, with its tone bytes: none where the kind is invalid or the tones are cut off. -/
def codeRun (kind n : Nat) (rest : List Byte) : Option (Run × Nat × List Byte) :=
  match kind with
  | 0 => some (.blank, n, rest)
  | 1 => some (.solid, n, rest)
  | 2 => match rest with
    | t :: rest => some (.toneRun t, n, rest)
    | [] => none
  | 3 => if n ≤ rest.length then some (.toneList (rest.take n), n, rest.drop n) else none
  | 4 => some (.copyAbove, n, rest)
  | _ => none

theorem readRun_cons (c : Byte) (rest : List Byte) :
    readRun (c :: rest) = (codeLength c rest).bind fun x => codeRun (c.toNat / 32) x.1 x.2 := rfl

theorem codeRun_invalid {kind : Nat} (h : 5 ≤ kind) (n : Nat) (rest : List Byte) : codeRun kind n rest = none := by
  obtain ⟨k, rfl⟩ := Nat.exists_eq_add_of_le h
  rw [Nat.add_comm]
  rfl

theorem codeRun_cut {kind n : Nat} {rest : List Byte}
    (h : (kind = 2 ∧ rest = []) ∨ (kind = 3 ∧ rest.length < n)) :
    codeRun kind n rest = none := by
  rcases h with ⟨rfl, rfl⟩ | ⟨rfl, short⟩
  · rfl
  · exact if_neg (Nat.not_le.mpr short)

theorem codeLength_short {c : Byte} (h : c.toNat % 32 = 31) :
    ∀ {rest : List Byte}, rest.length < 2 → codeLength c rest = none
  | [], _ => if_pos h
  | [_], _ => if_pos h
  | _ :: _ :: _, short => absurd short (by simp)

theorem codeLength_extended {c : Byte} (h : c.toNat % 32 = 31) (hi lo : Byte) (rest : List Byte) :
    codeLength c (hi :: lo :: rest) =
      if 32 ≤ hi.toNat * 256 + lo.toNat then some (hi.toNat * 256 + lo.toNat, rest) else none := if_pos h

theorem codeLength_field {c : Byte} (h : c.toNat % 32 < 31) (rest : List Byte) :
    codeLength c rest = some (c.toNat % 32 + 1, rest) := if_neg h.ne

/-- A code is not read where its length is not, or no run of its length is. -/
theorem readRun_eq_none {c : Byte} {rest : List Byte}
    (h : ∀ n after, codeLength c rest = some (n, after) → codeRun (c.toNat / 32) n after = none) :
    readRun (c :: rest) = none := by
  rw [readRun_cons]
  cases e : codeLength c rest with
  | none => rfl
  | some x => exact h x.1 x.2 e

theorem readRun_extended_none {c hi lo : Byte} {after : List Byte} (h : c.toNat % 32 = 31)
    (cut : hi.toNat * 256 + lo.toNat < 32 ∨
      codeRun (c.toNat / 32) (hi.toNat * 256 + lo.toNat) after = none) :
    readRun (c :: hi :: lo :: after) = none := by
  refine readRun_eq_none fun n left e => ?_
  rw [codeLength_extended h] at e
  split at e
  · next long =>
    cases e
    exact cut.resolve_left (Nat.not_lt.mpr long)
  · cases e

theorem readRun_field_none {c : Byte} {rest : List Byte} (h : c.toNat % 32 < 31)
    (cut : codeRun (c.toNat / 32) (c.toNat % 32 + 1) rest = none) : readRun (c :: rest) = none := by
  rw [readRun_cons, codeLength_field h]
  exact cut

/-- Settles O38. -/
theorem formatErrorEndsTheBand : Obligations.FormatErrorEndsTheBand := by
  refine ⟨fun s corrected r rest j band b buffer part last payload capture decoding hh body hj hr current hb within => ?_,
    fun c rest => ?_⟩
  · intro width count d format
    have run := exec_partDecoded_ends (s := s) ⟨decoding, hh, body, hj, current, hb⟩
      (CodesEnd.partEnd_format format) corrected
    have pool : ∀ x, x ∈ s.unpacker.poolWith j.cursor.buffer ↔ x = buffer ∨ x ∈ s.unpacker.pool := fun x => by
      rw [Unpacker.mem_poolWith, hb, Option.some_inj, eq_comm]
    cases full : s.ring.isFull with
    | false =>
      rw [State.endPart_format_room (s := s.codesWritten corrected _) hj hr within hh decoding full] at run
      unfold State.recordDone State.codesWritten at run
      refine ⟨_, _, run, State.job_setJob_same s _ _, fun m hm => State.job_setJob_other s _ m _ hm,
        j.placed_formatEnded_bands r.slot b part capture, j.formatEnded_damagedCount b part capture, rfl,
        j.formatEnded_firstDamage b part capture, hr, pool, fun _ => ⟨rfl, rfl, rfl⟩, nofun, rfl, rfl, rfl, rfl⟩
    | true =>
      rw [State.endPart_format_full (s := s.codesWritten corrected _) hj hr within full] at run
      unfold State.setJob State.setWork State.codesWritten at run
      refine ⟨_, _, run, State.job_setJob_same s _ _, fun m hm => State.job_setJob_other s _ m _ hm,
        j.formatEnded_bands b part capture, j.formatEnded_damagedCount b part capture, rfl,
        j.formatEnded_firstDamage b part capture, hr, pool, nofun, fun _ => ⟨rfl, rfl, rfl⟩, rfl, rfl, rfl, rfl⟩
  · intro kind field
    refine ⟨fun invalid => readRun_eq_none fun n after _ => codeRun_invalid invalid n after,
      fun extended short => ?_, fun hi lo after extended e => ?_, fun inField => ⟨fun tone e => ?_, fun tones short => ?_⟩⟩
    · rw [readRun_cons, codeLength_short extended short]
      rfl
    · subst e
      exact ⟨fun low => readRun_extended_none extended (.inl low),
        fun tone e => readRun_extended_none extended (.inr (codeRun_cut (.inl ⟨tone, e⟩))),
        fun tones short => readRun_extended_none extended (.inr (codeRun_cut (.inr ⟨tones, short⟩)))⟩
    · exact readRun_field_none inField (codeRun_cut (.inl ⟨tone, e⟩))
    · exact readRun_field_none inField (codeRun_cut (.inr ⟨tones, short⟩))

end Sys2Proof.Machine
end

section
/-! PROOF of O41: the waiting descriptor enters the ring, and the head record is judged on. -/

namespace Sys2Proof.Machine

variable {s u : State} {d : Descriptor} {after : AfterRing} {r : HoldingRecord} {rest : List HoldingRecord} {n : Slot}
  {j k : Job} {b o part : Nat} {taken : Option DamageKind}

theorem Ring.isFull_iff (r : Ring) :
    r.isFull = true ↔
      r.entries[r.producer].mark = (if r.consumer ≤ r.producer then r.consumerPass else !r.consumerPass) := by
  rw [Ring.isFull, Ring.owns, beq_iff_eq]

/-! ## The end of the wait (R117, R125) -/

/-- The station after the wait: the descriptor is in the ring, the slot has the job `k`, and the Unpacker goes on. -/
def State.entered (s : State) (d : Descriptor) (k : Job) : State :=
  { s with
    unpacker := { s.unpacker with work := .free }
    ring := s.ring.place d
    jobs := { s.jobs with slots := s.jobs.slots.set d.slot (some k) } }

/-- A further change of the slot's job. -/
theorem State.setJob_entered (s : State) (d : Descriptor) (k k' : Job) :
    (s.entered d k).setJob d.slot (some k') = s.entered d k' :=
  State.setJob_setJob { s with unpacker := { s.unpacker with work := .free }, ring := s.ring.place d } d.slot (some k) _

theorem State.job_entered (s : State) (d : Descriptor) (k : Job) : (s.entered d k).job d.slot = some k :=
  State.job_setJob_same s d.slot _

theorem exec_descriptorEntersRing_full (waits : s.unpacker.work = .waitRing d after) (full : s.ring.isFull = true) :
    exec .descriptorEntersRing s = .next s := by
  rw [exec_descriptorEntersRing, execDescriptorEntersRing, waits]
  dsimp only
  rw [if_pos full]

theorem exec_descriptorEntersRing_resumes (waits : s.unpacker.work = .waitRing d after) (room : s.ring.isFull = false) :
    exec .descriptorEntersRing s = .next (s.resumeAfterRing d after) := by
  rw [exec_descriptorEntersRing, execDescriptorEntersRing, waits]
  dsimp only
  rw [if_neg (by rw [room]; exact Bool.false_ne_true)]

theorem State.placeDescriptor_setWork (hj : s.job d.slot = some j) :
    (s.placeDescriptor d).setWork .free = s.entered d (j.placed d) := by
  rw [State.placeDescriptor_of hj]
  rfl

theorem exec_descriptorEntersRing_done (waits : s.unpacker.work = .waitRing d .recordDone) (hj : s.job d.slot = some j)
    (room : s.ring.isFull = false) :
    exec .descriptorEntersRing s = .next (s.entered d (j.placed d)).finishHead := by
  rw [exec_descriptorEntersRing_resumes waits room, State.resumeAfterRing, State.placeDescriptor_setWork hj]

theorem exec_descriptorEntersRing_judges (waits : s.unpacker.work = .waitRing d (.judgeOn taken))
    (hj : s.job d.slot = some j) (room : s.ring.isFull = false) (hh : s.receiver.holding = r :: rest) :
    exec .descriptorEntersRing s = .next ((s.entered d (j.placed d)).actOn r taken) := by
  have head : (s.entered d (j.placed d)).receiver.holding = r :: rest := hh
  rw [exec_descriptorEntersRing_resumes waits room]
  unfold State.resumeAfterRing
  rw [State.placeDescriptor_setWork hj]
  dsimp only
  rw [head]

/-! ## The job whose band has entered -/

theorem Job.band_placed (j : Job) (d : Descriptor) (a : Nat) :
    (j.placed d).band a =
      if a = d.band ∧ d.band < j.bands.length then { j.band a with state := .queued } else j.band a :=
  j.band_modifyBand d.band (fun e => { e with state := .queued }) a

theorem Job.band_placed_self (within : d.band < j.bands.length) : ((j.placed d).band d.band).state = .queued := by
  rw [Job.band_placed, if_pos ⟨rfl, within⟩]

theorem Job.band_placed_other {a : Nat} (h : a ≠ d.band) : (j.placed d).band a = j.band a := by
  rw [Job.band_placed, if_neg fun e => h e.1]

theorem Job.kind_placed (j : Job) (d : Descriptor) (a : Nat) : ((j.placed d).band a).kind = (j.band a).kind := by
  rw [Job.band_placed]
  split <;> rfl

theorem Job.length_placed (j : Job) (d : Descriptor) : (j.placed d).bands.length = j.bands.length := by
  simp [Job.placed, Job.modifyBand]

theorem Job.current_placed (j : Job) (d : Descriptor) : (j.placed d).cursor.current = j.cursor.current := by
  unfold Job.placed
  dsimp only
  split <;> rfl

/-- With the band that waited past AWAITED, the others below a band are all that the order has to end. -/
theorem Job.placed_ended (within : d.band < j.bands.length) {upTo : Nat}
    (others : ∀ a, a < upTo → a ≠ d.band → (j.band a).state ≠ .awaited) :
    ∀ a, a < upTo → ((j.placed d).band a).state ≠ .awaited := fun a ha => by
  by_cases own : a = d.band
  · rw [own, Job.band_placed_self within]
    exact BandState.noConfusion
  · rw [Job.band_placed_other own]
    exact others a ha own

/-! ## The record judged on (R109 to R112, R118) -/

/-- The record's band has ended, or carried a kind when the record was taken. -/
theorem Job.placed_gone (within : d.band < j.bands.length)
    (h : b = d.band ∨ (j.band b).state = .queued ∨ (j.band b).state = .screening ∨
      (∃ x, (j.band b).state = .screened x) ∨ ((j.band b).state = .awaited ∧ taken ≠ none)) :
    (((j.placed d).band b).state = .awaited ∧ taken ≠ none) ∨ ((j.placed d).band b).state = .queued ∨
      ((j.placed d).band b).state = .screening ∨ ∃ x, ((j.placed d).band b).state = .screened x := by
  by_cases own : b = d.band
  · rw [own]
    exact .inr (.inl (Job.band_placed_self within))
  · rw [Job.band_placed_other own]
    rcases h with own' | queued | screening | screened | awaited
    · exact absurd own' own
    · exact .inr (.inl queued)
    · exact .inr (.inr (.inl screening))
    · exact .inr (.inr (.inr screened))
    · exact .inl awaited

theorem State.actOn_fragment {last : Bool} {payload capture : List Byte} (hs : r.slot = n)
    (body : r.body = .fragment b part last payload capture) : u.actOn r taken = u.judgeFragment n b part taken := by
  rw [State.actOn, body, hs]

theorem State.actOn_endMarker {origin : EndOrigin} (hs : r.slot = n) (body : r.body = .endMarker origin) :
    u.actOn r taken = u.judgeEnd n := by
  rw [State.actOn, body, hs]

theorem State.judgeFragment_lowest (hj : u.job n = some j) (idle : j.cursor.current = none)
    (ended : ∀ a, a < b → (j.band a).state ≠ .awaited) (free : u.unpacker.work = .free) :
    u.judgeFragment n b part taken = u.judgeBand n b part taken :=
  State.judgeFragment_ordered hj (fun _ hc => nomatch idle.symm.trans hc) ended free

/-- The next band that the head record ends: the lowest that is AWAITED below the record's band or the end of the
plate, or the record's own at a part above 0. -/
def Job.endsNext (j : Job) (r : HoldingRecord) (taken : Option DamageKind) (o : Nat) : Prop :=
  (∃ origin, r.body = .endMarker origin ∧ taken = none) ∨
    ∃ b part last payload capture, r.body = .fragment b part last payload capture ∧ b < j.bands.length ∧
      (o < b ∨ (o = b ∧ 0 < part ∧ taken = none))

theorem Job.endsNext_placed (h : j.endsNext r taken o) : (j.placed d).endsNext r taken o := by
  rwa [Job.endsNext, Job.length_placed]

/-- The order of the bands, or the judgement of the record's own, ends the next band: with a full ring its descriptor
waits in turn, and with room the record is judged on from there. -/
theorem State.actOn_endsNext (hs : r.slot = n) (hj : u.job n = some j) (hr : j.stage = .receiving)
    (free : u.unpacker.work = .free) (idle : j.cursor.current = none)
    (empty : j.cursor.buffer = none) (within : o < j.bands.length) (awaited : (j.band o).state = .awaited)
    (lowest : ∀ a, a < o → (j.band a).state ≠ .awaited) (ends : j.endsNext r taken o) :
    (u.ring.isFull = true → u.actOn r taken =
      u.gapHeld n j o (.waitRing { slot := n, band := o, buffer := none, void := false } (.judgeOn taken))) ∧
    (u.ring.isFull = false → u.actOn r taken = (u.gapPlaced n j o).actOn r taken) := by
  have first : ∀ {b}, o < b → j.endsFirst o b := fun below => ⟨below, .inr ⟨idle, empty, awaited, lowest⟩⟩
  rcases ends with ⟨origin, body, rfl⟩ | ⟨b, part, last, payload, capture, body, inPlate, below | ⟨rfl, above, rfl⟩⟩
  · rw [State.actOn_endMarker hs body, State.actOn_endMarker hs body]
    exact ⟨State.judgeEnd_full hj hr (first within) free, State.judgeEnd_room hj hr (first within) free⟩
  · rw [State.actOn_fragment hs body, State.actOn_fragment hs body]
    exact ⟨State.judgeFragment_full hj hr (first below) inPlate.le free,
      State.judgeFragment_room hj hr (first below) inPlate.le free⟩
  · have past : ∀ a, a < o → ((j.gapEnded o).band a).state ≠ .awaited := fun a ha => by
      rw [Job.band_gapEnded_other ha.ne]
      exact lowest a ha
    rw [State.actOn_fragment hs body, State.actOn_fragment hs body, State.judgeFragment_lowest hj idle lowest free,
      State.judgeBand_ends hj (.inr ⟨awaited, rfl, above⟩)]
    refine ⟨State.endAndDiscard_full hj hr within, fun room => ?_⟩
    rw [State.endAndDiscard_room hj hr within free room,
      State.judgeFragment_lowest (u.job_gapPlaced n j o) rfl past free,
      State.judgeBand_discards (u.job_gapPlaced n j o) (.inr (.inl (Job.band_gapEnded_self within)))]

theorem State.bandBegun_entered (s : State) (d : Descriptor) (k : Job) (b x : Nat) (pool : List Nat) :
    (s.entered d k).bandBegun d.slot k b x pool =
      { s.entered d { k with
          bands := k.bands.modify b fun e => { e with state := .decoding }
          cursor := { current := some b, nextPart := 0, pixels := 0, buffer := some x } } with
        unpacker := { work := .decoding, pool := pool } } :=
  congrArg (fun u : State => { u with unpacker := { work := .decoding, pool := pool } }) (s.setJob_entered d k _)

theorem State.endProcessed_entered (s : State) (d : Descriptor) (k : Job) (rest : List HoldingRecord) :
    (s.entered d k).endProcessed d.slot k rest =
      { s.entered d k.withEnd with receiver := { s.receiver with holding := rest } } :=
  congrArg (fun u : State => { u with receiver := { s.receiver with holding := rest } }) (s.setJob_entered d k _)

/-! ## The next wait -/

/-- A band marked as ended damaged is QUEUED when its descriptor enters the ring. -/
theorem Job.placed_gapMarked (j : Job) (n : Slot) (b : Nat) :
    (j.gapMarked b).placed (damagedBand n b) = j.gapEnded b := by
  simp only [Job.placed, Job.gapMarked, Job.modifyBand, damagedBand, List.modify_modify_eq]
  rfl

/-- The station that waits in turn, with the next band's descriptor. -/
def State.waitsNext (s : State) (d : Descriptor) (k : Job) (o : Nat) (taken : Option DamageKind) : State :=
  { s.entered d (k.gapMarked o) with
    unpacker := { s.unpacker with work := .waitRing (damagedBand d.slot o) (.judgeOn taken) } }

theorem State.gapHeld_entered (empty : k.cursor.buffer = none) :
    (s.entered d k).gapHeld d.slot k o (.waitRing (damagedBand d.slot o) (.judgeOn taken)) =
      s.waitsNext d k o taken := by
  rw [State.gapHeld, empty]
  exact State.setJob_setJob { s with
    unpacker := { s.unpacker with work := .waitRing (damagedBand d.slot o) (.judgeOn taken) }
    ring := s.ring.place d } d.slot (some k) _

/-- The end of the next wait leaves the band ended, as it would be with room in the ring at once. -/
theorem State.entered_waitsNext (empty : k.cursor.buffer = none) :
    (s.waitsNext d k o taken).entered (damagedBand d.slot o) (k.gapEnded o) =
      (s.entered d k).gapPlaced d.slot k o := by
  simp only [State.entered, State.waitsNext, State.gapPlaced, damagedBand, empty, Vector.set_set]
  rfl

theorem exec_waitsNext (hh : s.receiver.holding = r :: rest) (empty : k.cursor.buffer = none)
    (room : (s.entered d k).ring.isFull = false) :
    exec .descriptorEntersRing (s.waitsNext d k o taken) =
      .next (((s.entered d k).gapPlaced d.slot k o).actOn r taken) := by
  rw [exec_descriptorEntersRing_judges (s := s.waitsNext d k o taken) (d := damagedBand d.slot o) rfl
    (State.job_setJob_same s d.slot _) room hh, Job.placed_gapMarked, State.entered_waitsNext empty]

/-! ## The record taken anew -/

/-- A count that stands at no more than its largest value rises by nothing. -/
theorem Port.countedBy_zero {p : Port} {c : Count} (h : p.counts[c.number] ≤ 4294967295) : p.countedBy c 0 = p := by
  rw [Port.countedBy, Nat.add_zero, Nat.min_eq_left h]
  simp

theorem State.takingHead_zero (free : u.unpacker.work = .free)
    (h : u.port.counts[Count.corrected.number] ≤ 4294967295) : u.takingHead 0 = u := by
  rw [State.takingHead, Port.countedBy_zero h, ← free]

theorem exec_takeHeadRecord_zero (free : u.unpacker.work = .free) (head : u.headOf r rest j)
    (h : u.port.counts[Count.corrected.number] ≤ 4294967295) :
    exec (.takeHeadRecord 0) u = .next (u.actOn r (u.kindFor r)) := by
  rw [exec_takesHead (.inl ⟨free, rfl⟩), State.takingHead_zero free h, State.takeHead_acts head]

/-- Settles O41. -/
theorem descriptorEntersRing : Obligations.DescriptorEntersRing := by
  refine ⟨Ring.isFull_iff, fun s d after j waits hj => ?_⟩
  intro placed entered
  refine ⟨exec_descriptorEntersRing_full waits, fun room => ⟨?_, fun taken r rest goesOn hh hs idle => ?_,
    fun taken r rest goesOn hh hs hg hr same counts => ?_⟩⟩
  · rintro rfl
    rw [exec_descriptorEntersRing_done waits hj room]
    rfl
  all_goals
    subst goesOn
    have run := exec_descriptorEntersRing_judges waits hj room hh
  · have job := s.job_entered d (j.placed d)
    have idle' : (j.placed d).cursor.current = none := (j.current_placed d).trans idle
    refine ⟨fun b part last payload capture body within others => ?_,
      fun o inPlate other awaited hr empty within lowest ends => ?_, fun origin body within others waits => ?_⟩
    · have ended := Job.placed_ended within others
      rw [State.actOn_fragment hs body, State.judgeFragment_lowest job idle' ended rfl] at run
      refine ⟨fun gone => ?_, fun other awaited clean zero => ?_⟩
      · rw [run, State.judgeBand_discards job (Job.placed_gone within gone),
          State.discardHead_of (u := s.entered d _) hh]
        rfl
      · rw [← Job.band_placed_other other] at awaited
        rw [State.judgeBand_begins job awaited clean zero] at run
        refine ⟨fun x pool hp => ?_, fun hp => ?_⟩
        · rw [run, State.beginBand_of (u := s.entered d _) job hp, State.bandBegun_entered]
          rfl
        · rw [run, State.beginBand_waits (u := s.entered d _) hp]
          rfl
    · intro next
      have next_eq : next = s.waitsNext d (j.placed d) o taken := rfl
      have run_next := exec_waitsNext (d := d) (k := j.placed d) (o := o) (taken := taken) hh empty
      obtain ⟨waitsOn, goesOn⟩ := State.actOn_endsNext (u := s.entered d (j.placed d)) hs job hr rfl idle' empty
        (by rwa [Job.length_placed]) (by rwa [Job.band_placed_other other]) (Job.placed_ended within lowest)
        (Job.endsNext_placed ends)
      rw [next_eq, run]
      refine ⟨fun full => ?_, fun room => ?_⟩
      · rw [waitsOn full]
        exact congrArg _ (State.gapHeld_entered empty)
      · rw [goesOn room, run_next room]
    · have ended := Job.placed_ended within others
      rw [← j.length_placed d] at ended
      rw [run, State.actOn_endMarker hs body, State.judgeEnd_ordered job idle' ended rfl,
        State.processEnd_waits (u := s.entered d _) hh job (by rwa [Job.length_placed]), State.endProcessed_entered]
      rfl
  · have head : (s.entered d (j.placed d)).headOf r rest (j.placed d) := ⟨hh, hs ▸ s.job_entered d _, hg.symm, hr⟩
    have kind : (s.entered d (j.placed d)).kindFor r = taken := by
      obtain ⟨-, live, -, -⟩ := head
      rw [same, State.kindFor, live]
      cases r.body with
      | fragment band _ _ _ _ => exact j.kind_placed d band
      | endMarker _ => rfl
    rw [run, ← kind]
    exact (exec_takeHeadRecord_zero rfl head counts).symm

end Sys2Proof.Machine
end

section
/-! PROOF of O46: the tone curve between its points, the points of a VALID record, and the curve of a taken band. -/

namespace Sys2Proof.Machine

/-! ## Between two points, rounded down (R132) -/

/-- The value `f` sixteenths of the way from one point to the next. -/
def between (p q f : Nat) : Nat := p + (q - p) * f / 16

theorem between_zero (p q : Nat) : between p q 0 = p := by
  rw [between, Nat.mul_zero, Nat.zero_div, Nat.add_zero]

theorem le_between (p q f : Nat) : p ≤ between p q f := Nat.le_add_right _ _

theorem between_le {p q f : Nat} (pq : p ≤ q) (hf : f ≤ 16) : between p q f ≤ q := by
  have part : (q - p) * f / 16 ≤ q - p :=
    Nat.div_le_of_le_mul (by rw [Nat.mul_comm 16]; exact Nat.mul_le_mul_left _ hf)
  rw [between]
  omega

theorem between_mono (p q : Nat) {f g : Nat} (fg : f ≤ g) : between p q f ≤ between p q g :=
  Nat.add_le_add_left (Nat.div_le_div_right (Nat.mul_le_mul_left _ fg)) p

/-! ## The curve of a separation (R132) -/

section Curve

variable {g : Settings} {sep : Sep} {t u : Nat}

theorem Settings.curveValue_zero (g : Settings) (sep : Sep) : g.curveValue sep 0 = 0 := rfl

theorem Settings.curveValue_full (g : Settings) (sep : Sep) : g.curveValue sep 255 = 255 := rfl

theorem Settings.curveValue_inner (low : 1 ≤ t) (high : t ≤ 254) :
    g.curveValue sep t = between (g.point sep (t / 16)) (g.point sep (t / 16 + 1)) (t % 16) := by
  rw [Settings.curveValue, if_neg (by omega), if_neg (by omega)]
  rfl

/-- The 17 points of a separation run from 0 to 255 and do not decrease. -/
structure Settings.CurveRises (g : Settings) (sep : Sep) : Prop where
  first : g.point sep 0 = 0
  last : g.point sep 16 = 255
  step : ∀ i, i < 16 → g.point sep i ≤ g.point sep (i + 1)

namespace Settings.CurveRises

variable (rises : g.CurveRises sep)
include rises

theorem point_le_point {i k : Nat} (ik : i ≤ k) (hk : k ≤ 16) : g.point sep i ≤ g.point sep k := by
  induction k, ik using Nat.le_induction with
  | base => exact le_rfl
  | succ k _ ih => exact (ih (by omega)).trans (rises.step k (by omega))

/-- Where the first point is 0, tone 0 is no exception. -/
theorem curveValue_eq (ht : t ≤ 254) :
    g.curveValue sep t = between (g.point sep (t / 16)) (g.point sep (t / 16 + 1)) (t % 16) := by
  cases t with
  | zero => exact ((between_zero _ _).trans rises.first).symm
  | succ t => exact curveValue_inner (by omega) ht

theorem point_le_curveValue (ht : t ≤ 254) : g.point sep (t / 16) ≤ g.curveValue sep t :=
  rises.curveValue_eq ht ▸ le_between _ _ _

theorem curveValue_le_point (ht : t ≤ 254) : g.curveValue sep t ≤ g.point sep (t / 16 + 1) :=
  rises.curveValue_eq ht ▸ between_le (rises.step _ (by omega)) (by omega)

/-- Tones between the same two points rise along the remainder; otherwise a point stands between their values. -/
theorem curveValue_mono (tu : t ≤ u) (hu : u ≤ 255) : g.curveValue sep t ≤ g.curveValue sep u := by
  by_cases full : t = 255
  · rw [show u = t by omega]
  have ht : t ≤ 254 := by omega
  by_cases solid : u = 255
  · calc g.curveValue sep t
      _ ≤ g.point sep (t / 16 + 1) := rises.curveValue_le_point ht
      _ ≤ g.point sep 16 := rises.point_le_point (by omega) le_rfl
      _ = g.curveValue sep u := by rw [rises.last, solid, curveValue_full]
  have hu : u ≤ 254 := by omega
  by_cases same : t / 16 = u / 16
  · rw [rises.curveValue_eq ht, rises.curveValue_eq hu, same]
    exact between_mono _ _ (by omega)
  · calc g.curveValue sep t
      _ ≤ g.point sep (t / 16 + 1) := rises.curveValue_le_point ht
      _ ≤ g.point sep (u / 16) := rises.point_le_point (by omega) (by omega)
      _ ≤ g.curveValue sep u := rises.point_le_curveValue hu

end Settings.CurveRises

end Curve

/-! ## The points of a VALID record (R170, R171) -/

theorem Sep.code_lt_four (sep : Sep) : sep.code < 4 := by cases sep <;> decide

theorem firstFailing_eq_none_iff {items : List Item} : firstFailing items = none ↔ ∀ i ∈ items, i.2 = true := by
  simp [firstFailing]

theorem itemCheck_eq_none_iff {reason : BarredReason} {items : List Item} :
    itemCheck reason items = none ↔ ∀ i ∈ items, i.2 = true := by
  rw [itemCheck, Option.map_eq_none_iff, firstFailing_eq_none_iff]

theorem curvePasses_of_imageFailure {m : Mem} (passed : imageFailure m = none) {k : Nat} (hk : k < 4) :
    curvePasses m k = true := by
  rw [imageFailure, Option.or_eq_none_iff, Option.or_eq_none_iff] at passed
  obtain ⟨-, curves, -⟩ := passed
  exact itemCheck_eq_none_iff.mp curves _ (List.mem_map.mpr ⟨k, List.mem_range.mpr hk, rfl⟩)

/-- The curve check of a VALID record has passed for every separation. -/
theorem curvePasses_of_valid {record : List Byte} (valid : recordFailure record = none) {k : Nat} (hk : k < 4) :
    curvePasses (imageOf record) k = true := by
  rw [recordFailure, Option.or_eq_none_iff] at valid
  obtain ⟨-, passed⟩ := valid
  exact curvePasses_of_imageFailure passed hk

theorem point_settingsOf (m : Mem) (sep : Sep) {i : Nat} (hi : i < 17) :
    (settingsOf m).point sep i = field8 m (curveOffset sep.code + i) := by
  simp [Settings.point, settingsOf, List.getD_eq_getElem?_getD, sep.code_lt_four, hi]

theorem curvePasses_iff (m : Mem) (sep : Sep) :
    curvePasses m sep.code = true ↔ (settingsOf m).CurveRises sep := by
  have point {i : Nat} (hi : i < 17) := point_settingsOf m sep hi
  rw [curvePasses]
  simp only [Bool.and_eq_true, beq_iff_eq, List.all_eq_true, List.mem_range, decide_eq_true_eq]
  constructor
  · rintro ⟨⟨first, last⟩, step⟩
    refine ⟨(point (by omega)).trans first, (point (by omega)).trans last, fun i hi => ?_⟩
    rw [point (by omega), point (by omega)]
    exact step i hi
  · rintro ⟨first, last, step⟩
    refine ⟨⟨(point (by omega)).symm.trans first, (point (by omega)).symm.trans last⟩, fun i hi => ?_⟩
    rw [← point (by omega), ← point (by omega)]
    exact step i hi

theorem curveRises_of_valid {record : List Byte} (valid : recordFailure record = none) (sep : Sep) :
    (settingsOf (imageOf record)).CurveRises sep :=
  (curvePasses_iff _ sep).mp (curvePasses_of_valid valid sep.code_lt_four)

/-! ## The curve of a taken band (R127, R132) -/

/-- Settles O46: the curve by `between` and the rise of its points, a VALID record by its curve check, and the taken
band by the current band that carries its job's separation. -/
theorem toneCurve : Obligations.ToneCurve := by
  refine ⟨fun g sep => ⟨g.curveValue_zero sep, g.curveValue_full sep, fun first last step => ?_⟩,
    fun record sep valid => ?_, fun s d j b x store idle filled entry live buffer hj store_eq => ?_⟩
  · have rises : g.CurveRises sep := ⟨first, last, step⟩
    refine ⟨fun t low high => ?_, fun t u tu hu => rises.curveValue_mono tu hu⟩
    have value := Settings.curveValue_inner (g := g) (sep := sep) low high
    refine ⟨value, fun whole => ?_, rises.point_le_curveValue high, rises.curveValue_le_point high⟩
    rw [value, whole, between_zero]
  · obtain ⟨first, last, step⟩ := curveRises_of_valid valid sep
    exact ⟨first, last, step⟩
  · refine ⟨_, s.currentOf d j x, exec_screenerTake_entry idle filled entry, ?_, fun l x => ?_⟩
    · rw [State.takeEntry_current live hj store_eq]
      rfl
    · rw [State.takeEntry_current live hj store_eq]
      simp only [ScreenJob.outputAt, State.screenJob, State.currentOf, buffer]
      rfl

end Sys2Proof.Machine
end

section
/-! PROOF of O55: the clears and the mask, the bits of the causes, the attention line and the status byte. -/

namespace Sys2Proof.Machine

variable {s : State} {hi lo : Byte}

/-! ## The commands executed (R145, R176, R178, R180) -/

theorem exec_clearCounters_opens (h : s.opensTo 0x21#8) : exec .clearCounters s = .next s.busyPort.runClearCounters :=
  congrArg _ (State.portCommand_execute (data := []) h rfl)

theorem exec_clearLog_opens (h : s.opensTo 0x23#8) : exec .clearLog s = .next s.busyPort.runClearLog :=
  congrArg _ (State.portCommand_execute (data := []) h rfl)

theorem exec_setMask_opens (h : s.opensTo 0x04#8) :
    exec (.setMask [hi, lo]) s = .next (s.busyPort.runSetMask [hi, lo]) :=
  congrArg _ (State.portCommand_execute h rfl)

theorem exec_clearAttention_opens (h : s.opensTo 0x03#8) :
    exec (.clearAttention [hi, lo]) s = .next (s.busyPort.runClearAttention [hi, lo]) :=
  congrArg _ (State.portCommand_execute h rfl)

/-! ## The attention line and the status byte (R175, R180, R186) -/

/-- The attention line is asserted exactly when a latched cause has its mask bit clear: the word of the unmasked latched
causes has a bit set. -/
theorem Port.attention_iff (p : Port) :
    p.attention = true ↔ ∃ k, k < 16 ∧ p.latch.getLsbD k = true ∧ p.mask.getLsbD k = false := by
  rw [Port.attention, bne_iff_ne, Ne, BitVec.zero_iff_eq_false, not_forall]
  refine exists_congr fun k => ?_
  rw [BitVec.getLsbD_and, BitVec.getLsbD_not]
  simp [and_left_comm]

/-- Each bit of the status byte is its flag, and the bits past the six flags are clear. -/
theorem Port.statusByte_getLsbD (p : Port) {k : Nat} (hk : k < 8) :
    p.statusByte.getLsbD k =
      [p.inputByte.isSome, !p.response.isEmpty, p.ready, p.attention, p.command.isSome, p.refused].getD k false := by
  rw [Port.statusByte, byteOf, BitVec.getLsbD_ofNat, flagWord_testBit, decide_eq_true hk, Bool.true_and]

/-- Settles O55: the commands by their effect on the busy port, the attention line by `Port.attention_iff` and the
status byte bit by bit. -/
theorem clearsAndMask : Obligations.ClearsAndMask := by
  refine ⟨fun s hi lo => ⟨exec_clearCounters_opens, exec_clearLog_opens, exec_setMask_opens, exec_clearAttention_opens⟩,
    rfl, fun p => ⟨p.attention_iff, ?_⟩⟩
  calc (List.range 8).map (fun k => p.statusByte.getLsbD k)
    _ = (List.range 8).map fun k =>
          [p.inputByte.isSome, !p.response.isEmpty, p.ready, p.attention, p.command.isSome, p.refused].getD k false :=
        List.map_congr_left fun k hk => p.statusByte_getLsbD (List.mem_range.mp hk)
    _ = _ := rfl

end Sys2Proof.Machine
end

section
/-! PROOF of O2. Every arm of `exec` answers a next state, and what it leaves of the waiting commands is said by the
lemmas of Laws/Keeps.lean. -/

namespace Sys2Proof.Machine

theorem Keeps.pending_eq {s t : State} (k : Keeps s t) : t.pending = s.pending := by
  obtain ⟨pending, -⟩ := k
  exact pending

/-- Every command has a next state, and the commands that wait behind it wait there still. -/
theorem exec_next_pending (c : Instr) (s : State) : ∃ t : State, exec c s = .next t ∧ t.pending = s.pending := by
  have counted (corrected : Nat) : (s.countCorrected corrected).pending = s.pending :=
    (s.countCorrected_keeps corrected).pending_eq
  cases c <;> refine ⟨_, rfl, ?_⟩
  case reset => rfl
  case configurationReadDone record =>
    split
    · exact (s.takeChecks_keeps _ _).1
    · rfl
  case loadingEnded corrected =>
    split
    · exact (State.leaveLoading_keeps _ _).1.trans ((State.loadBlocks_keeps _).1.trans (counted corrected))
    · exact counted corrected
  case rollTimerExpiry =>
    split
    · exact ((s.advanceTo_keeps _).trans ((State.queueRoll_keeps _).trans (State.setRoll_keeps _ _))).pending_eq
    · rfl
  case joinPeriodExpiry =>
    split
    · split
      · exact ((s.advanceTo_keeps _).trans ((State.setRoll_keeps _ _).trans (State.enter_keeps _ _))).pending_eq
      · rfl
    · rfl
  case partDecoded corrected =>
    split
    case h_1 => exact (State.partDecoded_keeps _).1.trans (counted corrected)
    all_goals exact counted corrected
  case bandFinished corrected =>
    split
    · exact (State.bandFinished_keeps _ _).1.trans (counted corrected)
    · exact counted corrected
  case dataByteTaken =>
    split
    · exact (State.takeDataByte_keeps s.clearInput _).1
    all_goals rfl
  case unknownCommand | readStatus | readAttention | readJob | readBandMap | readDamage | readBoard | findBoard |
      readPeer | readLog | readSetting | readCounters | clearCounters | clearLog | setMask | clearAttention | release |
      drop | drain | resume | resetStation =>
    exact (s.portCommand_keeps _ _).1
  all_goals exact Keeps.pending_eq (by (repeat' split) <;> simp [Keeps])

/-- Settles O2. -/
theorem everyStepGoesOn : Obligations.EveryStepGoesOn := ⟨exec_next_pending, fun _ idle => step_idle idle⟩

end Sys2Proof.Machine
end

section
/-! The Imager's ejects and faults by the words of the statements, and PROOF of O47: LOADED in every state of the
Imager. -/

namespace Sys2Proof.Machine

variable {s : State}

/-! ## Ejects and faults (R159, R160) -/

theorem State.issueEject_eq (s : State) (d : Disposition) : s.issueEject d = { s with imager := s.ejecting d } := rfl

theorem State.recordFault_eq (s : State) (f : ImagerFault) :
    s.recordFault f = { s with
      imager := { s.imager with pendingFault := s.imager.pendingFault.or (some f), lastFault := some f }
      port := s.port.counted .imagerFaults } := rfl

theorem State.scrapForFault_eq (s : State) (f : ImagerFault) :
    s.scrapForFault f = { s with
      imager := { s.ejecting .scrap with
        pendingFault := s.imager.pendingFault.or (some f), lastFault := some f }
      port := s.port.counted .imagerFaults } := rfl

/-! ## LOADED in LOADING (R154, R158, R164, R166) -/

theorem exec_loaded_loading (h : s.imager.state = .loading) : exec .loaded s = .next s.plateLoaded :=
  congrArg Host.Outcome.next (if_pos h)

/-- LOADED is ignored where no plate is awaited (R167). -/
theorem exec_loaded_ignored (h : s.imager.state ≠ .loading) :
    exec .loaded s = .next (if s.running = true then { s with port := s.port.counted .lineIgnored } else s) :=
  congrArg Host.Outcome.next (if_neg h)

theorem State.plateLoaded_wanted (noDisposal : s.imager.disposal = none) (noCancel : s.imager.pendingCancel = none) :
    s.plateLoaded = s.enterImaging := by
  simp only [State.plateLoaded, noDisposal, noCancel]

theorem State.plateLoaded_cancelled {r : CancelReason} (noDisposal : s.imager.disposal = none)
    (cancel : s.imager.pendingCancel = some r) : s.plateLoaded = s.issueEject .returned := by
  simp only [State.plateLoaded, noDisposal, cancel]

theorem State.plateLoaded_rejoin (h : s.imager.disposal = some .rejoin) : s.plateLoaded = s.issueEject .returned := by
  simp only [State.plateLoaded, h]

theorem State.plateLoaded_halt (h : s.imager.disposal = some .halt) : s.plateLoaded = s.issueEject .scrap := by
  simp only [State.plateLoaded, h]

/-- The Imager in IMAGING before swath 0, its drum watch just started (R156, R157). -/
def State.imagingBegun (s : State) : Imager :=
  { s.imager with
    state := .imaging, loadTimer := none, plateRequest := none, nextSwath := some 0, swathInOutput := false
    drum := { running := true, counter := s.settings.windowMax, clocks := 0, indexSeen := false } }

theorem State.enterImaging_headReady (h : s.imager.headReady = true) :
    s.enterImaging = s.setImager s.imagingBegun := if_pos h

theorem State.enterImaging_headLost (h : s.imager.headReady = false) :
    s.enterImaging = (s.setImager s.imagingBegun).scrapForFault .headLost := if_neg (ne_true_of_eq_false h)

/-- Settles O47. -/
theorem loadedOutcomes : Obligations.LoadedOutcomes := by
  refine fun s => ⟨fun loading => ?_, exec_loaded_ignored⟩
  rw [exec_loaded_loading loading]
  refine ⟨fun noDisposal noCancel => ⟨fun ready => ?_, fun lost => ?_⟩, fun r noDisposal cancel => ?_, fun rejoin => ?_,
    fun halt => ?_⟩
  · rw [State.plateLoaded_wanted noDisposal noCancel, State.enterImaging_headReady ready]
    rfl
  · rw [State.plateLoaded_wanted noDisposal noCancel, State.enterImaging_headLost lost, State.scrapForFault_eq]
    rfl
  · rw [State.plateLoaded_cancelled noDisposal cancel, State.issueEject_eq]
  · rw [State.plateLoaded_rejoin rejoin, State.issueEject_eq]
  · rw [State.plateLoaded_halt halt, State.issueEject_eq]

end Sys2Proof.Machine
end

section
/-! PROOF of O49: the drum watch that runs out, and the lines HEAD READY and MEDIA OUT. -/

namespace Sys2Proof.Machine

variable {s : State} {b : Bool}

/-! ## The drum watch runs out (R157) -/

theorem exec_drumLate_running (imaging : s.imager.state = .imaging) (run : s.imager.drum.running = true) :
    exec .drumLate s = .next ((s.elapse s.drumClocks).scrapForFault .drumLate) :=
  congrArg Host.Outcome.next (if_pos ⟨imaging, run⟩)

/-! ## HEAD READY (R158, R162) -/

/-- The station with the line HEAD READY at a level, and no more changed. -/
def State.withHead (s : State) (b : Bool) : State := { s with imager := { s.imager with headReady := b } }

theorem exec_headReady_changed (h : s.imager.headReady = !b) :
    exec (.headReadyChange b) s = .next (s.headChanges b) :=
  congrArg Host.Outcome.next (if_neg (by simp [h]))

/-- The change is judged in JOINING, ACTIVE and DRAINING. -/
theorem State.headChanges_eq (s : State) (b : Bool) :
    s.headChanges b = if s.running = true then (if b = true then (s.withHead b).headBack else (s.withHead b).headLost)
      else s.withHead b := rfl

theorem exec_headLost (running : s.running = true) (ready : s.imager.headReady = true) :
    exec (.headReadyChange false) s = .next (s.withHead false).headLost := by
  rw [exec_headReady_changed ready, State.headChanges_eq, if_pos running, if_neg Bool.false_ne_true]

theorem State.headLost_imaging (h : s.imager.state = .imaging) : s.headLost = s.scrapForFault .headLost := by
  simp only [State.headLost, h]

theorem State.headLost_ejecting (h : s.imager.state = .ejecting) : s.headLost = s.recordFault .headLost := by
  simp only [State.headLost, h]

theorem State.headLost_fault (h : s.imager.state = .fault) :
    s.headLost = s.setImager { s.imager with seenInactive := true } := by
  simp only [State.headLost, h]

theorem State.headLost_idle (h : s.imager.state = .idle) : s.headLost = s := by
  simp only [State.headLost, h]

theorem State.headLost_loading (h : s.imager.state = .loading) : s.headLost = s := by
  simp only [State.headLost, h]

theorem State.headBack_of_not (h : s.imager.state ≠ .fault ∨ s.imager.seenInactive = false) : s.headBack = s := by
  refine if_neg ?_
  rintro ⟨fault, seen⟩
  rcases h with other | unseen
  · exact other fault
  · exact absurd (seen.symm.trans unseen) Bool.noConfusion

theorem State.headChanges_stopped (h : s.running = false) (b : Bool) : s.headChanges b = s.withHead b := by
  rw [State.headChanges_eq, if_neg (ne_true_of_eq_false h)]

/-- In IDLE and LOADING only the line changes, whether it comes or goes. -/
theorem State.headChanges_waiting (h : s.imager.state = .idle ∨ s.imager.state = .loading) (b : Bool) :
    s.headChanges b = s.withHead b := by
  have back : (s.withHead b).headBack = s.withHead b := State.headBack_of_not (.inl (by
    change s.imager.state ≠ .fault
    rcases h with idle | loading
    · simp [idle]
    · simp [loading]))
  have lost : (s.withHead b).headLost = s.withHead b := by
    rcases h with idle | loading
    · exact State.headLost_idle (s := s.withHead b) idle
    · exact State.headLost_loading (s := s.withHead b) loading
  rw [State.headChanges_eq, back, lost, ite_self, ite_self]

/-- HEAD READY asserted again ends nothing but a FAULT that has seen it inactive. -/
theorem State.headChanges_back (h : s.imager.state ≠ .fault ∨ s.imager.seenInactive = false) :
    s.headChanges true = s.withHead true := by
  rw [State.headChanges_eq, if_pos rfl, State.headBack_of_not (s := s.withHead true) h, ite_self]

/-! ## MEDIA OUT (R163, R174) -/

theorem exec_mediaOut_changed (h : s.imager.mediaOut = !b) :
    exec (.mediaOutChange b) s = .next (s.mediaChanges b) :=
  congrArg Host.Outcome.next (if_neg (by simp [h]))

/-- The station with the line MEDIA OUT at a level, and no more changed. -/
def State.withMedia (s : State) (b : Bool) : State := { s with imager := { s.imager with mediaOut := b } }

/-- The change is judged in every station state after LOADING. -/
theorem State.mediaChanges_eq (s : State) (b : Bool) :
    s.mediaChanges b = if s.station.state = .loading then s.withMedia b
      else if b = true then (s.withMedia b).latch .mediaOut else (s.withMedia b).arbitrate := rfl

theorem State.mediaChanges_asserted (s : State) :
    s.mediaChanges true = { s with
      imager := { s.imager with mediaOut := true }
      port := if s.station.state = .loading then s.port else s.port.latched .mediaOut } := by
  rw [State.mediaChanges_eq]
  by_cases loading : s.station.state = .loading
  · rw [if_pos loading, if_pos loading]
    rfl
  · rw [if_neg loading, if_neg loading, if_pos rfl]
    rfl

/-- MEDIA OUT clears where the arbiter has nothing to choose. -/
theorem State.mediaChanges_cleared (h : s.imager.state ≠ .idle ∨ s.running = false ∨
    ∀ n j order, s.job n = some j → j.stage ≠ .ready order) : s.mediaChanges false = s.withMedia false := by
  have nothing : (s.withMedia false).arbitrate = s.withMedia false := by
    rcases h with busy | quiet
    · exact State.arbitrate_of_not (State.mayChoose_false (s := s.withMedia false) (.inl busy))
    · exact State.arbitrate_nothing (s := s.withMedia false) (quiet.imp_right .inr)
  rw [State.mediaChanges_eq, nothing, if_neg Bool.false_ne_true, ite_self]

/-- Settles O49. -/
theorem platesetterLines : Obligations.PlatesetterLines := by
  refine fun s => ⟨fun imaging run => ?_, fun running ready => ⟨fun imaging => ?_, fun ejecting => ?_, fun fault => ?_⟩,
    fun running lost fault seen quiet => ?_, fun b stopped line => ?_, fun b line state => ?_, fun out => ?_,
    fun out quiet => ?_⟩
  · refine ⟨_, exec_drumLate_running imaging run, ?_⟩
    rw [State.scrapForFault_eq]
    exact ⟨rfl, rfl, rfl, rfl, rfl, rfl, rfl⟩
  · rw [exec_headLost running ready, State.headLost_imaging (s := s.withHead false) imaging, State.scrapForFault_eq]
    rfl
  · rw [exec_headLost running ready, State.headLost_ejecting (s := s.withHead false) ejecting, State.recordFault_eq]
    rfl
  · rw [exec_headLost running ready, State.headLost_fault (s := s.withHead false) fault]
    rfl
  · exact (exec_headBack running fault seen lost).trans
      (congrArg Host.Outcome.next (State.arbitrate_nothing (s := s.setImager _) (.inr quiet)))
  · rw [exec_headReady_changed line, State.headChanges_stopped stopped, State.withHead]
  · rw [exec_headReady_changed line]
    rcases state with idle | loading | ⟨rfl, notBack⟩
    · rw [State.headChanges_waiting (.inl idle), State.withHead]
    · rw [State.headChanges_waiting (.inr loading), State.withHead]
    · rw [State.headChanges_back notBack, State.withHead]
  · rw [exec_mediaOut_changed (b := true) out, State.mediaChanges_asserted]
  · rw [exec_mediaOut_changed (b := false) out, State.mediaChanges_cleared quiet, State.withMedia]

end Sys2Proof.Machine
end

section
/-! PROOF of O53: the reads that take no slot, and the codes and count numbers in the order of their lists. -/

namespace Sys2Proof.Machine

variable {s : State} {a b c : Byte}

/-! ## The commands executed (R176 to R178) -/

/-- READ STATUS is executed in LOADING too (R176). -/
theorem exec_readStatus_takes (h : s.takesCommand 0x01#8) :
    exec .readStatus s = .next (s.busyPort.answer s.statusResponse) := by
  have admits : s.clearInput.beginCommand.admitsCommand 0x01#8 = true :=
    (Bool.or_eq_true _ _).mpr (.inr (beq_self_eq_true _))
  have executed : s.clearInput.takeCommandByte 0x01#8 = s.busyPort.runReadStatus := by
    unfold State.takeCommandByte
    simp only [admits]
    rfl
  rw [exec_readStatus, execReadStatus, State.portCommand, if_pos (by exact decide_eq_true h), List.foldl_nil, executed]
  rfl

theorem exec_readAttention_opens (h : s.opensTo 0x02#8) :
    exec .readAttention s = .next (s.busyPort.answer s.port.attentionResponse) :=
  congrArg _ (State.portCommand_execute (data := []) h rfl)

theorem exec_readLog_opens (h : s.opensTo 0x22#8) :
    exec .readLog s = .next (s.busyPort.answer s.damage.log.bytes) :=
  congrArg _ (State.portCommand_execute (data := []) h rfl)

theorem exec_readSetting_opens (h : s.opensTo 0x28#8) :
    exec (.readSetting [a, b, c]) s = .next
      (s.busyPort.answer (s.loader.image.readList (a.toNat * 65536 + nat16 b c) 64)) :=
  congrArg _ (State.portCommand_execute h rfl)

theorem exec_readCounters_opens (h : s.opensTo 0x20#8) :
    exec (.readCounters [a]) s = .next
      (if a.toNat ≤ 20 then s.busyPort.answer (s.port.counterResponse a.toNat) else s.busyPort.refuse) :=
  congrArg _ (State.portCommand_execute h rfl)

/-- READ STATUS with its optional fields written out (R177, R182). -/
theorem State.statusResponse_eq (s : State) :
    s.statusResponse =
      [byteOf s.station.state.code, flagByte s.station.barredReason.isSome,
        byteOf ((s.station.barredReason.map BarredReason.code).getD 0)]
      ++ failingBytes (if s.station.state = .barred then s.loader.failing else none)
      ++ [flagByte s.station.haltRegion.isSome, byteOf ((s.station.haltRegion.map regionCode).getD 0),
          byteOf s.loader.validity.code, flagByte s.station.resumePending, byteOf s.imager.state.code,
          flagByte s.imager.lastFault.isSome, byteOf ((s.imager.lastFault.map ImagerFault.code).getD 0),
          flagByte s.imager.headReady, flagByte s.imager.mediaOut] := by
  simp [State.statusResponse, opt8]

/-- Settles O53. -/
theorem readsAnswer : Obligations.ReadsAnswer := by
  refine ⟨fun s => ⟨fun takes => ?_, fun opens => ?_, fun opens => ?_, fun a b c opens => ?_,
    fun a opens => ⟨fun within => ?_, fun beyond => ?_⟩⟩, rfl, rfl, rfl, rfl, rfl, rfl, rfl, rfl, rfl, rfl, rfl,
    fun _ => rfl, fun _ _ _ _ _ => rfl, rfl⟩
  · rw [exec_readStatus_takes takes, State.busyPort_answer, State.statusResponse_eq]
  · rw [exec_readAttention_opens opens, State.busyPort_answer, Port.attentionResponse]
  · rw [exec_readLog_opens opens, State.busyPort_answer, DamageLog.bytes]
  · rw [exec_readSetting_opens opens, State.busyPort_answer, Mem.readList, nat16]
  · rw [exec_readCounters_opens opens, if_pos within, State.busyPort_answer, Port.counterResponse]
  · rw [exec_readCounters_opens opens, if_neg (by omega), State.busyPort_refuse]

end Sys2Proof.Machine
end

section
/-! PROOF of O5: the checks of a configuration record in their order, the items of each with its bounds, and the
CRC-16. -/

namespace Sys2Proof.Machine

variable {m : Mem} {a k lo hi n : Nat} {items : List Item} {fails : Nat → Prop} {reason : BarredReason}
  {later : Option (BarredReason × Option Nat)}

/-! ## The order of the checks (R171) -/

theorem itemCheck_or_of_failing (h : firstFailing items = some a) :
    (itemCheck reason items).or later = some (reason, some a) := by
  rw [itemCheck, h, Option.map_some, Option.some_or]

theorem itemCheck_or_of_passing (h : firstFailing items = none) : (itemCheck reason items).or later = later := by
  rw [itemCheck, h, Option.map_none, Option.none_or]

theorem plainCheck_or_of_failing {passes : Bool} (h : passes = false) :
    (plainCheck reason passes).or later = some (reason, none) := by
  rw [plainCheck, if_neg (ne_true_of_eq_false h), Option.some_or]

theorem plainCheck_or_of_passing {passes : Bool} (h : passes = true) : (plainCheck reason passes).or later = later := by
  rw [plainCheck, if_pos h, Option.none_or]

/-! ## The first failing item -/

theorem firstFailing_cons (x : Item) (items : List Item) :
    firstFailing (x :: items) = if x.2 = true then firstFailing items else some x.1 := by
  obtain ⟨a, passes⟩ := x
  cases passes <;> rfl

/-- Of items in rising order the first that fails is the least. -/
theorem firstFailing_eq_some_iff (rises : items.Pairwise (·.1 < ·.1)) :
    firstFailing items = some a ↔ (a, false) ∈ items ∧ ∀ c, c < a → (c, false) ∉ items := by
  induction items with
  | nil => simp [firstFailing]
  | cons x items ih =>
    obtain ⟨above, items_rise⟩ := List.pairwise_cons.mp rises
    obtain ⟨b, passes⟩ := x
    rw [firstFailing_cons]
    cases passes with
    | true => simpa using ih items_rise
    | false =>
      simp only [Bool.false_eq_true, if_false, Option.some.injEq, List.mem_cons, Prod.mk.injEq, and_true, not_or]
      constructor
      · rintro rfl
        exact ⟨.inl rfl, fun c below => ⟨below.ne, fun later => absurd (above _ later) below.not_gt⟩⟩
      · rintro ⟨rfl | later, least⟩
        · rfl
        · exact absurd rfl (least b (above _ later)).1

/-- A check whose items rise names the least offset that fails, and passes where none does. -/
theorem firstFailing_first (rises : items.Pairwise (·.1 < ·.1)) (mem : ∀ a, (a, false) ∈ items ↔ fails a) :
    (firstFailing items = none ↔ ∀ a, ¬ fails a) ∧
      ∀ a, firstFailing items = some a ↔ fails a ∧ ∀ c, c < a → ¬ fails c := by
  simp only [← mem]
  refine ⟨?_, fun a => firstFailing_eq_some_iff rises⟩
  rw [firstFailing_eq_none_iff]
  constructor
  · exact fun passes a failing => Bool.false_ne_true (passes _ failing)
  · rintro passing ⟨a, passes⟩ item
    cases passes with
    | true => rfl
    | false => exact absurd item (passing a)

theorem mem_map_range {f : Nat → Nat} {p : Nat → Bool} :
    (a, false) ∈ (List.range n).map (fun k => (f k, p k)) ↔ ∃ k, k < n ∧ a = f k ∧ p k = false := by
  simp only [List.mem_map, List.mem_range, Prod.mk.injEq, eq_comm (b := a)]

/-! ## The items and their bounds (R170, R171) -/

/-- A number outside its bounds. -/
def outside (lo hi n : Nat) : Prop := n < lo ∨ hi < n

theorem within_eq_false : within lo hi n = false ↔ outside lo hi n := by
  rw [within, Bool.and_eq_false_iff, decide_eq_false_iff_not, decide_eq_false_iff_not, not_le, not_le, outside]

/-- The dimension of a supported size class fails out of its bounds, or where it is no multiple of 32. -/
theorem dimension_eq_false {flag : Nat} :
    (flag == 0 || (within lo hi n && n % 32 == 0)) = false ↔ flag ≠ 0 ∧ (outside lo hi n ∨ n % 32 ≠ 0) := by
  rw [Bool.or_eq_false_iff, Bool.and_eq_false_iff, within_eq_false, beq_eq_false_iff_ne, beq_eq_false_iff_ne]

/-- What fails of size class `k`. -/
def ClassFails (m : Mem) (k a : Nat) : Prop :=
  (a = 9 + 5 * k ∧ outside 0 1 (field8 m a)) ∨
  (a = 10 + 5 * k ∧ field8 m (9 + 5 * k) ≠ 0 ∧ (outside 1024 16384 (m.read16 a) ∨ m.read16 a % 32 ≠ 0)) ∨
  (a = 12 + 5 * k ∧ field8 m (9 + 5 * k) ≠ 0 ∧ (outside 1024 24576 (m.read16 a) ∨ m.read16 a % 32 ≠ 0))

theorem mem_classItems : (a, false) ∈ classItems m k ↔ ClassFails m k a := by
  have width : classOffset k + 1 = 10 + 5 * k := by rw [classOffset]; omega
  have height : classOffset k + 3 = 12 + 5 * k := by rw [classOffset]; omega
  rw [classItems, width, height, ClassFails]
  simp only [List.mem_cons, List.not_mem_nil, or_false, Prod.mk.injEq, Bool.false_eq, within_eq_false,
    dimension_eq_false, classOffset]
  refine or_congr (and_congr_right ?_) (or_congr (and_congr_right ?_) (and_congr_right ?_)) <;>
    exact fun place => by rw [← place]

/-- What fails of the tiles. -/
def TileFails (m : Mem) (a : Nat) : Prop :=
  ∃ t, t < 16 ∧ a = 156 + 65541 * t ∧
    (outside 8 256 (m.read16 a) ∨ outside 8 256 (m.read16 (a + 2)) ∨ m.read16 a ≤ field8 m (a + 4) ∨
      ∃ i, i < m.read16 a * m.read16 (a + 2) ∧ 254 < field8 m (a + 5 + i))

theorem tilePasses_eq_false {t : Nat} (place : a = tileOffset t) :
    tilePasses m t = false ↔
      outside 8 256 (m.read16 a) ∨ outside 8 256 (m.read16 (a + 2)) ∨ m.read16 a ≤ field8 m (a + 4) ∨
        ∃ i, i < m.read16 a * m.read16 (a + 2) ∧ 254 < field8 m (a + 5 + i) := by
  subst place
  simp only [tilePasses, Bool.and_eq_false_iff, within_eq_false, decide_eq_false_iff_not, not_lt, List.all_eq_false,
    List.mem_range, decide_eq_true_iff, not_le, or_assoc]

theorem mem_tileItems :
    (a, false) ∈ (List.range 16).map (fun t => (tileOffset t, tilePasses m t)) ↔ TileFails m a := by
  rw [mem_map_range]
  exact exists_congr fun t => and_congr_right fun _ => and_congr_right tilePasses_eq_false

/-- One-byte items with the same bounds. -/
theorem mem_byteItems {f : Nat → Nat} :
    (a, false) ∈ (List.range n).map (fun k => (f k, within lo hi (field8 m (f k)))) ↔
      ∃ k, k < n ∧ a = f k ∧ outside lo hi (field8 m a) := by
  rw [mem_map_range]
  exact exists_congr fun k => and_congr_right fun _ => and_congr_right fun place => by rw [within_eq_false, place]

/-- One-byte items that stand one after another from `first` on. -/
theorem mem_consecutive {first : Nat} :
    (a, false) ∈ (List.range (n + 1)).map (fun k => (first + k, within lo hi (field8 m (first + k)))) ↔
      first ≤ a ∧ a ≤ first + n ∧ outside lo hi (field8 m a) := by
  rw [mem_byteItems]
  constructor
  · rintro ⟨k, hk, rfl, failing⟩
    exact ⟨by omega, by omega, failing⟩
  · rintro ⟨low, high, failing⟩
    exact ⟨a - first, by omega, by omega, failing⟩

theorem byteItem_fails {c : Nat} :
    (a, false) = (c, within lo hi (field8 m c)) ↔ a = c ∧ outside lo hi (field8 m a) := by
  rw [Prod.mk.injEq, eq_comm (a := false), within_eq_false]
  exact and_congr_right fun place => by rw [place]

theorem wordItem_fails {c : Nat} :
    (a, false) = (c, within lo hi (m.read16 c)) ↔ a = c ∧ outside lo hi (m.read16 a) := by
  rw [Prod.mk.injEq, eq_comm (a := false), within_eq_false]
  exact and_congr_right fun place => by rw [place]

/-- A word has no upper bound but its width. -/
theorem outside_word : outside 1 65535 (m.read16 a) ↔ m.read16 a < 1 := by
  have width : m.read16 a ≤ 65535 := by
    rw [Mem.read16]
    omega
  rw [outside]
  omega

theorem prescalerItem_fails {c : Nat} {powers : List Nat} :
    (a, false) = (c, powers.contains (field8 m c)) ↔ a = c ∧ field8 m a ∉ powers := by
  rw [Prod.mk.injEq, eq_comm (a := false), List.contains_eq_mem, decide_eq_false_iff_not]
  exact and_congr_right fun place => by rw [place]

/-- What fails of the ranges, in the order of R170. -/
def RangeFails (m : Mem) (a : Nat) : Prop :=
  (a = 0 ∧ outside 0 15 (field8 m a)) ∨ (a = 1 ∧ outside 5 500 (m.read16 a)) ∨
  (a = 3 ∧ outside 20 1000 (m.read16 a)) ∨ (a = 5 ∧ outside 3 15 (field8 m a)) ∨
  (a = 6 ∧ outside 12 60 (field8 m a)) ∨ (a = 7 ∧ outside 100 60000 (m.read16 a)) ∨
  (∃ k, k < 4 ∧ ClassFails m k a) ∨
  (97 ≤ a ∧ a ≤ 105 ∧ outside 1 254 (field8 m a)) ∨ (106 ≤ a ∧ a ≤ 110 ∧ outside 0 1 (field8 m a)) ∨
  (a = 111 ∧ outside 0 96 (field8 m a)) ∨ (∃ k, k < 4 ∧ a = 112 + 11 * k ∧ outside 0 1 (field8 m a)) ∨
  TileFails m a ∨ (a = 1048812 ∧ outside 1 60 (field8 m a)) ∨ (a = 1048813 ∧ outside 1 60 (field8 m a)) ∨
  (a = 1048814 ∧ field8 m a ∉ [1, 2, 4, 8, 16, 32, 64, 128]) ∨ (a = 1048815 ∧ m.read16 a < 1) ∨
  (a = 1048817 ∧ m.read16 a < 1) ∨ (a = 1048819 ∧ outside 0 3 (field8 m a))

theorem mem_rangeItems : (a, false) ∈ rangeItems m ↔ RangeFails m a := by
  have tints : 97 ≤ a ∧ a ≤ 105 ∧ outside 1 254 (field8 m a) ↔
      (97 ≤ a ∧ a ≤ 97 + 7 ∧ outside 1 254 (field8 m a)) ∨ (a = 105 ∧ outside 1 254 (field8 m a)) := by
    rw [← and_assoc, ← and_assoc, ← or_and_right]
    exact and_congr_left fun _ => by omega
  simp only [rangeItems, RangeFails, List.mem_append, List.mem_cons, List.not_mem_nil, or_false, byteItem_fails,
    wordItem_fails, prescalerItem_fails, outside_word, List.mem_flatMap, List.mem_range, mem_classItems, mem_tileItems,
    mem_consecutive, mem_byteItems, fillOffset, Config.imagerBase, tints, or_assoc, Nat.reduceAdd]

theorem rangeItems_rise (m : Mem) : (rangeItems m).Pairwise (·.1 < ·.1) := by
  have offsets : (rangeItems m).map (·.1) = (rangeItems []).map (·.1) := by
    simp only [rangeItems, List.map_append, List.map_flatMap, List.map_map, List.map_cons]
    rfl
  have rises : ((rangeItems m).map (·.1)).Pairwise (· < ·) := by
    rw [offsets]
    decide +kernel
  exact List.pairwise_map.mp rises

/-- The items of the four separations rise with their codes. -/
theorem separationItems_rise {first step : Nat} (hs : 0 < step) (p : Nat → Bool) :
    ((List.range n).map fun k => (first + step * k, p k)).Pairwise (·.1 < ·.1) :=
  List.pairwise_map.mpr (List.pairwise_lt_range.imp fun below =>
    Nat.add_lt_add_left (Nat.mul_lt_mul_of_pos_left below hs) first)

/-- What fails of the curves. -/
def CurveFails (m : Mem) (a : Nat) : Prop :=
  ∃ k, k < 4 ∧ a = 29 + 17 * k ∧
    (field8 m a ≠ 0 ∨ field8 m (a + 16) ≠ 255 ∨ ∃ i, i < 16 ∧ field8 m (a + i + 1) < field8 m (a + i))

theorem curvePasses_eq_false (place : a = curveOffset k) :
    curvePasses m k = false ↔
      field8 m a ≠ 0 ∨ field8 m (a + 16) ≠ 255 ∨ ∃ i, i < 16 ∧ field8 m (a + i + 1) < field8 m (a + i) := by
  subst place
  simp only [curvePasses, Bool.and_eq_false_iff, beq_eq_false_iff_ne, List.all_eq_false, List.mem_range,
    decide_eq_true_iff, not_le, or_assoc, Nat.add_zero, Nat.add_assoc]

theorem mem_curveItems : (a, false) ∈ curveItems m ↔ CurveFails m a := by
  rw [curveItems, mem_map_range]
  exact exists_congr fun k => and_congr_right fun _ => and_congr_right curvePasses_eq_false

/-- What fails of the dot floors. -/
def FloorFails (m : Mem) (a : Nat) : Prop := ∃ k, k < 4 ∧ a = 97 + 2 * k ∧ field8 m (a + 1) < field8 m a

theorem mem_floorItems : (a, false) ∈ floorItems m ↔ FloorFails m a := by
  rw [floorItems, mem_map_range]
  refine exists_congr fun k => and_congr_right fun _ => and_congr_right fun place => ?_
  rw [← place, decide_eq_false_iff_not, not_le]

/-- What fails of the fault tint. -/
def TintFails (m : Mem) (a : Nat) : Prop :=
  ∃ k, k < 4 ∧ a = 97 + 2 * k ∧ (∃ i, i < 5 ∧ field8 m (106 + i) = 0) ∧
    field8 m a ≤ field8 m 105 ∧ field8 m 105 ≤ field8 m (a + 1)

theorem someTint_iff : someTint m = true ↔ ∃ i, i < 5 ∧ field8 m (106 + i) = 0 := by
  simp only [someTint, List.any_eq_true, List.mem_range, beq_iff_eq]

theorem mem_tintItems : (a, false) ∈ tintItems m ↔ TintFails m a := by
  rw [tintItems, mem_map_range]
  refine exists_congr fun k => and_congr_right fun _ => and_congr_right fun place => ?_
  rw [← place, Bool.not_eq_false', Bool.and_eq_true, someTint_iff, within, Bool.and_eq_true, decide_eq_true_iff,
    decide_eq_true_iff]

theorem someClass_iff : someClass m = true ↔ ∃ k, k < 4 ∧ field8 m (9 + 5 * k) = 1 := by
  simp only [someClass, classOffset, List.any_eq_true, List.mem_range, beq_iff_eq]

/-! ## The CRC-16 (R189) -/

/-- The checksum is the CRC-16 of the record's bytes before it. -/
theorem checksumPasses_iff (record : List Byte) :
    checksumPasses record = true ↔
      crc16 ((List.range 1048820).map (recordByte record)) =
        half (recordByte record 1048820) (recordByte record 1048821) := by
  rw [checksumPasses, decide_eq_true_iff, Config.checksumBase]

theorem crc16_append (bytes : List Byte) (b : Byte) : crc16 (bytes ++ [b]) = crcByte (crc16 bytes) b := by
  rw [crc16, crc16, List.foldl_append, List.foldl_cons, List.foldl_nil]

theorem crc16_nineDigits :
    crc16 [0x31#8, 0x32#8, 0x33#8, 0x34#8, 0x35#8, 0x36#8, 0x37#8, 0x38#8, 0x39#8] = 0x29B1#16 := by decide +kernel

/-- Settles O5: check after check by the one that decides, the items of each by their rising offsets and the bounds that
they fail, and the CRC-16 byte by byte. -/
theorem checksStopAtTheFirstFailure : Obligations.ChecksStopAtTheFirstFailure := by
  refine ⟨fun record => ⟨plainCheck_or_of_failing, fun passes => ?_⟩, checksumPasses_iff, fun m => ?_,
    rfl, crc16_append, crc16_nineDigits⟩
  · rw [recordFailure, plainCheck_or_of_passing passes]
    generalize imageOf record = m
    rw [imageFailure]
    refine ⟨fun a => itemCheck_or_of_failing, fun ranges => ?_⟩
    rw [itemCheck_or_of_passing ranges]
    refine ⟨fun a => itemCheck_or_of_failing, fun curves => ?_⟩
    rw [itemCheck_or_of_passing curves]
    refine ⟨fun a => itemCheck_or_of_failing, fun floors => ?_⟩
    rw [itemCheck_or_of_passing floors]
    refine ⟨fun a => itemCheck_or_of_failing, fun tints => ?_⟩
    rw [itemCheck_or_of_passing tints]
    refine ⟨plainCheck_or_of_failing, fun classes => ?_⟩
    rw [plainCheck_or_of_passing classes]
    exact ⟨fun closed => if_neg (by exact ne_true_of_eq_false (decide_eq_false (Nat.not_lt.mpr closed))),
      fun opens => if_pos (by exact decide_eq_true opens)⟩
  · exact ⟨firstFailing_first (rangeItems_rise m) fun _ => mem_rangeItems,
      firstFailing_first (separationItems_rise (by decide) _) fun _ => mem_curveItems,
      firstFailing_first (separationItems_rise (by decide) _) fun _ => mem_floorItems,
      firstFailing_first (separationItems_rise (by decide) _) fun _ => mem_tintItems, someClass_iff⟩

end Sys2Proof.Machine
end

section
/-! PROOF of O6: what the image of a record reads at each address, and a record that passes every check. -/

namespace Sys2Proof.Machine

variable {s : State} {record : List Byte} {a n i : Nat}

/-! ## The image of a record (R169, R187) -/

/-- Before the tiles and behind them the image holds the record's bytes. -/
theorem imageOf_read_ends (h : a < 156 ∨ (1048812 ≤ a ∧ a < 1048822)) :
    (imageOf record).read a = recordByte record a := by
  have inside : a < Config.recordSize := by
    simp only [Config.recordSize]
    omega
  have kept : keptByte record a = true := if_pos (h.imp id And.left)
  rw [imageOf_read, if_pos ⟨inside, kept⟩]

/-- Of a tile's 65541 bytes the image keeps the first five, its dimensions and its step, and its values. -/
theorem keptByte_tile (record : List Byte) (hn : n < 16) (hi : i < 65541) :
    keptByte record (tileOffset n + i) = true ↔ i < 5 + recordTileValues record n := by
  have inTiles : ¬ (tileOffset n + i < Config.tileBase ∨ Config.imagerBase ≤ tileOffset n + i) := by
    simp only [tileOffset, Config.tileBase, Config.tilePitch, Config.imagerBase]
    omega
  have place : tileOffset n + i - Config.tileBase = Config.tilePitch * n + i := by
    rw [tileOffset, Nat.add_assoc, Nat.add_sub_cancel_left]
  have tile : (Config.tilePitch * n + i) / Config.tilePitch = n := by
    rw [Nat.mul_add_div (by decide), Nat.div_eq_of_lt (by exact hi), Nat.add_zero]
  have within : (Config.tilePitch * n + i) % Config.tilePitch = i := by
    rw [Nat.mul_add_mod, Nat.mod_eq_of_lt (by exact hi)]
  rw [keptByte, if_neg inTiles, place, tile, within, Bool.or_eq_true, decide_eq_true_iff, decide_eq_true_iff]
  omega

theorem recordTileValues_eq (record : List Byte) (n : Nat) :
    recordTileValues record n =
      nat16 (recordByte record (156 + 65541 * n)) (recordByte record (156 + 65541 * n + 1)) *
        nat16 (recordByte record (158 + 65541 * n)) (recordByte record (158 + 65541 * n + 1)) := by
  have height : tileOffset n + 2 = 158 + 65541 * n := by
    simp only [tileOffset, Config.tileBase, Config.tilePitch]
    omega
  rw [recordTileValues, show tileOffset n + 3 = tileOffset n + 2 + 1 from rfl, height]
  rfl

theorem imageOf_read_tile (record : List Byte) (hn : n < 16) (hi : i < 65541) :
    (imageOf record).read (tileOffset n + i) =
      if i < 5 + recordTileValues record n then recordByte record (tileOffset n + i) else 0x00#8 := by
  have inside : tileOffset n + i < Config.recordSize := by
    simp only [tileOffset, Config.tileBase, Config.tilePitch, Config.recordSize]
    omega
  rw [imageOf_read]
  exact if_congr ((and_iff_right inside).trans (keptByte_tile record hn hi)) rfl rfl

theorem imageOf_read_past (h : 1048822 ≤ a) : (imageOf record).read a = 0x00#8 := by
  rw [imageOf_read, if_neg fun inside => absurd inside.1 (Nat.not_lt.mpr h)]

/-- The digest is taken over six bytes before the tiles (R172). -/
theorem digestOf_imageOf (record : List Byte) :
    digestOf (imageOf record) = crc16 ([1, 2, 3, 4, 5, 6].map (recordByte record)) := by
  have six : (imageOf record).readList 1 6 = (List.range 6).map fun i => recordByte record (1 + i) :=
    List.map_congr_left fun i hi => imageOf_read_head record (by
      have := List.mem_range.mp hi
      simp only [Config.tileBase]
      omega)
  rw [digestOf, six]
  rfl

/-! ## A record that passes every check (R171, R172) -/

theorem exec_configurationReadDone_valid (loading : s.station.state = .loading) (reading : s.loader.phase = .reading)
    (passes : recordFailure record = none) :
    exec (.configurationReadDone record) s = .next
      { s with loader :=
          { phase := .loadingBlocks, validity := .valid, reason := none, failing := none, image := imageOf record,
            digest := some (digestOf (imageOf record)) } } := by
  rw [exec_configurationReadDone, execConfigurationReadDone, if_pos ⟨loading, reading⟩, passes]
  rfl

/-- Settles O6: the record that passes is taken, and the image read at its ends, in its tiles and past it. -/
theorem validRecordBeginsLoading : Obligations.ValidRecordBeginsLoading := by
  refine ⟨fun record s loading reading passes => ?_, fun record a => ⟨imageOf_read_ends, fun n i hn ha => ?_,
    imageOf_read_past⟩⟩
  · rw [exec_configurationReadDone_valid loading reading passes, digestOf_imageOf]
    rfl
  · subst ha
    intro kept
    have values : recordTileValues record n = kept := recordTileValues_eq record n
    have tile (hi : i < 65541) := values ▸ imageOf_read_tile record hn hi
    refine ⟨fun held => ?_, fun beyond hi => (tile hi).trans (if_neg (Nat.not_lt.mpr beyond))⟩
    rcases held with header | ⟨hi, value⟩
    · exact (tile (header.trans (by decide))).trans (if_pos (Nat.lt_add_right kept header))
    · exact (tile hi).trans (if_pos value)

end Sys2Proof.Machine
end

section
/-! PROOF of O9: the settings that stand in an image, and the values of its tiles in the tile store. -/

namespace Sys2Proof.Machine

variable {m image tiles : Mem} {k n i : Nat}

/-! ## The settings of an image (R170, R187) -/

theorem sizeClass_settingsOf (m : Mem) (hk : k < 4) :
    (settingsOf m).sizeClass k =
      { supported := field8 m (9 + 5 * k) == 1, width := m.read16 (10 + 5 * k), height := m.read16 (12 + 5 * k) } := by
  have width : classOffset k + 1 = 10 + 5 * k := by rw [classOffset]; omega
  have height : classOffset k + 3 = 12 + 5 * k := by rw [classOffset]; omega
  simp only [Settings.sizeClass, settingsOf, List.getD_eq_getElem?_getD, List.getElem?_map, List.getElem?_range hk,
    Option.map_some, Option.getD_some, width, height]
  rfl

theorem floors_settingsOf (m : Mem) (hk : k < 4) : (settingsOf m).floors[k]? = some (field8 m (97 + 2 * k)) := by
  simp only [settingsOf, List.getElem?_map, List.getElem?_range hk, Option.map_some, floorOffset]

theorem ceilings_settingsOf (m : Mem) (hk : k < 4) : (settingsOf m).ceilings[k]? = some (field8 m (98 + 2 * k)) := by
  have ceiling : floorOffset k + 1 = 98 + 2 * k := by rw [floorOffset]; omega
  simp only [settingsOf, List.getElem?_map, List.getElem?_range hk, Option.map_some, ceiling]

theorem fills_settingsOf (m : Mem) (hk : k < 4) :
    (settingsOf m).fills[k]? = some
      { enabled := field8 m (112 + 11 * k) == 1, mask := m.readList (113 + 11 * k) 8,
        crc := half (m.read (121 + 11 * k)) (m.read (121 + 11 * k + 1)) } := by
  have mask : fillOffset k + 1 = 113 + 11 * k := by rw [fillOffset]; omega
  have crc : fillOffset k + 9 = 121 + 11 * k := by rw [fillOffset]; omega
  simp only [settingsOf, List.getElem?_map, List.getElem?_range hk, Option.map_some, mask,
    show fillOffset k + 10 = fillOffset k + 9 + 1 from rfl, crc]
  rfl

/-- The five damage actions stand in the order of the codes of their kinds, 1 to 5. -/
theorem action_settingsOf (m : Mem) (kind : DamageKind) :
    (settingsOf m).action kind = if field8 m (105 + kind.code) = 1 then .hold else .tint := by
  cases kind <;> rfl

theorem tile_settingsOf (m : Mem) (hn : n < 16) :
    (settingsOf m).tile n =
      { width := m.read16 (156 + 65541 * n), height := m.read16 (158 + 65541 * n),
        step := field8 m (160 + 65541 * n) } := by
  have width : tileOffset n = 156 + 65541 * n := rfl
  have height : 156 + 65541 * n + 2 = 158 + 65541 * n := by omega
  have step : 156 + 65541 * n + 4 = 160 + 65541 * n := by omega
  simp only [Settings.tile, settingsOf, List.getD_eq_getElem?_getD, List.getElem?_map, List.getElem?_range hn,
    Option.map_some, Option.getD_some, width, height, step]

/-! ## The tile store (R173) -/

/-- The number of values of tile `t` of an image. -/
def tileValues (image : Mem) (t : Nat) : Nat := image.read16 (156 + 65541 * t) * image.read16 (158 + 65541 * t)

/-- The tile loaded stands at its place, and what stands elsewhere is as it was. -/
theorem read_loadTile (wf : tiles.WF) (image : Mem) (t a : Nat) :
    (loadTile image tiles t).read a =
      if t * 65536 ≤ a ∧ a < t * 65536 + tileValues image t
      then image.read (161 + 65541 * t + (a - t * 65536)) else tiles.read a := by
  have values : image.read16 (tileOffset t) * image.read16 (tileOffset t + 2) = tileValues image t := by
    rw [tileValues, show tileOffset t + 2 = 158 + 65541 * t by
      simp only [tileOffset, Config.tileBase, Config.tilePitch]; omega]
    rfl
  have first : tileOffset t + 5 = 161 + 65541 * t := by
    simp only [tileOffset, Config.tileBase, Config.tilePitch]
    omega
  rw [loadTile, values, first, Mem.read_writeList wf, Mem.length_readList]
  refine if_ctx_congr Iff.rfl (fun inside => ?_) fun _ => rfl
  have place : a - t * Config.tileArea < tileValues image t := by
    simp only [Config.tileArea]
    omega
  exact Mem.getD_readList _ _ _ _ place

/-- Tiles that fit their places do not touch each other: each stands in the store as in the image. -/
theorem read_loadTiles (wf : tiles.WF) (fits : ∀ k, k < 16 → tileValues image k ≤ 65536)
    (hi : i < tileValues image n) {j : Nat} (hj : j ≤ 16) (hn : n < j) :
    ((List.range j).foldl (loadTile image) tiles).read (n * 65536 + i) = image.read (161 + 65541 * n + i) := by
  induction j with
  | zero => exact absurd hn (Nat.not_lt_zero n)
  | succ j ih =>
    have loaded : ((List.range j).foldl (loadTile image) tiles).WF := Mem.foldl_wf (fun _ t h => loadTile_wf h t) wf _
    rw [List.range_succ, List.foldl_append, List.foldl_cons, List.foldl_nil, read_loadTile loaded]
    obtain before | rfl := Nat.lt_succ_iff_lt_or_eq.mp hn
    · have below : n * 65536 + i < j * 65536 := by
        have := fits n (by omega)
        omega
      rw [if_neg (by omega), ih (by omega) before]
    · rw [if_pos (by omega), Nat.add_sub_cancel_left]

/-! ## The end of loading (R173) -/

/-- The blocks have the settings of the image, and the tile store its sixteen tiles. -/
theorem exec_loadingEnded_loads {s : State} (loading : s.station.state = .loading)
    (phase : s.loader.phase = .loadingBlocks) (corrected : Nat) :
    ∃ t : State, exec (.loadingEnded corrected) s = .next t ∧ t.settings = settingsOf s.loader.image ∧
      t.frame.tiles = (List.range 16).foldl (loadTile s.loader.image) s.frame.tiles := by
  refine ⟨_, (exec_loadingEnded _ _).trans (execLoadingEnded_of_loading loading phase corrected), ?_⟩
  obtain ⟨-, settings, frame, -⟩ := (s.countCorrected corrected).loadBlocks.leaveLoading_keeps none
  rw [settings, frame]
  exact ⟨rfl, rfl⟩

/-- Settles O9: the settings by those of the image, the tile store tile by tile. -/
theorem loadingEndedWritesTiles : Obligations.LoadingEndedWritesTiles := by
  intro corrected s loading phase canonical
  obtain ⟨-, -, wf, -⟩ := canonical
  obtain ⟨t, run, settings, store⟩ := exec_loadingEnded_loads loading phase corrected
  refine ⟨t, run, ?_⟩
  rw [settings, store]
  exact ⟨rfl, rfl, rfl, rfl, rfl, rfl,
    fun k hk =>
      ⟨sizeClass_settingsOf _ hk, floors_settingsOf _ hk, ceilings_settingsOf _ hk, fills_settingsOf _ hk⟩,
    fun sep i hi => point_settingsOf _ sep hi, rfl, action_settingsOf _, rfl, fun n hn => tile_settingsOf _ hn,
    rfl, rfl, rfl, rfl, rfl, rfl, fun n i hn fits hi => read_loadTiles wf fits hi le_rfl hn⟩

end Sys2Proof.Machine
end

section
/-! PROOF of O52: the input byte and the response, what the port refuses, and commands taken byte by byte. -/

namespace Sys2Proof.Machine

variable {s : State} {code b : Byte} {address : PortAddress} {data got : List Byte} {f : List Byte → Instr} {n : Nat}

/-! ## The input byte and the response (R175, R177) -/

theorem exec_inputByteWrite_empty (h : s.port.inputByte = none) :
    exec (.inputByteWrite address b) s = .next { s with port := { s.port with inputByte := some (address, b) } } := by
  rw [exec_inputByteWrite, execInputByteWrite, State.writeInput, h]
  rfl

theorem exec_inputByteWrite_full (h : s.port.inputByte ≠ none) :
    exec (.inputByteWrite address b) s = .next { s with port := s.port.counted .overrun } := by
  obtain ⟨held, h⟩ := Option.ne_none_iff_exists'.mp h
  rw [exec_inputByteWrite, execInputByteWrite, State.writeInput, h]
  rfl

/-- The port takes a data byte that the input byte holds. -/
theorem exec_dataByteTaken_data (h : s.port.inputByte = some (.data, b)) :
    exec .dataByteTaken s = .next (s.clearInput.takeDataByte b) := by
  rw [exec_dataByteTaken, execDataByteTaken, h]

theorem State.takeDataByte_stray (h : s.port.command = none) (b : Byte) : s.takeDataByte b = s.raise .strayData := by
  rw [State.takeDataByte, h]

theorem exec_dataRead_cons {r : Byte} {rest : List Byte} (h : s.port.response = r :: rest) :
    exec .dataRead s = .next { s with port := { s.port with response := rest, lastRead := r } } := by
  rw [exec_dataRead, execDataRead, State.readData, h]
  rfl

theorem exec_dataRead_nil (h : s.port.response = []) :
    exec .dataRead s = .next { s with port := { s.port with lastRead := 0x00#8 } } := by
  have unchanged : { s.port with response := [], lastRead := 0x00#8 } = { s.port with lastRead := 0x00#8 } := by
    rw [← h]
  rw [exec_dataRead, execDataRead, State.readData, h, ← unchanged]
  rfl

/-! ## Commands refused (R176) -/

theorem State.raiseBy_raiseBy (s : State) (c : Count) (j k : Nat) :
    (s.raiseBy c j).raiseBy c k = s.raiseBy c (j + k) := by
  have saturates (limit n : Nat) : saturate limit (saturate limit n j) k = saturate limit n (j + k) := by
    simp only [saturate]
    omega
  simp [State.raiseBy, State.setPort, saturates]

/-- With no command pending every data byte is stray. -/
theorem State.foldl_takeDataByte_stray (h : s.port.command = none) (b : Byte) (data : List Byte) :
    (b :: data).foldl State.takeDataByte s = s.raiseBy .strayData (data.length + 1) := by
  induction data generalizing s b with
  | nil => exact State.takeDataByte_stray h b
  | cons c data ih =>
    rw [List.foldl_cons, State.takeDataByte_stray h, ih (s := s.raise .strayData) h, State.raise, State.raiseBy_raiseBy,
      List.length_cons, Nat.add_comm 1]

/-- A byte that names no command is refused, and in LOADING so is every command but READ STATUS. -/
theorem State.takeCommandByte_refused (h : commandData code = none ∨ (s.station.state = .loading ∧ code ≠ 0x01#8)) :
    s.takeCommandByte code = s.beginCommand.refuse := by
  unfold State.takeCommandByte
  cases known : commandData code with
  | none => rfl
  | some n =>
    obtain ⟨loading, other⟩ := h.resolve_left (by simp [known])
    have closed : s.beginCommand.admitsCommand code = false := by
      simp [State.admitsCommand, State.beginCommand, State.setPort, loading, other]
    exact if_pos closed

theorem State.portCommand_refused (takes : s.takesCommand code)
    (h : commandData code = none ∨ (s.station.state = .loading ∧ code ≠ 0x01#8)) (data : List Byte) :
    s.portCommand code data = data.foldl State.takeDataByte s.turnedAway := by
  rw [State.portCommand, if_pos (by exact decide_eq_true takes), State.takeCommandByte_refused (s := s.clearInput) h]
  rfl

/-- The data bytes of a refused command are stray. -/
theorem State.portCommand_refused_data (takes : s.takesCommand code)
    (h : commandData code = none ∨ (s.station.state = .loading ∧ code ≠ 0x01#8)) (given : data ≠ []) :
    s.portCommand code data =
      { s.turnedAway with port := s.turnedAway.port.countedBy .strayData data.length } := by
  obtain ⟨b, rest, rfl⟩ := List.exists_cons_of_ne_nil given
  rw [State.portCommand_refused takes h, State.foldl_takeDataByte_stray rfl]
  rfl

/-! ## Commands taken byte by byte (R175, R176) -/

/-- The instructions `f` are the command of a code that takes `n` data bytes. -/
structure TakesData (code : Byte) (f : List Byte → Instr) (n : Nat) : Prop where
  run : ∀ data s, exec (f data) s = .next (s.portCommand code data)
  count : commandData code = some n

/-- Only READ STATUS has the code 01h, and it takes no data byte. -/
theorem TakesData.code_ne (h : TakesData code f (n + 1)) : code ≠ 0x01#8 := by
  rintro rfl
  exact absurd h.count (by simp [commandData])

theorem TakesData.refused_loading (h : TakesData code f (n + 1)) (loading : s.station.state = .loading)
    (takes : s.takesCommand code) :
    exec (f []) s = .next s.turnedAway ∧
      ∀ data, data ≠ [] →
        exec (f data) s = .next { s.turnedAway with port := s.turnedAway.port.countedBy .strayData data.length } :=
  have refused := Or.inr ⟨loading, h.code_ne⟩
  ⟨(h.run [] s).trans (congrArg _ (State.portCommand_refused takes refused [])),
    fun data given => (h.run data s).trans (congrArg _ (State.portCommand_refused_data takes refused given))⟩

/-- The command byte alone waits for its data. -/
theorem TakesData.exec_nil (h : TakesData code f (n + 1)) (opens : s.opensTo code) :
    exec (f []) s = .next (s.awaiting code []) := by
  obtain ⟨takes, outside⟩ := opens
  have admits : s.clearInput.beginCommand.admitsCommand code = true :=
    (Bool.or_eq_true _ _).mpr (.inl (decide_eq_true outside))
  rw [h.run, State.portCommand, if_pos (by exact decide_eq_true takes), List.foldl_nil]
  unfold State.takeCommandByte
  simp only [h.count, admits]
  rfl

/-- With all its data bytes the command is executed. -/
theorem TakesData.exec_all (h : TakesData code f n) (opens : s.opensTo code) (whole : data.length = n) :
    exec (f data) s = .next (s.busyPort.execute code data) :=
  (h.run data s).trans (congrArg _ (State.portCommand_execute opens (whole ▸ h.count)))

/-- A data byte written to the empty input byte of a port that awaits it, and then taken. -/
theorem State.awaiting_takes (s : State) (code : Byte) (got : List Byte) (b : Byte) :
    ∃ u : State, exec (.inputByteWrite .data b) (s.awaiting code got) = .next u ∧
      exec .dataByteTaken u = .next ((s.awaiting code got).takeDataByte b) :=
  ⟨_, exec_inputByteWrite_empty (s := s.awaiting code got) rfl, exec_dataByteTaken_data rfl⟩

/-- Every data byte but the last is collected. -/
theorem TakesData.collects (h : TakesData code f n) (more : got.length + 1 < n) (s : State) (b : Byte) :
    ∃ u : State, exec (.inputByteWrite .data b) (s.awaiting code got) = .next u ∧
      exec .dataByteTaken u = .next (s.awaiting code (got ++ [b])) := by
  have taken := s.awaiting_takes code got b
  rwa [State.takeDataByte_awaiting, h.count, Option.getD_some, if_pos more] at taken

/-- The last data byte executes the command. -/
theorem TakesData.completes (h : TakesData code f (got.length + 1)) (opens : s.opensTo code) (b : Byte) :
    ∃ u : State, exec (.inputByteWrite .data b) (s.awaiting code got) = .next u ∧
      exec .dataByteTaken u = exec (f (got ++ [b])) s := by
  have taken := s.awaiting_takes code got b
  rwa [State.takeDataByte_awaiting, h.count, Option.getD_some, if_neg (lt_irrefl _),
    ← h.exec_all opens (List.length_append (bs := [b]))] at taken

/-- Settles O52: each command of the port by the row of the table that it is, and by the number of its data bytes. -/
theorem portTakesBytes : Obligations.PortTakesBytes := by
  refine ⟨fun s address b => ⟨exec_inputByteWrite_empty, exec_inputByteWrite_full, fun held idle => ?_,
    fun r rest => exec_dataRead_cons, exec_dataRead_nil, fun code unknown takes => ?_⟩,
    fun s loading => ⟨fun code c row takes => ?_, fun code f row takes => ?_⟩,
    fun s code f b1 b2 b3 opens => ⟨fun row => ?_, fun row => ?_, fun row => ?_⟩⟩
  · rw [exec_dataByteTaken_data held, State.takeDataByte_stray (s := s.clearInput) idle]
    rfl
  · exact congrArg _ (State.portCommand_refused takes (.inl unknown) [])
  · have ⟨run, other⟩ : exec c s = .next (s.portCommand code []) ∧ code ≠ 0x01#8 := by
      fin_cases row <;> exact ⟨rfl, by decide⟩
    exact run.trans (congrArg _ (State.portCommand_refused takes (.inr ⟨loading, other⟩) []))
  · have ⟨n, command⟩ : ∃ n, TakesData code f (n + 1) := by
      fin_cases row <;> exact ⟨_, fun _ _ => rfl, rfl⟩
    exact command.refused_loading loading takes
  · have command : TakesData code f 1 := by fin_cases row <;> exact ⟨fun _ _ => rfl, rfl⟩
    exact ⟨command.exec_nil opens, command.completes (got := []) opens b1⟩
  · have command : TakesData code f 2 := by fin_cases row <;> exact ⟨fun _ _ => rfl, rfl⟩
    exact ⟨command.exec_nil opens, command.collects (got := []) (by simp) s b1,
      command.completes (got := [b1]) opens b2⟩
  · have command : TakesData code f 3 := by fin_cases row <;> exact ⟨fun _ _ => rfl, rfl⟩
    exact ⟨command.exec_nil opens, command.collects (got := []) (by simp) s b1,
      command.collects (got := [b1]) (by simp) s b2, command.completes (got := [b1, b2]) opens b3⟩

end Sys2Proof.Machine
end

section
/-! PROOF of O39: the length bytes of a run code come first, and the rest of it is read by its kind. -/

namespace Sys2Proof.Machine

variable {c hi lo : Byte} {n : Nat} {head : List Byte}

/-- A length in the length field stands in the code byte alone. -/
theorem readRun_field (h : c.toNat % 32 < 31) (rest : List Byte) :
    readRun (c :: rest) = codeRun (c.toNat / 32) (c.toNat % 32 + 1) rest := by
  rw [readRun_cons, codeLength_field h]
  rfl

/-- An extended length stands in the two bytes after the code byte. -/
theorem readRun_extended (h : c.toNat % 32 = 31) (long : 32 ≤ hi.toNat * 256 + lo.toNat) (rest : List Byte) :
    readRun (c :: hi :: lo :: rest) = codeRun (c.toNat / 32) (hi.toNat * 256 + lo.toNat) rest := by
  rw [readRun_cons, codeLength_extended h, if_pos long]
  rfl

/-- `head` is a code byte and its length bytes, and `n` is the length they give (R113, R115, R185). -/
def IsCodeHead (c hi lo : Byte) (n : Nat) (head : List Byte) : Prop :=
  (c.toNat % 32 < 31 ∧ n = c.toNat % 32 + 1 ∧ head = [c]) ∨
    (c.toNat % 32 = 31 ∧ n = hi.toNat * 256 + lo.toNat ∧ 32 ≤ n ∧ head = [c, hi, lo])

/-- After the length bytes, the kind alone says how the code goes on. -/
theorem IsCodeHead.readRun_append (h : IsCodeHead c hi lo n head) (rest : List Byte) :
    readRun (head ++ rest) = codeRun (c.toNat / 32) n rest := by
  obtain ⟨field, rfl, rfl⟩ | ⟨extended, rfl, long, rfl⟩ := h
  · exact readRun_field field rest
  · exact readRun_extended extended long rest

/-- A TONE LIST takes as many tone bytes as its length says and leaves those after them. -/
theorem codeRun_toneList (tones rest : List Byte) :
    codeRun 3 tones.length (tones ++ rest) = some (.toneList tones, tones.length, rest) := by
  have enough : tones.length ≤ (tones ++ rest).length := by simp
  refine (if_pos enough).trans ?_
  rw [List.take_left, List.drop_left]

/-- Settles O39: a code of each kind by its length bytes, then by the bytes its kind takes. -/
theorem runCodeLayout : Obligations.RunCodeLayout := by
  refine ⟨fun c rest invalid => readRun_eq_none fun n after _ => codeRun_invalid invalid n after,
    fun c hi lo rest n head layout => ?_,
    IsCodeHead.readRun_append (hi := 0x00#8) (lo := 0xC8#8) (.inr ⟨rfl, rfl, by decide, rfl⟩) [0x80#8]⟩
  have read : ∀ after, readRun (head ++ after) = codeRun (c.toNat / 32) n after :=
    IsCodeHead.readRun_append layout
  refine ⟨fun blank => ?_, fun solid => ?_, fun toneRun tone => ?_, fun toneList tones whole => ?_, fun copyAbove => ?_⟩
  · rw [read, blank, codeRun]
  · rw [read, solid, codeRun]
  · rw [read, toneRun, codeRun]
  · subst whole
    rw [List.append_assoc, read, toneList, codeRun_toneList]
  · rw [read, copyAbove, codeRun]

end Sys2Proof.Machine
end

section
/-! PROOF of O1: the state with the rest of the queue differs in the field `pending` alone. -/

namespace Sys2Proof.Machine

/-- Settles O1: by `step_front`, where setting the queue is the record update that the statement writes. -/
theorem stepRunsFrontCommand : Obligations.StepRunsFrontCommand := by
  intro c rest s front
  calc step s = exec c (s.setPending rest) := step_front front
    _ = exec c { s with pending := rest } := rfl

end Sys2Proof.Machine
end
